-- ==== Sys2Proof/Word.lean ====
section
/-! DEFINITION. The word types of the Z877 and the one sparse map in which every sparse part of the state is held. -/

namespace Sys2Proof

/-- One byte of memory or scratchpad. -/
abbrev Byte := BitVec 8

/-- One 32-bit register element (R78). -/
abbrev Word := BitVec 32

/-- A 64-bit value: a register pair, a global virtual address, a descriptor word. -/
abbrev DWord := BitVec 64

/-- A set of lanes of one group, bit `L` for lane `L`. -/
abbrev Mask := BitVec 32

/-- A sparse map: keys strictly rising, and no value equal to the default that an unlisted key reads as. -/
abbrev SMap (α : Type) := List (Nat × α)

namespace SMap

variable {α : Type}

/-- The value at key `a`; an unlisted key reads as `dflt`. -/
def get (dflt : α) : SMap α → Nat → α
  | [], _ => dflt
  | (k, v) :: r, a => if a = k then v else get dflt r a

/-- The map without key `a`. -/
def erase (m : SMap α) (a : Nat) : SMap α := m.filter fun x => x.1 != a

/-- The map with `v` entered at key `a`, before the greater keys. -/
def insert : SMap α → Nat → α → SMap α
  | [], a, v => [(a, v)]
  | (k, w) :: r, a, v => if a < k then (a, v) :: (k, w) :: r else (k, w) :: insert r a v

/-- Write `v` at key `a`; writing the default removes the entry, so that equal maps are equal lists. -/
def set [DecidableEq α] (dflt : α) (m : SMap α) (a : Nat) (v : α) : SMap α :=
  if v = dflt then m.erase a else SMap.insert (m.erase a) a v

/-- Every key of the map is at least `lo`, keys rise strictly, and no value is the default. -/
def wfFrom [DecidableEq α] (dflt : α) : Nat → SMap α → Bool
  | _, [] => true
  | lo, (k, v) :: r => decide (lo ≤ k) && decide (v ≠ dflt) && wfFrom dflt (k + 1) r

/-- The canonical form. -/
def wf [DecidableEq α] (dflt : α) (m : SMap α) : Bool := wfFrom dflt 0 m

end SMap

/-- The lane numbers of a group in ascending order. -/
def laneList : List Nat := List.range 32

/-- Is lane `l` in the set? -/
def Mask.has (m : Mask) (l : Nat) : Bool := m.getLsbD l

/-- The set holding one lane. -/
def Mask.single (l : Nat) : Mask := 1#32 <<< l

/-- The lanes of the set in ascending order. -/
def Mask.lanes (m : Mask) : List Nat := laneList.filter fun l => m.getLsbD l

/-- The lowest lane of the set, if there is one. -/
def Mask.lowest (m : Mask) : Option Nat := m.lanes.head?

/-- The set of the lanes for which `p` holds. -/
def Mask.ofPred (p : Nat → Bool) : Mask :=
  laneList.foldl (fun m l => if p l then m ||| Mask.single l else m) 0#32

/-- Two words as one 64-bit value, the first in the low half (R78). -/
def pairOf (lo hi : Word) : DWord := hi ++ lo

/-- The low half of a 64-bit value. -/
def loHalf (x : DWord) : Word := x.extractLsb' 0 32

/-- The high half of a 64-bit value. -/
def hiHalf (x : DWord) : Word := x.extractLsb' 32 32

end Sys2Proof
end

