-- ==== Sys2Proof/Syntax.lean ====
section
/-! DEFINITION. The whole instruction syntax: one constructor of `Instr` per row of the opcode table (R115 and the
instruction reference), the operand records that several rows share, and the operands of the device, firmware and host
events that the table lists after the instructions. -/

namespace Sys2Proof

/-- A guard: predicate number and the negation bit (R100). -/
structure Guard where
  p : BitVec 3
  neg : Bool
deriving DecidableEq, Repr

/-- The TYPE codes of R102, in code order. -/
inductive Ty where
  | b32 | s32 | n32 | f32 | b64 | s64 | n64 | f64
  | f16x2 | bf16x2 | e4m3x4 | e5m2x4 | s8x4 | n8x4 | tp8x4 | s16x2
deriving DecidableEq, Repr

/-- A vector register field as encoded: ten bits (R100); `Instr.errs` asks that it is below 640 (R105). -/
abbrev VR := BitVec 10

/-- The second operand: a register, a 10-bit immediate (BIMM), an I32 or an I64 immediate (R101, R103, R104). -/
inductive Src where
  | reg (r : VR)
  | imm10 (i : BitVec 10)
  | imm32 (i : BitVec 32)
  | imm64 (i : BitVec 64)
deriving DecidableEq, Repr

/-- The byte offset of a memory operand: none, ten bits under BIMM, or IMM32 (R409, R470). -/
inductive MOff where
  | none
  | b10 (i : BitVec 10)
  | i32 (i : BitVec 32)
deriving DecidableEq, Repr

/-- A branch offset in 4-byte units: OFF20 in the 64-bit form, IMM32 in the 96-bit form (R370). -/
inductive BrOff where
  | off20 (o : BitVec 20)
  | off32 (o : BitVec 32)
deriving DecidableEq, Repr

structure IntOp where
  g : Guard
  ty : Ty
  sat : Bool
  hi : Bool
  d : VR
  a : VR
  b : Src
deriving DecidableEq, Repr

structure AbsOp where
  g : Guard
  ty : Ty
  sat : Bool
  d : VR
  a : VR
deriving DecidableEq, Repr

/-- IMAD: with `c = none` the addend is the old destination (R404). -/
structure MadOp where
  g : Guard
  ty : Ty
  sat : Bool
  d : VR
  a : VR
  b : VR
  c : Option VR
deriving DecidableEq, Repr

structure CmpOp where
  g : Guard
  ty : Ty
  cc : BitVec 3
  p : BitVec 10
  a : VR
  b : Src
deriving DecidableEq, Repr

structure LeaOp where
  g : Guard
  ty : Ty
  sh : BitVec 4
  d : VR
  a : VR
  b : Src
deriving DecidableEq, Repr

/-- AFF, AND, OR, XOR, SHL, SHR, SHFL, LSEND, BFX: destination, source, general second operand. -/
structure BinOp where
  g : Guard
  ty : Ty
  d : VR
  a : VR
  b : Src
deriving DecidableEq, Repr

structure RotOp where
  g : Guard
  ty : Ty
  right : Bool
  d : VR
  a : VR
  b : Src
deriving DecidableEq, Repr

structure SelOp where
  g : Guard
  ty : Ty
  p : BitVec 3
  d : VR
  a : VR
  b : Src
deriving DecidableEq, Repr

structure MovOp where
  g : Guard
  ty : Ty
  d : VR
  b : Src
deriving DecidableEq, Repr

structure CvtOp where
  g : Guard
  sat : Bool
  rmode : BitVec 3
  sty : Ty
  ty : Ty
  d : VR
  a : VR
  ix : VR
deriving DecidableEq, Repr

structure UnOp where
  g : Guard
  ty : Ty
  d : VR
  a : VR
deriving DecidableEq, Repr

/-- ILV. -/
structure IlvOp where
  g : Guard
  ty : Ty
  d : VR
  a : VR
  b : VR
deriving DecidableEq, Repr

/-- BFI: insert `a` into base `c` under the control word `ctl` (R367). -/
structure BfiOp where
  g : Guard
  ty : Ty
  d : VR
  a : VR
  c : VR
  ctl : Src
deriving DecidableEq, Repr

structure PlopOp where
  g : Guard
  d : BitVec 3
  a : BitVec 3
  b : BitVec 3
  c : BitVec 3
  lut : BitVec 8
deriving DecidableEq, Repr

structure FltOp where
  g : Guard
  ty : Ty
  rnd : BitVec 3
  d : VR
  a : VR
  b : Src
deriving DecidableEq, Repr

/-- FFMA: with `c = none` the addend is the old destination (R386). -/
structure FmaOp where
  g : Guard
  ty : Ty
  rnd : BitVec 3
  d : VR
  a : VR
  b : VR
  c : Option VR
deriving DecidableEq, Repr

structure DotOp where
  g : Guard
  ty : Ty
  rnd : BitVec 3
  d : VR
  a : VR
  b : VR
deriving DecidableEq, Repr

structure RndOp where
  g : Guard
  ty : Ty
  rnd : BitVec 3
  d : VR
  a : VR
deriving DecidableEq, Repr

structure TransOp where
  g : Guard
  la : BitVec 4
  ty : Ty
  d : VR
  a : VR
deriving DecidableEq, Repr

/-- VOTE into a predicate (R483): both fields are predicate numbers. -/
structure VoteOp where
  g : Guard
  p : BitVec 10
  a : BitVec 10
deriving DecidableEq, Repr

structure BallotOp where
  g : Guard
  d : VR
  a : BitVec 10
deriving DecidableEq, Repr

structure ScanOp where
  g : Guard
  ty : Ty
  excl : Bool
  d : VR
  a : VR
deriving DecidableEq, Repr

structure MatchAllOp where
  g : Guard
  ty : Ty
  p : BitVec 10
  a : VR
deriving DecidableEq, Repr

structure BrOp where
  g : Guard
  u : Bool
  pri : BitVec 8
  off : BrOff
deriving DecidableEq, Repr

structure BrxOp where
  g : Guard
  u : Bool
  pri : BitVec 8
  a : VR
  off : BitVec 32
deriving DecidableEq, Repr

structure LdOp where
  g : Guard
  la : BitVec 4
  ty : Ty
  sz : BitVec 2
  bcast : Bool
  order : BitVec 3
  scope : BitVec 3
  d : VR
  a : VR
  off : MOff
deriving DecidableEq, Repr

structure LdsOp where
  g : Guard
  la : BitVec 4
  ty : Ty
  sz : BitVec 2
  bcast : Bool
  order : BitVec 3
  scope : BitVec 3
  abs : Bool
  d : VR
  a : VR
  off : MOff
deriving DecidableEq, Repr

structure LdpOp where
  g : Guard
  la : BitVec 4
  ty : Ty
  sz : BitVec 2
  bcast : Bool
  win : BitVec 3
  abs : Bool
  d : VR
  a : VR
  off : MOff
deriving DecidableEq, Repr

structure StOp where
  g : Guard
  ty : Ty
  sz : BitVec 2
  order : BitVec 3
  scope : BitVec 3
  d : VR
  a : VR
  off : MOff
deriving DecidableEq, Repr

structure StsOp where
  g : Guard
  ty : Ty
  sz : BitVec 2
  order : BitVec 3
  scope : BitVec 3
  abs : Bool
  d : VR
  a : VR
  off : MOff
deriving DecidableEq, Repr

structure PrefOp where
  g : Guard
  l1 : Bool
  abs : Bool
  a : VR
  off : MOff
deriving DecidableEq, Repr

/-- ATOM (R358). `v` is the operand; `off = none` is the 64-bit form, otherwise the 96-bit form's OFF16. -/
structure AtomOp where
  g : Guard
  la : BitVec 4
  ty : Ty
  spad : Bool
  order : BitVec 3
  scope : BitVec 3
  d : VR
  a : VR
  v : Src
  off : Option (BitVec 16)
deriving DecidableEq, Repr

/-- ATOM.cas, which exists in the 96-bit form only. -/
structure CasOp where
  g : Guard
  la : BitVec 4
  ty : Ty
  spad : Bool
  order : BitVec 3
  scope : BitVec 3
  d : VR
  a : VR
  b : VR
  c : VR
  off : BitVec 16
deriving DecidableEq, Repr

structure RedOp where
  g : Guard
  ty : Ty
  spad : Bool
  order : BitVec 3
  scope : BitVec 3
  a : VR
  v : Src
  off : Option (BitVec 16)
deriving DecidableEq, Repr

structure FenceOp where
  g : Guard
  scope : BitVec 3
deriving DecidableEq, Repr

structure BarArriveOp where
  g : Guard
  d : VR
  k : BitVec 4
  count : Src
deriving DecidableEq, Repr

structure BarWaitOp where
  g : Guard
  k : BitVec 4
  a : VR
deriving DecidableEq, Repr

structure BarSyncOp where
  g : Guard
  k : BitVec 4
  count : Src
deriving DecidableEq, Repr

structure WaitaOp where
  g : Guard
  ty : Ty
  order : BitVec 3
  scope : BitVec 3
  d : VR
  a : VR
  b : Src
deriving DecidableEq, Repr

structure RdsrOp where
  g : Guard
  d : VR
  sr : BitVec 10
deriving DecidableEq, Repr

structure WrsrOp where
  g : Guard
  sr : BitVec 10
  a : VR
deriving DecidableEq, Repr

structure QpushOp where
  g : Guard
  q : BitVec 10
  a : VR
deriving DecidableEq, Repr

structure QpopOp where
  g : Guard
  la : BitVec 4
  d : VR
  q : BitVec 10
  pp : Option (BitVec 3)
deriving DecidableEq, Repr

structure QpeekOp where
  g : Guard
  d : VR
  q : BitVec 10
  pp : Option (BitVec 3)
deriving DecidableEq, Repr

/-- One vector register operand in A: CPY, RECF, SEGL, SEGQ. -/
structure AOp where
  g : Guard
  a : VR
deriving DecidableEq, Repr

structure PublOp where
  g : Guard
  a : VR
  b : VR
  c : VR
deriving DecidableEq, Repr

structure RecaOp where
  g : Guard
  d : VR
  node : Src
deriving DecidableEq, Repr

structure RecpOp where
  g : Guard
  a : VR
  node : Src
deriving DecidableEq, Repr

structure OwnOp where
  g : Guard
  kind : BitVec 2
  d : VR
  a : VR
deriving DecidableEq, Repr

structure OwnLaunchOp where
  g : Guard
  kind : BitVec 2
  d : VR
  a : VR
  b : VR
deriving DecidableEq, Repr

/-- AWAIT and RSLV. -/
structure DaOp where
  g : Guard
  d : VR
  a : VR
deriving DecidableEq, Repr

structure LnchOp where
  g : Guard
  d : VR
  a : VR
  q : Src
deriving DecidableEq, Repr

/-- An operand field of a stream word: a sequencer register, tile or barrier number as encoded (R277). -/
abbrev SF := BitVec 10

structure MstrOp where
  ty : Ty
  d : SF
  a : SF
  b : SF
  k : BitVec 4
  ebe : Bool
  na : Bool
  nb : Bool
  zc : Bool
  asc : Bool
deriving DecidableEq, Repr

structure TilebOp where
  g : Guard
  a : VR
  b : VR
  coff : BitVec 32
deriving DecidableEq, Repr

structure PathbOp where
  g : Guard
  a : VR
  b : VR
  eo : Bool
  clip : Bool
deriving DecidableEq, Repr

structure SpanpOp where
  g : Guard
  la : BitVec 4
  d : VR
  p : BitVec 3
deriving DecidableEq, Repr

structure BlndOp where
  g : Guard
  a : VR
  b : VR
deriving DecidableEq, Repr

structure TexOp where
  g : Guard
  la : BitVec 4
  d : VR
  a : VR
  b : VR
deriving DecidableEq, Repr

structure TexqOp where
  g : Guard
  d : VR
  a : VR
  b : VR
deriving DecidableEq, Repr

/-! ### Operands of the events -/

/-- Where an uncorrectable error is detected (R271), with what the location names: for a DRAM read its requester's context, for the
host link the contexts with transactions on it (R351). The last is a soft error of a die, which ECC corrects. -/
inductive ErrorSite where
  | dramRead (ctx : Nat)
  | patrolRow (die row : Nat)
  | coreSlice (tid : Nat)
  | cageSlice (tid : Nat)
  | link (a b : Nat)
  | larsaLink (die port : Nat)
  | hostLink (ctxs : List Nat)
  | dieTables (die : Nat)
  | soft (die : Nat)
deriving DecidableEq, Repr

/-- The registers and tables that firmware writes and that have no behaviour of their own (R7, R149, R159, R217, R226,
R238, R259, R344, R350). -/
inductive FwReg where
  | contextEntry (ctx root hva partition : Nat)
  | contextOwnership (ctx obase ocap : Nat)
  | partitionDies (partition : Nat) (dies : List Nat)
  | queueEntry (partition queue ctx header : Nat)
  | queueClear (partition queue : Nat)
  | urgency (partition ticks : Nat)
  | epoch (die ticks : Nat)
  | drainTimeout (die ticks : Nat)
  | islandClock (die island mhz : Nat)
  | islandLimit (die island limit : Nat)
  | islandVoltage (die island mv : Nat)
  | hostWindow (base size : Nat)
  | hostWindowsClear
  | metadataBase (die base : Nat)
  | pte (addr : Nat) (value : BitVec 64)
deriving DecidableEq, Repr

/-- What an image server offers at boot (R347) and what each die reads of it (R348). -/
structure BootImage where
  key : List Byte
  payload : List Byte
  signature : List Byte
  packageNumber : Nat
  temps : List Nat
deriving DecidableEq, Repr

/-- One constructor per row of the opcode table, in the table's order. -/
inductive Instr where
  | nop (g : Guard)
  | iadd (o : IntOp) | isub (o : IntOp) | imul (o : IntOp) | imad (o : MadOp)
  | imin (o : IntOp) | imax (o : IntOp) | iabs (o : AbsOp)
  | icmp (o : CmpOp) | lea (o : LeaOp) | aff (o : BinOp) | sel (o : SelOp) | mov (o : MovOp) | cvt (o : CvtOp)
  | and (o : BinOp) | or (o : BinOp) | xor (o : BinOp) | not (o : UnOp)
  | shl (o : BinOp) | shr (o : BinOp) | rot (o : RotOp) | clz (o : UnOp) | popc (o : UnOp) | brev (o : UnOp)
  | bfx (o : BinOp) | bfi (o : BfiOp) | ilv (o : IlvOp) | dlv (o : UnOp) | plop (o : PlopOp)
  | fadd (o : FltOp) | fmul (o : FltOp) | ffma (o : FmaOp) | fmin (o : FltOp) | fmax (o : FltOp)
  | fcmp (o : CmpOp) | frnd (o : RndOp) | fdot (o : DotOp)
  | frcp (o : TransOp) | frsq (o : TransOp) | fsqrt (o : TransOp) | fexp2 (o : TransOp) | flog2 (o : TransOp)
  | fsin (o : TransOp) | fcos (o : TransOp) | ftanh (o : TransOp)
  | shflIdx (o : BinOp) | shflUp (o : BinOp) | shflDown (o : BinOp) | shflXor (o : BinOp)
  | lsend (o : BinOp)
  | voteAny (o : VoteOp) | voteAll (o : VoteOp) | voteUni (o : VoteOp) | voteBallot (o : BallotOp)
  | redxAdd (o : UnOp) | redxMin (o : UnOp) | redxMax (o : UnOp)
  | redxAnd (o : UnOp) | redxOr (o : UnOp) | redxXor (o : UnOp)
  | scanAdd (o : ScanOp) | scanMin (o : ScanOp) | scanMax (o : ScanOp)
  | scanAnd (o : ScanOp) | scanOr (o : ScanOp) | scanXor (o : ScanOp)
  | matchAny (o : UnOp) | matchAll (o : MatchAllOp)
  | lpart (g : Guard) (n : BitVec 3)
  | bra (o : BrOp) | brx (o : BrxOp) | call (o : BrOp) | ret (g : Guard) (u : Bool) | exit (g : Guard)
  | prio (g : Guard) (n : BitVec 8) | nap (g : Guard) (n : BitVec 10)
  | bkpt (g : Guard) (code : BitVec 16) | trap (g : Guard) (code : BitVec 16)
  | ld (o : LdOp) | st (o : StOp) | lds (o : LdsOp) | sts (o : StsOp) | ldp (o : LdpOp) | pref (o : PrefOp)
  | atomAdd (o : AtomOp) | atomMin (o : AtomOp) | atomMax (o : AtomOp) | atomAnd (o : AtomOp)
  | atomOr (o : AtomOp) | atomXor (o : AtomOp) | atomExch (o : AtomOp) | atomCas (o : CasOp)
  | redAdd (o : RedOp) | redMin (o : RedOp) | redMax (o : RedOp) | redAnd (o : RedOp)
  | redOr (o : RedOp) | redXor (o : RedOp)
  | fenceAcq (o : FenceOp) | fenceRel (o : FenceOp) | fenceAr (o : FenceOp) | fenceSc (o : FenceOp)
  | barArrive (o : BarArriveOp) | barWait (o : BarWaitOp) | barSync (o : BarSyncOp)
  | waita (o : WaitaOp) | rdsr (o : RdsrOp) | wrsr (o : WrsrOp)
  | tret | tretSkip | kill (g : Guard) | killGrp (g : Guard) | killTeam (g : Guard) | halt
  | qpush (o : QpushOp) | qpop (o : QpopOp) | qpeek (o : QpeekOp) | cpy (o : AOp) | publ (o : PublOp)
  | reca (o : RecaOp) | recp (o : RecpOp) | recf (o : AOp)
  | own (o : OwnOp) | ownLaunch (o : OwnLaunchOp) | await (o : DaOp) | rslv (o : DaOp) | lnch (o : LnchOp)
  | yield (g : Guard)
  | mset (d : SF) (imm : BitVec 20) | msetHi (d : SF) (imm : BitVec 12)
  | minc (d a : SF) (b : Src) | mloop (d : SF) (off : BitVec 20)
  | mbarArrive (b : SF) (count : BitVec 10) | mbarWait (b a : SF) | mbarArriveWait (b : SF) (count : BitVec 10)
  | mwld (ty : Ty) (a b : SF) | mstr (o : MstrOp) | mepi (d a b : SF) (s32in : Bool) | mcfg (a : SF) | mend
  | tilebClear (o : TilebOp) | tilebLoad (o : TilebOp) | tilef (g : Guard)
  | pathb (o : PathbOp) | pathe (g : Guard) | segl (o : AOp) | segq (o : AOp) | clipp (g : Guard) | clipx (g : Guard)
  | spanp (o : SpanpOp)
  | blndOver (o : BlndOp) | blndSrc (o : BlndOp) | blndAdd (o : BlndOp) | blndDrop (o : BlndOp)
  | tex (o : TexOp) | texAniso (o : TexOp) | tld (o : TexOp) | texq (o : TexqOp)
  | powerOnBoot (image : BootImage)
  | attestationRequest (nonce : List Byte)
  | hostWrite (addr : Nat) (bytes : List Byte)
  | hostRead (addr : Nat) (n : Nat)
  | sensorSample (die : Nat) (readings : List Nat)
  | timingStallEnd (die controller : Nat)
  | retreatTimerExpiry (die : Nat)
  | coolingRateWindow (die : Nat)
  | phyTrainingComplete (die : Nat)
  | drainRequest (die : Nat)
  | drainTimeout (die : Nat)
  | warmupRequest (die : Nat)
  | warmupCancel (die : Nat)
  | patrolRow (die : Nat) (correctable : Bool)
  | uncorrectableError (site : ErrorSite)
  | heldAccessRelease (die : Nat)
  | larsaPortDown (die port : Nat)
  | larsaPortUp (die port : Nat)
  | currentLimitStep (die island : Nat)
  | clockRaiseCommand (die island mhz : Nat)
  | pipeRetention (die core slot : Nat)
  | boostLeaseGrant (ctx die clock ticks : Nat)
  | leaseExpiry (ctx die : Nat)
  | contextRehome (ctx partition : Nat)
  | mcadWrite (die core : Nat) (idle : BitVec 8)
  | firmwareRegisterWrite (r : FwReg)
  | epochBoundary (die : Nat)
  | homeSliceAccess (id : Nat)
  | storePerform (tid grp : Nat)
  | faultSlotGrant (die : Nat)
  | faultReplay (id : Nat)
  | faultDeny (id : Nat)
  | orderedInvalidation (ctx va size : Nat)
  | invalidationComplete (id : Nat)
  | migratePage (ctx va shadow : Nat)
  | migrationCommit (id : Nat)
  | launchDoorbell (partition queue : Nat)
  | packetTake (partition queue : Nat)
  | clusterPlace (die core : Nat)
  | prologueComplete (tid : Nat)
  | teamRetire (tid : Nat)
  | urgencyReached (die launch : Nat)
  | skipTimeout (die : Nat)
  | forwardProgressSwap (die core : Nat)
  | relief (tid : Nat)
  | driftDrainExpiry (tid : Nat)
  | teamResume (tid core : Nat)
  | haltRelease (tid : Nat)
  | cagedTeamEnd (tid : Nat)
  | recordCommitArrive (tid : Nat)
  | batchTimerExpiry (die launch node : Nat)
  | backpressureClose (die launch : Nat)
  | driftPermit (cmd : Nat)
  | lineFill (cmd pos line : Nat)
  | driftCommandComplete (cmd : Nat)
  | driftCommandFault (cmd : Nat)
  | engineArrivalRetry (cmd : Nat)
  | mwldReplay (tid : Nat)
  | pathScan (tid : Nat)
  | stagingMove (tid : Nat)
  | spanCommit (tid : Nat)
  | tileFillLine (tid line : Nat)
  | deferredTrapDelivery (tid grp : Nat)
  | engineTrapDelivery (tid : Nat)
  | powerLoss (die : Nat)
  | longLatencyResultLand (tid grp pend : Nat)
  | firmwareContextEnd (ctx : Nat)
  | larsaPackageJoin (package : Nat)
deriving DecidableEq, Repr

end Sys2Proof
end

