-- ==== Sys2Proof/Machine/FieldChecks.lean ====
section
/-! DEFINITION. What R101 to R118 and the instruction reference ask of the fields of one instruction: the ILLEGAL
sub-codes, the element types, the special-register table, and the list of sub-codes that an instruction's own operand
fields break. Decoding and well-formedness both rest on `Instr.errs`. -/

namespace Sys2Proof

/-- The ILLEGAL sub-codes of R118. -/
inductive Sub where
  | length | fetchStraddle | stream | opcode | pair | lookaheadField | reserved | type | operand | sreg
  | resource | narrow | target
deriving DecidableEq, Repr

/-- The number of a sub-code (R118). -/
def Sub.code : Sub → Nat
  | .length => 1 | .fetchStraddle => 2 | .stream => 3 | .opcode => 4 | .pair => 5 | .lookaheadField => 6
  | .reserved => 7 | .type => 8 | .operand => 9 | .sreg => 10 | .resource => 11 | .narrow => 12 | .target => 13

/-- The lowest sub-code of a list of broken conditions (R118). -/
def Sub.lowest : List Sub → Option Sub
  | [] => none
  | x :: r => match lowest r with
    | none => some x
    | some y => if x.code ≤ y.code then some x else some y

namespace Ty

/-- The TYPE code (R102). -/
def code : Ty → BitVec 4
  | .b32 => 0 | .s32 => 1 | .n32 => 2 | .f32 => 3 | .b64 => 4 | .s64 => 5 | .n64 => 6 | .f64 => 7
  | .f16x2 => 8 | .bf16x2 => 9 | .e4m3x4 => 10 | .e5m2x4 => 11 | .s8x4 => 12 | .n8x4 => 13 | .tp8x4 => 14 | .s16x2 => 15

/-- The type of a TYPE code (R102); every code has one. -/
def ofCode (c : BitVec 4) : Ty :=
  match c.toNat with
  | 0 => .b32 | 1 => .s32 | 2 => .n32 | 3 => .f32 | 4 => .b64 | 5 => .s64 | 6 => .n64 | 7 => .f64
  | 8 => .f16x2 | 9 => .bf16x2 | 10 => .e4m3x4 | 11 => .e5m2x4 | 12 => .s8x4 | 13 => .n8x4 | 14 => .tp8x4 | _ => .s16x2

/-- A 64-bit type, held in an even register pair. -/
def is64 : Ty → Bool
  | .b64 | .s64 | .n64 | .f64 => true
  | _ => false

/-- The number of elements in the destination word (R102). -/
def count : Ty → Nat
  | .f16x2 | .bf16x2 | .s16x2 => 2
  | .e4m3x4 | .e5m2x4 | .s8x4 | .n8x4 | .tp8x4 => 4
  | _ => 1

/-- The width of one element in bits. -/
def width (t : Ty) : Nat := if t.is64 then 64 else 32 / t.count

/-- Signed integer elements. -/
def signed : Ty → Bool
  | .s32 | .s64 | .s8x4 | .s16x2 => true
  | _ => false

/-- Floating-point elements (TP8 among them). -/
def isFloat : Ty → Bool
  | .f32 | .f64 | .f16x2 | .bf16x2 | .e4m3x4 | .e5m2x4 | .tp8x4 => true
  | _ => false

/-- The scalar types of R379. -/
def isScalar : Ty → Bool
  | .s32 | .n32 | .f32 | .s64 | .n64 | .f64 => true
  | _ => false

end Ty

/-- The special registers of R86: number, width in bits, is it privileged, may WRSR write it (in the mode that may touch it). -/
structure SrInfo where
  wide : Bool
  priv : Bool
  writable : Bool
deriving DecidableEq, Repr

/-- The special-register table (R86); an unlisted number gives none. -/
def srInfo (n : Nat) : Option SrInfo :=
  if n ≤ 0x00A then some ⟨false, false, false⟩
  else if n = 0x010 ∨ n = 0x011 then some ⟨true, false, false⟩
  else if n = 0x012 ∨ n = 0x013 ∨ n = 0x014 then some ⟨false, false, false⟩
  else if n = 0x020 ∨ n = 0x021 then some ⟨false, false, true⟩
  else if n = 0x022 then some ⟨true, false, true⟩
  else if n = 0x040 then some ⟨false, true, false⟩
  else if n = 0x041 then some ⟨true, true, true⟩
  else if n = 0x042 then some ⟨true, true, false⟩
  else if n = 0x043 then some ⟨false, true, false⟩
  else none

namespace Check

/-- A run of `n` registers from `r` ends at or below v639 (R105). -/
def run (r : VR) (n : Nat) : List Sub := if r.toNat + n ≤ 640 then [] else [.operand]

/-- One register (R105). -/
def vr (r : VR) : List Sub := run r 1

/-- An even pair (R105). -/
def pair (r : VR) : List Sub := if r.toNat % 2 = 0 ∧ r.toNat + 2 ≤ 640 then [] else [.operand]

/-- A register of type `t`. -/
def typed (t : Ty) (r : VR) : List Sub := if t.is64 then pair r else vr r

/-- A predicate number held in a 10-bit field. -/
def pred (p : BitVec 10) : List Sub := if p.toNat ≤ 7 then [] else [.operand]

/-- The type is among those an entry lists (R102). -/
def tyIn (t : Ty) (l : List Ty) : List Sub := if l.contains t then [] else [.type]

/-- `b` must hold, or the word is RESERVED. -/
def resv (b : Bool) : List Sub := if b then [] else [.reserved]

/-- A second operand of type `t`; `i10`, `i32` and `i64` say which immediates the entry lists. -/
def src (t : Ty) (i10 i32 i64 : Bool) : Src → List Sub
  | .reg r => typed t r
  | .imm10 _ => resv i10
  | .imm32 _ => resv i32
  | .imm64 _ => resv (i64 && t.is64)

/-- A second operand that is always one 32-bit register or an immediate (shift amounts, indices, control words). -/
def src32 (i10 i32 : Bool) (s : Src) : List Sub := src .b32 i10 i32 false s

/-- Rounding modes 0–3 of the float arithmetic (R390). -/
def rnd (r : BitVec 3) : List Sub := resv (r.toNat ≤ 3)

/-- A scope code (R181). -/
def scope (s : BitVec 3) : List Sub := resv (s.toNat ≤ 5)

def f4 : List Ty := [.f32, .f64, .f16x2, .bf16x2]
def b2 : List Ty := [.b32, .b64]
def i4 : List Ty := [.s32, .n32, .s64, .n64]

/-- IADD and ISUB (R405). -/
def addSub (o : IntOp) : List Sub :=
  tyIn o.ty [.b32, .s32, .n32, .s64, .n64, .s16x2, .s8x4, .n8x4]
  ++ resv (!(o.sat && o.ty == .b32)) ++ resv (!o.hi) ++ typed o.ty o.d ++ typed o.ty o.a ++ src o.ty true true false o.b

/-- IMIN and IMAX (R405). -/
def minMax (o : IntOp) : List Sub :=
  tyIn o.ty [.s32, .n32, .s64, .n64, .s16x2, .s8x4, .n8x4]
  ++ resv (!o.sat) ++ resv (!o.hi) ++ typed o.ty o.d ++ typed o.ty o.a ++ src o.ty true true false o.b

/-- The bitwise operations (R357). -/
def logic (o : BinOp) : List Sub :=
  tyIn o.ty b2 ++ typed o.ty o.d ++ typed o.ty o.a ++ src o.ty true true true o.b

/-- FADD, FMUL (R386, R390); FMIN and FMAX ask for RMODE 0. -/
def flt (o : FltOp) (noRnd : Bool) : List Sub :=
  tyIn o.ty f4 ++ rnd o.rnd ++ resv (!(noRnd && o.rnd != 0)) ++ typed o.ty o.d ++ typed o.ty o.a
  ++ src o.ty false true false o.b

def un (o : UnOp) (l : List Ty) : List Sub := tyIn o.ty l ++ typed o.ty o.d ++ typed o.ty o.a

def trans (o : TransOp) (l : List Ty) : List Sub := tyIn o.ty l ++ typed o.ty o.d ++ typed o.ty o.a

def shuffle (o : BinOp) : List Sub := tyIn o.ty b2 ++ typed o.ty o.d ++ typed o.ty o.a ++ src32 true false o.b

/-- The pairs of R379. -/
def cvtPair (s d : Ty) : Bool :=
  let p2 : Ty → Bool := fun t => t == .f16x2 || t == .bf16x2 || t == .s16x2
  let p4 : Ty → Bool := fun t => t == .e4m3x4 || t == .e5m2x4 || t == .s8x4 || t == .n8x4
  s != d &&
    (if s.isScalar then d.isScalar || p2 d || p4 d
     else if p2 s then p2 d || d.isScalar
     else if p4 s then p4 d || d.isScalar
     else s == .tp8x4 && (d == .f32 || d == .f64))

/-- Registers that one scalar element takes. -/
def unit (t : Ty) : Nat := if t.is64 then 2 else 1

/-- Elements one lane converts (R379). -/
def cvtCount (s d : Ty) : Nat := max s.count d.count

def cvtRun (self other : Ty) (r : VR) : List Sub :=
  (if self.is64 && r.toNat % 2 == 1 then [.operand] else [])
  ++ run r (if self.isScalar then cvtCount self other * unit self else 1)

/-- CVT (R378 to R381). -/
def cvt (o : CvtOp) : List Sub :=
  (if cvtPair o.sty o.ty then [] else [.type])
  ++ resv (!(o.sat && (o.sty.isFloat || o.ty.isFloat))) ++ resv (o.rmode.toNat ≤ 4)
  ++ (if o.rmode.toNat = 4 then vr o.ix else resv (o.ix == 0))
  ++ cvtRun o.sty o.ty o.a ++ cvtRun o.ty o.sty o.d

/-- LD, LDS, LDP types and sizes (R409). -/
def ldType (t : Ty) (sz : BitVec 2) : List Sub :=
  match sz.toNat with
  | 0 => tyIn t b2
  | 3 => [.reserved]
  | _ => tyIn t [.s32, .n32]

/-- ST and STS types and sizes (R470, R473). -/
def stType (t : Ty) (sz : BitVec 2) : List Sub :=
  match sz.toNat with
  | 0 => tyIn t b2
  | 3 => [.reserved]
  | _ => tyIn t [.b32]

/-- The types of each atomic operation (R358): `0` add, `1` min and max, `2` bitwise, exch and cas. -/
def atomTy (cls : Nat) : List Ty :=
  match cls with
  | 0 => [.s32, .n32, .s64, .n64, .f32]
  | 1 => i4
  | _ => b2

def atomCommon (cls : Nat) (ty : Ty) (spad : Bool) (order scope_ : BitVec 3) (a : VR) (v : Src) : List Sub :=
  tyIn ty (atomTy cls) ++ resv (order.toNat ≤ 4) ++ scope scope_ ++ (if spad then vr a else pair a)
  ++ src ty true false false v

def atom (cls : Nat) (o : AtomOp) : List Sub :=
  atomCommon cls o.ty o.spad o.order o.scope o.a o.v ++ typed o.ty o.d

def red (cls : Nat) (o : RedOp) : List Sub :=
  atomCommon cls o.ty o.spad o.order o.scope o.a o.v ++ resv (o.order == 0 || o.order == 2)

/-- The types of REDX and SCAN (R455). -/
def tileTy (cls : Nat) : List Ty :=
  match cls with
  | 0 => [.s32, .n32, .s64, .n64, .f32]
  | _ => b2

/-- A barrier count (R256, R363). -/
def count : Src → List Sub
  | .reg r => vr r
  | .imm10 i => if 1 ≤ i.toNat ∧ i.toNat ≤ 255 then [] else [.operand]
  | _ => [.reserved]

/-- A node or queue-number operand: a register or a BIMM immediate (R416, R449). A value out of range is no encoding
error: R417 gives it PERM and R449 gives it QUEUE. -/
def node : Src → List Sub
  | .reg r => vr r
  | .imm10 _ => []
  | _ => [.reserved]

/-- The words of one entry of a queue, and so the register run (R442). -/
def queueRun (q : Nat) : Nat := if q = 2 then 8 else if q = 3 then 2 else 1

def queue (q : BitVec 10) (r : VR) : List Sub :=
  (if q.toNat ≤ 7 then [] else [.operand]) ++ run r (queueRun q.toNat)

/-- A sequencer register field (R277). -/
def m (x : SF) : List Sub := if x.toNat ≤ 31 then [] else [.operand]

/-- A tile or barrier field (R277). -/
def ab (x : SF) : List Sub := if x.toNat ≤ 15 then [] else [.operand]

def mbarCount (c : BitVec 10) : List Sub := if 1 ≤ c.toNat ∧ c.toNat ≤ 255 then [] else [.operand]

end Check

open Check in
/-- The sub-codes that the operand fields of an instruction break, whatever the rest of its word holds. Events have no
word and break none. -/
def Instr.errs : Instr → List Sub
  | .iadd o | .isub o => addSub o
  | .imul o =>
    tyIn o.ty [.s32, .n32, .s64, .n64, .s16x2, .s8x4, .n8x4]
    ++ resv (!(o.hi && (o.sat || !(o.ty == .s32 || o.ty == .n32))))
    ++ typed o.ty o.d ++ typed o.ty o.a ++ src o.ty true true false o.b
  | .imad o =>
    tyIn o.ty i4 ++ typed o.ty o.d ++ typed o.ty o.a ++ typed o.ty o.b
    ++ (match o.c with | some c => typed o.ty c | none => [])
  | .imin o | .imax o => minMax o
  | .iabs o => tyIn o.ty [.s32, .s64, .s16x2, .s8x4] ++ typed o.ty o.d ++ typed o.ty o.a
  | .icmp o =>
    tyIn o.ty i4 ++ resv (o.cc.toNat ≤ 5) ++ pred o.p ++ typed o.ty o.a ++ src o.ty true true false o.b
  | .lea o => tyIn o.ty [.n32, .s64, .n64] ++ typed o.ty o.d ++ typed o.ty o.a ++ src32 true true o.b
  | .aff o => tyIn o.ty [.b32, .s32, .n32] ++ vr o.d ++ vr o.a ++ src32 true true o.b
  | .sel o => tyIn o.ty b2 ++ typed o.ty o.d ++ typed o.ty o.a ++ src o.ty true true false o.b
  | .mov o => tyIn o.ty b2 ++ typed o.ty o.d ++ src o.ty true true true o.b
  | .cvt o => Check.cvt o
  | .and o | .or o | .xor o => logic o
  | .not o | .brev o => un o b2
  | .clz o | .popc o => tyIn o.ty b2 ++ vr o.d ++ typed o.ty o.a
  | .shl o => tyIn o.ty b2 ++ typed o.ty o.d ++ typed o.ty o.a ++ src32 true true o.b
  | .shr o => tyIn o.ty i4 ++ typed o.ty o.d ++ typed o.ty o.a ++ src32 true true o.b
  | .rot o => tyIn o.ty b2 ++ typed o.ty o.d ++ typed o.ty o.a ++ src32 true true o.b
  | .bfx o => tyIn o.ty i4 ++ typed o.ty o.d ++ typed o.ty o.a ++ src32 false true o.b
  | .bfi o => tyIn o.ty b2 ++ typed o.ty o.d ++ typed o.ty o.a ++ typed o.ty o.c ++ src32 false true o.ctl
  | .ilv o => tyIn o.ty b2 ++ typed o.ty o.d ++ vr o.a ++ vr o.b
  | .dlv o => tyIn o.ty b2 ++ run o.d 2 ++ typed o.ty o.a
  | .fadd o | .fmul o => flt o false
  | .fmin o | .fmax o => flt o true
  | .ffma o =>
    tyIn o.ty f4 ++ rnd o.rnd ++ typed o.ty o.d ++ typed o.ty o.a ++ typed o.ty o.b
    ++ (match o.c with | some c => typed o.ty c | none => [])
  | .fcmp o =>
    tyIn o.ty [.f32, .f64] ++ pred o.p ++ typed o.ty o.a ++ src o.ty false true false o.b
  | .frnd o => tyIn o.ty f4 ++ rnd o.rnd ++ typed o.ty o.d ++ typed o.ty o.a
  | .fdot o => tyIn o.ty [.f16x2, .bf16x2, .e4m3x4, .e5m2x4] ++ rnd o.rnd ++ vr o.d ++ vr o.a ++ vr o.b
  | .frcp o | .frsq o | .fsqrt o => trans o [.f32, .f64]
  | .fexp2 o | .flog2 o | .fsin o | .fcos o | .ftanh o => trans o [.f32]
  | .shflIdx o | .shflUp o | .shflDown o | .shflXor o | .lsend o => shuffle o
  | .voteAny o | .voteAll o | .voteUni o => pred o.p ++ pred o.a
  | .voteBallot o => vr o.d ++ pred o.a
  | .redxAdd o | .redxMin o | .redxMax o => un o (tileTy 0)
  | .redxAnd o | .redxOr o | .redxXor o => un o (tileTy 1)
  | .scanAdd o | .scanMin o | .scanMax o => tyIn o.ty (tileTy 0) ++ typed o.ty o.d ++ typed o.ty o.a
  | .scanAnd o | .scanOr o | .scanXor o => tyIn o.ty (tileTy 1) ++ typed o.ty o.d ++ typed o.ty o.a
  | .matchAny o => tyIn o.ty b2 ++ vr o.d ++ typed o.ty o.a
  | .matchAll o => tyIn o.ty b2 ++ pred o.p ++ typed o.ty o.a
  | .lpart _ n => resv (1 ≤ n.toNat && n.toNat ≤ 5)
  | .brx o => vr o.a
  | .ld o =>
    ldType o.ty o.sz ++ resv (o.order == 0 || o.order == 1 || o.order == 4) ++ scope o.scope
    ++ typed o.ty o.d ++ pair o.a
  | .lds o =>
    ldType o.ty o.sz ++ resv (o.order == 0 || o.order == 1 || o.order == 4) ++ scope o.scope
    ++ resv (!(o.abs && o.a != 0)) ++ typed o.ty o.d ++ vr o.a
  | .ldp o => ldType o.ty o.sz ++ resv (!(o.abs && o.a != 0)) ++ typed o.ty o.d ++ vr o.a
  | .st o =>
    stType o.ty o.sz ++ resv (o.order == 0 || o.order == 2 || o.order == 4) ++ scope o.scope
    ++ typed o.ty o.d ++ pair o.a
  | .sts o =>
    stType o.ty o.sz ++ resv (o.order == 0 || o.order == 2 || o.order == 4) ++ scope o.scope
    ++ resv (!(o.abs && o.a != 0)) ++ typed o.ty o.d ++ vr o.a
  | .pref o => resv (!(o.abs && o.a != 0)) ++ pair o.a
  | .atomAdd o => atom 0 o
  | .atomMin o | .atomMax o => atom 1 o
  | .atomAnd o | .atomOr o | .atomXor o | .atomExch o => atom 2 o
  | .atomCas o =>
    atomCommon 2 o.ty o.spad o.order o.scope o.a (.reg o.b) ++ typed o.ty o.d ++ typed o.ty o.c
  | .redAdd o => red 0 o
  | .redMin o | .redMax o => red 1 o
  | .redAnd o | .redOr o | .redXor o => red 2 o
  | .fenceAcq o | .fenceRel o | .fenceAr o | .fenceSc o => scope o.scope
  | .barArrive o => vr o.d ++ Check.count o.count
  | .barWait o => vr o.a
  | .barSync o => Check.count o.count
  | .waita o =>
    tyIn o.ty b2 ++ resv (o.order.toNat ≤ 1) ++ scope o.scope ++ typed o.ty o.d ++ pair o.a
    ++ src o.ty true false false o.b
  | .rdsr o =>
    match srInfo o.sr.toNat with
    | none => .sreg :: vr o.d
    | some i => if i.wide then pair o.d else vr o.d
  | .wrsr o =>
    match srInfo o.sr.toNat with
    | none => .sreg :: vr o.a
    | some i => if i.wide then pair o.a else vr o.a
  | .qpush o => queue o.q o.a
  | .qpop o => queue o.q o.d
  | .qpeek o => queue o.q o.d
  | .cpy o => vr o.a
  | .publ o => pair o.a ++ pair o.b ++ pair o.c
  | .reca o => pair o.d ++ node o.node
  | .recp o => pair o.a ++ node o.node
  | .recf o => pair o.a
  | .own o => resv (o.kind.toNat ≤ 1) ++ vr o.d ++ pair o.a
  | .ownLaunch o => resv (o.kind.toNat ≤ 1) ++ vr o.d ++ pair o.a ++ vr o.b
  | .await o | .rslv o => vr o.d ++ pair o.a
  | .lnch o =>
    vr o.d ++ vr o.a ++ node o.q
  | .mset d _ | .msetHi d _ => m d
  | .minc d a b => m d ++ m a ++ (match b with | .reg r => m r | .imm10 _ => [] | _ => [.reserved])
  | .mloop d _ => m d
  | .mbarArrive b c | .mbarArriveWait b c => ab b ++ mbarCount c
  | .mbarWait b a => ab b ++ m a
  | .mwld ty a b => tyIn ty [.tp8x4, .e4m3x4, .e5m2x4, .bf16x2, .f16x2, .s8x4] ++ m a ++ m b
  | .mstr o =>
    tyIn o.ty [.e4m3x4, .e5m2x4, .bf16x2, .f16x2, .s8x4]
    ++ resv (o.ebe || o.k == 0) ++ resv (!o.asc || o.ty == .e4m3x4 || o.ty == .e5m2x4)
    ++ ab o.d ++ m o.a ++ m o.b ++ (if o.asc && o.a.toNat == 31 then [.operand] else [])
  | .mepi d a b _ => ab d ++ m a ++ m b ++ (if a.toNat = 31 then [.operand] else [])
  | .mcfg a => m a
  | .tilebClear o | .tilebLoad o => pair o.a ++ vr o.b
  | .pathb o => vr o.a ++ vr o.b
  | .segl o => run o.a 4
  | .segq o => run o.a 6
  | .spanp o => run o.d 3
  | .blndOver o | .blndSrc o | .blndAdd o | .blndDrop o => vr o.a ++ run o.b 4
  | .tex o => run o.d 4 ++ pair o.a ++ run o.b 4
  | .texAniso o => run o.d 4 ++ pair o.a ++ run o.b 6
  | .tld o => run o.d 4 ++ pair o.a ++ run o.b 4
  | .texq o => run o.d 4 ++ pair o.a ++ vr o.b
  | _ => []

end Sys2Proof
end

