-- ==== Sys2Proof/WellFormed.lean ====
section
/-! DEFINITION. Well-formed instructions: every operand field is one that the instruction's entry admits. -/

namespace Sys2Proof

/-- An instruction whose fields break none of the conditions of R101 to R105 and of its entry. -/
def Instr.WellFormed (i : Instr) : Prop := i.errs = []

/-- The same as a Boolean, for evaluation. -/
def Instr.wf (i : Instr) : Bool := i.errs.isEmpty

end Sys2Proof
end

