-- ==== Sys2Proof/Decode.lean ====
section
/-! DEFINITION. The decoder (R95 to R119 and the encoding tables of the instruction reference), total on every bit
pattern and rejecting with the lowest sub-code of R118, and after it the encoder written from the same tables. -/

namespace Sys2Proof

/-- The fields of the first 64-bit word (R100). -/
structure W64 where
  mod : BitVec 16
  b : BitVec 10
  a : BitVec 10
  d : BitVec 10
  la : BitVec 4
  gn : BitVec 1
  gp : BitVec 3
  opc : BitVec 7
  pair : BitVec 1
  len : BitVec 2
deriving DecidableEq, Repr

/-- The word with the given fields. -/
def W64.bits (w : W64) : BitVec 64 :=
  w.mod ++ w.b ++ w.a ++ w.d ++ w.la ++ w.gn ++ w.gp ++ w.opc ++ w.pair ++ w.len

/-- The fields of a word. -/
def W64.ofBits (x : BitVec 64) : W64 :=
  { mod := x.extractLsb' 48 16, b := x.extractLsb' 38 10, a := x.extractLsb' 28 10, d := x.extractLsb' 18 10
    la := x.extractLsb' 14 4, gn := x.extractLsb' 13 1, gp := x.extractLsb' 10 3, opc := x.extractLsb' 3 7
    pair := x.extractLsb' 2 1, len := x.extractLsb' 0 2 }

/-- An instruction's bits taken apart: the first word, and bits [127:64] as they stand in memory after it. -/
structure Raw where
  h : W64
  ext : BitVec 64
deriving DecidableEq, Repr

namespace Raw

def ofBits (x : BitVec 128) : Raw := { h := W64.ofBits (x.extractLsb' 0 64), ext := x.extractLsb' 64 64 }

def shape (r : Raw) : Bool := r.h.mod.getLsbD 15
def bimm (r : Raw) : Bool := r.h.mod.getLsbD 14
/-- MOD bits [61:52], which each entry assigns. -/
def x (r : Raw) : BitVec 10 := r.h.mod.extractLsb' 4 10
def tyc (r : Raw) : BitVec 4 := r.h.mod.extractLsb' 0 4
def ty (r : Raw) : Ty := Ty.ofCode r.tyc
def xbit (r : Raw) (i : Nat) : Bool := r.h.mod.getLsbD (i - 48)
def xf (r : Raw) (lo n : Nat) : BitVec n := r.h.mod.extractLsb' (lo - 48) n
def c (r : Raw) : BitVec 10 := r.ext.extractLsb' 0 10
def xmod (r : Raw) : BitVec 22 := r.ext.extractLsb' 10 22
def imm32 (r : Raw) : BitVec 32 := r.ext.extractLsb' 0 32
def imm32hi (r : Raw) : BitVec 32 := r.ext.extractLsb' 32 32
def guard (r : Raw) : Guard := { p := r.h.gp, neg := r.h.gn.getLsbD 0 }
/-- Bits [47:28], where A and B together hold one field. -/
def ab20 (r : Raw) : BitVec 20 := r.h.b ++ r.h.a

/-- Length in bytes by R95; LEN = 11 has none. -/
def bytes (r : Raw) : Nat := match r.h.len.toNat with | 0 => 8 | 1 => 12 | _ => 16

end Raw

/-- A parsed instruction with the sub-codes its word breaks outside its operand fields. -/
structure Parsed where
  errs : List Sub
  i : Instr
deriving DecidableEq, Repr

namespace Parse

open Check (resv)

/-- The length and shape must be among those the entry lists (R104). -/
def form (r : Raw) (l : List (Nat × Bool)) : List Sub := resv (l.contains (r.h.len.toNat, r.shape))

def f64 (r : Raw) : List Sub := form r [(0, false)]
def fI (r : Raw) : List Sub := form r [(0, false), (1, true)]
def fI64 (r : Raw) : List Sub := form r [(0, false), (1, true), (2, true)]
def fR3 (r : Raw) : List Sub := form r [(0, false), (1, false)]

/-- Bits of MOD [61:52] outside `m` must be zero (R101). -/
def xonly (r : Raw) (m : BitVec 10) : List Sub := resv (r.x &&& ~~~m == 0)

/-- BIMM where the entry does not allow it (R101): it stands in 64-bit forms only, beside SHAPE = 0. -/
def noBimm (r : Raw) : List Sub := resv (!r.bimm)
def bimm64 (r : Raw) : List Sub := resv (!(r.bimm && r.h.len.toNat != 0))

def noTy (r : Raw) : List Sub := resv (r.tyc == 0)
def noD (r : Raw) : List Sub := resv (r.h.d == 0)
def noA (r : Raw) : List Sub := resv (r.h.a == 0)
def noB (r : Raw) : List Sub := resv (r.h.b == 0)

/-- B must be zero under an I32 or I64 immediate (R103). -/
def noBImm (r : Raw) : List Sub := resv (r.h.len.toNat == 0 || r.h.b == 0)

/-- LA outside the long-latency class (R109). -/
def noLa (r : Raw) : List Sub := if r.h.la == 0 then [] else [.lookaheadField]

/-- The second operand of the register, BIMM, I32 and I64 forms. -/
def src (r : Raw) : Src :=
  match r.h.len.toNat with
  | 0 => if r.bimm then .imm10 r.h.b else .reg r.h.b
  | 1 => .imm32 r.imm32
  | _ => .imm64 r.ext

/-- Register, BIMM or I32 operand entries: `m` holds the entry's own bits of MOD [61:52]. -/
def alu (r : Raw) (m : BitVec 10) : List Sub := fI r ++ xonly r m ++ bimm64 r ++ noBImm r ++ noLa r

def intOp (r : Raw) : IntOp :=
  { g := r.guard, ty := r.ty, sat := r.xbit 52, hi := r.xbit 53, d := r.h.d, a := r.h.a, b := src r }
def binOp (r : Raw) : BinOp := { g := r.guard, ty := r.ty, d := r.h.d, a := r.h.a, b := src r }
def unOp (r : Raw) : UnOp := { g := r.guard, ty := r.ty, d := r.h.d, a := r.h.a }
def fltOp (r : Raw) : FltOp := { g := r.guard, ty := r.ty, rnd := r.xf 52 3, d := r.h.d, a := r.h.a, b := src r }
def cmpOp (r : Raw) : CmpOp := { g := r.guard, ty := r.ty, cc := r.xf 52 3, p := r.h.d, a := r.h.a, b := src r }
def transOp (r : Raw) : TransOp := { g := r.guard, la := r.h.la, ty := r.ty, d := r.h.d, a := r.h.a }
def scanOp (r : Raw) : ScanOp := { g := r.guard, ty := r.ty, excl := r.xbit 55, d := r.h.d, a := r.h.a }
def atomOp (r : Raw) : AtomOp :=
  { g := r.guard, la := r.h.la, ty := r.ty, spad := r.xbit 61, order := r.xf 58 3, scope := r.xf 55 3
    d := r.h.d, a := r.h.a, v := if r.bimm then .imm10 r.h.b else .reg r.h.b
    off := if r.h.len.toNat = 0 then none else some (r.ext.extractLsb' 10 16) }
def redOp (r : Raw) : RedOp :=
  { g := r.guard, ty := r.ty, spad := r.xbit 61, order := r.xf 58 3, scope := r.xf 55 3
    a := r.h.a, v := if r.bimm then .imm10 r.h.b else .reg r.h.b
    off := if r.h.len.toNat = 0 then none else some (r.ext.extractLsb' 10 16) }

def third (r : Raw) : Option VR := if r.h.len.toNat = 0 then none else some r.c

/-- XMOD must be zero in the 96-bit R3 form. -/
def noXmod (r : Raw) : List Sub := resv (r.h.len.toNat == 0 || r.xmod == 0)

def un (r : Raw) : List Sub := f64 r ++ xonly r 0 ++ noBimm r ++ noB r ++ noLa r

def moff (r : Raw) : MOff :=
  match r.h.len.toNat with
  | 0 => if r.bimm then .b10 r.h.b else .none
  | _ => .i32 r.imm32

/-- Offset fields of the loads and stores (R409, R470). -/
def moffErrs (r : Raw) : List Sub := fI r ++ bimm64 r ++ resv (r.bimm || r.h.b == 0)

/-- Plain entries: 64 bits, no type, no BIMM, MOD bits in `m`. -/
def plain (r : Raw) (m : BitVec 10) : List Sub := f64 r ++ xonly r m ++ noBimm r ++ noTy r ++ noLa r

def brOff (r : Raw) : BrOff := if r.h.len.toNat = 0 then .off20 r.ab20 else .off32 r.imm32
def brErrs (r : Raw) : List Sub :=
  fI r ++ xonly r 0x1FF ++ noBimm r ++ noTy r ++ noD r ++ noLa r ++ resv (r.h.len.toNat == 0 || r.ab20 == 0)

/-- The bits of MOD [61:52] given as bit numbers of the word. -/
def bit (i : Nat) : BitVec 10 := 1#10 <<< (i - 52)

def aop (r : Raw) : AOp := { g := r.guard, a := r.h.a }
def blnd (r : Raw) : BlndOp := { g := r.guard, a := r.h.a, b := r.h.b }
def tex (r : Raw) : TexOp := { g := r.guard, la := r.h.la, d := r.h.d, a := r.h.a, b := r.h.b }
def vote (r : Raw) : VoteOp := { g := r.guard, p := r.h.d, a := r.h.a }
def fence (r : Raw) : FenceOp := { g := r.guard, scope := r.xf 55 3 }
def own (r : Raw) : OwnOp := { g := r.guard, kind := r.xf 52 2, d := r.h.d, a := r.h.a }
def da (r : Raw) : DaOp := { g := r.guard, d := r.h.d, a := r.h.a }
def pp (r : Raw) : Option (BitVec 3) := if r.xbit 52 then some (r.xf 53 3) else none
def ppErrs (r : Raw) : List Sub := resv (r.xbit 52 || r.xf 53 3 == 0)
def code16 (r : Raw) : BitVec 16 := r.ab20.extractLsb' 0 16
def codeErrs (r : Raw) : List Sub := plain r 0 ++ noD r ++ resv (r.ab20.extractLsb' 16 4 == 0)

def atomErrs (r : Raw) : List Sub := fR3 r ++ resv (r.h.len.toNat == 0 || r.ext.extractLsb' 26 6 == 0)
def mem96C (r : Raw) : List Sub := resv (r.h.len.toNat == 0 || r.c == 0)

/-- Rows 0 to 2 of the opcode map. The codes left are no operation of these rows: in a pair they break its first rule
(R107), and the unassigned ones are OPCODE of themselves (R118). -/
def rows02 (r : Raw) : Parsed :=
  match r.h.opc.toNat with
  | 0x00 => ⟨plain r 0 ++ noD r ++ noA r ++ noB r, .nop r.guard⟩
  | 0x01 => ⟨alu r 3, .iadd (intOp r)⟩
  | 0x02 => ⟨alu r 3, .isub (intOp r)⟩
  | 0x03 => ⟨alu r 3, .imul (intOp r)⟩
  | 0x04 => ⟨fR3 r ++ xonly r 1 ++ noBimm r ++ noXmod r ++ noLa r,
      .imad { g := r.guard, ty := r.ty, sat := r.xbit 52, d := r.h.d, a := r.h.a, b := r.h.b, c := third r }⟩
  | 0x05 => ⟨alu r 3, .imin (intOp r)⟩
  | 0x06 => ⟨alu r 3, .imax (intOp r)⟩
  | 0x07 => ⟨f64 r ++ xonly r 1 ++ noBimm r ++ noB r ++ noLa r,
      .iabs { g := r.guard, ty := r.ty, sat := r.xbit 52, d := r.h.d, a := r.h.a }⟩
  | 0x08 => ⟨alu r 7, .icmp (cmpOp r)⟩
  | 0x09 => ⟨alu r 15, .lea { g := r.guard, ty := r.ty, sh := r.xf 52 4, d := r.h.d, a := r.h.a, b := src r }⟩
  | 0x0A => ⟨alu r 0, .aff (binOp r)⟩
  | 0x0B => ⟨alu r 7, .sel { g := r.guard, ty := r.ty, p := r.xf 52 3, d := r.h.d, a := r.h.a, b := src r }⟩
  | 0x0C => ⟨fI64 r ++ xonly r 0 ++ bimm64 r ++ noLa r
        ++ resv (r.h.len.toNat == 0 || r.h.b == 0)
        ++ (if r.h.len.toNat = 0 ∧ r.bimm = false then noB r else noA r),
      .mov { g := r.guard, ty := r.ty, d := r.h.d
             b := if r.h.len.toNat = 0 ∧ r.bimm = false then .reg r.h.a else src r }⟩
  | 0x0D => ⟨f64 r ++ resv (!r.bimm && r.xf 60 2 == 0) ++ noLa r,
      .cvt { g := r.guard, sat := r.xbit 59, rmode := r.xf 56 3, sty := Ty.ofCode (r.xf 52 4), ty := r.ty
             d := r.h.d, a := r.h.a, ix := r.h.b }⟩
  | 0x10 => ⟨fI64 r ++ xonly r 0 ++ bimm64 r ++ noBImm r ++ noLa r, .and (binOp r)⟩
  | 0x11 => ⟨fI64 r ++ xonly r 0 ++ bimm64 r ++ noBImm r ++ noLa r, .or (binOp r)⟩
  | 0x12 => ⟨fI64 r ++ xonly r 0 ++ bimm64 r ++ noBImm r ++ noLa r, .xor (binOp r)⟩
  | 0x13 => ⟨un r, .not (unOp r)⟩
  | 0x14 => ⟨alu r 0, .shl (binOp r)⟩
  | 0x15 => ⟨alu r 0, .shr (binOp r)⟩
  | 0x16 => ⟨alu r 1, .rot { g := r.guard, ty := r.ty, right := r.xbit 52, d := r.h.d, a := r.h.a, b := src r }⟩
  | 0x17 => ⟨un r, .clz (unOp r)⟩
  | 0x18 => ⟨un r, .popc (unOp r)⟩
  | 0x19 => ⟨un r, .brev (unOp r)⟩
  | 0x1A => ⟨fI r ++ xonly r 0 ++ noBimm r ++ noBImm r ++ noLa r, .bfx (binOp r)⟩
  | 0x1B => ⟨form r [(1, false), (2, false)] ++ xonly r 0 ++ noBimm r ++ noXmod r ++ noLa r
        ++ resv (r.h.len.toNat != 2 || r.h.b == 0),
      .bfi { g := r.guard, ty := r.ty, d := r.h.d, a := r.h.a, c := if r.h.len.toNat = 0 then r.h.a else r.c
             ctl := if r.h.len.toNat = 2 then .imm32 r.imm32hi else .reg r.h.b }⟩
  | 0x1C => ⟨f64 r ++ xonly r 0 ++ noBimm r ++ noLa r,
      .ilv { g := r.guard, ty := r.ty, d := r.h.d, a := r.h.a, b := r.h.b }⟩
  | 0x1D => ⟨un r, .dlv (unOp r)⟩
  | 0x1E => ⟨f64 r ++ xonly r 0xFF ++ noBimm r ++ noTy r ++ noLa r
        ++ resv (r.h.d.extractLsb' 3 7 == 0) ++ resv (r.h.a.extractLsb' 6 4 == 0) ++ resv (r.h.b.extractLsb' 3 7 == 0),
      .plop { g := r.guard, d := r.h.d.extractLsb' 0 3, a := r.h.a.extractLsb' 0 3, c := r.h.a.extractLsb' 3 3
              b := r.h.b.extractLsb' 0 3, lut := r.xf 52 8 }⟩
  | 0x20 => ⟨fI r ++ xonly r 7 ++ noBimm r ++ noBImm r ++ noLa r, .fadd (fltOp r)⟩
  | 0x21 => ⟨fI r ++ xonly r 7 ++ noBimm r ++ noBImm r ++ noLa r, .fmul (fltOp r)⟩
  | 0x22 => ⟨fR3 r ++ xonly r 7 ++ noBimm r ++ noXmod r ++ noLa r,
      .ffma { g := r.guard, ty := r.ty, rnd := r.xf 52 3, d := r.h.d, a := r.h.a, b := r.h.b, c := third r }⟩
  | 0x23 => ⟨fI r ++ xonly r 7 ++ noBimm r ++ noBImm r ++ noLa r, .fmin (fltOp r)⟩
  | 0x24 => ⟨fI r ++ xonly r 7 ++ noBimm r ++ noBImm r ++ noLa r, .fmax (fltOp r)⟩
  | 0x25 => ⟨fI r ++ xonly r 7 ++ noBimm r ++ noBImm r ++ noLa r, .fcmp (cmpOp r)⟩
  | 0x26 => ⟨f64 r ++ xonly r 7 ++ noBimm r ++ noB r ++ noLa r,
      .frnd { g := r.guard, ty := r.ty, rnd := r.xf 52 3, d := r.h.d, a := r.h.a }⟩
  | 0x27 => ⟨f64 r ++ xonly r 7 ++ noBimm r ++ noLa r,
      .fdot { g := r.guard, ty := r.ty, rnd := r.xf 52 3, d := r.h.d, a := r.h.a, b := r.h.b }⟩
  | 0x28 => ⟨f64 r ++ xonly r 0 ++ noBimm r ++ noB r, .frcp (transOp r)⟩
  | 0x29 => ⟨f64 r ++ xonly r 0 ++ noBimm r ++ noB r, .frsq (transOp r)⟩
  | 0x2A => ⟨f64 r ++ xonly r 0 ++ noBimm r ++ noB r, .fsqrt (transOp r)⟩
  | 0x2B => ⟨f64 r ++ xonly r 0 ++ noBimm r ++ noB r, .fexp2 (transOp r)⟩
  | 0x2C => ⟨f64 r ++ xonly r 0 ++ noBimm r ++ noB r, .flog2 (transOp r)⟩
  | 0x2D => ⟨f64 r ++ xonly r 0 ++ noBimm r ++ noB r, .fsin (transOp r)⟩
  | 0x2E => ⟨f64 r ++ xonly r 0 ++ noBimm r ++ noB r, .fcos (transOp r)⟩
  | 0x2F => ⟨f64 r ++ xonly r 0 ++ noBimm r ++ noB r, .ftanh (transOp r)⟩
  | _ => ⟨[], .nop r.guard⟩

/-- Row 3: cross-lane and control. -/
def row3 (r : Raw) : Parsed :=
  match r.h.opc.toNat with
  | 0x30 => ⟨f64 r ++ xonly r 3 ++ noLa r,
      match (r.xf 52 2).toNat with
      | 0 => .shflIdx (binOp r) | 1 => .shflUp (binOp r) | 2 => .shflDown (binOp r) | _ => .shflXor (binOp r)⟩
  | 0x31 => ⟨f64 r ++ xonly r 0 ++ noLa r, .lsend (binOp r)⟩
  | 0x32 => ⟨plain r 3 ++ noB r,
      match (r.xf 52 2).toNat with
      | 0 => .voteAny (vote r) | 1 => .voteAll (vote r) | 2 => .voteUni (vote r)
      | _ => .voteBallot { g := r.guard, d := r.h.d, a := r.h.a }⟩
  | 0x33 => ⟨f64 r ++ xonly r 7 ++ noBimm r ++ noB r ++ noLa r ++ resv ((r.xf 52 3).toNat ≤ 5),
      match (r.xf 52 3).toNat with
      | 0 => .redxAdd (unOp r) | 1 => .redxMin (unOp r) | 2 => .redxMax (unOp r)
      | 3 => .redxAnd (unOp r) | 4 => .redxOr (unOp r) | _ => .redxXor (unOp r)⟩
  | 0x34 => ⟨f64 r ++ xonly r 15 ++ noBimm r ++ noB r ++ noLa r ++ resv ((r.xf 52 3).toNat ≤ 5),
      match (r.xf 52 3).toNat with
      | 0 => .scanAdd (scanOp r) | 1 => .scanMin (scanOp r) | 2 => .scanMax (scanOp r)
      | 3 => .scanAnd (scanOp r) | 4 => .scanOr (scanOp r) | _ => .scanXor (scanOp r)⟩
  | 0x35 => ⟨f64 r ++ xonly r 1 ++ noBimm r ++ noB r ++ noLa r,
      if r.xbit 52 then .matchAll { g := r.guard, ty := r.ty, p := r.h.d, a := r.h.a } else .matchAny (unOp r)⟩
  | 0x36 => ⟨plain r 7 ++ noD r ++ noA r ++ noB r, .lpart r.guard (r.xf 52 3)⟩
  | 0x37 => ⟨brErrs r, .bra { g := r.guard, u := r.xbit 60, pri := r.xf 52 8, off := brOff r }⟩
  | 0x38 => ⟨form r [(1, true)] ++ xonly r 0x1FF ++ noBimm r ++ noTy r ++ noD r ++ noB r ++ noLa r,
      .brx { g := r.guard, u := r.xbit 60, pri := r.xf 52 8, a := r.h.a, off := r.imm32 }⟩
  | 0x39 => ⟨brErrs r, .call { g := r.guard, u := r.xbit 60, pri := r.xf 52 8, off := brOff r }⟩
  | 0x3A => ⟨plain r (bit 60) ++ noD r ++ noA r ++ noB r, .ret r.guard (r.xbit 60)⟩
  | 0x3B => ⟨plain r 0 ++ noD r ++ noA r ++ noB r, .exit r.guard⟩
  | 0x3C => ⟨plain r 0xFF ++ noD r ++ noA r ++ noB r, .prio r.guard (r.xf 52 8)⟩
  | 0x3D => ⟨plain r 0x3FF ++ noD r ++ noA r ++ noB r, .nap r.guard (r.xf 52 10)⟩
  | 0x3E => ⟨codeErrs r, .bkpt r.guard (code16 r)⟩
  | _ => ⟨codeErrs r, .trap r.guard (code16 r)⟩

/-- Row 4: memory, barriers, special registers, privileged. -/
def row4 (r : Raw) : Parsed :=
  match r.h.opc.toNat with
  | 0x40 => ⟨moffErrs r ++ resv (!r.xbit 61),
      .ld { g := r.guard, la := r.h.la, ty := r.ty, sz := r.xf 52 2, bcast := r.xbit 54, order := r.xf 58 3
            scope := r.xf 55 3, d := r.h.d, a := r.h.a, off := moff r }⟩
  | 0x41 => ⟨moffErrs r ++ resv (!r.xbit 61) ++ resv (!r.xbit 54) ++ noLa r,
      .st { g := r.guard, ty := r.ty, sz := r.xf 52 2, order := r.xf 58 3, scope := r.xf 55 3, d := r.h.d, a := r.h.a
            off := moff r }⟩
  | 0x42 => ⟨moffErrs r,
      .lds { g := r.guard, la := r.h.la, ty := r.ty, sz := r.xf 52 2, bcast := r.xbit 54, order := r.xf 58 3
             scope := r.xf 55 3, abs := r.xbit 61, d := r.h.d, a := r.h.a, off := moff r }⟩
  | 0x43 => ⟨moffErrs r ++ resv (!r.xbit 54) ++ noLa r,
      .sts { g := r.guard, ty := r.ty, sz := r.xf 52 2, order := r.xf 58 3, scope := r.xf 55 3, abs := r.xbit 61
             d := r.h.d, a := r.h.a, off := moff r }⟩
  | 0x44 => ⟨moffErrs r ++ resv (r.xf 58 3 == 0),
      .ldp { g := r.guard, la := r.h.la, ty := r.ty, sz := r.xf 52 2, bcast := r.xbit 54, win := r.xf 55 3
             abs := r.xbit 61, d := r.h.d, a := r.h.a, off := moff r }⟩
  | 0x45 => ⟨moffErrs r ++ xonly r (bit 61 ||| bit 52) ++ noTy r ++ noD r ++ noLa r,
      .pref { g := r.guard, l1 := r.xbit 52, abs := r.xbit 61, a := r.h.a, off := moff r }⟩
  | 0x46 =>
    match (r.xf 52 3).toNat with
    | 7 => ⟨form r [(1, false)] ++ noBimm r ++ resv (r.ext.extractLsb' 26 6 == 0),
        .atomCas { g := r.guard, la := r.h.la, ty := r.ty, spad := r.xbit 61, order := r.xf 58 3, scope := r.xf 55 3
                   d := r.h.d, a := r.h.a, b := r.h.b, c := r.c, off := r.ext.extractLsb' 10 16 }⟩
    | n => ⟨atomErrs r ++ mem96C r,
        match n with
        | 0 => .atomAdd (atomOp r) | 1 => .atomMin (atomOp r) | 2 => .atomMax (atomOp r) | 3 => .atomAnd (atomOp r)
        | 4 => .atomOr (atomOp r) | 5 => .atomXor (atomOp r) | _ => .atomExch (atomOp r)⟩
  | 0x47 => ⟨atomErrs r ++ mem96C r ++ noD r ++ noLa r ++ resv ((r.xf 52 3).toNat ≤ 5),
      match (r.xf 52 3).toNat with
      | 0 => .redAdd (redOp r) | 1 => .redMin (redOp r) | 2 => .redMax (redOp r) | 3 => .redAnd (redOp r)
      | 4 => .redOr (redOp r) | _ => .redXor (redOp r)⟩
  | 0x48 => ⟨plain r (bit 60 ||| bit 59 ||| bit 58 ||| bit 57 ||| bit 56 ||| bit 55) ++ noD r ++ noA r ++ noB r
        ++ resv (1 ≤ (r.xf 58 3).toNat && (r.xf 58 3).toNat ≤ 4),
      match (r.xf 58 3).toNat with
      | 1 => .fenceAcq (fence r) | 2 => .fenceRel (fence r) | 3 => .fenceAr (fence r) | _ => .fenceSc (fence r)⟩
  | 0x49 =>
    let k := r.xf 52 4
    let cnt : Src := if r.bimm then .imm10 r.h.b else .reg r.h.b
    let m := bit 57 ||| bit 56 ||| bit 55 ||| bit 54 ||| bit 53 ||| bit 52
    match (r.xf 56 2).toNat with
    | 1 => ⟨f64 r ++ xonly r m ++ noTy r ++ noLa r ++ noA r, .barArrive { g := r.guard, d := r.h.d, k := k, count := cnt }⟩
    | 2 => ⟨plain r m ++ noD r ++ noB r, .barWait { g := r.guard, k := k, a := r.h.a }⟩
    | 3 => ⟨f64 r ++ xonly r m ++ noTy r ++ noLa r ++ noD r ++ noA r, .barSync { g := r.guard, k := k, count := cnt }⟩
    | _ => ⟨[.reserved] ++ noLa r, .nop r.guard⟩
  | 0x4A => ⟨f64 r ++ xonly r (bit 60 ||| bit 59 ||| bit 58 ||| bit 57 ||| bit 56 ||| bit 55) ++ noLa r,
      .waita { g := r.guard, ty := r.ty, order := r.xf 58 3, scope := r.xf 55 3, d := r.h.d, a := r.h.a, b := src r }⟩
  | 0x4B => ⟨plain r 0 ++ noB r, .rdsr { g := r.guard, d := r.h.d, sr := r.h.a }⟩
  | 0x4C => ⟨plain r 0 ++ noB r, .wrsr { g := r.guard, sr := r.h.d, a := r.h.a }⟩
  | 0x4D => ⟨plain r 1 ++ noD r ++ noA r ++ noB r ++ resv (r.h.gp == 7 && r.h.gn == 0),
      if r.xbit 52 then .tretSkip else .tret⟩
  | 0x4E => ⟨plain r 3 ++ noD r ++ noA r ++ noB r ++ resv ((r.xf 52 2).toNat ≤ 2),
      match (r.xf 52 2).toNat with
      | 0 => .kill r.guard | 1 => .killGrp r.guard | _ => .killTeam r.guard⟩
  | _ => ⟨plain r 0 ++ noD r ++ noA r ++ noB r ++ resv (r.h.gp == 7 && r.h.gn == 0), .halt⟩

/-- Row 5: queues, engines, records, ownership, launches. -/
def row5 (r : Raw) : Parsed :=
  match r.h.opc.toNat with
  | 0x50 => ⟨plain r 0 ++ noB r, .qpush { g := r.guard, q := r.h.d, a := r.h.a }⟩
  | 0x51 => ⟨f64 r ++ xonly r 15 ++ noBimm r ++ noTy r ++ noB r ++ ppErrs r,
      .qpop { g := r.guard, la := r.h.la, d := r.h.d, q := r.h.a, pp := pp r }⟩
  | 0x52 => ⟨plain r 15 ++ noB r ++ ppErrs r, .qpeek { g := r.guard, d := r.h.d, q := r.h.a, pp := pp r }⟩
  | 0x53 => ⟨plain r 0 ++ noD r ++ noB r, .cpy (aop r)⟩
  | 0x54 => ⟨form r [(1, false)] ++ xonly r 0 ++ noBimm r ++ noTy r ++ noD r ++ noLa r ++ resv (r.xmod == 0),
      .publ { g := r.guard, a := r.h.a, b := r.h.b, c := r.c }⟩
  | 0x55 => ⟨f64 r ++ xonly r 0 ++ noTy r ++ noLa r ++ noA r, .reca { g := r.guard, d := r.h.d, node := src r }⟩
  | 0x56 => ⟨f64 r ++ xonly r 0 ++ noTy r ++ noLa r ++ noD r, .recp { g := r.guard, a := r.h.a, node := src r }⟩
  | 0x57 => ⟨plain r 0 ++ noD r ++ noB r, .recf (aop r)⟩
  | 0x58 => ⟨plain r 7 ++ resv (r.xbit 54 || r.h.b == 0),
      if r.xbit 54 then .ownLaunch { g := r.guard, kind := r.xf 52 2, d := r.h.d, a := r.h.a, b := r.h.b }
      else .own (own r)⟩
  | 0x59 => ⟨plain r 0 ++ noB r, .await (da r)⟩
  | 0x5A => ⟨plain r 0 ++ noB r, .rslv (da r)⟩
  | 0x5B => ⟨f64 r ++ xonly r 0 ++ noTy r ++ noLa r, .lnch { g := r.guard, d := r.h.d, a := r.h.a, q := src r }⟩
  | 0x5C => ⟨plain r 0 ++ noD r ++ noA r ++ noB r, .yield r.guard⟩
  | _ => ⟨[.opcode], .nop r.guard⟩

/-- Row 6: the matrix stream (R278). -/
def row6 (r : Raw) : Parsed :=
  match r.h.opc.toNat with
  | 0x60 =>
    if r.xbit 52 then ⟨plain r 1 ++ resv (r.ab20.extractLsb' 12 8 == 0), .msetHi r.h.d (r.ab20.extractLsb' 0 12)⟩
    else ⟨plain r 1, .mset r.h.d r.ab20⟩
  | 0x61 => ⟨f64 r ++ xonly r 0 ++ noTy r ++ noLa r, .minc r.h.d r.h.a (if r.bimm then .imm10 r.h.b else .reg r.h.b)⟩
  | 0x62 => ⟨plain r 0, .mloop r.h.d r.ab20⟩
  | 0x63 =>
    match (r.xf 52 2).toNat with
    | 1 => ⟨plain r 3 ++ noA r, .mbarArrive r.h.d r.h.b⟩
    | 2 => ⟨plain r 3 ++ noB r, .mbarWait r.h.d r.h.a⟩
    | 3 => ⟨plain r 3 ++ noA r, .mbarArriveWait r.h.d r.h.b⟩
    | _ => ⟨[.reserved], .mend⟩
  | 0x64 => ⟨f64 r ++ xonly r 0 ++ noBimm r ++ noD r, .mwld r.ty r.h.a r.h.b⟩
  | 0x65 => ⟨f64 r ++ resv (!r.bimm && !r.xbit 61),
      .mstr { ty := r.ty, d := r.h.d, a := r.h.a, b := r.h.b, k := r.xf 52 4, ebe := r.xbit 56, na := r.xbit 57
              nb := r.xbit 58, zc := r.xbit 59, asc := r.xbit 60 }⟩
  | 0x66 => ⟨plain r 1, .mepi r.h.d r.h.a r.h.b (r.xbit 52)⟩
  | 0x67 => ⟨plain r 0 ++ noD r ++ noB r, .mcfg r.h.a⟩
  | 0x68 => ⟨plain r 0 ++ noD r ++ noA r ++ noB r, .mend⟩
  | _ => ⟨[.opcode], .mend⟩

/-- Row 7: tiles, paths, spans, textures. -/
def row7 (r : Raw) : Parsed :=
  match r.h.opc.toNat with
  | 0x70 =>
    let o : TilebOp := { g := r.guard, a := r.h.a, b := r.h.d, coff := r.imm32 }
    ⟨form r [(1, true)] ++ xonly r 1 ++ noBimm r ++ noTy r ++ noB r ++ noLa r,
      if r.xbit 52 then .tilebLoad o else .tilebClear o⟩
  | 0x71 => ⟨plain r 0 ++ noD r ++ noA r ++ noB r, .tilef r.guard⟩
  | 0x72 => ⟨plain r 3 ++ noD r,
      .pathb { g := r.guard, a := r.h.a, b := r.h.b, eo := r.xbit 52, clip := r.xbit 53 }⟩
  | 0x73 => ⟨plain r 0 ++ noD r ++ noA r ++ noB r, .pathe r.guard⟩
  | 0x74 => ⟨plain r 0 ++ noD r ++ noB r, .segl (aop r)⟩
  | 0x75 => ⟨plain r 0 ++ noD r ++ noB r, .segq (aop r)⟩
  | 0x76 => ⟨plain r 0 ++ noD r ++ noA r ++ noB r, .clipp r.guard⟩
  | 0x77 => ⟨plain r 0 ++ noD r ++ noA r ++ noB r, .clipx r.guard⟩
  | 0x78 => ⟨f64 r ++ xonly r 7 ++ noBimm r ++ noTy r ++ noA r ++ noB r,
      .spanp { g := r.guard, la := r.h.la, d := r.h.d, p := r.xf 52 3 }⟩
  | 0x79 => ⟨plain r 3 ++ noD r,
      match (r.xf 52 2).toNat with
      | 0 => .blndOver (blnd r) | 1 => .blndSrc (blnd r) | 2 => .blndAdd (blnd r) | _ => .blndDrop (blnd r)⟩
  | 0x7A => ⟨f64 r ++ xonly r 1 ++ noBimm r ++ noTy r, if r.xbit 52 then .texAniso (tex r) else .tex (tex r)⟩
  | 0x7B => ⟨f64 r ++ xonly r 0 ++ noBimm r ++ noTy r, .tld (tex r)⟩
  | 0x7C => ⟨plain r 0, .texq { g := r.guard, d := r.h.d, a := r.h.a, b := r.h.b }⟩
  | _ => ⟨[.opcode], .nop r.guard⟩

/-- The opcode map of R115. -/
def any (r : Raw) : Parsed :=
  match r.h.opc.toNat / 16 with
  | 0 | 1 | 2 => rows02 r
  | 3 => row3 r
  | 4 => row4 r
  | 5 => row5 r
  | 6 => row6 r
  | _ => row7 r

end Parse

/-- The guard of an instruction; the unguarded forms read p7. -/
def Instr.guard : Instr → Guard
  | .nop g | .lpart g _ | .ret g _ | .exit g | .prio g _ | .nap g _ | .bkpt g _ | .trap g _ | .kill g | .killGrp g
  | .killTeam g | .yield g | .tilef g | .pathe g | .clipp g | .clipx g => g
  | .iadd o | .isub o | .imul o | .imin o | .imax o => o.g
  | .imad o => o.g | .iabs o => o.g
  | .icmp o | .fcmp o => o.g
  | .lea o => o.g
  | .aff o | .and o | .or o | .xor o | .shl o | .shr o | .bfx o
  | .shflIdx o | .shflUp o | .shflDown o | .shflXor o | .lsend o => o.g
  | .sel o => o.g | .mov o => o.g | .cvt o => o.g
  | .not o | .clz o | .popc o | .brev o | .dlv o | .redxAdd o | .redxMin o | .redxMax o | .redxAnd o | .redxOr o
  | .redxXor o | .matchAny o => o.g
  | .rot o => o.g | .bfi o => o.g | .ilv o => o.g | .plop o => o.g
  | .fadd o | .fmul o | .fmin o | .fmax o => o.g
  | .ffma o => o.g | .frnd o => o.g | .fdot o => o.g
  | .frcp o | .frsq o | .fsqrt o | .fexp2 o | .flog2 o | .fsin o | .fcos o | .ftanh o => o.g
  | .voteAny o | .voteAll o | .voteUni o => o.g
  | .voteBallot o => o.g
  | .scanAdd o | .scanMin o | .scanMax o | .scanAnd o | .scanOr o | .scanXor o => o.g
  | .matchAll o => o.g
  | .bra o | .call o => o.g
  | .brx o => o.g
  | .ld o => o.g | .st o => o.g | .lds o => o.g | .sts o => o.g | .ldp o => o.g | .pref o => o.g
  | .atomAdd o | .atomMin o | .atomMax o | .atomAnd o | .atomOr o | .atomXor o | .atomExch o => o.g
  | .atomCas o => o.g
  | .redAdd o | .redMin o | .redMax o | .redAnd o | .redOr o | .redXor o => o.g
  | .fenceAcq o | .fenceRel o | .fenceAr o | .fenceSc o => o.g
  | .barArrive o => o.g | .barWait o => o.g | .barSync o => o.g | .waita o => o.g | .rdsr o => o.g | .wrsr o => o.g
  | .qpush o => o.g | .qpop o => o.g | .qpeek o => o.g | .cpy o | .recf o | .segl o | .segq o => o.g
  | .publ o => o.g | .reca o => o.g | .recp o => o.g | .own o => o.g | .ownLaunch o => o.g
  | .await o | .rslv o => o.g
  | .lnch o => o.g
  | .tilebClear o | .tilebLoad o => o.g
  | .pathb o => o.g | .spanp o => o.g
  | .blndOver o | .blndSrc o | .blndAdd o | .blndDrop o => o.g
  | .tex o | .texAniso o | .tld o => o.g
  | .texq o => o.g
  | _ => ⟨7, false⟩

/-- The registers an instruction names: vector sources and destinations, predicate sources and destinations (R107, R112).
The guard is added by the users of this table. -/
structure Uses where
  rs : List Nat := []
  rd : List Nat := []
  ps : List Nat := []
  pd : List Nat := []
deriving DecidableEq, Repr

namespace Uses

def one (r : VR) : List Nat := [r.toNat]
def pairR (r : VR) : List Nat := [r.toNat, r.toNat + 1]
def runR (r : VR) (n : Nat) : List Nat := (List.range n).map (r.toNat + ·)
def ofTy (t : Ty) (r : VR) : List Nat := if t.is64 then pairR r else one r
def ofSrc (t : Ty) : Src → List Nat
  | .reg r => ofTy t r
  | _ => []
def src32 (s : Src) : List Nat := ofSrc .b32 s
/-- The base of a memory operand: a pair when global, one register otherwise, none under ABS. -/
def base (glob abs : Bool) (a : VR) : List Nat := if abs then [] else if glob then pairR a else one a

def atom (ty : Ty) (spad : Bool) (a : VR) (v : Src) (d : List Nat) : Uses :=
  { rs := base (!spad) false a ++ ofSrc ty v, rd := d }

end Uses

open Uses in
/-- What each instruction reads and writes, as its entry lists it. -/
def Instr.uses : Instr → Uses
  | .iadd o | .isub o | .imul o | .imin o | .imax o => { rs := ofTy o.ty o.a ++ ofSrc o.ty o.b, rd := ofTy o.ty o.d }
  | .imad o =>
    { rs := ofTy o.ty o.a ++ ofTy o.ty o.b ++ (match o.c with | some c => ofTy o.ty c | none => ofTy o.ty o.d)
      rd := ofTy o.ty o.d }
  | .iabs o => { rs := ofTy o.ty o.a, rd := ofTy o.ty o.d }
  | .icmp o | .fcmp o => { rs := ofTy o.ty o.a ++ ofSrc o.ty o.b, pd := [o.p.toNat] }
  | .lea o => { rs := ofTy o.ty o.a ++ src32 o.b, rd := ofTy o.ty o.d }
  | .aff o => { rs := one o.a ++ src32 o.b, rd := one o.d }
  | .sel o => { rs := ofTy o.ty o.a ++ ofSrc o.ty o.b, rd := ofTy o.ty o.d, ps := [o.p.toNat] }
  | .mov o => { rs := ofSrc o.ty o.b, rd := ofTy o.ty o.d }
  | .cvt o =>
    { rs := runR o.a (if o.sty.isScalar then Check.cvtCount o.sty o.ty * Check.unit o.sty else 1)
        ++ (if o.rmode.toNat = 4 then one o.ix else [])
      rd := runR o.d (if o.ty.isScalar then Check.cvtCount o.ty o.sty * Check.unit o.ty else 1) }
  | .and o | .or o | .xor o => { rs := ofTy o.ty o.a ++ ofSrc o.ty o.b, rd := ofTy o.ty o.d }
  | .not o | .brev o => { rs := ofTy o.ty o.a, rd := ofTy o.ty o.d }
  | .clz o | .popc o => { rs := ofTy o.ty o.a, rd := one o.d }
  | .shl o | .shr o | .bfx o => { rs := ofTy o.ty o.a ++ src32 o.b, rd := ofTy o.ty o.d }
  | .rot o => { rs := ofTy o.ty o.a ++ src32 o.b, rd := ofTy o.ty o.d }
  | .bfi o => { rs := ofTy o.ty o.a ++ ofTy o.ty o.c ++ src32 o.ctl, rd := ofTy o.ty o.d }
  | .ilv o => { rs := one o.a ++ one o.b, rd := ofTy o.ty o.d }
  | .dlv o => { rs := ofTy o.ty o.a, rd := pairR o.d }
  | .plop o => { ps := [o.a.toNat, o.b.toNat, o.c.toNat], pd := [o.d.toNat] }
  | .fadd o | .fmul o | .fmin o | .fmax o => { rs := ofTy o.ty o.a ++ ofSrc o.ty o.b, rd := ofTy o.ty o.d }
  | .ffma o =>
    { rs := ofTy o.ty o.a ++ ofTy o.ty o.b ++ (match o.c with | some c => ofTy o.ty c | none => ofTy o.ty o.d)
      rd := ofTy o.ty o.d }
  | .frnd o => { rs := ofTy o.ty o.a, rd := ofTy o.ty o.d }
  | .fdot o => { rs := one o.a ++ one o.b ++ one o.d, rd := one o.d }
  | .frcp o | .frsq o | .fsqrt o | .fexp2 o | .flog2 o | .fsin o | .fcos o | .ftanh o =>
    { rs := ofTy o.ty o.a, rd := ofTy o.ty o.d }
  | .shflIdx o | .shflUp o | .shflDown o | .shflXor o | .lsend o =>
    { rs := ofTy o.ty o.a ++ src32 o.b, rd := ofTy o.ty o.d }
  | .voteAny o | .voteAll o | .voteUni o => { ps := [o.a.toNat], pd := [o.p.toNat] }
  | .voteBallot o => { ps := [o.a.toNat], rd := one o.d }
  | .redxAdd o | .redxMin o | .redxMax o | .redxAnd o | .redxOr o | .redxXor o =>
    { rs := ofTy o.ty o.a, rd := ofTy o.ty o.d }
  | .scanAdd o | .scanMin o | .scanMax o | .scanAnd o | .scanOr o | .scanXor o =>
    { rs := ofTy o.ty o.a, rd := ofTy o.ty o.d }
  | .matchAny o => { rs := ofTy o.ty o.a, rd := one o.d }
  | .matchAll o => { rs := ofTy o.ty o.a, pd := [o.p.toNat] }
  | .brx o => { rs := one o.a }
  | .ld o => { rs := pairR o.a, rd := ofTy o.ty o.d }
  | .lds o => { rs := base false o.abs o.a, rd := ofTy o.ty o.d }
  | .ldp o => { rs := base false o.abs o.a, rd := ofTy o.ty o.d }
  | .st o => { rs := pairR o.a ++ ofTy o.ty o.d }
  | .sts o => { rs := base false o.abs o.a ++ ofTy o.ty o.d }
  | .pref o => { rs := base true o.abs o.a }
  | .atomAdd o | .atomMin o | .atomMax o | .atomAnd o | .atomOr o | .atomXor o | .atomExch o =>
    atom o.ty o.spad o.a o.v (ofTy o.ty o.d)
  | .atomCas o =>
    { rs := base (!o.spad) false o.a ++ ofTy o.ty o.b ++ ofTy o.ty o.c, rd := ofTy o.ty o.d }
  | .redAdd o | .redMin o | .redMax o | .redAnd o | .redOr o | .redXor o => atom o.ty o.spad o.a o.v []
  | .barArrive o => { rs := src32 o.count, rd := one o.d }
  | .barWait o => { rs := one o.a }
  | .barSync o => { rs := src32 o.count }
  | .waita o => { rs := pairR o.a ++ ofSrc o.ty o.b, rd := ofTy o.ty o.d }
  | .rdsr o => { rd := match srInfo o.sr.toNat with
      | some i => if i.wide then pairR o.d else one o.d
      | none => one o.d }
  | .wrsr o => { rs := match srInfo o.sr.toNat with
      | some i => if i.wide then pairR o.a else one o.a
      | none => one o.a }
  | .qpush o => { rs := runR o.a (Check.queueRun o.q.toNat) }
  | .qpop o =>
    { rd := runR o.d (Check.queueRun o.q.toNat), pd := match o.pp with | some p => [p.toNat] | none => [] }
  | .qpeek o =>
    { rd := runR o.d (Check.queueRun o.q.toNat), pd := match o.pp with | some p => [p.toNat] | none => [] }
  | .cpy o => { rs := one o.a }
  | .publ o => { rs := pairR o.a ++ pairR o.b ++ pairR o.c }
  | .reca o => { rs := src32 o.node, rd := pairR o.d }
  | .recp o => { rs := pairR o.a ++ src32 o.node }
  | .recf o => { rs := pairR o.a }
  | .own o => { rs := pairR o.a, rd := one o.d }
  | .ownLaunch o => { rs := pairR o.a ++ one o.b, rd := one o.d }
  | .await o | .rslv o => { rs := pairR o.a, rd := one o.d }
  | .lnch o => { rs := one o.a ++ src32 o.q, rd := one o.d }
  | .tilebClear o | .tilebLoad o => { rs := pairR o.a ++ one o.b }
  | .pathb o => { rs := one o.a ++ one o.b }
  | .segl o => { rs := runR o.a 4 }
  | .segq o => { rs := runR o.a 6 }
  | .spanp o => { rd := runR o.d 3, pd := [o.p.toNat] }
  | .blndOver o | .blndSrc o | .blndAdd o | .blndDrop o => { rs := one o.a ++ runR o.b 4 }
  | .tex o | .tld o => { rs := pairR o.a ++ runR o.b 4, rd := runR o.d 4 }
  | .texAniso o => { rs := pairR o.a ++ runR o.b 6, rd := runR o.d 4 }
  | .texq o => { rs := pairR o.a ++ one o.b, rd := runR o.d 4 }
  | _ => {}

/-- What an instruction reads or writes, guard included: the registers whose pending results it touches (R112). -/
def Instr.touchesReg (i : Instr) (r : Nat) : Bool := i.uses.rs.contains r || i.uses.rd.contains r
def Instr.touchesPred (i : Instr) (p : Nat) : Bool :=
  i.uses.ps.contains p || i.uses.pd.contains p || i.guard.p.toNat == p

/-- The predicates an instruction reads, guard included. -/
def Instr.predReads (i : Instr) : List Nat := i.guard.p.toNat :: i.uses.ps

namespace PairRule

/-- Rows 0–2 less CVT and the transcendentals (R116). -/
def pairable (opc : Nat) : Bool := opc < 0x28 && opc != 0x0D

def isMul (opc : Nat) : Bool := opc == 0x03 || opc == 0x04

/-- Rule 5: the second operation touches nothing the first writes; a write to p7 is discarded and is none (R82). -/
def independent (i j : Instr) : Bool :=
  let pd := i.uses.pd.filter (· != 7)
  i.uses.rd.all (fun r => !(j.uses.rs.contains r || j.uses.rd.contains r))
  && pd.all (fun p => !(j.predReads.contains p || j.uses.pd.contains p))

/-- Rule 6: no bank supplies more than two source reads. -/
def banks (i j : Instr) : Bool :=
  let reads := (i.uses.rs ++ j.uses.rs).eraseDups
  [0, 1, 2, 3].all fun b => (reads.filter (fun r => r % 4 == b)).length ≤ 2

def legal (la : BitVec 4) (o1 o2 : Nat) (i j : Instr) : Bool :=
  pairable o1 && pairable o2 && !(isMul o1 && isMul o2) && la == 0 && independent i j && banks i j

end PairRule

/-- Which kind of stream a word stands in (R117). -/
inductive StreamKind where
  | lane | matrix
deriving DecidableEq, Repr

/-- The outcome of decoding: an instruction and its length in bytes, a pair, or ILLEGAL with its sub-code and the length
in 4-byte words that R255 records (0 where the length has not been read). -/
inductive Decoded where
  | one (i : Instr) (len : Nat)
  | pair (i j : Instr)
  | illegal (s : Sub) (ilen : Nat)
deriving DecidableEq, Repr

/-- The second operation of a pair as a first word of 64 bits (R106). -/
def Raw.second (r : Raw) : Raw :=
  { h := { mod := r.ext.extractLsb' 41 16, b := r.ext.extractLsb' 31 10, a := r.ext.extractLsb' 21 10
           d := r.ext.extractLsb' 11 10, la := 0, gn := r.ext.extractLsb' 10 1, gp := r.ext.extractLsb' 7 3
           opc := r.ext.extractLsb' 0 7, pair := 0, len := 0 }
    ext := 0 }

/-- The first operation of a pair as a word of its own; its LA is judged by the pairing rules. -/
def Raw.first (r : Raw) : Raw := { h := { r.h with la := 0, pair := 0, len := 0 }, ext := 0 }

/-- An opcode of row 6 (R117). -/
def isRow6 (opc : BitVec 7) : Bool := opc.toNat / 16 == 6

/-- The unassigned opcodes of R118. -/
def unassigned (opc : BitVec 7) : Bool :=
  let o := opc.toNat
  o == 0x0E || o == 0x0F || o == 0x1F || (0x5D ≤ o && o ≤ 0x5F) || (0x69 ≤ o && o ≤ 0x6F) || 0x7D ≤ o

/-- Decode a lane-stream instruction that starts at byte `off` of its fetch block; `w` holds the bytes from there on. -/
def decodeLane (off : Nat) (w : BitVec 128) : Decoded :=
  let r := Raw.ofBits w
  if r.h.len = 3 then .illegal .length 0
  else
    let n := r.bytes
    let straddle : List Sub := if off + n > 32 then [.fetchStraddle] else []
    if r.h.len = 2 ∧ r.h.pair = 1 then
      let p := Parse.rows02 r.first
      let q := Parse.rows02 r.second
      let errs := straddle
        ++ (if isRow6 r.h.opc || isRow6 r.second.h.opc then [.stream] else [])
        ++ (if unassigned r.h.opc || unassigned r.second.h.opc then [.opcode] else [])
        ++ (if PairRule.legal r.h.la r.h.opc.toNat r.second.h.opc.toNat p.i q.i then [] else [.pair])
        ++ Check.resv (r.ext.extractLsb' 57 7 == 0)
        ++ p.errs ++ q.errs ++ p.i.errs ++ q.i.errs
      match Sub.lowest errs with
      | some s => .illegal s (n / 4)
      | none => .pair p.i q.i
    else
      let r' : Raw := if r.h.len = 0 then { r with ext := 0 } else if r.h.len = 1 then
        { r with ext := r.ext &&& 0xFFFFFFFF#64 } else r
      let p := Parse.any r'
      let errs := straddle
        ++ (if isRow6 r.h.opc then [.stream] else [])
        ++ (if unassigned r.h.opc then [.opcode] else [])
        ++ Check.resv (r.h.pair == 0) ++ p.errs ++ p.i.errs
      match Sub.lowest errs with
      | some s => .illegal s (n / 4)
      | none => .one p.i n

/-- Decode a matrix-stream word (R117). Every word of a matrix stream is one of 64 bits, so a word whose LEN says more is
STREAM at every offset, also at offset 24 of its block, where a word of that length would straddle (DEDUCED, log 78). -/
def decodeStream (w : BitVec 64) : Decoded :=
  let r : Raw := { h := W64.ofBits w, ext := 0 }
  if r.h.len = 3 then .illegal .length 0
  else
    let nop := r.h.opc == 0
    let bad := r.h.len != 0 || r.h.pair != 0 || (!nop && !(isRow6 r.h.opc && !unassigned r.h.opc))
      || (!nop && (r.h.gp != 7 || r.h.gn != 0 || r.h.la != 0))
    let p := if nop then Parse.rows02 r else Parse.row6 r
    let errs := (if bad then [.stream] else []) ++ p.errs ++ p.i.errs
    match Sub.lowest errs with
    | some s => .illegal s 2
    | none => .one p.i 8

/-- Decode a word of either stream. -/
def decode (k : StreamKind) (off : Nat) (w : BitVec 128) : Decoded :=
  match k with
  | .lane => decodeLane off w
  | .matrix => decodeStream (w.extractLsb' 0 64)

/-- The instruction the decoder reads from bits numbered as the opcode table numbers them: row-6 words as the matrix
stream reads them, every other word as a lane stream reads it at offset 0 of its block. A pair is two instructions and
gives none here. -/
def decodeTableWord (nbits w : Nat) : Option Instr :=
  let x := BitVec.ofNat 128 (w % 2 ^ nbits)
  let k := if isRow6 (x.extractLsb' 3 7) then StreamKind.matrix else StreamKind.lane
  match decode k 0 x with
  | .one i _ => some i
  | _ => none

/-! ### The encoder -/

/-- An encoded instruction: its length in bytes and its bits. -/
structure Enc where
  len : Nat
  bits : BitVec 128
deriving DecidableEq, Repr

namespace Encode

/-- MOD from SHAPE, BIMM, bits [61:52] and the TYPE code (R101). -/
def md (shape bimm : Bool) (x : BitVec 10) (t : BitVec 4) : BitVec 16 :=
  BitVec.ofBool shape ++ BitVec.ofBool bimm ++ x ++ t

def gw (g : Guard) (opc : BitVec 7) (len : BitVec 2) (la : BitVec 4) (d a b : BitVec 10) (m : BitVec 16) : BitVec 64 :=
  W64.bits { mod := m, b := b, a := a, d := d, la := la, gn := BitVec.ofBool g.neg, gp := g.p, opc := opc, pair := 0, len := len }

def e64 (w : BitVec 64) : Enc := { len := 8, bits := 0#64 ++ w }
def e96 (w : BitVec 64) (x : BitVec 32) : Enc := { len := 12, bits := 0#32 ++ x ++ w }
def e128 (w : BitVec 64) (x : BitVec 64) : Enc := { len := 16, bits := x ++ w }

/-- Register, BIMM, I32 or I64 form. -/
def srcForm (g : Guard) (opc : BitVec 7) (d a : BitVec 10) (x : BitVec 10) (t : Ty) : Src → Enc
  | .reg r => e64 (gw g opc 0 0 d a r (md false false x t.code))
  | .imm10 i => e64 (gw g opc 0 0 d a i (md false true x t.code))
  | .imm32 i => e96 (gw g opc 1 0 d a 0 (md true false x t.code)) i
  | .imm64 i => e128 (gw g opc 2 0 d a 0 (md true false x t.code)) i

def t64 (g : Guard) (opc : BitVec 7) (la : BitVec 4) (d a b : BitVec 10) (x : BitVec 10) (t : Ty) : Enc :=
  e64 (gw g opc 0 la d a b (md false false x t.code))

/-- A 96-bit R3 form with third register `c` and extended bits `xm`. -/
def r3 (g : Guard) (opc : BitVec 7) (la : BitVec 4) (d a b c : BitVec 10) (bimm : Bool) (x : BitVec 10) (t : Ty) (xm : BitVec 22) : Enc :=
  e96 (gw g opc 1 la d a b (md false bimm x t.code)) (xm ++ c)

def bin (opc : BitVec 7) (o : BinOp) : Enc := srcForm o.g opc o.d o.a 0 o.ty o.b
def int (opc : BitVec 7) (o : IntOp) : Enc :=
  srcForm o.g opc o.d o.a (0#8 ++ BitVec.ofBool o.hi ++ BitVec.ofBool o.sat) o.ty o.b
def flt (opc : BitVec 7) (o : FltOp) : Enc := srcForm o.g opc o.d o.a (0#7 ++ o.rnd) o.ty o.b
def cmp (opc : BitVec 7) (o : CmpOp) : Enc := srcForm o.g opc o.p o.a (0#7 ++ o.cc) o.ty o.b
def un (opc : BitVec 7) (o : UnOp) : Enc := t64 o.g opc 0 o.d o.a 0 0 o.ty
def trans (opc : BitVec 7) (o : TransOp) : Enc := t64 o.g opc o.la o.d o.a 0 0 o.ty
def shfl (mode : BitVec 2) (o : BinOp) : Enc := srcForm o.g 0x30 o.d o.a (0#8 ++ mode) o.ty o.b
def vote (mode : BitVec 2) (o : VoteOp) : Enc := t64 o.g 0x32 0 o.p o.a 0 (0#8 ++ mode) .b32
def redx (op : BitVec 3) (o : UnOp) : Enc := t64 o.g 0x33 0 o.d o.a 0 (0#7 ++ op) o.ty
def scan (op : BitVec 3) (o : ScanOp) : Enc := t64 o.g 0x34 0 o.d o.a 0 (0#6 ++ BitVec.ofBool o.excl ++ op) o.ty

/-- The 20-bit field of [47:28] as A and B. -/
def lo10 (x : BitVec 20) : BitVec 10 := x.extractLsb' 0 10
def hi10 (x : BitVec 20) : BitVec 10 := x.extractLsb' 10 10

def br (opc : BitVec 7) (o : BrOp) : Enc :=
  let x : BitVec 10 := 0#1 ++ BitVec.ofBool o.u ++ o.pri
  match o.off with
  | .off20 f => t64 o.g opc 0 0 (lo10 f) (hi10 f) x .b32
  | .off32 f => e96 (gw o.g opc 1 0 0 0 0 (md true false x 0)) f

def code (opc : BitVec 7) (g : Guard) (c : BitVec 16) : Enc :=
  t64 g opc 0 0 (lo10 (0#4 ++ c)) (hi10 (0#4 ++ c)) 0 .b32

/-- Loads and stores (R409, R470): bits [61:52] are ABS, ORDER, SCOPE or WIN, BCAST, SZ. -/
def mem (g : Guard) (opc : BitVec 7) (la : BitVec 4) (d a : BitVec 10) (x : BitVec 10) (t : Ty) : MOff → Enc
  | .none => t64 g opc la d a 0 x t
  | .b10 i => e64 (gw g opc 0 la d a i (md false true x t.code))
  | .i32 i => e96 (gw g opc 1 la d a 0 (md true false x t.code)) i

def memX (abs : Bool) (order scope : BitVec 3) (bcast : Bool) (sz : BitVec 2) : BitVec 10 :=
  BitVec.ofBool abs ++ order ++ scope ++ BitVec.ofBool bcast ++ sz

def atomX (spad : Bool) (order scope op : BitVec 3) : BitVec 10 := BitVec.ofBool spad ++ order ++ scope ++ op

def atom (op : BitVec 3) (o : AtomOp) : Enc :=
  let x := atomX o.spad o.order o.scope op
  let (b, bimm) : BitVec 10 × Bool := match o.v with
    | .imm10 i => (i, true)
    | .reg r => (r, false)
    | _ => (0, false)
  match o.off with
  | none => e64 (gw o.g 0x46 0 o.la o.d o.a b (md false bimm x o.ty.code))
  | some f => r3 o.g 0x46 o.la o.d o.a b 0 bimm x o.ty (0#6 ++ f)

def red (op : BitVec 3) (o : RedOp) : Enc :=
  let x := atomX o.spad o.order o.scope op
  let (b, bimm) : BitVec 10 × Bool := match o.v with
    | .imm10 i => (i, true)
    | .reg r => (r, false)
    | _ => (0, false)
  match o.off with
  | none => e64 (gw o.g 0x47 0 0 0 o.a b (md false bimm x o.ty.code))
  | some f => r3 o.g 0x47 0 0 o.a b 0 bimm x o.ty (0#6 ++ f)

def fence (order : BitVec 3) (o : FenceOp) : Enc := t64 o.g 0x48 0 0 0 0 (0#1 ++ order ++ o.scope ++ 0#3) .b32

def pp : Option (BitVec 3) → BitVec 10
  | none => 0
  | some p => 0#6 ++ p ++ 1#1

def ng : Guard := ⟨7, false⟩

def mstream (opc : BitVec 7) (d a b : BitVec 10) (x : BitVec 10) : Enc := t64 ng opc 0 d a b x .b32

def blnd (op : BitVec 2) (o : BlndOp) : Enc := t64 o.g 0x79 0 0 o.a o.b (0#8 ++ op) .b32

def bare (opc : BitVec 7) (g : Guard) : Enc := t64 g opc 0 0 0 0 0 .b32

end Encode

open Encode in
/-- The words of a well-formed instruction; an event has none. -/
def encode : Instr → Enc
  | .nop g => bare 0x00 g
  | .iadd o => int 0x01 o | .isub o => int 0x02 o | .imul o => int 0x03 o
  | .imad o =>
    let x : BitVec 10 := 0#9 ++ BitVec.ofBool o.sat
    (match o.c with
     | none => t64 o.g 0x04 0 o.d o.a o.b x o.ty
     | some c => r3 o.g 0x04 0 o.d o.a o.b c false x o.ty 0)
  | .imin o => int 0x05 o | .imax o => int 0x06 o
  | .iabs o => t64 o.g 0x07 0 o.d o.a 0 (0#9 ++ BitVec.ofBool o.sat) o.ty
  | .icmp o => cmp 0x08 o
  | .lea o => srcForm o.g 0x09 o.d o.a (0#6 ++ o.sh) o.ty o.b
  | .aff o => bin 0x0A o
  | .sel o => srcForm o.g 0x0B o.d o.a (0#7 ++ o.p) o.ty o.b
  | .mov o =>
    (match o.b with
     | .reg r => t64 o.g 0x0C 0 o.d r 0 0 o.ty
     | s => srcForm o.g 0x0C o.d 0 0 o.ty s)
  | .cvt o => e64 (gw o.g 0x0D 0 0 o.d o.a o.ix (0#4 ++ BitVec.ofBool o.sat ++ o.rmode ++ o.sty.code ++ o.ty.code))
  | .and o => bin 0x10 o | .or o => bin 0x11 o | .xor o => bin 0x12 o
  | .not o => un 0x13 o
  | .shl o => bin 0x14 o | .shr o => bin 0x15 o
  | .rot o => srcForm o.g 0x16 o.d o.a (0#9 ++ BitVec.ofBool o.right) o.ty o.b
  | .clz o => un 0x17 o | .popc o => un 0x18 o | .brev o => un 0x19 o
  | .bfx o => bin 0x1A o
  | .bfi o =>
    (match o.ctl with
     | .imm32 i => e128 (gw o.g 0x1B 2 0 o.d o.a 0 (md false false 0 o.ty.code)) (i ++ 0#22 ++ o.c)
     | .reg r => r3 o.g 0x1B 0 o.d o.a r o.c false 0 o.ty 0
     | _ => r3 o.g 0x1B 0 o.d o.a 0 o.c false 0 o.ty 0)
  | .ilv o => t64 o.g 0x1C 0 o.d o.a o.b 0 o.ty
  | .dlv o => un 0x1D o
  | .plop o => t64 o.g 0x1E 0 (0#7 ++ o.d) (0#4 ++ o.c ++ o.a) (0#7 ++ o.b) (0#2 ++ o.lut) .b32
  | .fadd o => flt 0x20 o | .fmul o => flt 0x21 o
  | .ffma o =>
    (match o.c with
     | none => t64 o.g 0x22 0 o.d o.a o.b (0#7 ++ o.rnd) o.ty
     | some c => r3 o.g 0x22 0 o.d o.a o.b c false (0#7 ++ o.rnd) o.ty 0)
  | .fmin o => flt 0x23 o | .fmax o => flt 0x24 o
  | .fcmp o => cmp 0x25 o
  | .frnd o => t64 o.g 0x26 0 o.d o.a 0 (0#7 ++ o.rnd) o.ty
  | .fdot o => t64 o.g 0x27 0 o.d o.a o.b (0#7 ++ o.rnd) o.ty
  | .frcp o => trans 0x28 o | .frsq o => trans 0x29 o | .fsqrt o => trans 0x2A o | .fexp2 o => trans 0x2B o
  | .flog2 o => trans 0x2C o | .fsin o => trans 0x2D o | .fcos o => trans 0x2E o | .ftanh o => trans 0x2F o
  | .shflIdx o => shfl 0 o | .shflUp o => shfl 1 o | .shflDown o => shfl 2 o | .shflXor o => shfl 3 o
  | .lsend o => bin 0x31 o
  | .voteAny o => vote 0 o | .voteAll o => vote 1 o | .voteUni o => vote 2 o
  | .voteBallot o => t64 o.g 0x32 0 o.d o.a 0 3 .b32
  | .redxAdd o => redx 0 o | .redxMin o => redx 1 o | .redxMax o => redx 2 o
  | .redxAnd o => redx 3 o | .redxOr o => redx 4 o | .redxXor o => redx 5 o
  | .scanAdd o => scan 0 o | .scanMin o => scan 1 o | .scanMax o => scan 2 o
  | .scanAnd o => scan 3 o | .scanOr o => scan 4 o | .scanXor o => scan 5 o
  | .matchAny o => t64 o.g 0x35 0 o.d o.a 0 0 o.ty
  | .matchAll o => t64 o.g 0x35 0 o.p o.a 0 1 o.ty
  | .lpart g n => t64 g 0x36 0 0 0 0 (0#7 ++ n) .b32
  | .bra o => br 0x37 o
  | .brx o => e96 (gw o.g 0x38 1 0 0 o.a 0 (md true false (0#1 ++ BitVec.ofBool o.u ++ o.pri) 0)) o.off
  | .call o => br 0x39 o
  | .ret g u => t64 g 0x3A 0 0 0 0 (0#1 ++ BitVec.ofBool u ++ 0#8) .b32
  | .exit g => bare 0x3B g
  | .prio g n => t64 g 0x3C 0 0 0 0 (0#2 ++ n) .b32
  | .nap g n => t64 g 0x3D 0 0 0 0 n .b32
  | .bkpt g c => code 0x3E g c
  | .trap g c => code 0x3F g c
  | .ld o => mem o.g 0x40 o.la o.d o.a (memX false o.order o.scope o.bcast o.sz) o.ty o.off
  | .st o => mem o.g 0x41 0 o.d o.a (memX false o.order o.scope false o.sz) o.ty o.off
  | .lds o => mem o.g 0x42 o.la o.d o.a (memX o.abs o.order o.scope o.bcast o.sz) o.ty o.off
  | .sts o => mem o.g 0x43 0 o.d o.a (memX o.abs o.order o.scope false o.sz) o.ty o.off
  | .ldp o => mem o.g 0x44 o.la o.d o.a (memX o.abs 0 o.win o.bcast o.sz) o.ty o.off
  | .pref o => mem o.g 0x45 0 0 o.a (BitVec.ofBool o.abs ++ 0#8 ++ BitVec.ofBool o.l1) .b32 o.off
  | .atomAdd o => atom 0 o | .atomMin o => atom 1 o | .atomMax o => atom 2 o | .atomAnd o => atom 3 o
  | .atomOr o => atom 4 o | .atomXor o => atom 5 o | .atomExch o => atom 6 o
  | .atomCas o => r3 o.g 0x46 o.la o.d o.a o.b o.c false (atomX o.spad o.order o.scope 7) o.ty (0#6 ++ o.off)
  | .redAdd o => red 0 o | .redMin o => red 1 o | .redMax o => red 2 o | .redAnd o => red 3 o
  | .redOr o => red 4 o | .redXor o => red 5 o
  | .fenceAcq o => fence 1 o | .fenceRel o => fence 2 o | .fenceAr o => fence 3 o | .fenceSc o => fence 4 o
  | .barArrive o => srcForm o.g 0x49 o.d 0 (0#4 ++ 1#2 ++ o.k) .b32 o.count
  | .barWait o => t64 o.g 0x49 0 0 o.a 0 (0#4 ++ 2#2 ++ o.k) .b32
  | .barSync o => srcForm o.g 0x49 0 0 (0#4 ++ 3#2 ++ o.k) .b32 o.count
  | .waita o => srcForm o.g 0x4A o.d o.a (0#1 ++ o.order ++ o.scope ++ 0#3) o.ty o.b
  | .rdsr o => t64 o.g 0x4B 0 o.d o.sr 0 0 .b32
  | .wrsr o => t64 o.g 0x4C 0 o.sr o.a 0 0 .b32
  | .tret => bare 0x4D ng
  | .tretSkip => t64 ng 0x4D 0 0 0 0 1 .b32
  | .kill g => bare 0x4E g
  | .killGrp g => t64 g 0x4E 0 0 0 0 1 .b32
  | .killTeam g => t64 g 0x4E 0 0 0 0 2 .b32
  | .halt => bare 0x4F ng
  | .qpush o => t64 o.g 0x50 0 o.q o.a 0 0 .b32
  | .qpop o => t64 o.g 0x51 o.la o.d o.q 0 (pp o.pp) .b32
  | .qpeek o => t64 o.g 0x52 0 o.d o.q 0 (pp o.pp) .b32
  | .cpy o => t64 o.g 0x53 0 0 o.a 0 0 .b32
  | .publ o => r3 o.g 0x54 0 0 o.a o.b o.c false 0 .b32 0
  | .reca o => srcForm o.g 0x55 o.d 0 0 .b32 o.node
  | .recp o => srcForm o.g 0x56 0 o.a 0 .b32 o.node
  | .recf o => t64 o.g 0x57 0 0 o.a 0 0 .b32
  | .own o => t64 o.g 0x58 0 o.d o.a 0 (0#8 ++ o.kind) .b32
  | .ownLaunch o => t64 o.g 0x58 0 o.d o.a o.b (0#7 ++ 1#1 ++ o.kind) .b32
  | .await o => t64 o.g 0x59 0 o.d o.a 0 0 .b32
  | .rslv o => t64 o.g 0x5A 0 o.d o.a 0 0 .b32
  | .lnch o => srcForm o.g 0x5B o.d o.a 0 .b32 o.q
  | .yield g => bare 0x5C g
  | .mset d i => mstream 0x60 d (lo10 i) (hi10 i) 0
  | .msetHi d i => mstream 0x60 d (lo10 (0#8 ++ i)) (hi10 (0#8 ++ i)) 1
  | .minc d a b => srcForm ng 0x61 d a 0 .b32 b
  | .mloop d f => mstream 0x62 d (lo10 f) (hi10 f) 0
  | .mbarArrive b c => mstream 0x63 b 0 c 1
  | .mbarWait b a => mstream 0x63 b a 0 2
  | .mbarArriveWait b c => mstream 0x63 b 0 c 3
  | .mwld t a b => t64 ng 0x64 0 0 a b 0 t
  | .mstr o =>
    t64 ng 0x65 0 o.d o.a o.b
      (0#1 ++ BitVec.ofBool o.asc ++ BitVec.ofBool o.zc ++ BitVec.ofBool o.nb ++ BitVec.ofBool o.na
        ++ BitVec.ofBool o.ebe ++ o.k) o.ty
  | .mepi d a b s => mstream 0x66 d a b (0#9 ++ BitVec.ofBool s)
  | .mcfg a => mstream 0x67 0 a 0 0
  | .mend => mstream 0x68 0 0 0 0
  | .tilebClear o => e96 (gw o.g 0x70 1 0 o.b o.a 0 (md true false 0 0)) o.coff
  | .tilebLoad o => e96 (gw o.g 0x70 1 0 o.b o.a 0 (md true false 1 0)) o.coff
  | .tilef g => bare 0x71 g
  | .pathb o => t64 o.g 0x72 0 0 o.a o.b (0#8 ++ BitVec.ofBool o.clip ++ BitVec.ofBool o.eo) .b32
  | .pathe g => bare 0x73 g
  | .segl o => t64 o.g 0x74 0 0 o.a 0 0 .b32
  | .segq o => t64 o.g 0x75 0 0 o.a 0 0 .b32
  | .clipp g => bare 0x76 g
  | .clipx g => bare 0x77 g
  | .spanp o => t64 o.g 0x78 o.la o.d 0 0 (0#7 ++ o.p) .b32
  | .blndOver o => blnd 0 o | .blndSrc o => blnd 1 o | .blndAdd o => blnd 2 o | .blndDrop o => blnd 3 o
  | .tex o => t64 o.g 0x7A o.la o.d o.a o.b 0 .b32
  | .texAniso o => t64 o.g 0x7A o.la o.d o.a o.b 1 .b32
  | .tld o => t64 o.g 0x7B o.la o.d o.a o.b 0 .b32
  | .texq o => t64 o.g 0x7C 0 o.d o.a o.b 0 .b32
  | _ => { len := 0, bits := 0 }

/-- The stream an instruction's word stands in. -/
def Instr.kind : Instr → StreamKind
  | .mset .. | .msetHi .. | .minc .. | .mloop .. | .mbarArrive .. | .mbarWait .. | .mbarArriveWait .. | .mwld ..
  | .mstr .. | .mepi .. | .mcfg .. | .mend => .matrix
  | _ => .lane

/-- A pair in its 128-bit form (R106), from the 64-bit forms of its two operations. -/
def encodePair (i j : Instr) : BitVec 128 :=
  let p := W64.ofBits ((encode i).bits.extractLsb' 0 64)
  let q := W64.ofBits ((encode j).bits.extractLsb' 0 64)
  let hi : BitVec 64 := 0#7 ++ q.mod ++ q.b ++ q.a ++ q.d ++ q.gn ++ q.gp ++ q.opc
  hi ++ W64.bits { p with pair := 1, len := 2 }

end Sys2Proof
end

