-- ==== Sys2Proof/Config.lean ====
section
/-! DEFINITION. What an implementation fixes and what the spec leaves open: constants without a body, of which no proof can
see a value. Each is named in a row of the assumption log. -/

namespace Sys2Proof.Config

/-- Where a store to a valid page-table entry was made without invalidation, the translation in use is unspecified between
the old and the new entry, per access (R154): true takes the new one. -/
opaque takesNewEntry : Nat → Bool

/-- A texture read may be served from the core's texture cache (R330): true takes the bytes that it holds. -/
opaque fromTexCache : Nat → Bool

/-- A fetch of a block of code that a store has changed may see the block as it was (R99): true takes the old block. -/
opaque fromOldCode : Nat → Bool

/-- A byte of a packet that the producer's overrun has made unspecified (R218). -/
opaque freeByte : Nat → BitVec 8

/-- The texel coordinate of an infinite normalised coordinate on an axis of `n` texels, in units of 2^-16 texel: R328 states no
result for it. -/
opaque texInfinite : (neg : Bool) → (n : Nat) → Int

/-- SHA3-512, which the boot rules name and do not define (R347 to R349). -/
opaque sha3 : List (BitVec 8) → List (BitVec 8)

/-- ML-DSA-87 verification of a signature over a digest under a public key (R347). -/
opaque mldsaVerify : (key digest sig : List (BitVec 8)) → Bool

/-- ML-DSA-87 signature of the package's attestation key over a message (R349). -/
opaque mldsaSign : List (BitVec 8) → List (BitVec 8)

/-- The attestation public key, derived from die 0's PUF identity (R349). -/
opaque attestationKey : List (BitVec 8)

/-- The 64-byte key hash in boot ROM (R347). -/
opaque bootKeyHash : List (BitVec 8)

/-- The identity each die derives from its SRAM-PUF at boot (R348). -/
opaque pufIdentity : Nat → Nat

/-- The bytes of the configuration record that an image's payload carries for the identity of the given number (R348, R349). -/
opaque configRecord : (payload : List (BitVec 8)) → (identity : Nat) → List (BitVec 8)

/-- The identities of the configuration records that an image's payload carries, and its signature covers (R347, R348). -/
opaque recordIdentities : List (BitVec 8) → List Nat

/-- Whether a walk of a table entry that was changed without invalidation sees the new entry (R154): true sees it. -/
opaque entrySeen : Nat → Bool

/-- Whether the pipe that a ready group's head needs can accept it at a turn of another group of its slot (R75). -/
opaque pipeAccepts : Nat → Bool

/-- Whether a drift command that a stop finds under way finishes within the 2 µs before it would be cancelled (R268): true finishes. -/
opaque drains : Nat → Bool

/-- The HBM stack of a die that holds a line (R340). -/
opaque stackOf : (die phys : Nat) → Bool

/-- The DRAM row of a die that holds a physical address (R271, R343). -/
opaque dramRow : (die phys : Nat) → Nat

/-- The package power in watts that given voltages and clocks of the islands stand for (R344). -/
opaque packagePower : List (Nat × Nat) → Nat

/-- A byte of a save record into which two fields go and whose packing no rule gives (R270, R316): 0 the fill rule and clip op of a path,
1 the OP and TYPE of a held store entry, 2 its ORDER and SCOPE. -/
opaque packedByte : (which a b : Nat) → BitVec 8

end Sys2Proof.Config
end

