-- ==== Sys2Proof/Machine/State.lean ====
section
/-! DEFINITION. The state of one Z877 package: everything the spec names, as plain data; the reasons a step can stop; the
state after reset. -/

namespace Sys2Proof.Machine

/-! ### Groups -/

/-- A vector register with its shape tag (R79). A general register holds the 32 elements in lane order. -/
inductive VReg where
  | uniform (v : Word)
  | affine (b s : Word)
  | general (e : List Word)
deriving DecidableEq, Repr

/-- A frontier entry (R64); `handler` marks the privileged entries of R259 and `held` those that wait for the trap slot
(R65, R114, R260). -/
structure Entry where
  pc : DWord
  prio : BitVec 8
  lanes : Mask
  handler : Bool := false
  held : Bool := false
deriving DecidableEq, Repr

/-- A link-stack entry: return address and the caller's priority (R66, R93). -/
structure Link where
  ret : DWord
  prio : BitVec 8
deriving DecidableEq, Repr

/-- A trap on its way to a handler: cause code (R253), trapinfo, trapva. -/
structure Trap where
  cause : Nat
  info : Word
  va : DWord
deriving DecidableEq, Repr

/-- The group's trap slot (R259, R260): the four trap registers, the saved priority and the lane set. -/
structure TrapSlot where
  cause : Word
  info : Word
  pc : DWord
  va : DWord
  prio : BitVec 8
  lanes : Mask
deriving DecidableEq, Repr

/-- A fault found after issue and owed to the lanes of its bundle (R114). -/
structure Owed where
  trap : Trap
  lanes : Mask
  /-- The faulting bundle was a handler bundle (R260). -/
  handler : Bool
deriving DecidableEq, Repr

/-- What a pending long-latency result waits for. -/
inductive PendKind where
  /-- The result is known and only its landing is outstanding. -/
  | ready
  /-- A load: accesses in flight, or a replayable fault. -/
  | load
  /-- An LDS or scratchpad ATOM with lanes at another core of the cluster (R144, R185). -/
  | remote
  /-- An atomic in the store FIFO (R266: its destination stays pending while a fault holds it). -/
  | atom
deriving DecidableEq, Repr

/-- One lane's address of an access, or a piece of it: virtual, and the system address once translated. -/
structure LaneAddr where
  lane : Nat
  off : Nat := 0
  va : DWord
  sa : Option Nat := none
  bld : Bool := false
  data : DWord := 0
  cmp : DWord := 0
deriving DecidableEq, Repr

/-- A pending long-latency result (R110 to R113). `win` is the remaining window of each lane of `bundle`. -/
structure Pending where
  id : Nat
  kind : PendKind
  bundle : Mask
  active : Mask
  win : List Nat
  regs : List Nat
  preds : List Nat := []
  uniform : Bool := false
  /-- Result words of a known result, keyed by 32 × (position in `regs`) + lane. -/
  vals : SMap Word := []
  pvals : Mask := 0
  /-- Exception flags, by lane (R135). -/
  flags : SMap (BitVec 5) := []
  /-- Element bytes and sign extension of a load (R410). -/
  bytes : Nat := 4
  signExt : Bool := false
  /-- Bytes of one piece, and the KIND of its faults (R155). -/
  piece : Nat := 4
  faultKind : Nat := 0
  /-- The lane whose access serves every lane (R411). -/
  bcast : Option Nat := none
  /-- Bytes that have arrived, keyed by 8 × lane + byte. -/
  data : SMap Byte := []
  /-- Pieces that have not arrived, and those among them that a replayable fault holds. -/
  left : Nat := 0
  lanes : List LaneAddr := []
  scope : Nat := 0
  /-- The bundle was a handler bundle (R260). -/
  handler : Bool := false
deriving DecidableEq, Repr

/-- A fence whose waits are not over (R394): the fencing lanes, the store-FIFO entries, remote scratchpad accesses and pending
results that were there, and whether it then drops L1 lines. -/
structure Fence where
  acq : Bool
  /-- It is the acquire of an ordered access, which holds every later access (R192), not only those of R394. -/
  access : Bool := false
  lanes : Mask
  entries : List Nat
  remotes : List Nat
  pends : List Nat
deriving DecidableEq, Repr

/-- The operation of a store-FIFO entry (R358, R470). -/
inductive AtomFn where
  | store | add | min | max | and | or | xor | exch | cas
deriving DecidableEq, Repr

inductive FifoKind where
  | st | red | atom
deriving DecidableEq, Repr

/-- One entry of a group's store FIFO (R183, R184). -/
structure StoreEntry where
  id : Nat
  kind : FifoKind
  fn : AtomFn
  ty : Ty
  bytes : Nat
  order : Nat
  scope : Nat
  bundle : Mask
  lanes : List LaneAddr
  /-- The pending result an ATOM writes. -/
  pend : Nat := 0
  /-- Fault-buffer entries that hold it (R155). -/
  faults : List Nat := []
  /-- Handed to the fabric, with this many accesses not yet performed. -/
  handed : Bool := false
  left : Nat := 0
  /-- Lanes that have read bytes of it from the queue (R183, R191). -/
  readers : Mask := 0
  /-- The bundle was a handler bundle (R260). -/
  handler : Bool := false
deriving DecidableEq, Repr

/-- What a blocked instruction waits for. It has taken no effect and issues again from its start. -/
inductive Wait where
  | queue (q : Nat)
  | lines
  | tile (entry : Option Nat)
  | accumulator
  /-- RECA on the stockpile, and the entry of R243 once it has been relieved. -/
  | stock (entry : Option Nat)
  | launchRoom
  | access
  /-- PUBL, for the team's kind 3 commands that were enqueued before it (R176). -/
  | drift
deriving DecidableEq, Repr

/-- Why a group does not issue. -/
inductive Park where
  | none
  /-- Blocked before taking effect; it issues again from its start. -/
  | retry (w : Wait)
  /-- An access of the group waits in the fault buffer (R155). -/
  | fault (id : Nat)
  /-- WAITA (R179): the watched lines, and whether a wake has arrived. -/
  | waita (lines : List Nat) (woken : Bool)
  /-- BAR wait after its arrival (R256): barrier and the GEN it waits to pass. -/
  | bar (k : Nat) (gen : BitVec 32)
  /-- AWAIT after registration (R240): the destination register and, per lane, the entry it waits on, if there is one. -/
  | await (d : Nat) (lanes : List (Nat × Option Nat))
  /-- PUBL waiting for its ordered invalidation (R176). -/
  | publ (inval : Nat)
  /-- NAP until a cycle of the core (R426). -/
  | nap (wake : Nat)
deriving DecidableEq, Repr

/-- A denied fault whose trap is still to be taken at the instruction that waited for it (R114, R156): the trap, the frontier
entry, and whether the fault was that of the instruction's own fetch. -/
structure Denied where
  trap : Trap
  pc : DWord
  handler : Bool
  fetch : Bool
deriving DecidableEq, Repr

/-- A framebuffer descriptor (R318). -/
structure FrameBuf where
  base : DWord
  fmt : Nat
  cmpr : Bool
  tw : Nat
  th : Nat
  clear : List Byte
  sigbase : DWord
deriving DecidableEq, Repr

/-- One resident or saved group. Registers and predicates are sparse: unlisted registers are uniform zero, unlisted
predicates false in every lane (R78). -/
structure Group where
  num : Nat
  rows : Nat
  regs : SMap VReg := []
  preds : SMap Mask := []
  frontier : List Entry
  links : SMap (List Link) := []
  fpflags : BitVec 5 := 0
  paramoob : BitVec 8 := 0
  seed : DWord := 0
  lpart : BitVec 3 := 5
  slot : Option TrapSlot := none
  pending : List Pending := []
  fifo : List StoreEntry := []
  park : Park := .none
  parkedSince : Nat := 0
  /-- What it waits for has come, or may have, since it last looked: it is parked no more (R249). -/
  due : Bool := false
  owed : List Owed := []
  fences : List Fence := []
  /-- The kind 3 commands that a PUBL which has not gone on found before it at its first look (R176). -/
  publSeen : Option (List Nat) := none
  /-- What a parked TILEB or TILEF read of its descriptor at issue (R320). -/
  fbRead : Option FrameBuf := none
  deny : Option Denied := none
  /-- The reading of the handler record was denied (R490). -/
  hvaDenied : Bool := false
  /-- The live set that its last save used; none where every register was live (R92, R93). -/
  liveSaved : Option Nat := none
deriving DecidableEq, Repr

/-! ### Teams -/

/-- A parameter window (R145): bytes of memory, or the batch block of a node team (R232). -/
inductive Window where
  | mem (base : DWord) (size : Nat)
  | block (bytes : List Byte)
deriving DecidableEq, Repr

/-- One drift-engine command (R172 to R177), its descriptor taken apart at the push. -/
structure DriftCmd where
  id : Nat
  kind : Nat
  sfmt : Nat
  gfmt : Nat
  elems : Nat
  rows : Nat
  soff : Nat
  gstride : Int
  gaddr : DWord
  /-- The scratchpad offset of its descriptor, which is its entry in `q0` (R442). -/
  off : Word := 0
  mcast : Nat
  permit : Bool
  pbar : Nat
  arrive : Bool
  abar : Nat
  complete : Bool
  tag : Word
  /-- GEN of PBAR at the enqueue (R174, R268). -/
  enqGen : BitVec 32
  /-- Taken from `q0` by the engine. -/
  started : Bool := false
  permitted : Bool := false
  /-- Lines still to fill: cluster position and line number. -/
  left : List (Nat × Nat) := []
  /-- Elements that have been written, or blocks that are raw, of a command that is under way (R175). -/
  did : List Nat := []
  faults : List Nat := []
  /-- Its writes are done; the arrival and the TAG are what remains (R256, R175). -/
  finished : Bool := false
  owesArrival : Bool := false
  owesTag : Bool := false
deriving DecidableEq, Repr

/-- The latched weights of a stream (R275, R281): the operands of its last MWLD, and the bytes the last load or replay read. -/
structure Weights where
  ty : Ty
  tileOff : Word
  sideOff : Word
  tile : List Byte
  side : List Byte
deriving DecidableEq, Repr

/-- Why a matrix stream does not run. -/
inductive StreamPark where
  | none
  | bar (k : Nat) (gen : BitVec 32)
  | fault (id : Nat)
deriving DecidableEq, Repr

/-- A team's matrix sequencer (R84, R273 to R291). -/
structure Stream where
  pc : DWord
  m : SMap Word := []
  weights : Option Weights := none
  ctl : DWord := 0
  seed : DWord := 0
  park : StreamPark := .none
  ended : Bool := false
  /-- The stream has resumed, and the replay of its last MWLD is still to be done (R267, R269). -/
  owesReplay : Bool := false
deriving DecidableEq, Repr

/-- A command of the path stream in `q2` (R296, R443). -/
inductive CovCmd where
  | pathb (eo clip : Bool) (seq paint : Word)
  | line (p : List Int)
  | quad (p : List Int)
  | pathe
  | clipp
  | clipx
deriving DecidableEq, Repr

/-- BLND's operation (R310). -/
inductive BlendOp where
  | over | src | add | drop
deriving DecidableEq, Repr

/-- An outstanding or retired ticket (R308, R316); `op = none` while it is outstanding. -/
structure Ticket where
  num : Word
  word : Word
  paint : Word
  op : Option BlendOp
  colour : List Word := []
deriving DecidableEq, Repr

/-- A bound tile (R293), with the bundle that bound it. -/
structure Bound where
  coff : Nat
  tile : Word
  desc : DWord
  fb : FrameBuf
  /-- System address of the signature entry that TILEB locked, and the ownership entry it made. -/
  sigSa : Nat
  own : Option Nat
  load : Bool
  /-- Lines of the colour buffer that TILEB's fill still owes, and the id of the fill (R91). -/
  fill : List Nat
  fillId : Nat
  grp : Nat
  lanes : Mask
  handler : Bool
  /-- The fill ended by a fatal fault or MEMFMT (R312). -/
  dead : Bool := false
  /-- A TILEF is writing: its CRC, and the blocks it has written (R312, R323). -/
  crc : Option DWord := none
  written : List Nat := []
  /-- A TILEF is ending by this trap, its signature entry still to be written with VALID = 0 (R480). -/
  ending : Option Trap := none
deriving DecidableEq, Repr

/-- The team's coverage state (R293 to R316): the state the core checks at issue, the queues, and the unit's own. -/
structure Cov where
  bound : Option Bound := none
  /-- Holds one of the core's four accumulators, and held one when it was last stopped (R315, R316). -/
  acc : Bool := false
  hadAcc : Bool := false
  pathOpen : Bool := false
  last : Option Word := none
  depth : Nat := 0
  q2 : List CovCmd := []
  uEo : Bool := false
  uClip : Bool := false
  uSeq : Word := 0
  uPaint : Word := 0
  /-- Cells A and C and the carry-ins K, keyed by 16Y + X, 256 + 16Y + X and 512 + Y (R298). -/
  cells : SMap (BitVec 32) := []
  /-- Clip layers, bottom first, 256 values each (R306). -/
  layers : List (List Nat) := []
  staging : List (Word × Word) := []
  q3 : List (Word × Word) := []
  popped : Word := 0
  tickets : List Ticket := []
deriving DecidableEq, Repr

/-- A candidate for placement: a swapped team, an unstarted launch, or a closed batch of a launch (R224). -/
inductive Cand where
  | team (tid : Nat)
  | launch (l : Nat)
  | batch (l b : Nat)
deriving DecidableEq, Repr

/-- Where a team stands. -/
inductive Place where
  /-- Placed; the prologue engine has not finished (R171). -/
  | prologue
  | running
  /-- Stopped for a swap since a tick; its drift commands drain (R268). It is ready once it is caged where `ready` says so. -/
  | draining (ready : Bool) (since : Nat)
  /-- In the cage or its spill (R18, R341). -/
  | caged (spill : Bool)
deriving DecidableEq, Repr

/-- One team, resident or saved. -/
structure Team where
  id : Nat
  launch : Nat
  ctx : Nat
  cls : Nat
  lid : Word
  det : Bool := false
  node : Option Nat := none
  batch : Nat := 0
  /-- Slots of its batch that RECF has not freed (R452). -/
  batchSlots : List Nat := []
  die : Nat
  core : Nat
  slot : Nat
  base : Nat
  unit : Nat
  reg : Nat
  scr : Nat
  acc : Nat
  index : Nat
  x : Word
  y : Word
  z : Word
  cluster : Nat
  cx : Nat
  cy : Nat
  cw : Nat
  ch : Nat
  code : DWord
  live : DWord
  mstream : DWord
  rows : Nat
  ngroups : Nat
  windows : List (Option Window)
  xfCount : Nat := 0
  xfAddr : DWord := 0
  groups : List Group
  stream : Option Stream := none
  scratch : SMap Byte := []
  /-- Absent scratchpad lines (R91): line number to one more than the id of the fill it waits for. -/
  absent : SMap Nat := []
  /-- Barrier words (R85). -/
  bars : SMap DWord := []
  /-- The phases that an engine arrival was part of: barrier and GEN (R198). -/
  engPhases : List (Nat × BitVec 32) := []
  cmds : List DriftCmd := []
  q1 : List Word := []
  q4 : List (Nat × DWord) := []
  q6 : List Word := []
  q7 : List Word := []
  tiles : SMap Word := []
  cov : Cov := {}
  place : Place
  halted : Bool := false
  /-- It goes, or has gone, to the spill area that keeps the teams of a die which stops compute (R341). -/
  saving : Bool := false
  /-- Its record lies in HBM: the die's cage was full (R18), or it was saved there (R341). -/
  overflow : Bool := false
  /-- Ready to be placed again, and the tick at which it became so (R224). -/
  readyAt : Option Nat := none
  placedAt : Nat := 0
  /-- Relief depth and the ownership entry it relieves (R245, R242). -/
  depth : Nat := 0
  relieves : Option Nat := none
  /-- A node team launched by relief, which CAP does not count (R233). -/
  byRelief : Bool := false
  /-- The entry whose relief swapped it out, until that is over, and the team that was placed for it (R246). -/
  relievedBy : Option Nat := none
  reliever : Option Nat := none
  /-- Its class for R224 and R226 (R225). -/
  eff : Nat := 3
  /-- The candidate to be placed ahead of it (R77, R489). -/
  after : Option Cand := none
  /-- The prologue stopped: only group 0 issues until it has left the handler (R171). -/
  gated : Bool := false
  /-- The prologue is over (R266). -/
  begun : Bool := false
  /-- Engine and stream traps that wait for delivery (R260, R291). -/
  engTraps : List Trap := []
  /-- One more than the die's cycle in which an event last ended the park of one of its groups (R249). -/
  eventAt : Nat := 0
  /-- Prologue or stream-fetch fault being waited for. -/
  prologueFault : Option Nat := none
deriving DecidableEq, Repr

/-! ### Memory system -/

/-- A cached valid translation (R154): context, page base and bytes, system address of the page, and the leaf's bits. -/
structure TlbEntry where
  ctx : Nat
  va : Nat
  size : Nat
  sa : Nat
  bld : Bool
  w : Bool
  x : Bool
deriving DecidableEq, Repr

/-- Who made a faulting access (R155, R157, R490). -/
inductive FaultReq where
  | load (tid grp pend : Nat)
  | fifo (tid grp entry : Nat)
  | insn (tid grp : Nat)
  | fetch (tid grp : Nat)
  | streamFetch (tid : Nat)
  | drift (tid cmd : Nat)
  | prologue (tid : Nat)
  | tileFill (tid : Nat)
  /-- A write of TILEF (R480), and a read of TEX or TLD (R477). -/
  | tileWrite (tid grp : Nat)
  | tex (tid grp : Nat)
  | queue (partition q : Nat)
  /-- A table that a packet's validation reads, with the refusal reason it gives (R490). -/
  | table (partition q reason : Nat)
  | completion (launch : Nat)
  | ownArea (ctx index : Nat)
  | handler (tid grp : Nat)
  /-- Its requester has left; the entry stays until firmware resolves it (R157). -/
  | gone
deriving DecidableEq, Repr

/-- A fault-buffer entry (R155); `slot` is false while it waits for a slot (R156). -/
structure FaultEntry where
  id : Nat
  /-- First address and bytes of the page that its lanes share. -/
  page : Nat × Nat
  die : Nat
  core : Nat
  ctx : Nat
  agent : Nat
  kind : Nat
  cause : Nat
  va : DWord
  slot : Bool
  req : FaultReq
deriving DecidableEq, Repr

inductive AccKind where
  | load | store | atom
deriving DecidableEq, Repr

/-- One access on its way to a home slice: the lanes of one bundle that fall in one 128-byte line (R182, R184), or one lane of
an atomic (R359). -/
structure Access where
  id : Nat
  kind : AccKind
  tid : Nat
  grp : Nat
  /-- The pending result (load) or the FIFO entry (store, atomic) it belongs to. -/
  owner : Nat
  ctx : Nat
  die : Nat
  core : Nat
  line : Nat
  lanes : List LaneAddr
  bytes : Nat
  scope : Nat
  /-- Store-FIFO entries that must have been performed first (R183, R359). -/
  after : List Nat := []
deriving DecidableEq, Repr

/-- What a remote scratchpad access does at the target's banks. -/
inductive RemoteOp where
  | read
  | op (fn : AtomFn)
deriving DecidableEq, Repr

/-- An access of one lane to a scratchpad, on its way to the target's banks (R144, R185): one at another core, or one at the own core
that the machine performs after its issue. A lane's `va` holds the 32-bit address; the accesses of one bundle share `issue`. -/
structure Remote where
  id : Nat
  issue : Nat
  tid : Nat
  grp : Nat
  target : Nat
  op : RemoteOp
  ty : Ty
  bytes : Nat
  /-- The pending result that its old or read values return to. -/
  pend : Option Nat
  bundle : Mask
  handler : Bool := false
  lanes : List LaneAddr
deriving DecidableEq, Repr

/-- A value that a page-table entry held before firmware changed it without an invalidation (R154), by physical address; `done`
holds the contexts and ranges that an ordered invalidation has covered since. -/
structure OldPte where
  pa : Nat
  value : Nat
  done : List (Nat × Nat × Nat) := []
deriving DecidableEq, Repr

/-- What an ordered invalidation is for (R154, R160, R176). -/
inductive InvalFor where
  | firmware
  | publ (tid grp : Nat)
deriving DecidableEq, Repr

/-- An ordered invalidation under way: accesses with an id below `barrier` that used a covered translation must return first. -/
structure Inval where
  id : Nat
  ctx : Nat
  ranges : List (Nat × Nat)
  barrier : Nat
  purpose : InvalFor
deriving DecidableEq, Repr

/-- A page migration (R160): the run of PTEs as it stood at step 1, by address. -/
structure Migration where
  id : Nat
  die : Nat
  ctx : Nat
  va : Nat
  size : Nat
  pteAddr : Nat
  run : List (BitVec 64)
  shadow : Nat
deriving DecidableEq, Repr

/-- A registered watch (R179). -/
structure Watch where
  line : Nat
  tid : Nat
  grp : Nat
deriving DecidableEq, Repr

/-- A line held for one context in a core's L1 (R182) or in its texture cache (R330). -/
structure L1Line where
  ctx : Nat
  line : Nat
  /-- The view of the leaf it was read through (R162). -/
  bld : Bool := false
  bytes : List Byte
deriving DecidableEq, Repr

/-! ### Launches, graphs, ownership -/

/-- One node of a work graph with its kernel record's fields (R229 to R231). -/
structure NodeInfo where
  krec : DWord
  timer : Nat
  cap : Nat
  count : Nat
  recsz : Nat
  code : DWord
  mstream : DWord
  live : DWord
  rows : Nat
  scr : Nat
  acc : Nat
  ngroups : Nat
deriving DecidableEq, Repr

/-- A forming or closed batch (R233). -/
structure Batch where
  id : Nat
  die : Nat
  node : Nat
  recs : List DWord
  first : Nat
  closedAt : Option Nat
deriving DecidableEq, Repr

/-- A work graph of an accepted launch (R229 to R237). -/
structure Graph where
  desc : DWord
  nodes : List NodeInfo
  stock : DWord
  slots : Nat
  /-- Allocated slots: number, the allocating team while uncommitted. -/
  alloc : List (Nat × Option Nat)
  batches : List Batch
  pwordFail : Bool := false
deriving DecidableEq, Repr

/-- An accepted launch (R220 to R223). -/
structure Launch where
  id : Nat
  partition : Nat
  queue : Nat
  index : Nat
  lid : Word
  compval : Word
  compaddr : DWord
  ctx : Nat
  cls : Nat
  det : Bool
  serial : Bool
  deadline : Nat
  gx : Nat
  gy : Nat
  gz : Nat
  cw : Nat
  ch : Nat
  ngroups : Nat
  rows : Nat
  reg : Nat
  scr : Nat
  acc : Nat
  code : DWord
  live : DWord
  mstream : DWord
  windows : List (Option Window)
  xfCount : Nat
  xfAddr : DWord
  /-- Per die: next cluster to place and one past the last (R62, R63). -/
  next : List Nat
  last : List Nat
  graph : Option Graph
  /-- A team of it has been placed (R432). -/
  started : Bool := false
  /-- Tick at which it was accepted. -/
  acceptedAt : Nat := 0
  /-- Dies whose share of it is promoted, and since when (R244). -/
  promoted : List (Nat × Nat) := []
  /-- Status, reason and tick once complete, while the record is being written (R223). -/
  done : Option (Nat × Nat × Nat) := none
deriving DecidableEq, Repr

/-- A launch-queue table entry of a partition (R217). -/
structure Queue where
  partition : Nat
  num : Nat
  ctx : Nat
  header : DWord
  disabled : Bool := false
  /-- The front end has seen WRITE move (R218). -/
  doorbell : Bool := false
  fault : Option Nat := none
  /-- Refusal reasons of tables whose reading was denied (R490). -/
  denied : List Nat := []
  /-- Index and LID of the packets whose launches are over (R432). -/
  past : List (Nat × Word) := []
deriving DecidableEq, Repr

/-- Entry states of R238. -/
inductive OwnState where
  | free | unstarted | running | swapped | resolved | ended
deriving DecidableEq, Repr

/-- Who owns an object: a team, the launch of a packet (partition, queue, index), or a batch of a graph (R239, R243). -/
inductive Owner where
  | team (tid : Nat)
  | packet (partition queue index : Nat)
  | batch (b : Nat)
deriving DecidableEq, Repr

/-- An ownership entry (R238). -/
structure OwnEntry where
  id : Nat
  ctx : Nat
  index : Nat
  die : Nat
  obj : Nat
  kind : Nat
  state : OwnState
  waiters : Nat
  owner : Owner
  olid : Word
  oindex : Word
  wlid : Word := 0
  windex : Word := 0
  depth : Nat := 0
  link : Nat := 0x3FFF
deriving DecidableEq, Repr

/-- A context (R149, R238, R259): root, handler record, partition, ownership area. -/
structure Context where
  num : Nat
  root : Nat
  hva : DWord
  partition : Nat
  obase : DWord := 0
  ocap : Nat := 0
  /-- A write of the ownership area has failed (R238). -/
  areaFailed : Bool := false
deriving DecidableEq, Repr

structure Partition where
  num : Nat
  dies : List Nat
  urgency : Nat := 100000
deriving DecidableEq, Repr

/-- A boost lease (R345). -/
structure Lease where
  ctx : Nat
  die : Nat
  clock : Nat
  left : Nat
deriving DecidableEq, Repr

/-! ### Dies -/

/-- The thermal states of R338. -/
inductive Thermal where
  | off | warmIdle | cooldown | coldIdle | run | retreat | park | drain | warmup
deriving DecidableEq, Repr

/-- One voltage and frequency island (R344): the clock that it has been given, its current limit, the MHz by which the hardware keeps
its clock below that until firmware raises it, and its voltage in mV. -/
structure Island where
  mhz : Nat
  limit : Nat
  lowered : Nat := 0
  mv : Nat := 0
deriving DecidableEq, Repr

/-- A 32-byte block of code as a core last fetched it for one context (R96, R99); `block` is its system address over 32. -/
structure CodeBlock where
  ctx : Nat
  block : Nat
  bytes : List Byte
deriving DecidableEq, Repr

/-- One core: injection idle cycles, R77's count start, the place after the group that each slot chose last (R75), one more than the
cycle of each slot's last issue and of its last vector issue, L1, texture cache, blocks of code, the stream whose weights the array
holds, and the vector pipes at retention voltage. -/
structure CoreSt where
  mcad : BitVec 8 := 0
  countFrom : Option Nat := none
  rr : List Nat := [0, 0, 0, 0]
  lastIssue : List Nat := [0, 0, 0, 0]
  lastVec : List Nat := [0, 0, 0, 0]
  retention : List Bool := [false, false, false, false]
  l1 : List L1Line := []
  texCache : List L1Line := []
  code : List CodeBlock := []
  array : Option Nat := none
deriving DecidableEq, Repr

/-- One die. -/
structure Die where
  configured : Bool := false
  identity : Nat := 0
  powered : Bool := true
  thermal : Thermal := .warmIdle
  band : Nat := 3
  temp : Nat := 4000
  /-- TSENS, the reading of each sensor in 1/16 K (R337), of which `temp` is the highest. -/
  tsens : List Nat := [4000]
  tset : Nat := 2
  refresh : Bool := true
  selfRefresh : Bool := false
  /-- Tick at which COLD was last entered in RETREAT (R338). -/
  coldSince : Option Nat := none
  /-- Start and temperature of the current 60 s cooling window. -/
  window : Option (Nat × Nat) := none
  /-- EXCURSION logged since the last training (R338). -/
  excursion : Bool := false
  /-- Training under way, and the state it leads to. -/
  training : Bool := false
  /-- WARMUP's band has reached TRANSIT. -/
  reachedTransit : Bool := false
  /-- Memory controllers stalled by a timing-set switch (R340). -/
  stalled : List Nat := []
  patrolRow : Nat := 0
  softErrors : Nat := 0
  badRows : List Nat := []
  islands : List Island := []
  /-- Core-clock cycles since reset (R252), one count for the cores of the die, which share reset and clock; and the part of the
  next cycle that has passed, in thousandths. -/
  cycles : Nat := 0
  phase : Nat := 0
  ports : List Bool := [true, true, true, true]
  epoch : Nat := 1000000
  /-- Tick at which the present epoch began. -/
  epochFrom : Nat := 0
  drainTimeout : Nat := 0
  drainSince : Nat := 0
  mdbase : Nat := 0
  hotness : SMap (BitVec 8) := []
  /-- Accesses served by each home slice, modulo 16 (R158). -/
  served : SMap Nat := []
  /-- Candidates skipped, with the tick of the first skip (R224), and those that block their classes. -/
  skipped : List (Cand × Nat) := []
  blocking : List Cand := []
  /-- The queue whose turn is next among clove, and among anise launches (R224). -/
  turnClove : Nat := 0
  turnAnise : Nat := 0
deriving DecidableEq, Repr

/-! ### The package -/

/-- Why a context ended (R272). -/
inductive EndCause where
  | firmware | error | trip | powerLoss
deriving DecidableEq, Repr

/-- An entry of the event logs that firmware keeps (R217, R223, R259, R260, R265, R336, R344, R264). -/
inductive LogEvent where
  | context (ctx cause : Nat) (info : Word)
  | readFailed (ctx : Nat)
  | queueDisabled (partition q : Nat)
  | completionUnwritten (ctx : Nat)
  | areaUnwritten (ctx : Nat)
  | halted (tid : Nat)
  | contextEnded (ctx : Nat) (cause : EndCause)
  | excursion (die : Nat)
  | trip (die : Nat)
  | currentLimit (die island : Nat)
  | unconfigured (die : Nat)
  | retreatDet (die : Nat)
deriving DecidableEq, Repr

/-- The host port's last answer (R350, R351, R349). -/
inductive HostReply where
  | none
  | done
  | data (bytes : List Byte)
  | unsupported
  | report (bytes : List Byte)
deriving DecidableEq, Repr

/-- A host access that the port has not performed whole (R350): the part of a write that is left, or of a read with the bytes it has. -/
inductive HostOp where
  | write (addr : Nat) (bytes : List Byte)
  | read (addr n : Nat) (got : List Byte)
deriving DecidableEq, Repr

/-- Which agent a step acts for. -/
inductive Agent where
  | none
  | lane (grp : Nat)
  | stream
deriving DecidableEq, Repr

/-- The bundle, or stream word, that is being issued (R65): the model's own field, set by the step before the meaning. -/
structure Cur where
  tid : Nat := 0
  agent : Agent := .none
  pc : DWord := 0
  lanes : Mask := 0
  prio : BitVec 8 := 0
  handler : Bool := false
  len : Nat := 0
  /-- The one write that a TILEF makes in this turn, a block's or, beyond the blocks, that of its signature entry; none makes all that
  are left (R323). -/
  only : Option Nat := none
  /-- Scratchpad accesses of this turn at the own core go on their way like those at other cores (R185). -/
  later : Bool := false
deriving DecidableEq, Repr

/-- What the next step does: the model's own field. -/
inductive Turn where
  | lane (tid grp : Nat)
  /-- A group's turn in which a TILEF makes only its write `n`. -/
  | blocks (tid grp n : Nat)
  /-- A group's turn in which the scratchpad accesses that are issued at the own core are performed later. -/
  | later (tid grp : Nat)
  | stream (tid : Nat)
  | event (i : Instr)
  | tick (n : Nat)
deriving DecidableEq, Repr

/-- The package. -/
structure State where
  mem : SMap Byte
  package : Nat
  booted : Bool
  payload : List Byte
  gtime : Nat
  dies : List Die
  cores : SMap CoreSt
  contexts : List Context
  partitions : List Partition
  queues : List Queue
  launches : List Launch
  teams : List Team
  own : List OwnEntry
  /-- Area copies behind the cache, whose write is held: context and index (R238). -/
  staleAreas : List (Nat × Nat)
  tileOwners : List (Nat × Nat)
  accesses : List Access
  remotes : List Remote
  faults : List FaultEntry
  tlb : List TlbEntry
  oldPtes : List OldPte
  invals : List Inval
  migrations : List Migration
  watches : List Watch
  leases : List Lease
  joined : List Nat
  hostWindows : List (Nat × Nat)
  hostOps : List HostOp
  hostReply : HostReply
  log : List LogEvent
  /-- Contexts that have read a row in which patrol found an uncorrectable error; they end with the step (R271). -/
  doomed : List Nat
  nextId : Nat
  /-- The model's counter of free values drawn. -/
  free : Nat
  cur : Cur
  agenda : List Turn
  /-- The model's counter of turns it has chosen itself, the agenda being empty. -/
  turn : Nat
deriving DecidableEq, Repr

/-- Why a step stops with a fault. -/
inductive Fault where
  /-- A lane instruction was given to `exec` in a state in which no bundle is being issued. Raised by the shared issue
  operations; safe: no step of the machine reaches it, since the step sets the bundle first. -/
  | noBundle
  /-- A stream word was given to `exec` in a state in which no stream is at a word. Raised by the shared stream operations;
  safe, for the same reason. -/
  | noStream
deriving DecidableEq, Repr

/-- Why a step has no meaning. -/
inductive Refusal where
  /-- An instruction without a meaning in this model, by its mnemonic. Raised by the arms of the dispatch; safe. -/
  | notModelled (mnemonic : String)
deriving DecidableEq, Repr

/-- A core after reset: `sr.mcad` 0 (R290). -/
def CoreSt.reset : CoreSt := {}

/-- A die after reset: band WARM, timing set C, WARM_IDLE (the reset values of `sr.tband`, R337), epoch 1 ms (R159), not
yet configured. TEMP and TSENS are a DESIGN CHOICE (log 4). -/
def Die.reset : Die :=
  { islands := List.replicate 3 { mhz := 500, limit := 0 } }

/-- The package right after reset: nothing booted, no context, no launch, memory with nothing listed. -/
def State.reset : State :=
  { mem := [], package := 0, booted := false, payload := [], gtime := 0
    dies := List.replicate 8 Die.reset
    cores := [], contexts := [], partitions := [], queues := [], launches := [], teams := [], own := [], staleAreas := []
    tileOwners := [], accesses := [], remotes := [], faults := [], tlb := [], oldPtes := [], invals := [], migrations := [], watches := []
    leases := [], joined := [], hostWindows := [], hostOps := [], hostReply := .none, log := [], doomed := [], nextId := 1, free := 0
    cur := {}, agenda := [], turn := 0 }

end Sys2Proof.Machine
end

