-- ==== Sys2Proof/Machine/Base.lean ====
section
/-! DEFINITION. Reaching into the state: teams, groups, cores, dies and memory bytes, each read and written in one place. -/

namespace Sys2Proof.Machine

abbrev Result := Host.Outcome State Fault Refusal

/-! ### Finding and replacing -/

def State.team? (s : State) (tid : Nat) : Option Team := s.teams.find? fun t => t.id == tid

def State.setTeam (s : State) (t : Team) : State :=
  { s with teams := s.teams.map fun u => if u.id == t.id then t else u }

def State.dropTeam (s : State) (tid : Nat) : State := { s with teams := s.teams.filter fun t => t.id != tid }

def Team.group? (t : Team) (n : Nat) : Option Group := t.groups.find? fun g => g.num == n

def Team.setGroup (t : Team) (g : Group) : Team :=
  { t with groups := t.groups.map fun u => if u.num == g.num then g else u }

/-- Apply `f` to one team. -/
def State.onTeam (s : State) (tid : Nat) (f : Team → Team) : State :=
  { s with teams := s.teams.map fun u => if u.id == tid then f u else u }

/-- Apply `f` to one group of one team. -/
def State.onGroup (s : State) (tid n : Nat) (f : Group → Group) : State :=
  s.onTeam tid fun t => { t with groups := t.groups.map fun g => if g.num == n then f g else g }

def State.group? (s : State) (tid n : Nat) : Option Group :=
  match s.team? tid with
  | some t => t.group? n
  | none => none

def State.die (s : State) (d : Nat) : Die := s.dies.getD d Die.reset

def State.setDie (s : State) (d : Nat) (x : Die) : State := { s with dies := s.dies.set d x }

def State.onDie (s : State) (d : Nat) (f : Die → Die) : State := s.setDie d (f (s.die d))

/-- The core's key in the sparse map of cores: 96 cores to a die (R14). -/
def coreKey (die core : Nat) : Nat := die * 96 + core

def State.core (s : State) (die core : Nat) : CoreSt := SMap.get CoreSt.reset s.cores (coreKey die core)

def State.setCore (s : State) (die core : Nat) (c : CoreSt) : State :=
  { s with cores := SMap.set CoreSt.reset s.cores (coreKey die core) c }

def State.onCore (s : State) (die core : Nat) (f : CoreSt → CoreSt) : State :=
  s.setCore die core (f (s.core die core))

def State.context? (s : State) (c : Nat) : Option Context := s.contexts.find? fun x => x.num == c

def State.onContext (s : State) (c : Nat) (f : Context → Context) : State :=
  { s with contexts := s.contexts.map fun x => if x.num == c then f x else x }

def State.partition? (s : State) (p : Nat) : Option Partition := s.partitions.find? fun x => x.num == p

def State.launch? (s : State) (l : Nat) : Option Launch := s.launches.find? fun x => x.id == l

def State.onLaunch (s : State) (l : Nat) (f : Launch → Launch) : State :=
  { s with launches := s.launches.map fun x => if x.id == l then f x else x }

def State.entry? (s : State) (e : Nat) : Option OwnEntry := s.own.find? fun x => x.id == e

def State.onEntry (s : State) (e : Nat) (f : OwnEntry → OwnEntry) : State :=
  { s with own := s.own.map fun x => if x.id == e then f x else x }

def State.addLog (s : State) (e : LogEvent) : State := { s with log := s.log ++ [e] }

/-- A fresh id for an access, a command, a team and the like. -/
def State.fresh (s : State) : Nat × State := (s.nextId, { s with nextId := s.nextId + 1 })

/-- The team and group whose bundle is being issued. -/
def State.bundle? (s : State) : Option (Team × Group) :=
  match s.cur.agent with
  | .lane n =>
    match s.team? s.cur.tid with
    | some t => match t.group? n with
      | some g => some (t, g)
      | none => none
    | none => none
  | _ => none

/-- The team and stream whose word is being executed. -/
def State.word? (s : State) : Option (Team × Stream) :=
  match s.cur.agent with
  | .stream =>
    match s.team? s.cur.tid with
    | some t => match t.stream with
      | some m => some (t, m)
      | none => none
    | none => none
  | _ => none

/-- Resident teams of a core, by team slot. -/
def Place.resident : Place → Bool
  | .caged _ => false
  | _ => true

/-- Stopped for a swap, or away. -/
def Place.left : Place → Bool
  | .draining _ _ => true
  | .caged _ => true
  | _ => false

def State.residents (s : State) (die core : Nat) : List Team :=
  s.teams.filter fun t => t.die == die && t.core == core && t.place.resident

/-- The resident group index of R155: groups counted over the core's teams in team-slot order. -/
def State.groupIndex (s : State) (t : Team) (n : Nat) : Nat :=
  ((s.residents t.die t.core).filter fun u => u.slot < t.slot).foldl (fun a u => a + u.ngroups) 0 + n

/-! ### Bytes -/

/-- Little-endian value of a list of bytes (R3). -/
def leNat : List Byte → Nat
  | [] => 0
  | b :: r => b.toNat + 256 * leNat r

/-- The `n` low bytes of a value, lowest first. -/
def leBytes : Nat → Nat → List Byte
  | 0, _ => []
  | n + 1, v => BitVec.ofNat 8 v :: leBytes n (v / 256)

/-- Bits [lo+n-1:lo] of a number. -/
def bits (v lo n : Nat) : Nat := v / 2 ^ lo % 2 ^ n

/-- Consecutive bytes of a sparse byte map whose unlisted bytes read as zero. -/
def readBytes (m : SMap Byte) (a n : Nat) : List Byte := (List.range n).map fun i => SMap.get 0#8 m (a + i)

def writeBytes (m : SMap Byte) (a : Nat) : List Byte → SMap Byte
  | [] => m
  | b :: r => writeBytes (SMap.set 0#8 m a b) (a + 1) r

/-- A byte of memory by system address. A byte that nothing has written reads as zero: DESIGN CHOICE (log 3). -/
def State.byte (s : State) (sa : Nat) : Byte := SMap.get 0#8 s.mem sa

def State.bytes (s : State) (sa n : Nat) : List Byte := readBytes s.mem sa n

def State.setBytes (s : State) (sa : Nat) (l : List Byte) : State := { s with mem := writeBytes s.mem sa l }

/-- Signed value of the low `n` bits of a number. -/
def sint (n v : Nat) : Int := if v % 2 ^ n < 2 ^ (n - 1) then (v % 2 ^ n : Nat) else ((v % 2 ^ n : Nat) : Int) - (2 ^ n : Nat)

/-- The number modulo 2^n of an integer. -/
def wrapInt (n : Nat) (i : Int) : Nat := (i % (2 ^ n : Nat)).toNat

end Sys2Proof.Machine
end

