-- ==== Sys2Proof/Machine/Flags.lean ====
section
/-! DEFINITION. Flag computation: the sticky floating-point flags of R87 and R134, and the one rounding of R129 from which
the overflow, underflow and inexact flags follow. -/

namespace Sys2Proof.Machine

/-- The flags in the bit order of `sr.fpflags` (R87). -/
abbrev FpFlags := BitVec 5

namespace FpFlags

def NV : FpFlags := 1
def DZ : FpFlags := 2
def OF : FpFlags := 4
def UF : FpFlags := 8
def NX : FpFlags := 16

/-- The flag if the condition holds. -/
def when (b : Bool) (f : FpFlags) : FpFlags := if b then f else 0

end FpFlags

/-- A floating-point format (R120, R121): fraction and exponent bits, bias, the code of R132, and whether it is E4M3. -/
structure Fmt where
  frac : Nat
  exp : Nat
  bias : Nat
  code : Nat
  e4m3 : Bool := false
deriving DecidableEq, Repr

namespace Fmt

def f64 : Fmt := { frac := 52, exp := 11, bias := 1023, code := 7 }
def f32 : Fmt := { frac := 23, exp := 8, bias := 127, code := 3 }
def f16 : Fmt := { frac := 10, exp := 5, bias := 15, code := 8 }
def bf16 : Fmt := { frac := 7, exp := 8, bias := 127, code := 9 }
def e4m3fmt : Fmt := { frac := 3, exp := 4, bias := 7, code := 10, e4m3 := true }
def e5m2 : Fmt := { frac := 2, exp := 5, bias := 15, code := 11 }

def width (f : Fmt) : Nat := 1 + f.exp + f.frac

/-- Exponent of the smallest normal. -/
def emin (f : Fmt) : Int := 1 - (f.bias : Int)

/-- All ones in the exponent field. -/
def expMax (f : Fmt) : Nat := 2 ^ f.exp - 1

def signBit (f : Fmt) (neg : Bool) : Nat := if neg then 2 ^ (f.exp + f.frac) else 0

/-- Canonical NaN, sign 0 (R120, R121). -/
def nan (f : Fmt) : Nat := if f.e4m3 then 0x7F else f.expMax * 2 ^ f.frac + 2 ^ (f.frac - 1)

/-- Largest finite magnitude. -/
def maxFin (f : Fmt) : Nat := if f.e4m3 then 0x7E else f.expMax * 2 ^ f.frac - 1

/-- ±infinity; E4M3 has none and gives ±448 (R129). -/
def inf (f : Fmt) (neg : Bool) : Nat := f.signBit neg + (if f.e4m3 then f.maxFin else f.expMax * 2 ^ f.frac)

end Fmt

/-- The scalar format of an element of a floating-point type. -/
def fmtOf : Ty → Fmt
  | .f64 => .f64
  | .f16x2 => .f16
  | .bf16x2 => .bf16
  | .e4m3x4 => .e4m3fmt
  | .e5m2x4 => .e5m2
  | _ => .f32

/-- An exact real of the form ±m × 2^e, an infinity, or a NaN. A zero keeps its sign. -/
inductive Num where
  | nan
  | inf (neg : Bool)
  | fin (neg : Bool) (m : Nat) (e : Int)
deriving DecidableEq, Repr

namespace Num

def zero : Num := .fin false 0 0

def isNan : Num → Bool
  | .nan => true
  | _ => false

def isZero : Num → Bool
  | .fin _ m _ => m == 0
  | _ => false

def isInf : Num → Bool
  | .inf _ => true
  | _ => false

def isNeg : Num → Bool
  | .nan => false
  | .inf n => n
  | .fin n _ _ => n

def neg : Num → Num
  | .nan => .nan
  | .inf n => .inf (!n)
  | .fin n m e => .fin (!n) m e

/-- The exact value of an integer. -/
def ofInt (i : Int) : Num := .fin (decide (i < 0)) i.natAbs 0

/-- Decode (R140). -/
def decode (f : Fmt) (b : Nat) : Num :=
  let fr := b % 2 ^ f.frac
  let ex := b / 2 ^ f.frac % 2 ^ f.exp
  let s := b / 2 ^ (f.frac + f.exp) % 2 == 1
  if f.e4m3 then
    if ex == 15 && fr == 7 then .nan
    else if ex == 0 then .fin s fr (f.emin - f.frac)
    else .fin s (2 ^ f.frac + fr) ((ex : Int) - f.bias - f.frac)
  else if ex == f.expMax then (if fr == 0 then .inf s else .nan)
  else if ex == 0 then .fin s fr (f.emin - f.frac)
  else .fin s (2 ^ f.frac + fr) ((ex : Int) - f.bias - f.frac)

/-- A signalling NaN (R120); the 8-bit formats have none (R121). -/
def isSignalling (f : Fmt) (b : Nat) : Bool :=
  f.width != 8 && (decode f b).isNan && !(b.testBit (f.frac - 1))

/-- Signed integer m × 2^(e−lo) of a finite value over the common exponent `lo`. -/
def scaled (lo : Int) : Num → Int
  | .fin n m e => let x : Int := (m * 2 ^ (e - lo).toNat : Nat); if n then -x else x
  | _ => 0

/-- A finite value's exponent. -/
def expo : Num → Int
  | .fin _ _ e => e
  | _ => 0

/-- Expo: floor of log2 of the magnitude of a nonzero finite value (R140). -/
def lead : Num → Int
  | .fin _ m e => (Nat.log2 m : Int) + e
  | _ => 0

/-- Exact sum with IEEE zero signs (R129); `rdn` gives −0 for an exact cancellation. Invalid on inf − inf. -/
def add (rdn : Bool) (a b : Num) : Num × Bool :=
  match a, b with
  | .nan, _ | _, .nan => (.nan, false)
  | .inf s, .inf t => if s == t then (.inf s, false) else (.nan, true)
  | .inf s, _ => (.inf s, false)
  | _, .inf t => (.inf t, false)
  | .fin s m e, .fin t n k =>
    let lo := min e k
    let x := scaled lo (.fin s m e) + scaled lo (.fin t n k)
    if x == 0 then
      (.fin (if m == 0 && n == 0 && s == t then s else rdn) 0 0, false)
    else (.fin (decide (x < 0)) x.natAbs lo, false)

/-- Exact product. Invalid on 0 × inf. -/
def mul (a b : Num) : Num × Bool :=
  match a, b with
  | .nan, _ | _, .nan => (.nan, false)
  | .inf s, .inf t => (.inf (s != t), false)
  | .inf s, .fin t n _ => if n == 0 then (.nan, true) else (.inf (s != t), false)
  | .fin s m _, .inf t => if m == 0 then (.nan, true) else (.inf (s != t), false)
  | .fin s m e, .fin t n k => (.fin (s != t) (m * n) (e + k), false)

/-- Strictly less, on values that are no NaN; the zeros are equal. -/
def lt (a b : Num) : Bool :=
  match a, b with
  | .nan, _ | _, .nan => false
  | .inf s, .inf t => s && !t
  | .inf s, _ => s
  | _, .inf t => !t
  | .fin s m e, .fin t n k =>
    let lo := min e k
    decide (scaled lo (.fin s m e) < scaled lo (.fin t n k))

/-- Equal values, on values that are no NaN. -/
def eq (a b : Num) : Bool := !a.isNan && !b.isNan && !(lt a b) && !(lt b a)

/-- Multiply by a power of two. -/
def scale (k : Int) : Num → Num
  | .fin s m e => .fin s m (e + k)
  | x => x

end Num

/-! ### Stochastic rounding bits (R132) -/

def mix64 (z : DWord) : DWord :=
  let z := (z ^^^ (z >>> 30)) * 0xBF58476D1CE4E5B9#64
  let z := (z ^^^ (z >>> 27)) * 0x94D049BB133111EB#64
  z ^^^ (z >>> 31)

def hash64 (seed idx : DWord) (fcode : Nat) : DWord :=
  mix64 (mix64 (seed ^^^ (BitVec.ofNat 64 fcode * 0x9E3779B97F4A7C15#64)) + idx)

def srBits (seed idx : DWord) (fcode : Nat) : Nat := (hash64 seed idx fcode).toNat / 2 ^ 32

/-! ### Rounding (R128, R129) -/

/-- The rounding modes of R128. -/
inductive RMode where
  | rne | rtz | rdn | rup
  | sr (bits : Nat)
deriving DecidableEq, Repr

/-- The mode of a code 0 to 3. -/
def RMode.ofCode (c : Nat) : RMode :=
  match c with
  | 1 => .rtz
  | 2 => .rdn
  | 3 => .rup
  | _ => .rne

def RMode.isRdn : RMode → Bool
  | .rdn => true
  | _ => false

/-- Does an inexact magnitude round up? `n` is the kept integer, `rem` out of `2^sh` the rest, `more` a nonzero tail below.
Under SR an inexact value whose fraction of 2^32 is 0 gives the lower neighbour whatever the random bits are: R131's range
1 ≤ f leaves that case out (DESIGN CHOICE, log 76). -/
def roundsUp (mode : RMode) (neg : Bool) (n rem sh : Nat) (more : Bool) : Bool :=
  match mode with
  | .rne =>
    let half := 2 ^ sh
    decide (2 * rem > half) || (2 * rem == half && (more || n % 2 == 1))
  | .rtz => false
  | .rdn => neg
  | .rup => !neg
  | .sr r =>
    if neg then !(decide (r < (2 ^ sh - rem) * 2 ^ 32 / 2 ^ sh)) else decide (r < rem * 2 ^ 32 / 2 ^ sh)

/-- What R129 makes of a finite value too large for the format. -/
def overflowBits (f : Fmt) (mode : RMode) (neg : Bool) : Nat :=
  if f.e4m3 then f.signBit neg + f.maxFin
  else match mode with
    | .rne | .sr _ => f.inf neg
    | .rtz => f.signBit neg + f.maxFin
    | .rdn => if neg then f.inf neg else f.maxFin
    | .rup => if neg then f.signBit neg + f.maxFin else f.inf neg

/-- Round the magnitude ±(m + tail) × 2^e, where `more` says that a tail strictly between 0 and 1 exists. -/
def roundMag (f : Fmt) (mode : RMode) (neg : Bool) (m : Nat) (e : Int) (more : Bool) : Nat × FpFlags :=
  if m == 0 && !more then (f.signBit neg, 0)
  else
    let lead : Int := (Nat.log2 m : Int) + e
    let q : Int := max lead f.emin - f.frac
    let sh := (q - e).toNat
    let n := if e ≥ q then m * 2 ^ (e - q).toNat else m / 2 ^ sh
    let rem := if e ≥ q then 0 else m % 2 ^ sh
    let inexact := rem != 0 || more
    let up := inexact && roundsUp mode neg n rem sh more
    let n := if up then n + 1 else n
    let tiny := decide (lead < f.emin)
    let big := n == 2 ^ (f.frac + 1)
    let n' := if big then n / 2 else n
    let q' := if big then q + 1 else q
    let mag : Nat :=
      if n' < 2 ^ f.frac then n' else (q' + f.frac + f.bias).toNat * 2 ^ f.frac + (n' - 2 ^ f.frac)
    if mag > f.maxFin then (overflowBits f mode neg, FpFlags.OF ||| FpFlags.NX)
    else (f.signBit neg + mag, FpFlags.when (tiny && inexact) FpFlags.UF ||| FpFlags.when inexact FpFlags.NX)

/-- Round (R129) with the flags OF, UF and NX of R134. -/
def roundTo (f : Fmt) (mode : RMode) : Num → Nat × FpFlags
  | .nan => (f.nan, 0)
  | .inf neg => (f.inf neg, FpFlags.when f.e4m3 FpFlags.NX)
  | .fin neg m e => roundMag f mode neg m e false

/-- RoundNE without flags, for the units that set none. -/
def roundNE (f : Fmt) (x : Num) : Nat := (roundTo f .rne x).1

/-- RoundGrid (R130) of ±num/den to a multiple of `1`, ties to even: the nearest integer. -/
def roundDiv (num : Int) (den : Nat) : Int :=
  let fl := num / (den : Int)
  let rem := num % (den : Int)
  if 2 * rem < den then fl
  else if 2 * rem > den then fl + 1
  else if fl % 2 == 0 then fl else fl + 1

/-- Round a finite value to an integer in a mode, with "inexact". -/
def roundInt (mode : RMode) (neg : Bool) (m : Nat) (e : Int) : Int × Bool :=
  if e ≥ 0 then (let x : Int := (m * 2 ^ e.toNat : Nat); (if neg then -x else x, false))
  else
    let sh := (-e).toNat
    let n := m / 2 ^ sh
    let rem := m % 2 ^ sh
    let up := rem != 0 && roundsUp mode neg n rem sh false
    let n : Int := ((if up then n + 1 else n : Nat) : Int)
    (if neg then -n else n, rem != 0)

/-- Integer square root of a number below 2^(2 × k), bit by bit. -/
def isqrt (k n : Nat) : Nat :=
  (List.range k).foldl (fun r i => let b := 2 ^ (k - 1 - i); if (r + b) * (r + b) ≤ n then r + b else r) 0

/-- The TP8 value of a byte (R123). -/
def tp8 (b : Nat) : Num :=
  let t := fun (s k : Nat) => if k == 7 then (0 : Int) else (if s == 1 then -1 else 1) * ((2 ^ (6 - k) : Nat) : Int)
  let x := t (bits b 7 1) (bits b 4 3) + t (bits b 3 1) (bits b 0 3)
  .fin (decide (x < 0)) x.natAbs (-6)

end Sys2Proof.Machine
end

