-- ==== Sys2Proof/Machine/Memsys.lean ====
section
/-! DEFINITION. The memory system: the physical map and home slices (R146 to R148), translation (R149 to R154), the fault
buffer (R155, R156), BLD blocks (R162 to R168), hotness (R158), watches (R179) and L1 (R182). -/

namespace Sys2Proof.Machine

/-! ### Physical and system addresses -/

/-- Bytes of HBM and of LPDDR per die (R13, R146). -/
def hbmBytes : Nat := 0x2000000000
def lpddrBytes : Nat := 0x6000000000
def lpddrBase : Nat := 0x10000000000
def memEnd : Nat := 0x40000000000

/-- The physical part of a system address, and its package (R147). -/
def saPhys (sa : Nat) : Nat := sa % 2 ^ 52
def saPackage (sa : Nat) : Nat := sa / 2 ^ 52

/-- The system address of a physical address on this package. -/
def State.local (s : State) (pa : Nat) : Nat := s.package * 2 ^ 52 + pa

/-- The die a physical address is attached to (R146). -/
def dieOfPhys (pa : Nat) : Nat := if pa < lpddrBase then pa / hbmBytes else (pa - lpddrBase) / lpddrBytes

/-- The home slice within the die (R148). -/
def homeSlice (pa : Nat) : Nat :=
  [8, 13, 18, 23, 28, 33, 38, 43, 48].foldl (fun x i => x ^^^ bits (pa % 2 ^ 52) i 5) 0

/-- The frame number within its die, HBM first (R158). -/
def frameOf (pa : Nat) : Nat :=
  if pa < lpddrBase then pa % hbmBytes / 65536 else hbmBytes / 65536 + (pa - lpddrBase) % lpddrBytes / 65536

/-- The 128-byte line of an address. -/
def lineOf (sa : Nat) : Nat := sa / 128

/-- The memory controller of a die that a physical address belongs to (R340): an HBM stack, or the LPDDR. -/
def controllerOf (pa : Nat) : Nat := if pa ≥ lpddrBase then 2 else if Config.stackOf (dieOfPhys pa) pa then 1 else 0

/-- An access is held: the home's DRAM is in self-refresh or the line's controller switches its timing set, or the line's package
has not joined or no port leads there (R340, R342, R353). -/
def State.held (s : State) (fromDie sa : Nat) : Bool :=
  if saPackage sa == s.package then
    let x := s.die (dieOfPhys (saPhys sa))
    x.selfRefresh || x.stalled.contains (controllerOf (saPhys sa))
  else !(s.joined.contains (saPackage sa)) || !((s.die fromDie).ports.any id)

/-! ### What home slices count (R158, R271) -/

/-- A home slice serves one access: every 16th adds one to the frame's counter, saturating (R158). Only this package's
counters are held. -/
def State.served (s : State) (sa : Nat) : State :=
  if saPackage sa != s.package then s
  else
    let pa := saPhys sa
    let d := dieOfPhys pa
    let x := s.die d
    let sl := homeSlice pa
    let n := SMap.get 0 x.served sl + 1
    let x := { x with served := SMap.set 0 x.served sl (n % 16) }
    let f := frameOf pa
    let h : BitVec 8 := SMap.get 0#8 x.hotness f
    let x := if n == 16 && h != 255 then { x with hotness := SMap.set 0#8 x.hotness f (h + 1) } else x
    s.setDie d x

/-- A context reads a line at its home slice: the access counts (R158), and a row that patrol has found bad ends the reader's
context (R271). -/
def State.servedRead (s : State) (ctx sa : Nat) : State :=
  let s := s.served sa
  let d := dieOfPhys (saPhys sa)
  if saPackage sa == s.package && (s.die d).badRows.contains (Config.dramRow d (saPhys sa)) then
    { s with doomed := s.doomed ++ [ctx] }
  else s

/-! ### Page tables -/

/-- Access kinds that a leaf's permission bits tell apart (R150). -/
inductive AccType where
  | read | write | fetch
deriving DecidableEq, Repr

/-- Page bytes and leaf level of a SIZE code (R151). -/
def pageSize (code : Nat) : Option (Nat × Nat) :=
  match code with
  | 0 => some (0x1000, 0) | 1 => some (0x4000, 0) | 2 => some (0x10000, 0) | 3 => some (0x40000, 0)
  | 4 => some (0x100000, 0)
  | 5 => some (0x200000, 1) | 6 => some (0x400000, 1) | 7 => some (0x1000000, 1) | 8 => some (0x4000000, 1)
  | 9 => some (0x10000000, 1)
  | 10 => some (0x40000000, 2) | 11 => some (0x100000000, 2)
  | _ => none

/-- The page lies inside one die's HBM range or one die's LPDDR range, as TIER says (R152). -/
def frameOk (pa size : Nat) (tier : Bool) : Bool :=
  pa % size == 0 &&
    (if tier then lpddrBase ≤ pa && pa + size ≤ memEnd && (pa - lpddrBase) / lpddrBytes == (pa + size - 1 - lpddrBase) / lpddrBytes
     else pa + size ≤ lpddrBase && pa / hbmBytes == (pa + size - 1) / hbmBytes)

/-- What a walk finds; `held` where a table's home serves no access now (R340, R342). -/
inductive Walk where
  | page (e : TlbEntry)
  | notValid
  | fatal (code : Nat)
  | held
deriving DecidableEq, Repr

def State.pte (s : State) (pa : Nat) : Nat := leNat (s.bytes (s.local pa) 8)

/-- The older values of an entry that no invalidation has covered for an address, newest first (R154). -/
def State.oldPte (s : State) (ctx va pa : Nat) : List Nat :=
  (s.oldPtes.filter fun o => o.pa == pa && !(o.done.any fun r => r.1 == ctx && r.2.1 ≤ va && va < r.2.1 + r.2.2)).map OldPte.value

/-- The value that the `k`-th look at an entry sees: the present one, or an older one, by free choices (R154). -/
def seenPte (now k : Nat) : List Nat → Nat
  | [] => now
  | o :: r => if Config.entrySeen k then now else if r.isEmpty || Config.entrySeen (k + 1) then o else seenPte o (k + 2) r

/-- Look at an entry in a walk (R154). -/
def State.lookPte (s : State) (ctx va lvl pa : Nat) : Nat := seenPte (s.pte pa) (s.free + 64 * lvl) (s.oldPte ctx va pa)

/-- An ordered invalidation of ranges has removed the covered entries from the walk caches (R154). -/
def State.seeNewPtes (s : State) (ctx : Nat) (ranges : List (Nat × Nat)) : State :=
  { s with oldPtes := s.oldPtes.map fun o => { o with done := o.done ++ ranges.map fun r => (ctx, r.1, r.2) } }

/-- The address of the first entry of the aligned run that holds entry `idx`, and the number of entries in it (R151, R152). -/
def runBase (table idx n : Nat) : Nat := table + 8 * (idx / n * n)

/-- Judge a leaf entry (R150 to R153). -/
def State.leaf (s : State) (ctx va lvl table idx e : Nat) : Walk :=
  match pageSize (bits e 8 4) with
  | none => .fatal 2
  | some (size, l) =>
    if l != lvl then .fatal 2
    else
      let n := size / 2 ^ (12 + 9 * lvl)
      let same := fun (pa : Nat) => s.pte pa == e || (s.oldPte ctx va pa).contains e
      if !((List.range n).all fun i => same (runBase table idx n + 8 * i)) then .fatal 3
      else
        let sa := bits e 12 50 * 4096
        if saPackage sa ≥ 576 || !(frameOk (saPhys sa) size (e.testBit 5)) then .fatal 4
        else .page { ctx := ctx, va := va / size * size, size := size, sa := sa, bld := e.testBit 6, w := e.testBit 2, x := e.testBit 3 }

/-- Reserved bits of a valid entry are set (R150). -/
def pteReserved (e : Nat) : Bool := bits e 62 2 != 0 || e.testBit 7 || e.testBit 4

/-- A valid entry that is no leaf points to no table (R149, R150). -/
def pointerBad (lvl e : Nat) : Bool :=
  lvl == 0 || bits e 52 10 != 0 || bits e 8 4 != 0 || e.testBit 6 || e.testBit 5 || e.testBit 3 || e.testBit 2

/-- The five-level walk (R149); the first argument is one more than the level. -/
def State.walkFrom (s : State) (ctx va : Nat) : Nat → Nat → Walk
  | 0, _ => .fatal 2
  | lvl + 1, table =>
    let idx := bits va (12 + 9 * lvl) 9
    let e := s.lookPte ctx va lvl (table + 8 * idx)
    if s.held 0 (s.local (table + 8 * idx)) then .held
    else if !(e.testBit 0) then .notValid
    else if pteReserved e then .fatal 2
    else if e.testBit 1 then (if lvl ≥ 3 then .fatal 2 else s.leaf ctx va lvl table idx e)
    else if pointerBad lvl e then .fatal 2
    else s.walkFrom ctx va lvl (bits e 12 40 * 4096)

/-- The lines of a leaf's run beyond that of the entry at `pa` (R151, R152). -/
def State.runLinesOf (s : State) (lvl table idx e : Nat) : List Nat :=
  match pageSize (bits e 8 4) with
  | none => []
  | some (size, l) =>
    if l != lvl then []
    else
      let n := size / 2 ^ (12 + 9 * lvl)
      let base := runBase table idx n
      ((List.range ((8 * n + 127) / 128)).map fun i => s.local (base / 128 * 128 + 128 * i)).filter fun sa =>
        lineOf sa != lineOf (s.local (table + 8 * idx))

/-- The system addresses that the walk of `State.walkFrom` reads, in its order: an entry of each table, and the rest of a leaf's run. -/
def State.walkReads (s : State) (ctx va : Nat) : Nat → Nat → List Nat
  | 0, _ => []
  | lvl + 1, table =>
    let idx := bits va (12 + 9 * lvl) 9
    let sa := s.local (table + 8 * idx)
    let e := s.lookPte ctx va lvl (table + 8 * idx)
    if s.held 0 sa then []
    else sa :: (
      if !(e.testBit 0) || pteReserved e then []
      else if e.testBit 1 then (if lvl ≥ 3 then [] else s.runLinesOf lvl table idx e)
      else if pointerBad lvl e then []
      else s.walkReads ctx va lvl (bits e 12 40 * 4096))

def State.walk (s : State) (ctx va : Nat) : Walk :=
  match s.context? ctx with
  | none => .notValid
  | some c => s.walkFrom ctx va 5 c.root

/-- Canonical virtual addresses (R142). -/
def canonical (va : DWord) : Bool :=
  let top := va.toNat / 2 ^ 56
  top == 0 || top == 255

/-- The 57-bit address the tables translate. -/
def va57 (va : DWord) : Nat := va.toNat % 2 ^ 57

/-- The outcome of a translation (R153); `blocked` while PUBL holds new walks of the range (R176) or a table is held. -/
inductive Xlate where
  | ok (sa : Nat) (e : TlbEntry)
  | replay (cause : Nat)
  | fatal (code : Nat)
  | blocked
deriving DecidableEq, Repr

def TlbEntry.covers (e : TlbEntry) (ctx va : Nat) : Bool := e.ctx == ctx && e.va ≤ va && va < e.va + e.size

/-- New walks of the range wait for a PUBL (R176). -/
def State.walksBlocked (s : State) (ctx va : Nat) : Bool :=
  s.invals.any fun i => i.ctx == ctx && i.purpose != .firmware && i.ranges.any fun (a, n) => a ≤ va && va < a + n

/-- Judge a found page against the access. -/
def TlbEntry.permit (e : TlbEntry) (va : Nat) (acc : AccType) : Xlate :=
  match acc with
  | .write => if e.w then .ok (e.sa + (va - e.va)) e else .replay 1
  | .fetch => if e.x then .ok (e.sa + (va - e.va)) e else .replay 2
  | .read => .ok (e.sa + (va - e.va)) e

def Walk.outcome (w : Walk) (va : Nat) (acc : AccType) : Xlate :=
  match w with
  | .page e => e.permit va acc
  | .notValid => .replay 0
  | .fatal c => .fatal c
  | .held => .blocked

/-- The home slices of the tables serve a walk (R158, R271). -/
def State.servedWalk (s : State) (ctx va : Nat) : State :=
  match s.context? ctx with
  | none => s
  | some c => (s.walkReads ctx va 5 c.root).foldl (fun (s : State) sa => s.servedRead ctx sa) s

/-- A walk has been made: it draws its free choices, where there are older entries to choose (R154). -/
def State.walked (s : State) (ctx va : Nat) : State :=
  let s := s.servedWalk ctx va
  if s.oldPtes.isEmpty then s else { s with free := s.free + 512 }

def State.tlbFor (s : State) (ctx va : Nat) : Option TlbEntry := s.tlb.find? fun e => e.covers ctx va

/-- Translate one access (R149 to R154). A cached entry that no longer matches the table is used or not by a free choice per
access, until an invalidation completes (R154). -/
def State.translate (s : State) (ctx : Nat) (va64 : DWord) (acc : AccType) : Xlate × State :=
  if !(canonical va64) then (.fatal 1, s)
  else
    let va := va57 va64
    match s.tlbFor ctx va with
    | none =>
      if s.walksBlocked ctx va then (.blocked, s)
      else match s.walk ctx va with
        | .page e => (e.permit va acc, { s.walked ctx va with tlb := e :: s.tlb })
        | w => (w.outcome va acc, s.walked ctx va)
    | some e =>
      let w := s.walk ctx va
      if w = .page e || w = .held then (e.permit va acc, s)
      else if Config.takesNewEntry s.free then (w.outcome va acc, { s.servedWalk ctx va with free := s.free + 512 })
      else (e.permit va acc, { s with free := s.free + 512 })

/-- The page that an address lies in: that of its leaf, or 4 KiB where it has none (R155). -/
def State.pageOf (s : State) (ctx va : Nat) : Nat × Nat :=
  match s.tlbFor ctx va, s.walk ctx va with
  | some e, _ => (e.va, e.size)
  | none, .page e => (e.va, e.size)
  | none, _ => (va / 4096 * 4096, 4096)

/-! ### BLD blocks -/

/-- The metadata record of an address's 64 KiB region (R162): its system address, on the address's own package. -/
def State.mdAddr (s : State) (sa : Nat) : Nat :=
  let pa := saPhys sa
  saPackage sa * 2 ^ 52 + (s.die (dieOfPhys pa)).mdbase + 512 * frameOf pa

/-- Block number within the region. -/
def blockOf (sa : Nat) : Nat := sa % 65536 / 256

def State.bldMode (s : State) (sa : Nat) : Nat := (s.byte (s.mdAddr sa + blockOf sa)).toNat

def State.setBldMode (s : State) (sa m : Nat) : State := s.setBytes (s.mdAddr sa + blockOf sa) [BitVec.ofNat 8 m]

/-- The CLEAR word's bytes (R163). -/
def State.bldClear (s : State) (sa : Nat) : List Byte := s.bytes (s.mdAddr sa + 256) 4

def bldWidth (code : Nat) : Nat := match code with | 0 => 0 | 1 => 2 | 2 => 4 | _ => 8

/-- The 256 bytes of a compressed payload (R165); none where it is malformed. -/
def bldDecode (slot : List Byte) : Option (List Byte) :=
  let at_ := fun i => (slot.getD i 0).toNat
  let w := fun l => bldWidth (bits (at_ 4) (2 * l) 2)
  if at_ 5 != 0 || at_ 6 != 0 || at_ 7 != 0 || w 0 + w 1 + w 2 + w 3 == 32 then none
  else
    let stream := leNat (slot.drop 8)
    let base := fun l => 64 * ((List.range l).foldl (fun a i => a + w i) 0)
    some ((List.range 256).map fun i =>
      let l := i % 4
      BitVec.ofNat 8 (at_ l + bits stream (base l + w l * (i / 4)) (w l)))

/-- The canonical compressor (R166): the payload bytes, or none where the block is written raw. -/
def bldEncode (raw : List Byte) : Option (List Byte) :=
  let lane := fun l => (List.range 64).map fun i => (raw.getD (4 * i + l) 0).toNat
  let mn := fun l => (lane l).foldl min 255
  let mx := fun l => (lane l).foldl max 0
  let code := fun l =>
    let d := mx l - mn l
    if d == 0 then 0 else if d < 4 then 1 else if d < 16 then 2 else 3
  let w := fun l => bldWidth (code l)
  let sum := w 0 + w 1 + w 2 + w 3
  if sum > 27 then none
  else
    let stream := [0, 1, 2, 3].foldl (fun (acc : Nat × Nat) l =>
      ((List.range 64).foldl (fun (a : Nat × Nat) i =>
        (a.1 + ((lane l).getD i 0 - mn l) * 2 ^ a.2, a.2 + w l)) acc)) (0, 0)
    let sectors := (8 + 8 * sum + 31) / 32
    some ([0, 1, 2, 3].map (fun l => BitVec.ofNat 8 (mn l))
      ++ [BitVec.ofNat 8 (code 0 + 4 * code 1 + 16 * code 2 + 64 * code 3), 0, 0, 0]
      ++ leBytes (32 * sectors - 8) stream.1)

/-- What a read or write of a BLD block may meet: the MEMFMT code of R253. -/
abbrev MemFmt := Nat

/-- The decoded bytes of a whole block (R164, R167). -/
def State.blockBytes (s : State) (sa : Nat) : Except MemFmt (List Byte) :=
  let b := sa / 256 * 256
  match s.bldMode sa with
  | 0 => .ok (s.bytes b 256)
  | 1 => .ok ((List.range 64).flatMap fun _ => s.bldClear sa)
  | 2 => match bldDecode (s.bytes b 256) with
    | some l => .ok l
    | none => .error 2
  | m => .error m

/-- Read bytes that lie in one block, through a leaf with the given BLD bit. -/
def State.readVia (s : State) (bld : Bool) (sa n : Nat) : Except MemFmt (List Byte) :=
  if !bld || s.bldMode sa == 0 then .ok (s.bytes sa n)
  else match s.blockBytes sa with
    | .ok l => .ok ((l.drop (sa % 256)).take n)
    | .error c => .error c

/-- Decompress a block in place (R168). -/
def State.decompress (s : State) (sa : Nat) : Except MemFmt State :=
  if s.bldMode sa == 0 then .ok s
  else match s.blockBytes sa with
    | .ok l => .ok ((s.setBytes (sa / 256 * 256) l).setBldMode sa 0)
    | .error c => .error c

/-! ### Watches, hotness, L1 -/

/-- The two filter bits of a line (R179). -/
def filterBits (line : Nat) : Nat × Nat :=
  let h := (mix64 (BitVec.ofNat 64 line)).toNat
  (bits h 0 10, bits h 10 10)

/-- The filter bits of the written line are both among those of the watched lines. -/
def filterHit (written : Nat) (watched : List Nat) : Bool :=
  let (a, b) := filterBits written
  let set := watched.flatMap fun l => [(filterBits l).1, (filterBits l).2]
  set.contains a && set.contains b

def Group.wakeOn (g : Group) (line : Nat) : Group :=
  match g.park with
  | .waita l false => if filterHit line l then { g with park := .waita l true } else g
  | _ => g

/-- Wake a team's groups; a swapped team that waited for it is ready (R179, R250). -/
def Team.wakeOn (t : Team) (now line : Nat) : Team :=
  let gs := t.groups.map fun g => g.wakeOn line
  { t with
    groups := gs
    readyAt := if t.place.left && t.readyAt.isNone && !t.halted && t.relievedBy.isNone && gs != t.groups then some now
      else t.readyAt }

/-- Send a written line to the cores and clear its watch bit (R179). -/
def State.wakeLine (s : State) (line : Nat) : State :=
  if s.watches.any (fun w => w.line == line) then
    { s with
      watches := s.watches.filter fun w => w.line != line
      teams := s.teams.map fun t => t.wakeOn s.gtime line }
  else s

/-- The home slices serve what an access through a leaf reads beside its line: with BLD = 1 the block's mode byte, and the CLEAR word of a
fast-clear block (R158, R162, R163). -/
def State.servedMode (s : State) (ctx : Nat) (bld : Bool) (sa : Nat) : State :=
  if !bld then s
  else
    let md := s.mdAddr sa
    let clear := s.bldMode sa == 1
    let s := s.servedRead ctx (md + blockOf sa)
    if clear then s.servedRead ctx (md + 256) else s

/-- A line is read for a context through a leaf with the given BLD bit. -/
def State.servedVia (s : State) (ctx : Nat) (bld : Bool) (sa : Nat) : State := (s.servedMode ctx bld sa).servedRead ctx sa

/-- A line is written for a context through a leaf with the given BLD bit. -/
def State.servedWrite (s : State) (ctx : Nat) (bld : Bool) (sa : Nat) : State := (s.servedMode ctx bld sa).served sa

/-! ### Changing memory (R154, R179) -/

/-- The lines in which some bytes differ from others at the same place. -/
def changedLines (sa : Nat) (old new : List Byte) : List Nat :=
  ((old.zip new).zipIdx.filterMap fun x => if x.1.1 == x.1.2 then none else some (lineOf (sa + x.2))).dedup

/-- Change bytes of memory; a line that changes wakes its watchers (R179). -/
def State.putBytes (s : State) (sa : Nat) (l : List Byte) : State :=
  (changedLines sa (s.bytes sa l.length) l).foldl State.wakeLine (s.setBytes sa l)

/-- A valid entry that is no leaf, as the page it stands in and the table it points to. -/
def pointerOf (pa e : Nat) : Option (Nat × Nat) :=
  if e.testBit 0 && !(e.testBit 1) then some (pa / 4096, bits e 12 40) else none

/-- The pointers that memory holds on this package, and those that walks may still see. -/
def State.pointers (s : State) : List (Nat × Nat) :=
  (s.mem.filterMap fun c => if saPackage c.1 == s.package && c.1 % 8 == 0 then pointerOf (saPhys c.1) (s.pte (saPhys c.1)) else none)
    ++ s.oldPtes.filterMap fun o => pointerOf o.pa o.value

/-- A page is a table: a root, or pointed to from a table; the number bounds the levels above it. -/
def isTableFrom (roots : List Nat) (ps : List (Nat × Nat)) : Nat → Nat → Bool
  | 0, p => roots.contains p
  | k + 1, p => roots.contains p || ps.any fun x => x.2 == p && isTableFrom roots ps k x.1

/-- A physical address lies in a page table of some context (R149). -/
def State.inTable (s : State) (pa : Nat) : Bool :=
  isTableFrom (s.contexts.map fun c => c.root / 4096) s.pointers 4 (pa / 4096)

/-- The valid table entries that a write of some bytes changes, with their values before it. -/
def State.replaced (s : State) (sa : Nat) (l : List Byte) : List OldPte :=
  if saPackage sa != s.package then []
  else
    let s' := s.setBytes sa l
    (((List.range ((saPhys sa % 8 + l.length + 7) / 8)).map fun i => saPhys sa / 8 * 8 + 8 * i).filter fun a =>
      (s.pte a).testBit 0 && s.pte a != s'.pte a && s.inTable a).map fun a => { pa := a, value := s.pte a }

/-- Walks may go on seeing the valid entries that a write changes until an invalidation, whoever writes (R154). -/
def State.keepOld (s : State) (sa : Nat) (l : List Byte) : State := { s with oldPtes := s.replaced sa l ++ s.oldPtes }

/-- Change bytes of memory as any agent's write does. -/
def State.alter (s : State) (sa : Nat) (l : List Byte) : State := (s.keepOld sa l).putBytes sa l

/-- Firmware writes a table entry. Where it was valid and changes, walks may go on seeing the old value until an invalidation (R154). -/
def State.writePte (s : State) (pa value : Nat) : State :=
  let old := s.pte pa
  let s := if old.testBit 0 && old != value then { s with oldPtes := { pa := pa, value := old } :: s.oldPtes } else s
  (s.putBytes (s.local pa) (leBytes 8 value)).served (s.local pa)

/-- Write bytes of one line at a home slice (R154, R168, R179): decompression and the write are one step, and a changed line wakes its
watchers. -/
def State.writeVia (s : State) (bld : Bool) (sa : Nat) (l : List Byte) : Except MemFmt State :=
  match (if bld then s.decompress sa else .ok s) with
  | .error c => .error c
  | .ok s1 => .ok (s1.alter sa l)

/-- Invalidate every L1 line and texture-cache line of a context on a core (R192, R330). -/
def State.dropL1 (s : State) (die core ctx : Nat) : State :=
  s.onCore die core fun c => { c with l1 := c.l1.filter fun l => l.ctx != ctx, texCache := c.texCache.filter fun l => l.ctx != ctx }

/-- Forget the blocks of code that a core has fetched for a context. -/
def State.dropCode (s : State) (die core ctx : Nat) : State :=
  s.onCore die core fun c => { c with code := c.code.filter fun b => b.ctx != ctx }

/-- Keep a block of code as it stands. -/
def State.keepCode (s : State) (die core : Nat) (b : CodeBlock) : State :=
  s.onCore die core fun c => { c with code := b :: c.code.filter fun x => !(x.ctx == b.ctx && x.block == b.block) }

/-- Put a line's current bytes into a core's L1 (R182). -/
def State.fillL1 (s : State) (die core ctx line : Nat) (bld : Bool) (bytes : List Byte) : State :=
  s.onCore die core fun c => { c with l1 := ⟨ctx, line, bld, bytes⟩ :: c.l1.filter fun l => !(l.ctx == ctx && l.line == line) }

/-- The copies of a line that a core holds follow the line, each through the leaf it was read by (R182). -/
def State.refreshL1 (s : State) (die core line : Nat) : State :=
  s.onCore die core fun c => { c with l1 := c.l1.map fun x =>
    if x.line == line then match s.readVia x.bld (line * 128) 128 with
      | .ok b => { x with bytes := b }
      | .error _ => x
    else x }

/-! ### The fault buffer -/

/-- A die's fault buffer holds 4,096 entries (R13, R155). -/
def faultSlots : Nat := 4096

def State.faultSlotsUsed (s : State) (d : Nat) : Nat := (s.faults.filter fun f => f.die == d && f.slot).length

/-- Enter a replayable fault (R155); where the buffer is full it waits for a slot (R156). Answers its id. -/
def State.addFault (s : State) (die core ctx agent kind cause : Nat) (va : DWord) (req : FaultReq) : Nat × State :=
  let (i, s) := s.fresh
  let f : FaultEntry :=
    { id := i, page := s.pageOf ctx (va57 va), die := die, core := core, ctx := ctx, agent := agent, kind := kind, cause := cause
      va := va &&& 0x1FFFFFFFFFFFFFF#64
      slot := decide (s.faultSlotsUsed die < faultSlots) && (s.faults.all fun g => g.die != die || g.slot), req := req }
  (i, { s with faults := s.faults ++ [f] })

end Sys2Proof.Machine
end

