-- ==== Sys2Proof/Machine/Operands.lean ====
section
/-! DEFINITION. Register and predicate operands: reading elements and immediates (R78, R79, R101 to R104, R354), shapes
(R80), the general pool (R81), and the one place where registers and predicates are written. -/

namespace Sys2Proof.Machine

/-! ### Reading -/

inductive Shape where
  | uniform | affine | general
deriving DecidableEq, Repr

def VReg.shape : VReg → Shape
  | .uniform _ => .uniform
  | .affine _ _ => .affine
  | .general _ => .general

/-- The element of lane `l` (R79). -/
def VReg.elem (r : VReg) (l : Nat) : Word :=
  match r with
  | .uniform v => v
  | .affine b st => b + st * BitVec.ofNat 32 l
  | .general e => e.getD l 0

/-- A register at placement: uniform zero (R78). -/
def zeroReg : VReg := .uniform 0

def Group.reg (g : Group) (r : Nat) : VReg := SMap.get zeroReg g.regs r

def Group.setReg (g : Group) (r : Nat) (v : VReg) : Group := { g with regs := SMap.set zeroReg g.regs r v }

def Group.elem (g : Group) (r l : Nat) : Word := (g.reg r).elem l

/-- The 64-bit value of an even pair (R78). -/
def Group.pairElem (g : Group) (r l : Nat) : DWord := pairOf (g.elem r l) (g.elem (r + 1) l)

/-- An operand of a type, zero-extended to 64 bits. -/
def Group.typed (g : Group) (ty : Ty) (r : VR) (l : Nat) : DWord :=
  if ty.is64 then g.pairElem r.toNat l else (g.elem r.toNat l).setWidth 64

/-- `p7` reads true in every lane (R82). -/
def Group.pred (g : Group) (p : Nat) : Mask := if p == 7 then 0xFFFFFFFF#32 else SMap.get 0#32 g.preds p

/-- Write a predicate in the active lanes; writes to `p7` are discarded (R82). -/
def Group.setPred (g : Group) (p : Nat) (active vals : Mask) : Group :=
  if p == 7 then g
  else { g with preds := SMap.set 0#32 g.preds p ((g.pred p &&& ~~~active) ||| (vals &&& active)) }

/-- The group's live lanes (R64). -/
def Group.live (g : Group) : Mask := g.frontier.foldl (fun m e => m ||| e.lanes) 0

/-- The active lanes of a bundle (R100). -/
def Group.active (g : Group) (gd : Guard) (lanes : Mask) : Mask :=
  lanes &&& (if gd.neg then ~~~(g.pred gd.p.toNat) else g.pred gd.p.toNat)

/-- A 10-bit immediate sign-extended to the element width and repeated in every element (R101); 64 bits wide, the low 32
used for a 32-bit type. -/
def imm10 (ty : Ty) (i : BitVec 10) : DWord :=
  if ty.is64 then i.signExtend 64
  else match ty.count with
    | 2 => let h : BitVec 16 := i.signExtend 16; (h ++ h).setWidth 64
    | 4 => let b : BitVec 8 := i.setWidth 8; (b ++ b ++ b ++ b).setWidth 64
    | _ => (i.signExtend 32).setWidth 64

/-- An immediate of any form for a type: I32 as it stands for 32-bit types, sign-extended for 64-bit ones (R354). -/
def srcImm (ty : Ty) : Src → DWord
  | .imm10 i => imm10 ty i
  | .imm32 i => if ty.is64 then i.signExtend 64 else i.setWidth 64
  | .imm64 i => i
  | .reg _ => 0

/-- The second operand of a type in lane `l`. -/
def Group.src (g : Group) (ty : Ty) (b : Src) (l : Nat) : DWord :=
  match b with
  | .reg r => g.typed ty r l
  | i => srcImm ty i

/-- A second operand that is one 32-bit word whatever the type. -/
def Group.src32 (g : Group) (b : Src) (l : Nat) : Word := (g.src .b32 b l).setWidth 32

/-! ### Shapes (R80) -/

/-- The registers an operand of a type names. -/
def regsOf (ty : Ty) (r : VR) : List Nat := if ty.is64 then [r.toNat, r.toNat + 1] else [r.toNat]

def srcRegs (ty : Ty) : Src → List Nat
  | .reg r => regsOf ty r
  | _ => []

/-- The columns of R80's table. -/
inductive ShapeRule where
  /-- uniform from U, affine from A. -/
  | linear
  /-- uniform from U, general from A. -/
  | plain
  /-- affine from both. -/
  | affine
  /-- always general. -/
  | general
  /-- uniform when the lane partition is the whole group. -/
  | wholeTile
deriving DecidableEq, Repr

/-- The shape of a result (R80). -/
def Group.shapeOf (g : Group) (rule : ShapeRule) (srcs : List Nat) (active : Mask) : Shape :=
  if active != g.live then .general
  else if srcs.any fun r => (g.reg r).shape == .general then .general
  else
    let anyAffine := srcs.any fun r => (g.reg r).shape == .affine
    match rule with
    | .linear => if anyAffine then .affine else .uniform
    | .plain => if anyAffine then .general else .uniform
    | .affine => .affine
    | .general => .general
    | .wholeTile => if g.lpart == 5 then .uniform else .general

/-! ### Writing -/

/-- One register to be written: its shape and the value of every lane. -/
structure RegWrite where
  reg : Nat
  shape : Shape
  vals : List Word
deriving DecidableEq, Repr

/-- What one operation gives: registers, predicates and flags, in its active lanes. -/
structure Out where
  active : Mask
  regs : List RegWrite := []
  preds : List (Nat × Mask) := []
  flags : FpFlags := 0
deriving DecidableEq, Repr

/-- Values of all 32 lanes. -/
def laneVals (f : Nat → Word) : List Word := laneList.map f

/-- The register after a write. -/
def VReg.write (old : VReg) (active : Mask) (w : RegWrite) : VReg :=
  match w.shape with
  | .uniform => .uniform (w.vals.getD (active.lowest.getD 0) 0)
  | .affine => .affine (w.vals.getD 0 0) (w.vals.getD 1 0 - w.vals.getD 0 0)
  | .general => .general (laneList.map fun l => if active.has l then w.vals.getD l 0 else old.elem l)

def Group.writeReg (g : Group) (active : Mask) (w : RegWrite) : Group :=
  g.setReg w.reg ((g.reg w.reg).write active w)

/-- A value of a type in one or two registers (R78); a 64-bit result is never affine (R80). -/
def typedWrites (ty : Ty) (d : VR) (shape : Shape) (f : Nat → DWord) : List RegWrite :=
  if ty.is64 then
    let sh := if shape == .affine then .general else shape
    [⟨d.toNat, sh, laneVals fun l => loHalf (f l)⟩, ⟨d.toNat + 1, sh, laneVals fun l => hiHalf (f l)⟩]
  else [⟨d.toNat, shape, laneVals fun l => loHalf (f l)⟩]

def wordWrite (d : VR) (shape : Shape) (f : Nat → Word) : List RegWrite := [⟨d.toNat, shape, laneVals f⟩]

/-- Apply an operation's results (R82, R87). -/
def Group.apply (g : Group) (o : Out) : Group :=
  let g := o.regs.foldl (fun g w => g.writeReg o.active w) g
  let g := o.preds.foldl (fun g p => g.setPred p.1 o.active p.2) g
  { g with fpflags := g.fpflags ||| o.flags }

/-! ### The general pool (R81) -/

/-- Registers that a pending uniform result has freed at issue. -/
def Group.pendingUniform (g : Group) : List Nat :=
  g.pending.flatMap fun p => if p.uniform then p.regs else []

def Group.rowsUsed (g : Group) : Nat :=
  let freed := g.pendingUniform
  (g.regs.filter fun (r, v) => v.shape == .general && !(freed.contains r)).length

/-- The lowest register that finds no row, if there is one (R81). -/
def Group.poolFail (g : Group) (ws : List (Nat × Shape)) : Option Nat :=
  let n := ws.filter fun (r, sh) => sh == .general && (g.reg r).shape != .general
  let f := ws.filter fun (r, sh) => sh != .general && (g.reg r).shape == .general
  if n.length + g.rowsUsed > g.rows + f.length then
    n.foldl (fun m (r, _) => match m with
      | none => some r
      | some k => some (min k r)) none
  else none

def regpoolTrap (r : Nat) : Trap := { cause := 6, info := BitVec.ofNat 32 r, va := 0 }

/-- The REGPOOL trap of a set of writes, as a list of none or one. -/
def Group.poolTraps (g : Group) (ws : List RegWrite) : List Trap :=
  match g.poolFail (ws.map fun w => (w.reg, w.shape)) with
  | some r => [regpoolTrap r]
  | none => []

end Sys2Proof.Machine
end

