-- ==== Sys2Proof/Machine/Ops.lean ====
section
/-! DEFINITION. The shared operations: the frontier (R64 to R67), ending lanes, ownership entries' ends, taking a trap and
returning from one (R259 to R265), pending results (R110), barrier arrivals (R256), and issuing. -/

namespace Sys2Proof.Machine

/-! ### The frontier -/

/-- The sequential successor (R96). -/
def succPc (pc : DWord) (len : Nat) : DWord :=
  let n := pc + BitVec.ofNat 64 len
  if n.toNat % 32 == 28 then n + 4 else n

/-- A control transfer may go there (R98). -/
def legalTarget (pc : DWord) : Bool := pc.toNat % 4 == 0 && pc.toNat % 32 != 28

/-- The order of R64. -/
def Entry.before (a b : Entry) : Bool :=
  decide (b.prio.toNat < a.prio.toNat)
    || (a.prio == b.prio
        && ((a.handler && !b.handler) || (a.handler == b.handler && decide (a.pc.toNat < b.pc.toNat))))

def placeEntry (e : Entry) : List Entry → List Entry
  | [] => [e]
  | x :: r => if e.before x then e :: x :: r else x :: placeEntry e r

def Entry.same (a b : Entry) : Bool := a.pc == b.pc && a.handler == b.handler

/-- Put an entry into the frontier, merging with an entry of the same PC at the lower priority (R67); a handler entry never
merges with one outside the handler (R259). -/
def insertEntry (fr : List Entry) (e : Entry) : List Entry :=
  match fr.find? fun x => x.same e with
  | none => placeEntry e fr
  | some x =>
    placeEntry
      { x with lanes := x.lanes ||| e.lanes, prio := if e.prio.toNat < x.prio.toNat then e.prio else x.prio
               held := x.held || e.held }
      (fr.eraseP fun y => y.same e)

/-- The frontier without some lanes; entries left empty disappear. -/
def removeLanes (fr : List Entry) (m : Mask) : List Entry :=
  (fr.map fun e => { e with lanes := e.lanes &&& ~~~m }).filter fun e => e.lanes != 0

/-- Free the trap slot once no lane of the handler entry remains (R260); held entries may issue again. -/
def Group.settleSlot (g : Group) : Group :=
  if g.frontier.any fun e => e.handler then g
  else { g with slot := none, frontier := g.frontier.map fun e => { e with held := false } }

/-- One instruction more for the windows of the bundle's lanes (R111). -/
def Pending.tick (lanes : Mask) (p : Pending) : Pending :=
  { p with win := laneList.map fun l => if lanes.has l then p.win.getD l 0 - 1 else p.win.getD l 0 }

def Group.tickWindows (g : Group) (lanes : Mask) : Group := { g with pending := g.pending.map (Pending.tick lanes) }

/-- Every lane of the bundle goes on to the sequential successor with its priority (R66, first row). -/
def Group.advance (g : Group) (c : Cur) : Group :=
  let g := g.tickWindows c.lanes
  { g with
    publSeen := none
    fbRead := none
    due := false
    frontier := insertEntry (removeLanes g.frontier c.lanes)
      { pc := succPc c.pc c.len, prio := c.prio, lanes := c.lanes, handler := c.handler }
    park := .none }

/-- Every lane of the bundle goes where `next` says; none ends it (R66, R67). -/
def Group.retarget (g : Group) (c : Cur) (next : Nat → Option (DWord × BitVec 8)) : Group :=
  let g := g.tickWindows c.lanes
  let fr := c.lanes.lanes.foldl (fun fr l =>
    match next l with
    | none => fr
    | some (pc, pr) => insertEntry fr { pc := pc, prio := pr, lanes := Mask.single l, handler := c.handler })
    (removeLanes g.frontier c.lanes)
  { g with frontier := fr, park := .none }.settleSlot

/-- The entries in the order of R64 that may issue: an entry held by R260, or holding owed lanes while the slot is busy
(R114), is passed over (R65). -/
def Group.passedOver (g : Group) (e : Entry) : Bool :=
  e.held || (g.slot.isSome && !e.handler && g.owed.any fun o => !o.handler && (o.lanes &&& e.lanes) != 0)

def Group.head? (g : Group) : Option Entry := g.frontier.find? fun e => !(g.passedOver e)

/-! ### Putting a group back -/

def State.put (s : State) (t : Team) (g : Group) : State := s.setTeam (t.setGroup g)

/-- The group parks; the tick at which it did is kept over retries (R250). -/
def Group.parkAs (g : Group) (now : Nat) (p : Park) : Group :=
  { g with park := p, due := false, parkedSince := if g.park == .none then now else g.parkedSince }

/-- The bundle blocks before it takes effect. -/
def State.block (s : State) (t : Team) (g : Group) (w : Wait) : State := s.put t (g.parkAs s.gtime (.retry w))

/-! ### Ownership entries (R238, R240) -/

def OwnState.code : OwnState → Nat
  | .free => 0 | .unstarted => 1 | .running => 2 | .swapped => 3 | .resolved => 4 | .ended => 5

/-- STATE 1 to 3. -/
def OwnState.open_ (x : OwnState) : Bool := 1 ≤ x.code && x.code ≤ 3

/-- The 64 bytes of an entry as programs see it (R238). -/
def OwnEntry.toBytes (e : OwnEntry) : List Byte :=
  leBytes 64 (e.obj % 2 ^ 57 + e.olid.toNat * 2 ^ 96 + e.oindex.toNat * 2 ^ 128 + e.wlid.toNat * 2 ^ 160
    + e.windex.toNat * 2 ^ 192 + min e.waiters 255 * 2 ^ 224 + e.kind * 2 ^ 232 + e.state.code * 2 ^ 236
    + e.depth % 4 * 2 ^ 240 + e.link % 2 ^ 14 * 2 ^ 242)

/-- Write the area copy behind the cached entry (R238, R490); a write that is held is owed. -/
def State.writeArea (s : State) (e : OwnEntry) (bytes : List Byte) : State :=
  match s.context? e.ctx with
  | none => s
  | some c =>
    let va := c.obase + BitVec.ofNat 64 (64 * e.index)
    let later : State → State := fun s => { s with staleAreas := s.staleAreas.filter (fun x => x != (e.ctx, e.index)) ++ [(e.ctx, e.index)] }
    match s.translate e.ctx va .write with
    | (.ok sa x, s) =>
      if s.held e.die sa then later s
      else match s.writeVia x.bld sa bytes with
      | .ok s => s.servedWrite e.ctx x.bld sa
      | .error _ => (s.onContext e.ctx fun c => { c with areaFailed := true }).addLog (.areaUnwritten e.ctx)
    | (.replay cause, s) =>
      if s.faults.any fun f => f.req == .ownArea e.ctx e.index then s
      else (s.addFault e.die 0 e.ctx 0 9 cause va (.ownArea e.ctx e.index)).2
    | (.fatal _, s) => (s.onContext e.ctx fun c => { c with areaFailed := true }).addLog (.areaUnwritten e.ctx)
    | (.blocked, s) => later s

/-- The area copy of an index is written again; an index without an entry is zero (R238). -/
def State.rewriteArea (s : State) (ctx index : Nat) : State :=
  match s.own.find? fun e => e.ctx == ctx && e.index == index with
  | some e => s.writeArea e e.toBytes
  | none => s.writeArea { id := 0, ctx := ctx, index := index, die := 0, obj := 0, kind := 0, state := .free, waiters := 0
                          owner := .team 0, olid := 0, oindex := 0 } (leBytes 64 0)

/-- Write the area copies that are owed, as far as nothing holds them any more (R238). -/
def State.freshenAreas (s : State) : State :=
  if s.staleAreas.isEmpty then s
  else s.staleAreas.foldl (fun (s : State) x => s.rewriteArea x.1 x.2) { s with staleAreas := [] }

/-- Store an entry: its cached state, and the area copy behind it. -/
def State.setEntry (s : State) (e : OwnEntry) : State :=
  (s.onEntry e.id fun _ => e).writeArea e e.toBytes

/-- Free an entry in STATE 4 or 5 that no team waits on (R240). -/
def State.reapEntry (s : State) (eid : Nat) : State :=
  match s.entry? eid with
  | none => s
  | some e =>
    if !e.state.open_ && e.waiters == 0 then
      { s with own := s.own.filter fun x => x.id != eid }.writeArea e (leBytes 64 0)
    else s

/-- A relieved waiter whose entry has left STATE 1 to 3 is a ready swapped team (R246). -/
def State.readyWaiters (s : State) (eid : Nat) : State :=
  { s with teams := s.teams.map fun t =>
      if t.place.left && t.readyAt.isNone && !t.halted
          && (match t.relievedBy with
            | some e => e == eid
            | none => t.groups.any fun g => match g.park with
              | .await _ l => l.any fun x => x.2 == some eid
              | .retry (.tile (some e)) => e == eid
              | .retry (.stock (some e)) => e == eid
              | _ => false)
      then { t with readyAt := some s.gtime, relievedBy := none } else t }

/-- An entry leaves STATE 1 to 3 (R240). -/
def State.closeEntry (s : State) (eid : Nat) (st : OwnState) : State :=
  match s.entry? eid with
  | none => s
  | some e => if e.state.open_ then ((s.setEntry { e with state := st }).readyWaiters eid).reapEntry eid else s

/-- A waiter leaves an entry (R240). -/
def State.leaveEntry (s : State) (eid : Nat) : State :=
  match s.entry? eid with
  | none => s
  | some e => (s.setEntry { e with waiters := e.waiters - 1 }).reapEntry eid

/-- The entries on which a parked group is counted. -/
def Group.waitEntries (g : Group) : List Nat :=
  match g.park with
  | .retry (.tile (some e)) => [e]
  | .retry (.stock (some e)) => [e]
  | .await _ l => (l.filterMap fun x => x.2).dedup
  | _ => []

/-- Another group of the team waits on the entry: WAITERS counts teams (R238). -/
def State.otherWaits (s : State) (tid n eid : Nat) : Bool :=
  match s.team? tid with
  | some t => t.groups.any fun g => g.num != n && g.waitEntries.contains eid
  | none => false

/-- A group begins to wait on an entry. -/
def State.joinFor (s : State) (tid n eid : Nat) : State :=
  if s.otherWaits tid n eid then s
  else match s.entry? eid with
    | some x => s.setEntry { x with waiters := x.waiters + 1 }
    | none => s

/-- A group's wait on an entry is over. -/
def State.leaveFor (s : State) (tid n eid : Nat) : State := if s.otherWaits tid n eid then s else s.leaveEntry eid

/-- A group's wait ends without its instruction. -/
def State.leaveWaits (s : State) (tid n : Nat) : State :=
  match s.group? tid n with
  | some g =>
    if g.waitEntries.isEmpty then s
    else (g.waitEntries.foldl (fun s e => s.leaveFor tid n e) s).onGroup tid n fun g => { g with park := .none }
  | none => s

/-- The open entries an owner holds end (R240). -/
def State.endOwnedBy (s : State) (o : Owner) : State :=
  (s.own.filter fun e => e.owner == o && e.state.open_).foldl (fun s e => s.closeEntry e.id .ended) s

/-! ### Ending lanes and teams -/

/-- Lanes end (R57, R262). -/
def Group.endLanes (g : Group) (m : Mask) : Group :=
  let owed := (g.owed.map fun o => { o with lanes := o.lanes &&& ~~~m }).filter fun o => o.lanes != 0
  let g := { g with frontier := removeLanes g.frontier m, owed := owed }
  if g.frontier.isEmpty then
    { g with park := Park.none, slot := none, owed := [], pending := g.pending.filter fun p => p.kind == PendKind.atom }
  else g.settleSlot

/-- Record traps in the context's event log (R260). -/
def State.logTraps (s : State) (ctx : Nat) (l : List Trap) : State :=
  l.foldl (fun s tr => s.addLog (.context ctx tr.cause tr.info)) s

/-- A handler has ended a relief task: the entry that it relieves becomes 5 (R247). -/
def State.endRelieved (s : State) (t : Team) : State :=
  match t.relieves with
  | some e => if t.depth == 0 then s else s.closeEntry e .ended
  | none => s

/-- Every lane of every group ends and the stream stops (R262 `kill.team`, R265); the entries the team owns end, with the one it
relieves (R240, R247), and traps still undelivered are recorded (R260). -/
def State.killTeam (s : State) (tid : Nat) : State :=
  let nums : List Nat := match s.team? tid with
    | some t => t.groups.map fun g => g.num
    | none => []
  let s : State := nums.foldl (fun (s : State) n => s.leaveWaits tid n) s
  let s' := (s.onTeam tid fun t =>
    { t with groups := t.groups.map fun g => g.endLanes (~~~0)
             stream := t.stream.map fun m => { m with ended := true, park := .none, owesReplay := false }
             engTraps := [] }).endOwnedBy (.team tid)
  let s' : State := { s' with faults := s'.faults.map fun f => if f.req == .streamFetch tid then { f with req := .gone } else f }
  match s.team? tid with
  | some t => (s'.logTraps t.ctx t.engTraps).endRelieved t
  | none => s'

/-- A handler has ended lanes of a team: where no lane is left, it has ended the task (R247). -/
def State.endedByHandler (s : State) (tid : Nat) : State :=
  match s.team? tid with
  | some t => if t.groups.any fun g => !g.frontier.isEmpty then s else s.endRelieved t
  | none => s

/-- Every lane of one group ends (R262 `kill.grp`). -/
def State.killGroup (s : State) (tid n : Nat) : State :=
  ((s.leaveWaits tid n).onGroup tid n fun g => g.endLanes (~~~0)).endedByHandler tid

/-! ### Pending results (R110) -/

/-- Every piece has arrived. -/
def Pending.isReady (p : Pending) : Bool := p.left == 0

/-- The word that lane `l` receives in register number `i` of the result (R110, R359, R411). -/
def Pending.word (p : Pending) (i l : Nat) : Word :=
  match p.kind with
  | .ready => SMap.get 0#32 p.vals (32 * i + l)
  | _ =>
    let n := leNat (readBytes p.data (8 * p.bcast.getD l) p.bytes)
    let v := if p.signExt then wrapInt 64 (sint (8 * p.bytes) n) else n
    BitVec.ofNat 32 (v / 2 ^ (32 * i))

/-- The flags of a result's live lanes (R135, R385). -/
def Pending.flagsOf (p : Pending) (live : Mask) : BitVec 5 :=
  p.flags.foldl (fun a x => if live.has x.1 then a ||| x.2 else a) 0

/-- A result lands in all of its lanes, and its flags merge (R110, R135); of a lane that has ended since nothing is seen (R385). -/
def Group.land (g : Group) (p : Pending) : Group :=
  let live := p.active &&& g.live
  let g := { g with pending := g.pending.filter fun q => q.id != p.id }
  let writes := p.regs.zipIdx.map fun (r, i) =>
    { reg := r, shape := if p.uniform then .uniform else .general, vals := laneVals (p.word i) : RegWrite }
  let g := writes.foldl (fun g w => if live == 0 then g else g.writeReg live w) g
  let g := p.preds.foldl (fun g q => g.setPred q live p.pvals) g
  { g with fpflags := g.fpflags ||| p.flagsOf live }

def Group.landAll (g : Group) : Group := (g.pending.filter Pending.isReady).foldl Group.land g

/-- At issue a general destination takes its row (R110, R81): the register becomes general with its old elements. A uniform one keeps
its old elements until the result lands, while `Group.rowsUsed` counts its row as free from the issue on, a DESIGN CHOICE (log 67). -/
def Group.reserve (g : Group) (rs : List Nat) (uniform : Bool) : Group :=
  if uniform then g
  else rs.foldl (fun g r => g.setReg r (.general (laneList.map fun l => g.elem r l))) g

/-! ### Traps (R253 to R265) -/

def illegalTrap (sub : Sub) : Trap := { cause := 1, info := BitVec.ofNat 32 sub.code, va := 0 }
def permTrap (code : Nat) : Trap := { cause := 0xA, info := BitVec.ofNat 32 code, va := 0 }
def alignTrap (space : Nat) (va : DWord) : Trap := { cause := 9, info := BitVec.ofNat 32 space, va := va }
def xlateTrap (code : Nat) (va : DWord) : Trap := { cause := 0xB, info := BitVec.ofNat 32 code, va := va }
def memfmtTrap (code : Nat) (va : DWord) : Trap := { cause := 0xC, info := BitVec.ofNat 32 code, va := va }
def queueTrap (q : Nat) : Trap := { cause := 0xD, info := BitVec.ofNat 32 q, va := 0 }
def seqTrap (seq : Word) : Trap := { cause := 0xE, info := seq, va := 0 }

/-- The cause with the lowest code (R254). -/
def firstTrap : List Trap → Option Trap
  | [] => none
  | t :: r => match firstTrap r with
    | none => some t
    | some u => if t.cause ≤ u.cause then some t else some u

/-- `sr.trapcause` (R255). -/
def causeWord (cause ilen : Nat) (deferred engine : Bool) : Word :=
  BitVec.ofNat 32 (cause + ilen * 2 ^ 8 + (if deferred then 2 ^ 12 else 0) + (if engine then 2 ^ 13 else 0))

/-- A trap in a task of relief depth 1 or more becomes RELIEF (R247). ENTRY is 0 where the relieved entry has already been freed, a
DESIGN CHOICE (log 66). -/
def State.wrapRelief (s : State) (t : Team) (tr : Trap) : Trap :=
  if t.depth == 0 then tr
  else
    let idx := match t.relieves with
      | some e => match s.entry? e with
        | some x => x.index
        | none => 0
      | none => 0
    { cause := 0x10, va := tr.va
      info := BitVec.ofNat 32 (idx % 2 ^ 14 * 2 ^ 18 + (t.depth - 1) % 4 * 2 ^ 16 + tr.info.toNat % 256 * 2 ^ 8 + tr.cause) }

/-- What reading the record at HVA gives (R259, R490). -/
inductive HandlerRead where
  | code (pc : DWord)
  | none
  | failed
  | fault (cause : Nat)
  | wait
deriving DecidableEq, Repr

/-- The handler's CODE address, from the kernel record at HVA (R45, R259). -/
def State.handlerCode (s : State) (ctx : Nat) : HandlerRead × State :=
  match s.context? ctx with
  | .none => (.none, s)
  | some c =>
    if c.hva == 0 then (.none, s)
    else match s.translate ctx c.hva .read with
      | (.ok sa e, s) =>
        if s.held 0 sa then (.wait, s)
        else match s.readVia e.bld sa 64 with
        | .ok l =>
          let r := leNat l
          (if r.testBit 13 then .code (BitVec.ofNat 64 (bits r 192 64)) else .none, s.servedVia ctx e.bld sa)
        | .error _ => (.failed, s.servedVia ctx e.bld sa)
      | (.replay cause, s) => (.fault cause, s)
      | (.fatal _, s) => (.failed, s)
      | (.blocked, s) => (.wait, s)

/-- A trap to be taken by some lanes of one group. -/
structure TrapTo where
  pc : DWord
  lanes : Mask
  prio : BitVec 8
  handler : Bool
  trap : Trap
  ilen : Nat := 0
  deferred : Bool := false
  engine : Bool := false
deriving DecidableEq, Repr

/-- Fill the slot and form the handler entry (R259). -/
def Group.enterHandler (g : Group) (x : TrapTo) (tr : Trap) (code : DWord) : Group :=
  let g := g.landAll
  { g with
    slot := some { cause := causeWord tr.cause x.ilen x.deferred x.engine, info := tr.info, pc := x.pc, va := tr.va
                   prio := x.prio, lanes := x.lanes }
    frontier := placeEntry { pc := code, prio := 255, lanes := x.lanes, handler := true } (removeLanes g.frontier x.lanes)
    park := .none, due := false, hvaDenied := false, publSeen := none, fbRead := none }

/-- Hold the entries of the lanes until the trap slot is free (R260). -/
def Group.hold (g : Group) (lanes : Mask) : Group :=
  { g with frontier := g.frontier.map fun e => if e.lanes &&& lanes != 0 then { e with held := true } else e, park := .none }

/-- Take a trap: the one shared operation (R259, R260, R265). The second component says that the lanes entered the handler. While the read
of the handler record waits for its fault, the whole group is parked, its other lanes with the trapping ones: DESIGN CHOICE (log 100). -/
def State.takeTrap (s : State) (t : Team) (g : Group) (x : TrapTo) : State × Bool :=
  if x.handler then
    ((s.killGroup t.id g.num).addLog (.context t.ctx x.trap.cause x.trap.info), false)
  else if g.slot.isSome then (s.put t (g.hold x.lanes), false)
  else if !(g.pending.all Pending.isReady) then (s, false)
  else
    let tr := s.wrapRelief t x.trap
    match (if g.hvaDenied then (HandlerRead.failed, s) else s.handlerCode t.ctx) with
    | (.code pc, s) => (g.waitEntries.foldl (fun s e => s.leaveFor t.id g.num e) (s.put t (g.enterHandler x tr pc)), true)
    | (.none, s) => ((s.killTeam t.id).addLog (.context t.ctx tr.cause tr.info), false)
    | (.failed, s) => (((s.killTeam t.id).addLog (.readFailed t.ctx)).addLog (.context t.ctx tr.cause tr.info), false)
    | (.fault cause, s) =>
      let hva := match s.context? t.ctx with
        | some c => c.hva
        | none => 0
      let (i, s) := s.addFault t.die 0 t.ctx 0 9 cause hva (.handler t.id g.num)
      (s.put t (g.parkAs s.gtime (.fault i)), false)
    | (.wait, s) => (s, false)

/-- The bundle raises a trap at issue: precise at its instruction, which has taken no effect (R255). -/
def State.raise (s : State) (t : Team) (g : Group) (tr : Trap) : State :=
  (s.takeTrap t g { pc := s.cur.pc, lanes := s.cur.lanes, prio := s.cur.prio, handler := s.cur.handler, trap := tr
                    ilen := s.cur.len / 4 }).1

/-- Where TRET returns (R261). -/
def tretTarget (x : TrapSlot) (skip : Bool) : DWord :=
  let ilen := bits x.cause.toNat 8 4
  if skip && ilen != 0 then succPc x.pc (4 * ilen) else x.pc

/-- Return from the handler (R261): the handler entry's lanes go to the saved PC with the saved priority. -/
def Group.leaveHandler (g : Group) (c : Cur) (pc : DWord) (prio : BitVec 8) : Group :=
  let g := g.tickWindows c.lanes
  { g with
    frontier := insertEntry (removeLanes g.frontier c.lanes) { pc := pc, prio := prio, lanes := c.lanes, handler := false }
    park := .none }.settleSlot

/-- TRET and TRET.skip (R261, R482). -/
def tret (skip : Bool) (s : State) (t : Team) (g : Group) (_ : Mask) : State :=
  match g.slot with
  | none => s.raise t g (permTrap 1)
  | some x =>
    let pc := tretTarget x skip
    if !(legalTarget pc) then s.raise t g (illegalTrap .target)
    else s.put t (g.leaveHandler s.cur pc x.prio)

/-! ### Barriers (R85, R256) -/

def barGen (w : DWord) : BitVec 32 := w.extractLsb' 32 32
def barArrived (w : DWord) : Nat := (w.extractLsb' 16 8).toNat
def barCount (w : DWord) : Nat := (w.extractLsb' 8 8).toNat
def barHeld (w : DWord) : Nat := (w.extractLsb' 0 8).toNat

def barWord (gen : BitVec 32) (arrived count held : Nat) : DWord :=
  gen ++ 0#8 ++ BitVec.ofNat 8 arrived ++ BitVec.ofNat 8 count ++ BitVec.ofNat 8 held

/-- Complete the phase when ARRIVED has reached COUNT. -/
def barSettle (gen : BitVec 32) (arrived count held : Nat) : DWord × Bool :=
  if arrived == count then (barWord (gen + 1) 0 0 held, true) else (barWord gen arrived count held, false)

/-- An arrival with a count; none is a mismatch. The Bool says that the phase completed. -/
def barArrive (w : DWord) (c : Nat) : Option (DWord × Bool) :=
  if barCount w == 0 then
    let k := min (barHeld w) (c - 1)
    some (barSettle (barGen w) (1 + k) c (barHeld w - k))
  else if c == barCount w then some (barSettle (barGen w) (barArrived w + 1) c (barHeld w))
  else none

/-- An engine arrival; none is not taken. -/
def barEngine (w : DWord) : Option (DWord × Bool) :=
  if barCount w != 0 then some (barSettle (barGen w) (barArrived w + 1) (barCount w) (barHeld w))
  else if barHeld w == 255 then none
  else some (barWord (barGen w) 0 0 (barHeld w + 1), false)

def Team.bar (t : Team) (k : Nat) : DWord := SMap.get 0#64 t.bars k

def Team.setBar (t : Team) (k : Nat) (w : DWord) : Team := { t with bars := SMap.set 0#64 t.bars k w }

def barrierTrap (k c : Nat) (w : DWord) : Trap :=
  { cause := 8, info := BitVec.ofNat 32 (k % 16 + c % 256 * 2 ^ 8 + barCount w * 2 ^ 16), va := 0 }

/-! ### Issuing -/

/-- Write the results of the operations of one bundle or pair, after the row count of R81, and go on. -/
def State.commit (s : State) (t : Team) (g : Group) (outs : List Out) : State :=
  match firstTrap (g.poolTraps (outs.flatMap fun o => o.regs)) with
  | some tr => s.raise t g tr
  | none => s.put t ((outs.foldl Group.apply g).advance s.cur)

/-- Issue one register operation. -/
def issueOp (gd : Guard) (f : Team → Group → Mask → Out) (s : State) : Result :=
  match s.bundle? with
  | none => .fault .noBundle
  | some (t, g) => .next (s.commit t g [f t g (g.active gd s.cur.lanes)])

/-- Issue an instruction given by what it does to the state. -/
def issueWith (gd : Guard) (f : State → Team → Group → Mask → State) (s : State) : Result :=
  match s.bundle? with
  | none => .fault .noBundle
  | some (t, g) => .next (f s t g (g.active gd s.cur.lanes))

/-- Go on with the group changed. -/
def State.done (s : State) (t : Team) (g : Group) : State := s.put t (g.advance s.cur)

/-- Go on with the team and the group changed. -/
def State.doneTeam (s : State) (t : Team) (g : Group) : State := s.setTeam (t.setGroup (g.advance s.cur))

/-- A privileged instruction outside the handler raises PERM with code 1 (R253, R263). -/
def issuePriv (gd : Guard) (f : State → Team → Group → Mask → State) (s : State) : Result :=
  issueWith gd (fun s t g m => if s.cur.handler then f s t g m else s.raise t g (permTrap 1)) s

/-- Issue a long-latency instruction whose result is known at issue (R109 to R111); `fl` gives a lane's flags. -/
def issueLong (gd : Guard) (la : BitVec 4) (f : Team → Group → Mask → Out) (fl : Group → Nat → FpFlags) (s : State) : Result :=
  issueWith gd (fun s t g m =>
    let o := f t g m
    match firstTrap (g.poolTraps o.regs) with
    | some tr => s.raise t g tr
    | none =>
      let (i, s) := s.fresh
      let uniform := o.regs.all fun w => w.shape == .uniform
      let rs := o.regs.map fun w => w.reg
      let vals := o.regs.zipIdx.foldl (fun v (w, k) =>
        laneList.foldl (fun v l => SMap.set 0#32 v (32 * k + l) (w.vals.getD l 0)) v) []
      let pv := o.preds.foldl (fun _ p => p.2) 0#32
      let p : Pending :=
        { id := i, kind := .ready, bundle := s.cur.lanes, active := m
          win := laneList.map fun _ => la.toNat, regs := rs, preds := o.preds.map fun p => p.1
          uniform := uniform && !rs.isEmpty, vals := vals, pvals := pv, flags := m.lanes.foldl (fun v l => SMap.set 0#5 v l (fl g l)) [], handler := s.cur.handler }
      let g := (g.reserve rs p.uniform).advance s.cur
      s.put t { g with pending := g.pending ++ [p] }) s

end Sys2Proof.Machine
end

