-- ==== Sys2Proof/Machine/Integer.lean ====
section
/-! DEFINITION. The integer family: NOP, IADD to IABS, ICMP, LEA, AFF, SEL, MOV (R355, R356, R404 to R408, R414, R415,
R424, R425, R427, R464). -/

namespace Sys2Proof.Machine

/-! ### Elements -/

/-- Element `j` of a packed or single value of a type, as a natural number. -/
def elemNat (ty : Ty) (v : DWord) (j : Nat) : Nat := bits v.toNat (j * ty.width) ty.width

/-- Element `j`, signed for the signed types (R406). -/
def elemInt (ty : Ty) (v : DWord) (j : Nat) : Int :=
  if ty.signed then sint ty.width (elemNat ty v j) else (elemNat ty v j : Nat)

/-- Build a value from its elements. -/
def packElems (ty : Ty) (f : Nat → Nat) : DWord :=
  BitVec.ofNat 64 ((List.range ty.count).foldl (fun a j => a + f j % 2 ^ ty.width * 2 ^ (j * ty.width)) 0)

/-- SatS and SatN (R140). -/
def satInt (signed : Bool) (w : Nat) (x : Int) : Int :=
  let lo : Int := if signed then -((2 ^ (w - 1) : Nat) : Int) else 0
  let hi : Int := if signed then ((2 ^ (w - 1) : Nat) : Int) - 1 else ((2 ^ w : Nat) : Int) - 1
  if x < lo then lo else if x > hi then hi else x

/-- The narrowing of an exact integer result (R406). -/
def narrowInt (ty : Ty) (sat hi : Bool) (x : Int) : Nat :=
  if hi then wrapInt 32 (x / (2 ^ 32 : Nat))
  else if sat then wrapInt ty.width (satInt ty.signed ty.width x)
  else wrapInt ty.width x

/-- A two-source element operation. -/
def intBin (ty : Ty) (sat hi : Bool) (f : Int → Int → Int) (a b : DWord) : DWord :=
  packElems ty fun j => narrowInt ty sat hi (f (elemInt ty a j) (elemInt ty b j))

/-- A wrapping 32-bit type, for which R80 lets a result be affine. -/
def wraps32 (ty : Ty) : Bool := ty == .b32 || ty == .s32 || ty == .n32

/-- The shapes of the sources of a two-source operation. -/
def affineSrc (g : Group) (ty : Ty) : Src → Bool
  | .reg r => (g.reg r.toNat).shape == .affine && !ty.is64
  | _ => false

/-- Results of a two-source integer operation. -/
def intOut (rule : ShapeRule) (f : Int → Int → Int) (o : IntOp) (g : Group) (m : Mask) : Out :=
  { active := m
    regs := typedWrites o.ty o.d (g.shapeOf rule (regsOf o.ty o.a ++ srcRegs o.ty o.b) m) fun l =>
      intBin o.ty o.sat o.hi f (g.typed o.ty o.a l) (g.src o.ty o.b l) }

/-- The rule for IADD, ISUB (R80). -/
def addRule (o : IntOp) : ShapeRule := if wraps32 o.ty && !o.sat && !o.hi then .linear else .plain

/-- The rule for IMUL: affine only where one factor is uniform (R80). -/
def mulRule (g : Group) (o : IntOp) : ShapeRule :=
  if wraps32 o.ty && !o.sat && !o.hi && !((g.reg o.a.toNat).shape == .affine && affineSrc g o.ty o.b) then .linear
  else .plain

def iaddOut (o : IntOp) (_ : Team) (g : Group) (m : Mask) : Out := intOut (addRule o) (· + ·) o g m
def isubOut (o : IntOp) (_ : Team) (g : Group) (m : Mask) : Out := intOut (addRule o) (· - ·) o g m
def imulOut (o : IntOp) (_ : Team) (g : Group) (m : Mask) : Out := intOut (mulRule g o) (· * ·) o g m
def iminOut (o : IntOp) (_ : Team) (g : Group) (m : Mask) : Out := intOut .plain min o g m
def imaxOut (o : IntOp) (_ : Team) (g : Group) (m : Mask) : Out := intOut .plain max o g m

def imadOut (o : MadOp) (_ : Team) (g : Group) (m : Mask) : Out :=
  let c := o.c.getD o.d
  let bothAffine := (g.reg o.a.toNat).shape == .affine && (g.reg o.b.toNat).shape == .affine
  let rule : ShapeRule := if wraps32 o.ty && !o.sat && !bothAffine then .linear else .plain
  { active := m
    regs := typedWrites o.ty o.d (g.shapeOf rule (regsOf o.ty o.a ++ regsOf o.ty o.b ++ regsOf o.ty c) m) fun l =>
      packElems o.ty fun j =>
        narrowInt o.ty o.sat false
          (elemInt o.ty (g.typed o.ty o.a l) j * elemInt o.ty (g.typed o.ty o.b l) j + elemInt o.ty (g.typed o.ty c l) j) }

def iabsOut (o : AbsOp) (_ : Team) (g : Group) (m : Mask) : Out :=
  { active := m
    regs := typedWrites o.ty o.d (g.shapeOf .plain (regsOf o.ty o.a) m) fun l =>
      packElems o.ty fun j => narrowInt o.ty o.sat false ((elemInt o.ty (g.typed o.ty o.a l) j).natAbs : Nat) }

/-- The comparisons of R407. -/
def intCmp (cc : Nat) (a b : Int) : Bool :=
  match cc with
  | 0 => a == b
  | 1 => a != b
  | 2 => decide (a < b)
  | 3 => decide (a ≤ b)
  | 4 => decide (a > b)
  | _ => decide (a ≥ b)

def icmpOut (o : CmpOp) (_ : Team) (g : Group) (m : Mask) : Out :=
  { active := m
    preds := [(o.p.toNat, Mask.ofPred fun l =>
      intCmp o.cc.toNat (elemInt o.ty (g.typed o.ty o.a l) 0) (elemInt o.ty (g.src o.ty o.b l) 0))] }

/-- LEA (R414). -/
def leaOut (o : LeaOp) (_ : Team) (g : Group) (m : Mask) : Out :=
  let rule : ShapeRule := if o.ty == .n32 then .linear else .plain
  { active := m
    regs := typedWrites o.ty o.d (g.shapeOf rule (regsOf o.ty o.a ++ srcRegs .b32 o.b) m) fun l =>
      let i := g.src32 o.b l
      let i : DWord := if o.ty == .s64 then i.signExtend 64 else i.setWidth 64
      g.typed o.ty o.a l + (i <<< o.sh.toNat) }

/-- AFF (R356). The stride is lane 0's element of the second operand, active or not. -/
def affOut (o : BinOp) (_ : Team) (g : Group) (m : Mask) : Out :=
  let st := g.src32 o.b 0
  { active := m
    regs := wordWrite o.d (g.shapeOf .affine (regsOf .b32 o.a ++ srcRegs .b32 o.b) m) fun l =>
      g.elem o.a.toNat l + st * BitVec.ofNat 32 l }

/-- SEL (R464): a predicate other than `p7` counts as a general source. -/
def selOut (o : SelOp) (_ : Team) (g : Group) (m : Mask) : Out :=
  let rule : ShapeRule := if o.p == 7 then .plain else .general
  { active := m
    regs := typedWrites o.ty o.d (g.shapeOf rule (regsOf o.ty o.a ++ srcRegs o.ty o.b) m) fun l =>
      if (g.pred o.p.toNat).has l then g.typed o.ty o.a l else g.src o.ty o.b l }

/-- MOV (R425). -/
def movOut (o : MovOp) (_ : Team) (g : Group) (m : Mask) : Out :=
  { active := m
    regs := typedWrites o.ty o.d (g.shapeOf .linear (srcRegs o.ty o.b) m) fun l => g.src o.ty o.b l }

def nopOut (_ : Team) (_ : Group) (m : Mask) : Out := { active := m }

/-- NOP (R427): no effect; a NOP of a matrix stream goes on to the next word (R117). -/
def execNop (gd : Guard) (s : State) : Result :=
  match s.word? with
  | some (t, st) => .next (s.setTeam { t with stream := some { st with pc := st.pc + 8, park := .none } })
  | none => issueOp gd nopOut s

def execIadd (o : IntOp) (s : State) : Result := issueOp o.g (iaddOut o) s
def execIsub (o : IntOp) (s : State) : Result := issueOp o.g (isubOut o) s
def execImul (o : IntOp) (s : State) : Result := issueOp o.g (imulOut o) s
def execImad (o : MadOp) (s : State) : Result := issueOp o.g (imadOut o) s
def execImin (o : IntOp) (s : State) : Result := issueOp o.g (iminOut o) s
def execImax (o : IntOp) (s : State) : Result := issueOp o.g (imaxOut o) s
def execIabs (o : AbsOp) (s : State) : Result := issueOp o.g (iabsOut o) s
def execIcmp (o : CmpOp) (s : State) : Result := issueOp o.g (icmpOut o) s
def execLea (o : LeaOp) (s : State) : Result := issueOp o.g (leaOut o) s
def execAff (o : BinOp) (s : State) : Result := issueOp o.g (affOut o) s
def execSel (o : SelOp) (s : State) : Result := issueOp o.g (selOut o) s
def execMov (o : MovOp) (s : State) : Result := issueOp o.g (movOut o) s

end Sys2Proof.Machine
end

