-- ==== Sys2Proof/Machine/BitOps.lean ====
section
/-! DEFINITION. The bit family: AND to BREV, BFX, BFI, ILV, DLV, PLOP (R357, R365 to R367, R372, R376, R383, R384, R428
to R430, R435, R436, R467, R468, R488). -/

namespace Sys2Proof.Machine

/-- A two-source operation on whole values of a type. -/
def bitOut (f : DWord → DWord → DWord) (o : BinOp) (g : Group) (m : Mask) : Out :=
  { active := m
    regs := typedWrites o.ty o.d (g.shapeOf .plain (regsOf o.ty o.a ++ srcRegs o.ty o.b) m) fun l =>
      f (g.typed o.ty o.a l) (g.src o.ty o.b l) }

def andOut (o : BinOp) (_ : Team) (g : Group) (m : Mask) : Out := bitOut (· &&& ·) o g m
def orOut (o : BinOp) (_ : Team) (g : Group) (m : Mask) : Out := bitOut (· ||| ·) o g m
def xorOut (o : BinOp) (_ : Team) (g : Group) (m : Mask) : Out := bitOut (· ^^^ ·) o g m

/-- A one-source operation with a result of the same type. -/
def bitUn (f : Nat → DWord → DWord) (o : UnOp) (g : Group) (m : Mask) : Out :=
  { active := m
    regs := typedWrites o.ty o.d (g.shapeOf .plain (regsOf o.ty o.a) m) fun l => f o.ty.width (g.typed o.ty o.a l) }

/-- A one-source operation with a 32-bit result. -/
def bitCount (f : Nat → DWord → Nat) (o : UnOp) (g : Group) (m : Mask) : Out :=
  { active := m
    regs := wordWrite o.d (g.shapeOf .plain (regsOf o.ty o.a) m) fun l =>
      BitVec.ofNat 32 (f o.ty.width (g.typed o.ty o.a l)) }

/-- A number whose bit `i` is `f i`, for `i` below `n`. -/
def natOfBits (n : Nat) (f : Nat → Bool) : Nat :=
  (List.range n).foldl (fun a i => if f i then a + 2 ^ i else a) 0

def clzNat (w : Nat) (x : DWord) : Nat :=
  let n := x.toNat % 2 ^ w
  if n == 0 then w else w - 1 - Nat.log2 n

def popcNat (w : Nat) (x : DWord) : Nat :=
  (List.range w).foldl (fun a i => if x.getLsbD i then a + 1 else a) 0

def brevVal (w : Nat) (x : DWord) : DWord := BitVec.ofNat 64 (natOfBits w fun i => x.getLsbD (w - 1 - i))

def notOut (o : UnOp) (_ : Team) (g : Group) (m : Mask) : Out := bitUn (fun _ x => ~~~x) o g m
def brevOut (o : UnOp) (_ : Team) (g : Group) (m : Mask) : Out := bitUn brevVal o g m
def clzOut (o : UnOp) (_ : Team) (g : Group) (m : Mask) : Out := bitCount clzNat o g m
def popcOut (o : UnOp) (_ : Team) (g : Group) (m : Mask) : Out := bitCount popcNat o g m

/-- SHL (R468). -/
def shlVal (w k : Nat) (x : DWord) : DWord := if k ≥ w then 0 else x <<< k

/-- SHR (R468). -/
def shrVal (signed : Bool) (w k : Nat) (x : DWord) : DWord :=
  let n := x.toNat % 2 ^ w
  if signed then BitVec.ofNat 64 (wrapInt w (sint w n / ((2 ^ min k (w - 1) : Nat) : Int)))
  else if k ≥ w then 0 else BitVec.ofNat 64 (n / 2 ^ k)

/-- ROT (R430). -/
def rotVal (right : Bool) (w k : Nat) (x : DWord) : DWord :=
  let k := k % w
  let k := if right then (w - k) % w else k
  let n := x.toNat % 2 ^ w
  BitVec.ofNat 64 ((n * 2 ^ k + n / 2 ^ (w - k)) % 2 ^ w)

/-- SHL by a uniform amount stays affine for b32 (R80, R468). -/
def shlOut (o : BinOp) (_ : Team) (g : Group) (m : Mask) : Out :=
  let rule : ShapeRule := if o.ty == .b32 && !(affineSrc g .b32 o.b) then .linear else .plain
  { active := m
    regs := typedWrites o.ty o.d (g.shapeOf rule (regsOf o.ty o.a ++ srcRegs .b32 o.b) m) fun l =>
      shlVal o.ty.width (g.src32 o.b l).toNat (g.typed o.ty o.a l) }

def shrOut (o : BinOp) (_ : Team) (g : Group) (m : Mask) : Out :=
  { active := m
    regs := typedWrites o.ty o.d (g.shapeOf .plain (regsOf o.ty o.a ++ srcRegs .b32 o.b) m) fun l =>
      shrVal o.ty.signed o.ty.width (g.src32 o.b l).toNat (g.typed o.ty o.a l) }

def rotOut (o : RotOp) (_ : Team) (g : Group) (m : Mask) : Out :=
  { active := m
    regs := typedWrites o.ty o.d (g.shapeOf .plain (regsOf o.ty o.a ++ srcRegs .b32 o.b) m) fun l =>
      rotVal o.right o.ty.width (g.src32 o.b l).toNat (g.typed o.ty o.a l) }

/-- The effective position and length of a control word (R365). -/
def fieldOf (w : Nat) (c : Word) : Nat × Nat :=
  let p := min (bits c.toNat 0 8) w
  (p, min (bits c.toNat 8 8) (w - p))

/-- BFX (R366). -/
def bfxVal (signed : Bool) (w : Nat) (c : Word) (x : DWord) : DWord :=
  let (p, l) := fieldOf w c
  let f := bits (x.toNat % 2 ^ w) p l
  BitVec.ofNat 64 (if signed && l > 0 then wrapInt w (sint l f) else f)

/-- BFI (R367). -/
def bfiVal (w : Nat) (c : Word) (x base : DWord) : DWord :=
  let (p, l) := fieldOf w c
  let msk : DWord := BitVec.ofNat 64 ((2 ^ l - 1) * 2 ^ p)
  (base &&& ~~~msk) ||| ((x <<< p) &&& msk)

def bfxOut (o : BinOp) (_ : Team) (g : Group) (m : Mask) : Out :=
  { active := m
    regs := typedWrites o.ty o.d (g.shapeOf .plain (regsOf o.ty o.a ++ srcRegs .b32 o.b) m) fun l =>
      bfxVal o.ty.signed o.ty.width (g.src32 o.b l) (g.typed o.ty o.a l) }

def bfiOut (o : BfiOp) (_ : Team) (g : Group) (m : Mask) : Out :=
  { active := m
    regs := typedWrites o.ty o.d
      (g.shapeOf .plain (regsOf o.ty o.a ++ regsOf o.ty o.c ++ srcRegs .b32 o.ctl) m) fun l =>
      bfiVal o.ty.width (g.src32 o.ctl l) (g.typed o.ty o.a l) (g.typed o.ty o.c l) }

/-- ILV and DLV (R384); `h` is the half width. -/
def ilvVal (h : Nat) (a b : Word) : DWord :=
  BitVec.ofNat 64 (natOfBits (2 * h) fun i => if i % 2 == 0 then a.getLsbD (i / 2) else b.getLsbD (i / 2))

def dlvVal (h odd : Nat) (x : DWord) : Word := BitVec.ofNat 32 (natOfBits h fun b => x.getLsbD (2 * b + odd))

def ilvOut (o : IlvOp) (_ : Team) (g : Group) (m : Mask) : Out :=
  { active := m
    regs := typedWrites o.ty o.d (g.shapeOf .plain [o.a.toNat, o.b.toNat] m) fun l =>
      ilvVal (o.ty.width / 2) (g.elem o.a.toNat l) (g.elem o.b.toNat l) }

def dlvOut (o : UnOp) (_ : Team) (g : Group) (m : Mask) : Out :=
  let sh := g.shapeOf .plain (regsOf o.ty o.a) m
  let h := o.ty.width / 2
  { active := m
    regs := [⟨o.d.toNat, sh, laneVals fun l => dlvVal h 0 (g.typed o.ty o.a l)⟩,
             ⟨o.d.toNat + 1, sh, laneVals fun l => dlvVal h 1 (g.typed o.ty o.a l)⟩] }

/-- PLOP (R436). -/
def plopOut (o : PlopOp) (_ : Team) (g : Group) (m : Mask) : Out :=
  let bit := fun (p : BitVec 3) l => if (g.pred p.toNat).has l then 1 else 0
  { active := m
    preds := [(o.d.toNat, Mask.ofPred fun l => o.lut.getLsbD (bit o.a l + 2 * bit o.b l + 4 * bit o.c l))] }

def execAnd (o : BinOp) (s : State) : Result := issueOp o.g (andOut o) s
def execOr (o : BinOp) (s : State) : Result := issueOp o.g (orOut o) s
def execXor (o : BinOp) (s : State) : Result := issueOp o.g (xorOut o) s
def execNot (o : UnOp) (s : State) : Result := issueOp o.g (notOut o) s
def execShl (o : BinOp) (s : State) : Result := issueOp o.g (shlOut o) s
def execShr (o : BinOp) (s : State) : Result := issueOp o.g (shrOut o) s
def execRot (o : RotOp) (s : State) : Result := issueOp o.g (rotOut o) s
def execClz (o : UnOp) (s : State) : Result := issueOp o.g (clzOut o) s
def execPopc (o : UnOp) (s : State) : Result := issueOp o.g (popcOut o) s
def execBrev (o : UnOp) (s : State) : Result := issueOp o.g (brevOut o) s
def execBfx (o : BinOp) (s : State) : Result := issueOp o.g (bfxOut o) s
def execBfi (o : BfiOp) (s : State) : Result := issueOp o.g (bfiOut o) s
def execIlv (o : IlvOp) (s : State) : Result := issueOp o.g (ilvOut o) s
def execDlv (o : UnOp) (s : State) : Result := issueOp o.g (dlvOut o) s
def execPlop (o : PlopOp) (s : State) : Result := issueOp o.g (plopOut o) s

end Sys2Proof.Machine
end

