-- ==== Sys2Proof/Machine/Float.lean ====
section
/-! DEFINITION. The floating-point family: FADD to FDOT, FCMP, FRND and CVT (R378 to R381, R386 to R392, R402). -/

namespace Sys2Proof.Machine

/-- Results of an operation that gives each lane a value and flags; the flags of active lanes alone count (R134). -/
def flagged (m : Mask) (ty : Ty) (d : VR) (shape : Shape) (f : Nat → DWord × FpFlags) : Out :=
  { active := m
    regs := typedWrites ty d shape fun l => (f l).1
    flags := m.lanes.foldl (fun a l => a ||| (f l).2) 0 }

/-- Apply an element operation to every element of a type, gathering flags. -/
def mapElems (ty : Ty) (f : Nat → Nat × FpFlags) : DWord × FpFlags :=
  (packElems ty fun j => (f j).1, (List.range ty.count).foldl (fun a j => a ||| (f j).2) 0)

/-- The second operand of a float instruction: an F32 immediate of f64 is widened exactly (R386). -/
def fltSrc (g : Group) (ty : Ty) (b : Src) (l : Nat) : DWord :=
  match b with
  | .imm32 i => if ty.is64 then BitVec.ofNat 64 (roundNE .f64 (Num.decode .f32 i.toNat)) else i.setWidth 64
  | b => g.src ty b l

/-- NV for a signalling operand. -/
def snan (f : Fmt) (l : List Nat) : FpFlags := FpFlags.when (l.any (Num.isSignalling f)) FpFlags.NV

/-- Round a result with its invalid flag. -/
def finish (f : Fmt) (mode : RMode) (x : Num × Bool) : Nat × FpFlags :=
  let (y, fl) := roundTo f mode x.1
  (y, fl ||| FpFlags.when x.2 FpFlags.NV)

def faddElem (f : Fmt) (mode : RMode) (a b : Nat) : Nat × FpFlags :=
  let (y, fl) := finish f mode (Num.add mode.isRdn (Num.decode f a) (Num.decode f b))
  (y, fl ||| snan f [a, b])

def fmulElem (f : Fmt) (mode : RMode) (a b : Nat) : Nat × FpFlags :=
  let (y, fl) := finish f mode (Num.mul (Num.decode f a) (Num.decode f b))
  (y, fl ||| snan f [a, b])

/-- One rounding of a × b + c; 0 × inf is invalid whatever c is (R387). -/
def ffmaElem (f : Fmt) (mode : RMode) (a b c : Nat) : Nat × FpFlags :=
  let p := Num.mul (Num.decode f a) (Num.decode f b)
  let x := Num.add mode.isRdn p.1 (Num.decode f c)
  let (y, fl) := finish f mode (x.1, p.2 || x.2)
  (y, fl ||| snan f [a, b, c])

/-- FMIN and FMAX (R388). -/
def fminElem (mx : Bool) (f : Fmt) (a b : Nat) : Nat × FpFlags :=
  let x := Num.decode f a
  let y := Num.decode f b
  let r :=
    if x.isNan && y.isNan then f.nan
    else if x.isNan then b
    else if y.isNan then a
    else
      let aLess := Num.lt x y || (!(Num.lt y x) && x.isNeg && !y.isNeg)
      if aLess == mx then b else a
  (r, snan f [a, b])

/-- A two-source float operation by elements. -/
def fltBin (op : Fmt → Nat → Nat → Nat × FpFlags) (o : FltOp) (g : Group) (m : Mask) : Out :=
  flagged m o.ty o.d (g.shapeOf .plain (regsOf o.ty o.a ++ srcRegs o.ty o.b) m) fun l =>
    mapElems o.ty fun j =>
      op (fmtOf o.ty) (elemNat o.ty (g.typed o.ty o.a l) j) (elemNat o.ty (fltSrc g o.ty o.b l) j)

def faddOut (o : FltOp) (_ : Team) (g : Group) (m : Mask) : Out :=
  fltBin (fun f => faddElem f (RMode.ofCode o.rnd.toNat)) o g m
def fmulOut (o : FltOp) (_ : Team) (g : Group) (m : Mask) : Out :=
  fltBin (fun f => fmulElem f (RMode.ofCode o.rnd.toNat)) o g m
def fminOut (o : FltOp) (_ : Team) (g : Group) (m : Mask) : Out := fltBin (fminElem false) o g m
def fmaxOut (o : FltOp) (_ : Team) (g : Group) (m : Mask) : Out := fltBin (fminElem true) o g m

def ffmaOut (o : FmaOp) (_ : Team) (g : Group) (m : Mask) : Out :=
  let c := o.c.getD o.d
  flagged m o.ty o.d (g.shapeOf .plain (regsOf o.ty o.a ++ regsOf o.ty o.b ++ regsOf o.ty c) m) fun l =>
    mapElems o.ty fun j =>
      ffmaElem (fmtOf o.ty) (RMode.ofCode o.rnd.toNat) (elemNat o.ty (g.typed o.ty o.a l) j)
        (elemNat o.ty (g.typed o.ty o.b l) j) (elemNat o.ty (g.typed o.ty c l) j)

/-- An exact sum of several terms with the zero rule of R389; the Bool is an invalid combination of infinities. -/
def sumTerms (rdn : Bool) (ts : List Num) : Num × Bool :=
  let both := ts.any (fun x => x.isInf && x.isNeg) && ts.any (fun x => x.isInf && !x.isNeg)
  if both || ts.any Num.isNan then (.nan, both)
  else match ts.find? Num.isInf with
    | some x => (x, false)
    | none =>
      let lo := ts.foldl (fun a x => min a x.expo) 0
      let s := ts.foldl (fun a x => a + Num.scaled lo x) 0
      if s == 0 then
        let allNeg := ts.all fun x => x.isZero && x.isNeg
        let allPos := ts.all fun x => x.isZero && !x.isNeg
        (.fin (allNeg || (rdn && !allPos)) 0 0, false)
      else (.fin (decide (s < 0)) s.natAbs lo, false)

/-- FDOT (R389). -/
def fdotVal (ty : Ty) (mode : RMode) (acc : Nat) (a b : DWord) : Nat × FpFlags :=
  let f := fmtOf ty
  let ps := (List.range ty.count).map fun j => Num.mul (Num.decode f (elemNat ty a j)) (Num.decode f (elemNat ty b j))
  let s := sumTerms mode.isRdn (Num.decode .f32 acc :: ps.map fun p => p.1)
  let bad := ps.any (fun p => p.2) || s.2
  let (y, fl) := roundTo .f32 mode (if bad then .nan else s.1)
  (y, fl ||| FpFlags.when bad FpFlags.NV ||| snan .f32 [acc]
    ||| snan f ((List.range ty.count).flatMap fun j => [elemNat ty a j, elemNat ty b j]))

def fdotOut (o : DotOp) (_ : Team) (g : Group) (m : Mask) : Out :=
  flagged m .f32 o.d (g.shapeOf .plain [o.a.toNat, o.b.toNat, o.d.toNat] m) fun l =>
    let (y, fl) := fdotVal o.ty (RMode.ofCode o.rnd.toNat) (g.elem o.d.toNat l).toNat (g.typed o.ty o.a l) (g.typed o.ty o.b l)
    (BitVec.ofNat 64 y, fl)

/-- FRND (R402). -/
def frndElem (f : Fmt) (mode : RMode) (a : Nat) : Nat × FpFlags :=
  match Num.decode f a with
  | .fin s n e => (roundNE f (.fin s (roundInt mode s n e).1.natAbs 0), 0)
  | .inf _ => (a, 0)
  | .nan => (f.nan, snan f [a])

def frndOut (o : RndOp) (_ : Team) (g : Group) (m : Mask) : Out :=
  flagged m o.ty o.d (g.shapeOf .plain (regsOf o.ty o.a) m) fun l =>
    mapElems o.ty fun j => frndElem (fmtOf o.ty) (RMode.ofCode o.rnd.toNat) (elemNat o.ty (g.typed o.ty o.a l) j)

/-- FCMP (R391): the truth and the NV flag. -/
def fcmpVal (f : Fmt) (cc a b : Nat) : Bool × FpFlags :=
  let x := Num.decode f a
  let y := Num.decode f b
  let nan := x.isNan || y.isNan
  let r := match cc with
    | 0 => Num.eq x y
    | 1 => nan || !(Num.eq x y)
    | 2 => Num.lt x y
    | 3 => !nan && !(Num.lt y x)
    | 4 => Num.lt y x
    | 5 => !nan && !(Num.lt x y)
    | 6 => !nan
    | _ => nan
  (r, if 2 ≤ cc && cc ≤ 5 then FpFlags.when nan FpFlags.NV else snan f [a, b])

def fcmpOut (o : CmpOp) (_ : Team) (g : Group) (m : Mask) : Out :=
  let v := fun l => fcmpVal (fmtOf o.ty) o.cc.toNat (g.typed o.ty o.a l).toNat (fltSrc g o.ty o.b l).toNat
  { active := m
    preds := [(o.p.toNat, Mask.ofPred fun l => (v l).1)]
    flags := m.lanes.foldl (fun a l => a ||| (v l).2) 0 }

/-! ### CVT -/

/-- The exact value of a source element (R380). -/
def cvtDecode (ty : Ty) (v : Nat) : Num :=
  if ty == .tp8x4 then tp8 v
  else if ty.isFloat then Num.decode (fmtOf ty) v
  else Num.ofInt (if ty.signed then sint ty.width v else (v : Nat))

/-- Convert one element (R380). -/
def cvtElem (sty ty : Ty) (sat : Bool) (mode : RMode) (v : Nat) : Nat × FpFlags :=
  let sig := if sty.isFloat && sty != .tp8x4 then snan (fmtOf sty) [v] else 0
  if ty.isFloat then
    let (y, fl) := roundTo (fmtOf ty) mode (cvtDecode sty v)
    (y, fl ||| sig)
  else if sty.isFloat then
    match cvtDecode sty v with
    | .nan => (0, FpFlags.NV)
    | .inf neg =>
      let big : Int := (2 ^ 64 : Nat)
      (wrapInt ty.width (satInt ty.signed ty.width (if neg then -big else big)), FpFlags.NV)
    | .fin s m e =>
      let (r, inexact) := roundInt mode s m e
      let y := satInt ty.signed ty.width r
      (wrapInt ty.width y, if y != r then FpFlags.NV else FpFlags.when inexact FpFlags.NX)
  else
    let x : Int := if sty.signed then sint sty.width v else (v : Nat)
    (wrapInt ty.width (if sat then satInt ty.signed ty.width x else x), 0)

/-- Source element `j` of a lane (R379). -/
def cvtSource (o : CvtOp) (g : Group) (l j : Nat) : Nat :=
  if o.sty.isScalar then
    let r := o.a.toNat + j * Check.unit o.sty
    if o.sty.is64 then (g.pairElem r l).toNat else (g.elem r l).toNat
  else elemNat o.sty (g.typed o.sty o.a l) j

/-- The rounding mode of element `j`: SR draws its bits from `sr.seed` and the index (R132, R133).
The index counts by the larger of the two element counts, also from a packed source to scalar integers, where R133 and
R379 can be read apart (DEDUCED, log 77). -/
def cvtMode (o : CvtOp) (g : Group) (l j : Nat) : RMode :=
  if o.rmode.toNat == 4 then
    let idx := (g.elem o.ix.toNat l).toNat * Check.cvtCount o.sty o.ty + j
    .sr (srBits g.seed (BitVec.ofNat 64 idx) o.ty.code.toNat)
  else RMode.ofCode o.rmode.toNat

def cvtValue (o : CvtOp) (g : Group) (l j : Nat) : Nat × FpFlags :=
  cvtElem o.sty o.ty o.sat (cvtMode o g l j) (cvtSource o g l j)

def cvtOut (o : CvtOp) (_ : Team) (g : Group) (m : Mask) : Out :=
  let n := Check.cvtCount o.sty o.ty
  let srcs := (List.range (if o.sty.isScalar then n * Check.unit o.sty else 1)).map (o.a.toNat + ·)
    ++ (if o.rmode.toNat == 4 then [o.ix.toNat] else [])
  let sh := g.shapeOf .plain srcs m
  let regs :=
    if o.ty.isScalar then
      (List.range n).flatMap fun j =>
        let r := o.d.toNat + j * Check.unit o.ty
        if o.ty.is64 then
          [⟨r, sh, laneVals fun l => BitVec.ofNat 32 (cvtValue o g l j).1⟩,
           ⟨r + 1, sh, laneVals fun l => BitVec.ofNat 32 ((cvtValue o g l j).1 / 2 ^ 32)⟩]
        else [⟨r, sh, laneVals fun l => BitVec.ofNat 32 (cvtValue o g l j).1⟩]
    else wordWrite o.d sh fun l => loHalf (packElems o.ty fun j => (cvtValue o g l j).1)
  { active := m, regs := regs
    flags := m.lanes.foldl (fun a l => (List.range n).foldl (fun a j => a ||| (cvtValue o g l j).2) a) 0 }

def execFadd (o : FltOp) (s : State) : Result := issueOp o.g (faddOut o) s
def execFmul (o : FltOp) (s : State) : Result := issueOp o.g (fmulOut o) s
def execFfma (o : FmaOp) (s : State) : Result := issueOp o.g (ffmaOut o) s
def execFmin (o : FltOp) (s : State) : Result := issueOp o.g (fminOut o) s
def execFmax (o : FltOp) (s : State) : Result := issueOp o.g (fmaxOut o) s
def execFcmp (o : CmpOp) (s : State) : Result := issueOp o.g (fcmpOut o) s
def execFrnd (o : RndOp) (s : State) : Result := issueOp o.g (frndOut o) s
def execFdot (o : DotOp) (s : State) : Result := issueOp o.g (fdotOut o) s
def execCvt (o : CvtOp) (s : State) : Result := issueOp o.g (cvtOut o) s

end Sys2Proof.Machine
end

