-- ==== Sys2Proof/Machine/Cross.lean ====
section
/-! DEFINITION. The cross-lane family: SHFL, LSEND, VOTE, REDX, SCAN, MATCH and LPART, each within the lane tiles of R74
(R418 to R422, R455, R456, R461, R462, R465, R466, R483, R484). -/

namespace Sys2Proof.Machine

/-- The tile size s (R72). -/
def Group.tile (g : Group) : Nat := 2 ^ g.lpart.toNat

/-- The first lane of a lane's tile (R74). -/
def Group.tileBase (g : Group) (l : Nat) : Nat := l - l % g.tile

/-- The active lanes of a lane's tile, ascending. -/
def Group.tileLanes (g : Group) (m : Mask) (l : Nat) : List Nat :=
  m.lanes.filter fun k => g.tileBase k == g.tileBase l

inductive ShflMode where
  | idx | up | down | xor
deriving DecidableEq, Repr

/-- The source lane of SHFL (R466). -/
def shflSrc (mode : ShflMode) (s l b : Nat) : Nat :=
  let o := l % s
  let base := l - o
  match mode with
  | .idx => base + b % s
  | .up => if o ≥ b then l - b else l
  | .down => if o + b < s then l + b else l
  | .xor => base + (o ^^^ (b % s))

def shflOut (mode : ShflMode) (o : BinOp) (_ : Team) (g : Group) (m : Mask) : Out :=
  { active := m
    regs := typedWrites o.ty o.d .general fun l => g.typed o.ty o.a (shflSrc mode g.tile l (g.src32 o.b l).toNat) }

/-- The lane a lane of LSEND sends to (R420). -/
def lsendTarget (g : Group) (b : Src) (l : Nat) : Nat :=
  let s := g.tile
  let base := g.tileBase l
  match b with
  | .imm10 i => base + (((l - base : Nat) + i.toInt) % (s : Int)).toNat
  | b => base + (g.src32 b l).toNat % s

/-- LSEND (R420): the highest-numbered sender wins (R258). -/
def lsendOut (o : BinOp) (_ : Team) (g : Group) (m : Mask) : Out :=
  { active := m
    regs := typedWrites o.ty o.d .general fun l =>
      match (m.lanes.filter fun k => lsendTarget g o.b k == l).getLast? with
      | some k => g.typed o.ty o.a k
      | none => g.typed o.ty o.d l }

inductive VoteMode where
  | any | all | uni
deriving DecidableEq, Repr

/-- The true source bits and the active lanes of a lane's tile (R484). -/
def voteMasks (g : Group) (m : Mask) (pa l : Nat) : Mask × Mask :=
  let a := Mask.ofPred fun k => m.has k && g.tileBase k == g.tileBase l
  (g.pred pa &&& a, a)

def voteOut (mode : VoteMode) (o : VoteOp) (_ : Team) (g : Group) (m : Mask) : Out :=
  { active := m
    preds := [(o.p.toNat, Mask.ofPred fun l =>
      let (v, a) := voteMasks g m o.a.toNat l
      match mode with
      | .any => v != 0
      | .all => v == a
      | .uni => v == 0 || v == a)] }

def ballotOut (o : BallotOp) (_ : Team) (g : Group) (m : Mask) : Out :=
  { active := m
    regs := wordWrite o.d (g.shapeOf .wholeTile [] m) fun l => (voteMasks g m o.a.toNat l).1 }

inductive RedFn where
  | add | min | max | and | or | xor
deriving DecidableEq, Repr

/-- The combining step of R456, with the flags of an f32 step. -/
def redStep (fn : RedFn) (ty : Ty) (r x : DWord) : DWord × FpFlags :=
  let flt := fun (p : Nat × FpFlags) => (BitVec.ofNat 64 p.1, p.2)
  if ty == .f32 then
    match fn with
    | .add => flt (faddElem .f32 .rne r.toNat x.toNat)
    | .min => flt (fminElem false .f32 r.toNat x.toNat)
    | _ => flt (fminElem true .f32 r.toNat x.toNat)
  else
    match fn with
    | .add => (intBin ty false false (· + ·) r x, 0)
    | .min => (intBin ty false false min r x, 0)
    | .max => (intBin ty false false max r x, 0)
    | .and => (r &&& x, 0)
    | .or => (r ||| x, 0)
    | .xor => (r ^^^ x, 0)

/-- The identity of R462. -/
def redIdentity (fn : RedFn) (ty : Ty) : DWord :=
  let w := ty.width
  match fn with
  | .min =>
    if ty == .f32 then BitVec.ofNat 64 (Fmt.f32.inf false)
    else BitVec.ofNat 64 (if ty.signed then 2 ^ (w - 1) - 1 else 2 ^ w - 1)
  | .max =>
    if ty == .f32 then BitVec.ofNat 64 (Fmt.f32.inf true)
    else BitVec.ofNat 64 (if ty.signed then 2 ^ (w - 1) else 0)
  | .and => BitVec.ofNat 64 (2 ^ w - 1)
  | _ => 0

/-- A fold of combining steps with its flags. -/
def redFold (fn : RedFn) (ty : Ty) (start : DWord) (xs : List DWord) : DWord × FpFlags :=
  xs.foldl (fun p x => let r := redStep fn ty p.1 x; (r.1, p.2 ||| r.2)) (start, 0)

/-- REDX (R456). Its shape is R456's own: uniform where s is 32 and the write covers every lane, whatever the source's, DEDUCED (log 25). -/
def redxOut (fn : RedFn) (o : UnOp) (_ : Team) (g : Group) (m : Mask) : Out :=
  flagged m o.ty o.d (g.shapeOf .wholeTile [] m) fun l =>
    match (g.tileLanes m l).map fun k => g.typed o.ty o.a k with
    | [] => (0, 0)
    | x :: r => redFold fn o.ty x r

/-- SCAN (R462). Every step of the tile sets its flags, written or not. -/
def scanOut (fn : RedFn) (o : ScanOp) (_ : Team) (g : Group) (m : Mask) : Out :=
  flagged m o.ty o.d .general fun l =>
    let ks := g.tileLanes m l
    let val := fun k => g.typed o.ty o.a k
    let r := redFold fn o.ty (redIdentity fn o.ty) ((ks.filter fun k => k < l || (!o.excl && k == l)).map val)
    (r.1, (redFold fn o.ty (redIdentity fn o.ty) (ks.map val)).2)

/-- The lanes of the tile whose value equals a lane's (R422). -/
def matchMask (g : Group) (ty : Ty) (a : VR) (m : Mask) (l : Nat) : Mask :=
  Mask.ofPred fun k => m.has k && g.tileBase k == g.tileBase l && g.typed ty a k == g.typed ty a l

def matchAnyOut (o : UnOp) (_ : Team) (g : Group) (m : Mask) : Out :=
  { active := m, regs := wordWrite o.d .general fun l => matchMask g o.ty o.a m l }

def matchAllOut (o : MatchAllOp) (_ : Team) (g : Group) (m : Mask) : Out :=
  { active := m
    preds := [(o.p.toNat, Mask.ofPred fun l =>
      matchMask g o.ty o.a m l == Mask.ofPred fun k => m.has k && g.tileBase k == g.tileBase l)] }

def execShflIdx (o : BinOp) (s : State) : Result := issueOp o.g (shflOut .idx o) s
def execShflUp (o : BinOp) (s : State) : Result := issueOp o.g (shflOut .up o) s
def execShflDown (o : BinOp) (s : State) : Result := issueOp o.g (shflOut .down o) s
def execShflXor (o : BinOp) (s : State) : Result := issueOp o.g (shflOut .xor o) s
def execLsend (o : BinOp) (s : State) : Result := issueOp o.g (lsendOut o) s
def execVoteAny (o : VoteOp) (s : State) : Result := issueOp o.g (voteOut .any o) s
def execVoteAll (o : VoteOp) (s : State) : Result := issueOp o.g (voteOut .all o) s
def execVoteUni (o : VoteOp) (s : State) : Result := issueOp o.g (voteOut .uni o) s
def execVoteBallot (o : BallotOp) (s : State) : Result := issueOp o.g (ballotOut o) s
def execRedxAdd (o : UnOp) (s : State) : Result := issueOp o.g (redxOut .add o) s
def execRedxMin (o : UnOp) (s : State) : Result := issueOp o.g (redxOut .min o) s
def execRedxMax (o : UnOp) (s : State) : Result := issueOp o.g (redxOut .max o) s
def execRedxAnd (o : UnOp) (s : State) : Result := issueOp o.g (redxOut .and o) s
def execRedxOr (o : UnOp) (s : State) : Result := issueOp o.g (redxOut .or o) s
def execRedxXor (o : UnOp) (s : State) : Result := issueOp o.g (redxOut .xor o) s
def execScanAdd (o : ScanOp) (s : State) : Result := issueOp o.g (scanOut .add o) s
def execScanMin (o : ScanOp) (s : State) : Result := issueOp o.g (scanOut .min o) s
def execScanMax (o : ScanOp) (s : State) : Result := issueOp o.g (scanOut .max o) s
def execScanAnd (o : ScanOp) (s : State) : Result := issueOp o.g (scanOut .and o) s
def execScanOr (o : ScanOp) (s : State) : Result := issueOp o.g (scanOut .or o) s
def execScanXor (o : ScanOp) (s : State) : Result := issueOp o.g (scanOut .xor o) s
def execMatchAny (o : UnOp) (s : State) : Result := issueOp o.g (matchAnyOut o) s
def execMatchAll (o : MatchAllOp) (s : State) : Result := issueOp o.g (matchAllOut o) s

/-- LPART (R73, R418). -/
def execLpart (gd : Guard) (n : BitVec 3) (s : State) : Result :=
  issueWith gd (fun s t g m =>
    if m == 0 then s.done t g
    else if g.frontier.length != 1 then
      s.raise t g { cause := 5, info := BitVec.ofNat 32 g.frontier.length, va := 0 }
    else s.done t { g with lpart := n }) s

end Sys2Proof.Machine
end

