-- ==== Sys2Proof/Machine/Memory.lean ====
section
/-! DEFINITION. The memory family: LD, LDP, ST, LDS, STS, PREF, and what they share with the atomics: fences' waits,
address checks, store-to-load forwarding, and handing accesses on (R142 to R145, R153, R155, R181 to R196, R409 to R413,
R437, R470 to R473). -/

namespace Sys2Proof.Machine

/-! ### Addresses -/

/-- The byte offset of a memory operand (R409, R470). -/
def moffVal : MOff → DWord
  | .none => 0
  | .b10 i => i.signExtend 64
  | .i32 i => i.signExtend 64

/-- Element bytes (R411, R472). -/
def elemBytes (ty : Ty) (sz : BitVec 2) : Nat :=
  match sz.toNat with
  | 1 => 1
  | 2 => 2
  | _ => if ty.is64 then 8 else 4

/-- The 64-bit VA of a lane. -/
def Group.globalAddr (g : Group) (a : VR) (off : DWord) (l : Nat) : DWord := g.pairElem a.toNat l + off

/-- A 32-bit address from a register and an offset, or from the offset alone. -/
def Group.shortAddr (g : Group) (abs : Bool) (a : VR) (off : DWord) (l : Nat) : Word :=
  (if abs then 0 else g.elem a.toNat l) + loHalf off

/-- The lanes that access: all active ones, or the lowest alone under BCAST (R411). -/
def accessLanes (bcast : Bool) (m : Mask) : List Nat :=
  if bcast then (match m.lowest with | some l => [l] | none => []) else m.lanes

/-- The lowest of some addresses. -/
def lowestAddr : List DWord → Option DWord
  | [] => none
  | a :: r => match lowestAddr r with
    | none => some a
    | some b => some (if a.toNat ≤ b.toNat then a else b)

/-- ALIGN for the lowest of the offending addresses, as a list of none or one. -/
def alignTraps (space : Nat) (bad : List DWord) : List Trap :=
  match lowestAddr bad with
  | some a => [alignTrap space a]
  | none => []

/-- The checks of R142 on global addresses: ALIGN, and NONCANON at the first lane that breaks it. -/
def globalTraps (z : Nat) (addrs : List DWord) : List Trap :=
  alignTraps 0 (addrs.filter fun a => a.toNat % z != 0)
    ++ (match addrs.find? fun a => !(canonical a) with
        | some a => [xlateTrap 1 a]
        | none => [])

/-! ### Scratchpad (R85, R90, R91, R143, R144) -/

def Team.spadEnd (t : Team) : Nat := 128 + t.scr * 16384

/-- The team at a logical position of the cluster. -/
def State.clusterPeer (s : State) (t : Team) (pos : Nat) : Option Team :=
  if pos == t.cx + t.cw * t.cy then some t
  else s.teams.find? fun u =>
    u.launch == t.launch && u.cluster == t.cluster && u.die == t.die && u.place.resident && u.cx + t.cw * u.cy == pos

/-- The team and offset of a scratchpad address; none raises ALIGN (R90, R143, R144). -/
def State.spadTarget (s : State) (t : Team) (a : Word) (z : Nat) : Option (Nat × Nat) :=
  let v := a.toNat
  let pos := bits v 22 4
  let remote := v.testBit 26
  let off := bits v 0 22
  if bits v 27 5 != 0 || (!remote && pos != 0) || pos ≥ t.cw * t.ch || off % z != 0 then none
  else match (if remote then s.clusterPeer t pos else some t) with
    | none => none
    | some u => if off + z ≤ u.spadEnd then some (u.id, off) else none

/-- One byte of a team's scratchpad; offsets 0 to 127 are the barrier words. -/
def Team.spadByte (t : Team) (off : Nat) : Byte :=
  if off < 128 then (t.bar (off / 8)).extractLsb' (off % 8 * 8) 8 else SMap.get 0#8 t.scratch off

def Team.spadRead (t : Team) (off n : Nat) : List Byte := (List.range n).map fun i => t.spadByte (off + i)

/-- Write program scratchpad. -/
def Team.spadWrite (t : Team) (off : Nat) (l : List Byte) : Team := { t with scratch := writeBytes t.scratch off l }

/-- The line of an offset is present. -/
def Team.linePresent (t : Team) (off : Nat) : Bool := SMap.get 0 t.absent (off / 128) == 0

def State.spadRead (s : State) (tid off n : Nat) : List Byte :=
  match s.team? tid with
  | some t => t.spadRead off n
  | none => []

def State.spadPresent (s : State) (tid off : Nat) : Bool :=
  match s.team? tid with
  | some t => t.linePresent off
  | none => true

/-- The scratchpad checks: ALIGN, and PERM for a write of barrier words (R413, R473). -/
def State.spadTraps (s : State) (t : Team) (write : Bool) (z : Nat) (addrs : List Word) : List Trap :=
  alignTraps 1 ((addrs.filter fun a => (s.spadTarget t a z).isNone).map fun a => a.setWidth 64)
    ++ (if write && addrs.any fun a => (match s.spadTarget t a z with | some (_, o) => o < 128 | none => false)
        then [permTrap 3] else [])

/-! ### Fences' waits (R191 to R196, R394) -/

def StoreEntry.touches (e : StoreEntry) (m : Mask) : Bool := e.lanes.any fun a => m.has a.lane

/-- A release of the lanes waits for the entry: it holds a store of theirs, or one that an earlier load of theirs has read (R191). -/
def StoreEntry.concerns (e : StoreEntry) (m : Mask) : Bool := e.touches m || (e.readers &&& m) != 0

/-- A pending load or atomic of the lanes. At `.team` and below a scratchpad access at another core is none (R185). -/
def Pending.concerns (p : Pending) (m : Mask) (scope : Nat) : Bool :=
  p.left != 0 && p.active &&& m != 0 && (2 ≤ scope || p.kind != .remote)

/-- The group's scratchpad accesses of the lanes that are on their way, as far as a fence of a scope is concerned with them: those at the
own core at every scope, those at other cores from `.clu` on (R185); of a fence that is no release only those that return a value. -/
def State.remotesOf (s : State) (tid grp : Nat) (m : Mask) (scope : Nat) (rel : Bool) : List Nat :=
  (s.remotes.filter fun r => r.tid == tid && r.grp == grp && (r.lanes.any fun a => m.has a.lane)
    && (r.target == tid || decide (2 ≤ scope)) && (rel || r.pend.isSome)).map fun r => r.id

/-- A fence of the group still waits. -/
def State.fenceBusy (s : State) (g : Group) : Bool :=
  g.fences.any fun f =>
    f.entries.any (fun i => g.fifo.any fun e => e.id == i && e.concerns f.lanes)
      || f.remotes.any (fun i => s.remotes.any fun r => r.id == i)
      || f.pends.any (fun i => g.pending.any fun p => p.id == i && p.left != 0)

/-- Complete the fences whose waits are over: an acquire at `.clu` or wider drops the context's L1 lines (R192). -/
def State.passFences (s : State) (t : Team) (g : Group) : State × Group :=
  ((if g.fences.any fun f => f.acq then s.dropL1 t.die t.core t.ctx else s), { g with fences := [] })

/-- The pending results of earlier accesses of some lanes. -/
def Group.loadsOf (g : Group) (m : Mask) (scope : Nat) : List Nat :=
  (g.pending.filter fun p => p.concerns m scope).map fun p => p.id

/-- Earlier accesses of the lanes are outstanding, or writes that their earlier loads have read, so that a release that takes effect
at issue must wait (R191). -/
def State.releaseWaits (s : State) (t : Team) (g : Group) (m : Mask) (scope : Nat) : Bool :=
  g.fifo.any (fun e => e.concerns m) || !(g.loadsOf m scope).isEmpty || !(s.remotesOf t.id g.num m scope true).isEmpty

/-- The group waits on a held access: it is parked (R342). -/
def State.parkHeld (s : State) (t : Team) (g : Group) : State := if g.park == .none then s.block t g .access else s

/-- Some access of the group, for one of the given pending results or FIFO entries, is held for its home's DRAM, or at a port (R342). -/
def State.heldAmong (s : State) (t : Team) (g : Group) (ids : List Nat) : Bool :=
  s.accesses.any fun a => a.tid == t.id && a.grp == g.num && ids.contains a.owner && s.held a.die (a.line * 128)

/-- The group waits for some of its accesses: parked where one of them is held (R342), else in the issue rotation. -/
def State.stayFor (s : State) (t : Team) (g : Group) (ids : List Nat) : State := if s.heldAmong t g ids then s.parkHeld t g else s

/-- The queue entries that must have been performed before those that `p` names: with one of them, all that stand in the queue. -/
def Group.fifoIds (g : Group) (p : StoreEntry → Bool) : List Nat := if g.fifo.any p then g.fifo.map fun e => e.id else []

/-- The group's pending results, with the queue entries that they wait for. -/
def Group.pendIds (g : Group) : List Nat :=
  (g.pending.map fun p => p.id) ++ g.fifoIds fun e => g.pending.any fun p => p.id == e.pend

/-- A release of some lanes waits (R191). -/
def State.stayRelease (s : State) (t : Team) (g : Group) (m : Mask) (scope : Nat) : State :=
  s.stayFor t g (g.loadsOf m scope ++ g.fifoIds fun e => e.concerns m)

/-- The pending results and the queue entries that the group's fences wait for. -/
def Group.fenceIds (g : Group) : List Nat :=
  let pends := g.fences.flatMap fun f => f.pends
  pends ++ g.fifoIds fun e => pends.contains e.pend || g.fences.any fun f => f.entries.contains e.id && e.concerns f.lanes

/-- Issue a memory instruction: it waits, with the group in the issue rotation, while a fence of the group waits (R394); the group is parked
where the fence waits on a held access (R342). -/
def issueMem (gd : Guard) (f : State → Team → Group → Mask → State) (s : State) : Result :=
  issueWith gd (fun s t g m =>
    if s.fenceBusy g then s.stayFor t g g.fenceIds
    else
      let (s', g') := s.passFences t g
      f s' t g' m) s

/-- The acquires of ordered accesses alone. -/
def Group.acquires (g : Group) : Group := { g with fences := g.fences.filter fun f => f.access }

/-- An instruction that is none of those which R394 names but makes accesses: the acquire of an ordered access holds it until it has its
value (R192). -/
def State.afterAcquires (s : State) (t : Team) (g : Group) (k : State) : State :=
  if s.fenceBusy g.acquires then s.stayFor t g g.acquires.fenceIds else k

/-- Issue such an instruction. -/
def issueAcc (gd : Guard) (f : State → Team → Group → Mask → State) (s : State) : Result :=
  issueWith gd (fun s t g m => s.afterAcquires t g (f s t g m)) s

/-! ### Translating and faulting -/

/-- What translating several pieces gives. -/
structure XlatedAll where
  ok : List LaneAddr := []
  replay : List (LaneAddr × Nat) := []
  fatal : Option (Nat × DWord) := none
  blocked : Bool := false
  /-- A walk waits for a table's home (R342). -/
  held : Bool := false
deriving DecidableEq, Repr

/-- Translate pieces in order. -/
def State.xlateAll (s : State) (ctx : Nat) (acc : AccType) : List LaneAddr → XlatedAll × State
  | [] => ({}, s)
  | p :: r =>
    let (x, s) := s.translate ctx p.va acc
    let (rest, s) := s.xlateAll ctx acc r
    match x with
    | .ok sa e => ({ rest with ok := { p with sa := some sa, bld := e.bld } :: rest.ok }, s)
    | .replay c => ({ rest with replay := (p, c) :: rest.replay }, s)
    | .fatal c => ({ rest with fatal := some (c, p.va) }, s)
    | .blocked => ({ rest with blocked := true, held := rest.held || s.walk ctx (va57 p.va) == .held }, s)

/-- One entry for the lanes of one page (R155): the cause and the address of the first. -/
def State.faultGroups (s : State) (ctx : Nat) : List (LaneAddr × Nat) → List (Nat × DWord)
  | [] => []
  | (p, c) :: r =>
    (c, p.va) :: (s.faultGroups ctx r).filter fun x => !(x.1 == c && s.pageOf ctx (va57 x.2) == s.pageOf ctx (va57 p.va))

/-- Enter the faults of one access; answers their ids. -/
def State.addFaults (s : State) (t : Team) (grp kind : Nat) (req : FaultReq) : List (Nat × DWord) → List Nat × State
  | [] => ([], s)
  | (c, va) :: r =>
    let (i, s) := s.addFault t.die t.core t.ctx (s.groupIndex t grp) kind c va req
    let (is, s) := s.addFaults t grp kind req r
    (i :: is, s)

/-- A fault found after issue is owed to the lanes of the bundle (R114). -/
def Group.owe (g : Group) (tr : Trap) (lanes : Mask) (handler : Bool) : Group :=
  if lanes &&& g.live == 0 then g
  else { g with owed := g.owed ++ [{ trap := tr, lanes := lanes &&& g.live, handler := handler }] }

/-! ### Forwarding (R183) -/

/-- What a queue entry holds for a byte: a store the byte, a RED or ATOM a value that is known once it has been performed. -/
inductive Fwd where
  | byte (id : Nat) (b : Byte)
  | wait
deriving DecidableEq, Repr

/-- The piece writes the byte at the given addresses; without both system addresses the virtual ones decide. Answers the
byte's place in the piece. -/
def LaneAddr.covers (a : LaneAddr) (n : Nat) (va : Nat) (sa : Option Nat) : Option Nat :=
  let go := fun (base x : Nat) => if base ≤ x ∧ x < base + n then some (x - base) else none
  match a.sa, sa with
  | some b, some x => go b x
  | _, _ => go (va57 a.va) va

/-- The highest lane of an entry that covers the byte (R184). -/
def StoreEntry.byteAt (e : StoreEntry) (va : Nat) (sa : Option Nat) : Option Fwd :=
  e.lanes.foldl (fun r a => match a.covers e.bytes va sa with
    | some k => some (if e.kind == .st then .byte e.id (a.data.extractLsb' (8 * k) 8) else .wait)
    | none => r) none

/-- The newest queued bytes a load must return. -/
def fifoByte (fifo : List StoreEntry) (va : Nat) (sa : Option Nat) : Option Fwd :=
  fifo.foldl (fun r e => match e.byteAt va sa with
    | some f => some f
    | none => r) none

/-- The lane's part of a queue entry has not been performed at its home slice. -/
def State.laneQueued (s : State) (e : StoreEntry) (l : Nat) : Bool :=
  !e.handed || s.accesses.any fun b => b.kind != .load && b.owner == e.id && b.lanes.any fun a => a.lane == l

/-- What the group's queue still holds of the stores before an access, oldest first (R183). -/
def State.ownQueue (s : State) (g : Group) (before : Nat) : List StoreEntry :=
  (g.fifo.filter fun e => e.id < before).map fun e => { e with lanes := e.lanes.filter fun a => s.laneQueued e a.lane }

/-- What the queue holds for each byte of a piece. -/
def LaneAddr.queued (p : LaneAddr) (q : List StoreEntry) (n : Nat) : List (Option Fwd) :=
  (List.range n).map fun i => fifoByte q (va57 p.va + i) (p.sa.map (· + i))

/-- Some byte of the piece is that of a queued RED or ATOM. -/
def LaneAddr.waitsOwn (p : LaneAddr) (q : List StoreEntry) (n : Nat) : Bool := (p.queued q n).contains (some .wait)

/-- Every byte of the piece is one of the queue's. -/
def LaneAddr.full (p : LaneAddr) (q : List StoreEntry) (n : Nat) : Bool := (p.queued q n).all Option.isSome

/-- The bytes of a piece, the queue's over those of memory (R183). -/
def LaneAddr.merge (p : LaneAddr) (q : List StoreEntry) (n : Nat) (mem : List Byte) : List Byte :=
  (p.queued q n).zipIdx.map fun x => match x.1 with
    | some (.byte _ b) => b
    | _ => mem.getD x.2 0

/-- The entries whose bytes a piece reads. -/
def LaneAddr.readsFrom (p : LaneAddr) (q : List StoreEntry) (n : Nat) : List Nat :=
  (p.queued q n).filterMap fun x => match x with
    | some (.byte id _) => some id
    | _ => none

/-- Note that lanes have read bytes of some entries (R191). -/
def Group.noteReads (g : Group) (m : Mask) (ids : List Nat) : Group :=
  { g with fifo := g.fifo.map fun e => if ids.contains e.id then { e with readers := e.readers ||| m } else e }

/-- A piece's bytes have arrived. -/
def Pending.arrive (p : Pending) (a : LaneAddr) (l : List Byte) : Pending :=
  { p with data := writeBytes p.data (8 * a.lane + a.off) l, left := p.left - 1 }

/-! ### Handing loads on -/

/-- Pieces by 128-byte line, in order; those of one line go together whatever their leaves' views (R184). -/
def addByLine (acc : List (Nat × List LaneAddr)) (p : LaneAddr) : List (Nat × List LaneAddr) :=
  let k := lineOf (p.sa.getD 0)
  if acc.any fun x => x.1 == k then acc.map fun x => if x.1 == k then (x.1, x.2 ++ [p]) else x
  else acc ++ [(k, [p])]

def byLine (ps : List LaneAddr) : List (Nat × List LaneAddr) := ps.foldl addByLine []

/-- Put accesses on their way. -/
def State.addAccesses (s : State) (kind : AccKind) (t : Team) (grp owner bytes scope : Nat) (after : List Nat) :
    List (Nat × List LaneAddr) → State
  | [] => s
  | (line, ps) :: r =>
    let (i, s) := s.fresh
    let a : Access :=
      { id := i, kind := kind, tid := t.id, grp := grp, owner := owner, ctx := t.ctx, die := t.die, core := t.core
        line := line, lanes := ps, bytes := bytes, scope := scope, after := after }
    { s with accesses := s.accesses ++ [a] }.addAccesses kind t grp owner bytes scope after r

/-- Hand translated pieces of a pending load on, line by line. They wait for the group's earlier ATOMs (R359). -/
def State.sendLoad (s : State) (t : Team) (g : Group) (p : Pending) (bytes : Nat) (ps : List LaneAddr) : State :=
  let atoms := (g.fifo.filter fun e => e.kind == .atom && e.id < p.id).map fun e => e.id
  s.addAccesses .load t g.num p.id bytes p.scope atoms (byLine ps)

/-- What the loads that go to memory have in common. -/
structure LoadReq where
  la : BitVec 4
  regs : List Nat
  shape : Shape
  /-- Bytes of an element, and of a piece of it. -/
  z : Nat
  piece : Nat
  signExt : Bool
  bcast : Bool
  scope : Nat
  acq : Bool
  kind : Nat
  pieces : List LaneAddr
deriving DecidableEq, Repr

/-- An acquire by an access whose value is pending (R192). -/
def acquireFence (m : Mask) (scope pend : Nat) : Fence :=
  { acq := decide (2 ≤ scope), access := true, lanes := m, entries := [], remotes := [], pends := [pend] }

/-- Issue a load to memory (R110, R155, R411): fatal outcomes are owed, replayable ones park the group. -/
def State.issueLoad (s0 : State) (t : Team) (g : Group) (m : Mask) (q : LoadReq) : State :=
  let (x, s) := s0.xlateAll t.ctx .read q.pieces
  let uniform := q.shape == .uniform
  if x.blocked then (if x.held then s0.parkHeld t g else s0)
  else match x.fatal with
    | some (c, va) =>
      s.put t (((g.reserve q.regs uniform).advance s.cur).owe (xlateTrap c va) s.cur.lanes s.cur.handler)
    | none =>
      let (i, s) := s.fresh
      let p : Pending :=
        { id := i, kind := .load, bundle := s.cur.lanes, active := m, win := laneList.map fun _ => q.la.toNat
          regs := q.regs, uniform := uniform, bytes := q.z, signExt := q.signExt, piece := q.piece, faultKind := q.kind
          bcast := if q.bcast then m.lowest else none
          left := q.pieces.length, lanes := x.replay.map fun r => r.1
          scope := q.scope, handler := s.cur.handler }
      let s := s.sendLoad t g p q.piece x.ok
      let (fs, s) := s.addFaults t g.num q.kind (.load t.id g.num i) (s.faultGroups t.ctx x.replay)
      let g := (g.reserve q.regs uniform).advance s.cur
      let g := { g with
        pending := g.pending ++ [p]
        fences := if q.acq then g.fences ++ [acquireFence m q.scope i] else g.fences }
      s.put t (match fs with
        | [] => g
        | f :: _ => g.parkAs s.gtime (.fault f))

/-- The registers of a loaded value. -/
def loadRegs (ty : Ty) (d : VR) : List Nat := regsOf ty d

/-- The shape of a load's result (R80): uniform only under BCAST from a uniform address. -/
def Group.loadShape (g : Group) (bcast : Bool) (srcs : List Nat) (m : Mask) : Shape :=
  if bcast then g.shapeOf .plain srcs m else .general

/-- Registers to be written by a load, for the row count of R81. -/
def poolFor (g : Group) (regs : List Nat) (sh : Shape) : List Trap :=
  match g.poolFail (regs.map fun r => (r, sh)) with
  | some r => [regpoolTrap r]
  | none => []

/-- LD (R410 to R413). -/
def execLd (o : LdOp) (s : State) : Result :=
  issueMem o.g (fun s t g m =>
    let z := elemBytes o.ty o.sz
    let ps : List LaneAddr := (accessLanes o.bcast m).map fun l => { lane := l, va := g.globalAddr o.a (moffVal o.off) l }
    let sh := g.loadShape o.bcast [o.a.toNat, o.a.toNat + 1] m
    let regs := loadRegs o.ty o.d
    match firstTrap (poolFor g regs sh ++ globalTraps z (ps.map fun p => p.va)) with
    | some tr => s.raise t g tr
    | none =>
      if o.order.toNat == 4 && s.releaseWaits t g m o.scope.toNat then s.stayRelease t g m o.scope.toNat
      else s.issueLoad t g m
        { la := o.la, regs := regs, shape := sh, z := z, piece := z, signExt := o.sz != 0 && o.ty == .s32, bcast := o.bcast
          scope := o.scope.toNat, acq := o.order != 0, kind := 0, pieces := ps }) s

/-- The bytes of an LDP lane that lie inside the window (R145). -/
def windowPieces (base : DWord) (size z l off : Nat) : List LaneAddr :=
  ((List.range z).filter fun i => off + i < size).map fun i =>
    { lane := l, off := i, va := base + BitVec.ofNat 64 (off + i) }

/-- A pending result that needs nothing from memory, from a value of each lane. -/
def knownPending (id : Nat) (c : Cur) (m : Mask) (la : BitVec 4) (regs : List Nat) (uniform : Bool)
    (f : Nat → DWord) : Pending :=
  { id := id, kind := .ready, bundle := c.lanes, active := m, win := laneList.map fun _ => la.toNat
    regs := regs, uniform := uniform, handler := c.handler
    vals := regs.zipIdx.foldl (fun v (_, k) => m.lanes.foldl (fun v l =>
      SMap.set 0#32 v (32 * k + l) ((f l).extractLsb' (32 * k) 32)) v) [] }

/-- Issue a long-latency instruction whose value is known at issue. -/
def State.issueKnown (s : State) (t : Team) (g : Group) (m : Mask) (la : BitVec 4) (regs : List Nat) (sh : Shape)
    (f : Nat → DWord) : State :=
  let (i, s) := s.fresh
  let p := knownPending i s.cur m la regs (sh == .uniform) f
  let g := (g.reserve regs p.uniform).advance s.cur
  s.put t { g with pending := g.pending ++ [p] }

/-- A loaded value from its bytes (R411). -/
def loadValue (signExt : Bool) (l : List Byte) : DWord :=
  BitVec.ofNat 64 (if signExt then wrapInt 64 (sint (8 * l.length) (leNat l)) else leNat l)

/-- LDP (R145, R410 to R413). -/
def execLdp (o : LdpOp) (s : State) : Result :=
  issueMem o.g (fun s t g m =>
    let z := elemBytes o.ty o.sz
    let ls := accessLanes o.bcast m
    let off := fun l => (g.shortAddr o.abs o.a (moffVal o.off) l).toNat
    let sh := g.loadShape o.bcast (if o.abs then [] else [o.a.toNat]) m
    let regs := loadRegs o.ty o.d
    let se := o.sz != 0 && o.ty == .s32
    let w := t.windows.getD o.win.toNat none
    let param : List Trap := if w.isNone && !ls.isEmpty then [{ cause := 7, info := o.win.setWidth 32, va := 0 }] else []
    match firstTrap (poolFor g regs sh ++ param) with
    | some tr => s.raise t g tr
    | none =>
      let size := match w with
        | some (.mem _ n) => n
        | some (.block b) => b.length
        | none => 0
      let oob := ls.any fun l => off l + z > size
      let g := if oob then { g with paramoob := g.paramoob ||| (1#8 <<< o.win.toNat) } else g
      match w with
      | some (.block b) =>
        s.issueKnown t g m o.la regs sh fun l =>
          let src := if o.bcast then m.lowest.getD 0 else l
          loadValue se ((List.range z).map fun i => b.getD (off src + i) 0)
      | some (.mem base n) =>
        s.issueLoad t g m
          { la := o.la, regs := regs, shape := sh, z := z, piece := 1, signExt := se, bcast := o.bcast, scope := 4
            acq := false, kind := 8, pieces := ls.flatMap fun l => windowPieces base n z l (off l) }
      | none => s.issueKnown t g m o.la regs sh fun _ => 0) s

/-! ### Scratchpad accesses on their way (R144, R185) -/

/-- The team is at another core. -/
def State.isRemote (s : State) (t : Team) (tid : Nat) : Bool :=
  match s.team? tid with
  | some u => u.core != t.core || u.die != t.die
  | none => false

/-- A group's access to a team's scratchpad is performed after its issue: at another core always, and at the own core where this turn
says so, or where an earlier one of the group is still on its way there (R185). -/
def State.spadLater (s : State) (t : Team) (g : Group) (target : Nat) : Bool :=
  s.isRemote t target || s.cur.later || s.remotes.any fun r => r.tid == t.id && r.grp == g.num && r.target == target

/-- A write of the group to its own core's scratchpad is on its way. -/
def State.ownWrites (s : State) (t : Team) (g : Group) : Bool :=
  s.remotes.any fun r => r.tid == t.id && r.grp == g.num && r.target == t.id && r.op != .read

/-- Put lanes of a bundle on their way to the scratchpads they name, one access for each, for its banks may perform them at different
times. -/
def State.addRemotes (s : State) (r : Remote) (place : Nat → Nat × Nat) (ps : List LaneAddr) : State :=
  let (b, s) := if ps.isEmpty then (0, s) else s.fresh
  ps.foldl (fun (s : State) a =>
    let (i, s) := s.fresh
    { s with remotes := s.remotes ++ [{ r with id := i, issue := b, target := (place a.lane).1, lanes := [a] }] }) s

/-- Offset of a scratchpad address within its team's slice. -/
def LaneAddr.spadOff (a : LaneAddr) : Nat := bits a.va.toNat 0 22

/-- Issue an LDS or scratchpad ATOM with lanes that are performed later: the bytes of the others are in `own`, and those of `ps` come. -/
def State.issueRemote (s : State) (t : Team) (g : Group) (m : Mask) (p : Pending) (own : List (Nat × List Byte)) (r : Remote)
    (place : Nat → Nat × Nat) (ps : List LaneAddr) (acq : Bool) : State :=
  let p := own.foldl (fun (p : Pending) x => { p with data := writeBytes p.data (8 * x.1) x.2 }) { p with kind := .remote, left := ps.length }
  let s := s.addRemotes { r with pend := some p.id } place ps
  let g := (g.reserve p.regs p.uniform).advance s.cur
  s.put t { g with
    pending := g.pending ++ [p]
    fences := if acq then g.fences ++ [acquireFence m p.scope p.id] else g.fences }

/-- LDS (R410 to R413): read at the own core's banks at issue or later, and at other cores' later (R185). -/
def execLds (o : LdsOp) (s : State) : Result :=
  issueMem o.g (fun s t g m =>
    let z := elemBytes o.ty o.sz
    let ls := accessLanes o.bcast m
    let addr := fun l => g.shortAddr o.abs o.a (moffVal o.off) l
    let sh := g.loadShape o.bcast (if o.abs then [] else [o.a.toNat]) m
    let regs := loadRegs o.ty o.d
    match firstTrap (poolFor g regs sh ++ s.spadTraps t false z (ls.map addr)) with
    | some tr => s.raise t g tr
    | none =>
      let place := fun l => (s.spadTarget t (addr l) z).getD (0, 0)
      if ls.any fun l => !(s.spadPresent (place l).1 (place l).2) then s.block t g .lines
      else if o.order.toNat == 4 && s.releaseWaits t g m o.scope.toNat then s.stayRelease t g m o.scope.toNat
      else
        let read := fun l => s.spadRead (place l).1 (place l).2 z
        let far := ls.filter fun l => s.spadLater t g (place l).1
        let se := o.sz != 0 && o.ty == .s32
        if far.isEmpty then
          let s := if o.order != 0 && 2 ≤ o.scope.toNat then s.dropL1 t.die t.core t.ctx else s
          s.issueKnown t g m o.la regs sh fun l => loadValue se (read (if o.bcast then m.lowest.getD 0 else l))
        else
          let (i, s) := s.fresh
          s.issueRemote t g m
            { id := i, kind := .remote, bundle := s.cur.lanes, active := m, win := laneList.map fun _ => o.la.toNat
              regs := regs, uniform := sh == .uniform, bytes := z, signExt := se, scope := o.scope.toNat
              bcast := if o.bcast then m.lowest else none, handler := s.cur.handler }
            ((ls.filter fun l => !(far.contains l)).map fun l => (l, read l))
            { id := 0, issue := 0, tid := t.id, grp := g.num, target := 0, op := .read, ty := o.ty, bytes := z, pend := none
              bundle := s.cur.lanes, handler := s.cur.handler, lanes := [] }
            place (far.map fun l => { lane := l, va := (addr l).setWidth 64 }) (o.order != 0)) s

/-! ### Stores -/

/-- Put a store, RED or ATOM into the group's FIFO, translated (R155, R183, R184). A fatal outcome is owed (R114). -/
def State.enqueueStore (s0 : State) (t : Team) (g : Group) (e : StoreEntry) (p : Option Pending) (acq : Bool) : State :=
  let (x, s) := s0.xlateAll t.ctx .write e.lanes
  let regs := match p with
    | some p => p.regs
    | none => []
  if x.blocked then (if x.held then s0.parkHeld t g else s0)
  else match x.fatal with
    | some (c, va) =>
      s.put t (((g.reserve regs false).advance s.cur).owe (xlateTrap c va) s.cur.lanes s.cur.handler)
    | none =>
      if e.lanes.isEmpty then
        let g := (g.reserve regs false).advance s.cur
        s.put t (match p with
          | some p => { g with pending := g.pending ++ [{ p with left := 0 }] }
          | none => g)
      else
        let kind := if e.kind == .st then 1 else 2
        let (fs, s) := s.addFaults t g.num kind (.fifo t.id g.num e.id) (s.faultGroups t.ctx x.replay)
        let lanes := e.lanes.map fun a => (x.ok.find? fun b => b.lane == a.lane).getD a
        let g := (g.reserve regs false).advance s.cur
        let g := { g with
          fifo := g.fifo ++ [{ e with lanes := lanes, faults := fs }]
          pending := match p with
            | some p => g.pending ++ [p]
            | none => g.pending
          fences := match p with
            | some p => if acq then g.fences ++ [acquireFence p.active e.scope p.id] else g.fences
            | none => g.fences }
        s.put t (match fs with
          | [] => g
          | f :: _ => g.parkAs s.gtime (.fault f))

/-- What an sc access does before it, its waits being over: the acquire half of FENCE.sc (R192, R193). -/
def State.scAcquire (s : State) (t : Team) (order scope : Nat) : State :=
  if order == 4 && 2 ≤ scope then s.dropL1 t.die t.core t.ctx else s

/-- ST (R471 to R473). -/
def execSt (o : StOp) (s : State) : Result :=
  issueMem o.g (fun s t g m =>
    let z := elemBytes o.ty o.sz
    let ps : List LaneAddr := m.lanes.map fun l =>
      { lane := l, va := g.globalAddr o.a (moffVal o.off) l, data := g.typed o.ty o.d l }
    match firstTrap (globalTraps z (ps.map fun p => p.va)) with
    | some tr => s.raise t g tr
    | none =>
      if o.order.toNat == 4 && s.releaseWaits t g m o.scope.toNat then s.stayRelease t g m o.scope.toNat
      else
        let (i, s) := (s.scAcquire t o.order.toNat o.scope.toNat).fresh
        s.enqueueStore t g
          { id := i, kind := .st, fn := .store, ty := o.ty, bytes := z, order := o.order.toNat, scope := o.scope.toNat
            bundle := s.cur.lanes, lanes := ps, handler := s.cur.handler } none false) s

/-- Write a team's program scratchpad. -/
def State.spadWrite (s : State) (tid off : Nat) (l : List Byte) : State := s.onTeam tid fun t => t.spadWrite off l

/-- STS (R471 to R473): performed at the own core's banks at issue or later, and at other cores' later (R185); the highest lane's bytes
stay where lanes overlap. -/
def execSts (o : StsOp) (s : State) : Result :=
  issueMem o.g (fun s t g m =>
    let z := elemBytes o.ty o.sz
    let addr := fun l => g.shortAddr o.abs o.a (moffVal o.off) l
    match firstTrap (s.spadTraps t true z (m.lanes.map addr)) with
    | some tr => s.raise t g tr
    | none =>
      let place := fun l => (s.spadTarget t (addr l) z).getD (0, 0)
      if m.lanes.any fun l => !(s.spadPresent (place l).1 (place l).2) then s.block t g .lines
      else if o.order != 0 && s.releaseWaits t g m o.scope.toNat then s.stayRelease t g m o.scope.toNat
      else
        let far := m.lanes.filter fun l => s.spadLater t g (place l).1
        let s := s.scAcquire t o.order.toNat o.scope.toNat
        let s := s.addRemotes
          { id := 0, issue := 0, tid := t.id, grp := g.num, target := 0, op := .op .store, ty := o.ty, bytes := z, pend := none
            bundle := s.cur.lanes, handler := s.cur.handler, lanes := [] }
          place (far.map fun l => { lane := l, va := (addr l).setWidth 64, data := g.typed o.ty o.d l })
        (m.lanes.filter fun l => !(far.contains l)).foldl (fun s l =>
          s.spadWrite (place l).1 (place l).2 (leBytes z (g.typed o.ty o.d l).toNat)) (s.done t g)) s

/-- Bring the line of one lane's PREF nearer (R437); a translation that would fault does nothing. -/
def State.prefetch (s : State) (t : Team) (l1 : Bool) (va : DWord) : State :=
  match s.translate t.ctx va .read with
  | (.ok sa e, s') =>
    if s'.held t.die sa then s
    else
      let line := lineOf sa
      let s1 := s'.servedVia t.ctx e.bld sa
      if l1 then
        match s1.readVia e.bld (line * 128) 128 with
        | .ok l => s1.fillL1 t.die t.core t.ctx line e.bld l
        | .error _ => s1
      else s1
  | _ => s

/-- PREF (R437). -/
def execPref (o : PrefOp) (s : State) : Result :=
  issueMem o.g (fun s t g m =>
    let va := fun l => if o.abs then moffVal o.off else g.globalAddr o.a (moffVal o.off) l
    m.lanes.foldl (fun s l => s.prefetch t o.l1 (va l)) (s.done t g)) s

/-! ### Accesses that an instruction makes before it takes effect (R114) -/

/-- What such an access gives. -/
inductive Direct (α : Type) where
  | ok (v : α)
  | trap (tr : Trap)
  | fault (cause : Nat) (va : DWord)
  | wait
deriving DecidableEq, Repr

/-- Translate and look whether the home can serve it. -/
def State.direct (s : State) (ctx die : Nat) (va : DWord) (acc : AccType) : Direct (Nat × Bool) × State :=
  match s.translate ctx va acc with
  | (.ok sa e, s) => (if s.held die sa then .wait else .ok (sa, e.bld), s)
  | (.replay c, s) => (.fault c va, s)
  | (.fatal c, s) => (.trap (xlateTrap c va), s)
  | (.blocked, s) => (.wait, s)

/-- The VA of the 256-byte block of an address. -/
def blockVa (va : DWord) : DWord := va &&& ~~~255#64

/-- Change the value a direct access gives. -/
def Direct.map {α β : Type} (f : α → β) : Direct α → Direct β
  | .ok v => .ok (f v)
  | .trap tr => .trap tr
  | .fault c va => .fault c va
  | .wait => .wait

/-- Read bytes of one block at the home slice; answers also the system address. -/
def State.directReadAt (s : State) (ctx die : Nat) (va : DWord) (n : Nat) : Direct (Nat × List Byte) × State :=
  match s.direct ctx die va .read with
  | (.ok (sa, bld), s) =>
    match s.readVia bld sa n with
    | .ok l => (.ok (sa, l), s.servedVia ctx bld sa)
    | .error c => (.trap (memfmtTrap c (blockVa va)), s.servedVia ctx bld sa)
  | (.trap tr, s) => (.trap tr, s)
  | (.fault c va, s) => (.fault c va, s)
  | (.wait, s) => (.wait, s)

def State.directRead (s : State) (ctx die : Nat) (va : DWord) (n : Nat) : Direct (List Byte) × State :=
  let (r, s) := s.directReadAt ctx die va n
  (r.map fun x => x.2, s)

/-- Write bytes of one block at the home slice; answers also the system address. -/
def State.directWriteAt (s : State) (ctx die : Nat) (va : DWord) (l : List Byte) : Direct Nat × State :=
  match s.direct ctx die va .write with
  | (.ok (sa, bld), s) =>
    match (s.servedWrite ctx bld sa).writeVia bld sa l with
    | .ok s => (.ok sa, s)
    | .error c => (.trap (memfmtTrap c (blockVa va)), s.servedWrite ctx bld sa)
  | (.trap tr, s) => (.trap tr, s)
  | (.fault c va, s) => (.fault c va, s)
  | (.wait, s) => (.wait, s)

def State.directWrite (s : State) (ctx die : Nat) (va : DWord) (l : List Byte) : Direct Unit × State :=
  let (r, s) := s.directWriteAt ctx die va l
  (r.map fun _ => (), s)

/-- AGENT of a fault (R155): the team slot for kinds 4 to 7, the resident group for the others. -/
def State.agentOf (s : State) (t : Team) (grp kind : Nat) : Nat := if 4 ≤ kind && kind ≤ 7 then t.slot else s.groupIndex t grp

/-- The instruction waits, untaken, for its replayable fault (R155). -/
def State.parkFault (s : State) (t : Team) (g : Group) (kind cause : Nat) (va : DWord) (req : FaultReq) : State :=
  let (i, s) := s.addFault t.die t.core t.ctx (s.agentOf t g.num kind) kind cause va req
  s.put t (g.parkAs s.gtime (.fault i))

def State.insnFault (s : State) (t : Team) (g : Group) (kind cause : Nat) (va : DWord) : State :=
  s.parkFault t g kind cause va (.insn t.id g.num)

/-- Go on with what a direct access gave; every other outcome leaves the instruction at its place. -/
def Direct.andThen {α : Type} (r : Direct α × State) (t : Team) (g : Group) (kind : Nat) (k : α → State → State) : State :=
  match r with
  | (.ok v, s) => k v s
  | (.trap tr, s) => s.raise t g tr
  | (.fault c va, s) => s.insnFault t g kind c va
  | (.wait, s) => s.block t g .access

end Sys2Proof.Machine
end

