-- ==== Sys2Proof/Machine/Atomics.lean ====
section
/-! DEFINITION. ATOM and RED (R178, R197, R358 to R360, R453, R454). A global one enters the group's store FIFO; a
scratchpad one is performed at the own core's banks at issue or later, and at another core's later (R185). -/

namespace Sys2Proof.Machine

/-- The new value of an atomic, with the flags of an f32 addition (R358, R359). -/
def atomNew (fn : AtomFn) (ty : Ty) (old v c : DWord) : DWord × FpFlags :=
  match fn with
  | .store => (v, 0)
  | .add => redStep .add ty old v
  | .min => redStep .min ty old v
  | .max => redStep .max ty old v
  | .and => (old &&& v, 0)
  | .or => (old ||| v, 0)
  | .xor => (old ^^^ v, 0)
  | .exch => (v, 0)
  | .cas => (if old == v then c else old, 0)

/-- Bytes of an atomic's element. -/
def atomBytes (ty : Ty) : Nat := if ty.is64 then 8 else 4

/-- What the forms of ATOM and RED have in common. -/
structure AtomReq where
  g : Guard
  fn : AtomFn
  ty : Ty
  spad : Bool
  order : Nat
  scope : Nat
  a : VR
  off : BitVec 16
  v : Src
  c : Option VR
  /-- ATOM: destination and lookahead; none for RED. -/
  dst : Option (VR × BitVec 4)
deriving DecidableEq, Repr

/-- Perform the own core's lanes of a scratchpad atomic in ascending order; answers the old values and flags by lane. -/
def State.spadAtoms (s : State) (q : AtomReq) (g : Group) (place : Nat → Nat × Nat) :
    List Nat → List (Nat × DWord × FpFlags) × State
  | [] => ([], s)
  | l :: r =>
    let z := atomBytes q.ty
    let (tid, off) := place l
    let old : DWord := BitVec.ofNat 64 (leNat (s.spadRead tid off z))
    let c := match q.c with
      | some c => g.typed q.ty c l
      | none => 0
    let (new, fl) := atomNew q.fn q.ty old (g.src q.ty q.v l) c
    let (rest, s) := (s.spadWrite tid off (leBytes z new.toNat)).spadAtoms q g place r
    ((l, old, fl) :: rest, s)

/-- A scratchpad ATOM or RED. -/
def spadAtomic (q : AtomReq) (s : State) (t : Team) (g : Group) (m : Mask) : State :=
  let z := atomBytes q.ty
  let addr := fun l => g.elem q.a.toNat l + q.off.signExtend 32
  let regs := match q.dst with
    | some (d, _) => regsOf q.ty d
    | none => []
  match firstTrap (poolFor g regs .general ++ s.spadTraps t true z (m.lanes.map addr)) with
  | some tr => s.raise t g tr
  | none =>
    let place := fun l => (s.spadTarget t (addr l) z).getD (0, 0)
    if m.lanes.any fun l => !(s.spadPresent (place l).1 (place l).2) then s.block t g .lines
    else if 2 ≤ q.order && s.releaseWaits t g m q.scope then s.stayRelease t g m q.scope
    else
      let far := m.lanes.filter fun l => s.spadLater t g (place l).1
      let near := m.lanes.filter fun l => !(far.contains l)
      let acq := q.order != 0 && q.order != 2
      let s := if far.isEmpty && acq && 2 ≤ q.scope then s.dropL1 t.die t.core t.ctx else s.scAcquire t q.order q.scope
      let ps : List LaneAddr := far.map fun l =>
        { lane := l, va := (addr l).setWidth 64, data := g.src q.ty q.v l
          cmp := match q.c with
            | some c => g.typed q.ty c l
            | none => 0 }
      let r : Remote :=
        { id := 0, issue := 0, tid := t.id, grp := g.num, target := 0, op := .op q.fn, ty := q.ty, bytes := z, pend := none
          bundle := s.cur.lanes, handler := s.cur.handler, lanes := [] }
      match q.dst with
      | none => (((s.addRemotes r place ps).done t g).spadAtoms q g place near).2
      | some (_, la) =>
        let (i, s) := s.fresh
        let pre := (s.spadAtoms q g place near).1
        let flags := pre.foldl (fun v x => SMap.set 0#5 v x.1 x.2.2) []
        if far.isEmpty then
          let p := knownPending i s.cur m la regs false fun l =>
            match pre.find? fun x => x.1 == l with
            | some x => x.2.1
            | none => 0
          let g' := (g.reserve regs false).advance s.cur
          ((s.put t { g' with pending := g'.pending ++ [{ p with flags := flags }] }).spadAtoms q g place near).2
        else
          ((s.issueRemote t g m
            { id := i, kind := .remote, bundle := s.cur.lanes, active := m, win := laneList.map fun _ => la.toNat
              regs := regs, bytes := z, scope := q.scope, flags := flags, handler := s.cur.handler }
            (pre.map fun x => (x.1, leBytes z x.2.1.toNat)) r place ps acq).spadAtoms q g place near).2

/-- A global ATOM or RED. -/
def globalAtomic (q : AtomReq) (s : State) (t : Team) (g : Group) (m : Mask) : State :=
  let z := atomBytes q.ty
  let ps : List LaneAddr := m.lanes.map fun l =>
    { lane := l, va := g.globalAddr q.a (q.off.signExtend 64) l, data := g.src q.ty q.v l
      cmp := match q.c with
        | some c => g.typed q.ty c l
        | none => 0 }
  let regs := match q.dst with
    | some (d, _) => regsOf q.ty d
    | none => []
  match firstTrap (poolFor g regs .general ++ globalTraps z (ps.map fun p => p.va)) with
  | some tr => s.raise t g tr
  | none =>
    if q.order == 4 && s.releaseWaits t g m q.scope then s.stayRelease t g m q.scope
    else
      let (i, s) := (s.scAcquire t q.order q.scope).fresh
      let (j, s) := s.fresh
      let e : StoreEntry :=
        { id := i, kind := if q.dst.isSome then .atom else .red, fn := q.fn, ty := q.ty, bytes := z, order := q.order
          scope := q.scope, bundle := s.cur.lanes, lanes := ps, pend := if q.dst.isSome then j else 0, handler := s.cur.handler }
      let p := q.dst.map fun (_, la) =>
        ({ id := j, kind := .atom, bundle := s.cur.lanes, active := m, win := laneList.map fun _ => la.toNat
           regs := regs, bytes := z, left := ps.length, scope := q.scope, handler := s.cur.handler } : Pending)
      s.enqueueStore t g e p (q.order != 0 && q.order != 2)

/-- Issue an ATOM or RED. -/
def issueAtomic (q : AtomReq) (s : State) : Result :=
  issueMem q.g (if q.spad then spadAtomic q else globalAtomic q) s

def atomReq (fn : AtomFn) (o : AtomOp) : AtomReq :=
  { g := o.g, fn := fn, ty := o.ty, spad := o.spad, order := o.order.toNat, scope := o.scope.toNat, a := o.a
    off := o.off.getD 0, v := o.v, c := none, dst := some (o.d, o.la) }

def redReq (fn : AtomFn) (o : RedOp) : AtomReq :=
  { g := o.g, fn := fn, ty := o.ty, spad := o.spad, order := o.order.toNat, scope := o.scope.toNat, a := o.a
    off := o.off.getD 0, v := o.v, c := none, dst := none }

def execAtomAdd (o : AtomOp) (s : State) : Result := issueAtomic (atomReq .add o) s
def execAtomMin (o : AtomOp) (s : State) : Result := issueAtomic (atomReq .min o) s
def execAtomMax (o : AtomOp) (s : State) : Result := issueAtomic (atomReq .max o) s
def execAtomAnd (o : AtomOp) (s : State) : Result := issueAtomic (atomReq .and o) s
def execAtomOr (o : AtomOp) (s : State) : Result := issueAtomic (atomReq .or o) s
def execAtomXor (o : AtomOp) (s : State) : Result := issueAtomic (atomReq .xor o) s
def execAtomExch (o : AtomOp) (s : State) : Result := issueAtomic (atomReq .exch o) s

/-- ATOM.cas: vB is the comparison value and vC the new one (R358). -/
def execAtomCas (o : CasOp) (s : State) : Result :=
  issueAtomic
    { g := o.g, fn := .cas, ty := o.ty, spad := o.spad, order := o.order.toNat, scope := o.scope.toNat, a := o.a
      off := o.off, v := .reg o.b, c := some o.c, dst := some (o.d, o.la) } s

def execRedAdd (o : RedOp) (s : State) : Result := issueAtomic (redReq .add o) s
def execRedMin (o : RedOp) (s : State) : Result := issueAtomic (redReq .min o) s
def execRedMax (o : RedOp) (s : State) : Result := issueAtomic (redReq .max o) s
def execRedAnd (o : RedOp) (s : State) : Result := issueAtomic (redReq .and o) s
def execRedOr (o : RedOp) (s : State) : Result := issueAtomic (redReq .or o) s
def execRedXor (o : RedOp) (s : State) : Result := issueAtomic (redReq .xor o) s

end Sys2Proof.Machine
end

