-- ==== Sys2Proof/Machine/Control.lean ====
section
/-! DEFINITION. Control flow: BRA, BRX, CALL, RET, EXIT, PRIO, NAP, BKPT, TRAP (R66, R71, R98, R368 to R374, R385, R426,
R438, R457, R481). -/

namespace Sys2Proof.Machine

/-- The lanes whose next PC differs from that of the lowest lane of the bundle (R253, UNIFORMITY). -/
def oddLanes (lanes : Mask) (next : Nat → DWord) : Mask :=
  match lanes.lowest with
  | none => 0
  | some k => Mask.ofPred fun l => lanes.has l && next l != next k

def uniformityTrap (m : Mask) : Trap := { cause := 4, info := m, va := 0 }

def Group.linkStack (g : Group) (l : Nat) : List Link := SMap.get [] g.links l

def Group.setLinks (g : Group) (l : Nat) (x : List Link) : Group := { g with links := SMap.set [] g.links l x }

/-- The checks of R371 in the order of R119 and R254: RESOURCE, then TARGET, then UNIFORMITY. -/
def branchTraps (s : State) (m : Mask) (u resource : Bool) (next : Nat → DWord × BitVec 8) : List Trap :=
  (if resource then [illegalTrap .resource] else [])
    ++ (if m.lanes.any fun l => !(legalTarget (next l).1) then [illegalTrap .target] else [])
    ++ (let odd := oddLanes s.cur.lanes fun l => (next l).1
        if u && odd != 0 then [uniformityTrap odd] else [])

/-- The lowest sub-code among ILLEGAL conditions is the first in the list of `branchTraps`. -/
def firstIllegal (ts : List Trap) : Option Trap :=
  match ts.find? fun t => t.cause == 1 with
  | some t => some t
  | none => firstTrap ts

/-- Where the lanes of a branch go: active lanes to `target`, the others on (R371). -/
def branchNext (s : State) (m : Mask) (target : Nat → DWord × BitVec 8) (l : Nat) : DWord × BitVec 8 :=
  if m.has l then target l else (succPc s.cur.pc s.cur.len, s.cur.prio)

/-- Move the lanes of a branch once every check has passed. -/
def branch (s : State) (t : Team) (g : Group) (m : Mask) (u resource : Bool) (target : Nat → DWord × BitVec 8)
    (links : Group → Group) : State :=
  let next := branchNext s m target
  match firstIllegal (branchTraps s m u resource next) with
  | some tr => s.raise t g tr
  | none => s.put t ((links g).retarget s.cur fun l => some (next l))

/-- The byte distance of a branch offset (R370). -/
def brBytes : BrOff → DWord
  | .off20 o => o.signExtend 64 * 4
  | .off32 o => o.signExtend 64 * 4

/-- Push the return address, PC + length, and the priority of the caller in the active lanes (R374). -/
def Group.pushLinks (g : Group) (c : Cur) (m : Mask) : Group :=
  m.lanes.foldl (fun g l => g.setLinks l (⟨c.pc + BitVec.ofNat 64 c.len, c.prio⟩ :: g.linkStack l)) g

def Group.popLinks (g : Group) (m : Mask) : Group :=
  m.lanes.foldl (fun g l => g.setLinks l ((g.linkStack l).drop 1)) g

/-- The return address that RET uses (R457). -/
def retAddress (a : DWord) : DWord := if a.toNat % 32 == 28 then a + 4 else a

/-- BRA (R371). -/
def execBra (o : BrOp) (s : State) : Result :=
  issueWith o.g (fun s t g m => branch s t g m o.u false (fun _ => (s.cur.pc + brBytes o.off, o.pri)) id) s

/-- BRX (R373). -/
def execBrx (o : BrxOp) (s : State) : Result :=
  issueWith o.g (fun s t g m =>
    branch s t g m o.u false
      (fun l => (s.cur.pc + o.off.signExtend 64 * 4 + (g.elem o.a.toNat l).setWidth 64 * 8, o.pri)) id) s

/-- CALL (R374). -/
def execCall (o : BrOp) (s : State) : Result :=
  issueWith o.g (fun s t g m =>
    branch s t g m o.u (m.lanes.any fun l => (g.linkStack l).length ≥ 8)
      (fun _ => (s.cur.pc + brBytes o.off, o.pri)) fun g => g.pushLinks s.cur m) s

/-- RET (R457). -/
def execRet (gd : Guard) (u : Bool) (s : State) : Result :=
  issueWith gd (fun s t g m =>
    let empty := m.lanes.any fun l => (g.linkStack l).isEmpty
    if empty then s.raise t g (illegalTrap .resource)
    else
      branch s t g m u false
        (fun l => match (g.linkStack l).head? with
          | some x => (retAddress x.ret, x.prio)
          | none => (0, 0))
        fun g => g.popLinks m) s

/-- EXIT (R385). -/
def execExit (gd : Guard) (s : State) : Result :=
  issueWith gd (fun s t g m =>
    s.put t ((g.retarget s.cur fun l => if m.has l then none else some (succPc s.cur.pc s.cur.len, s.cur.prio)).endLanes m)) s

/-- PRIO (R438). -/
def execPrio (gd : Guard) (n : BitVec 8) (s : State) : Result :=
  issueWith gd (fun s t g m =>
    s.put t (g.retarget s.cur fun l => some (succPc s.cur.pc s.cur.len, if m.has l then n else s.cur.prio))) s

/-- NAP (R426). -/
def execNap (gd : Guard) (n : BitVec 10) (s : State) : Result :=
  issueWith gd (fun s t g m =>
    let g := g.advance s.cur
    s.put t (if m == 0 || n == 0 then g
      else { g with park := .nap ((s.die t.die).cycles + n.toNat + 1) })) s

/-- BKPT (R368). -/
def execBkpt (gd : Guard) (code : BitVec 16) (s : State) : Result :=
  issueWith gd (fun s t g m =>
    if m == 0 then s.done t g else s.raise t g { cause := 0x12, info := code.setWidth 32, va := 0 }) s

/-- TRAP (R481). -/
def execTrap (gd : Guard) (code : BitVec 16) (s : State) : Result :=
  issueWith gd (fun s t g m =>
    if m == 0 then s.done t g else s.raise t g { cause := 0x11, info := code.setWidth 32, va := 0 }) s

end Sys2Proof.Machine
end

