-- ==== Sys2Proof/Machine/Sync.lean ====
section
/-! DEFINITION. FENCE, BAR and WAITA (R179, R192 to R198, R256, R363, R364, R393, R394, R485, R486). -/

namespace Sys2Proof.Machine

/-! ### FENCE -/

/-- A FENCE of the bundle's active lanes: it goes on, and later memory instructions of the group wait (R394). -/
def fenceOp (acq rel : Bool) (o : FenceOp) (s : State) : Result :=
  issueWith o.g (fun s t g m =>
    if m == 0 then s.done t g
    else
      let drop := acq && 2 ≤ o.scope.toNat
      let f : Fence :=
        { acq := drop, lanes := m, entries := if rel then g.fifo.map fun e => e.id else []
          remotes := s.remotesOf t.id g.num m o.scope.toNat rel
          pends := g.loadsOf m o.scope.toNat }
      if !(s.fenceBusy { g with fences := [f] }) then
        (if drop then s.dropL1 t.die t.core t.ctx else s).done t g
      else s.done t { g with fences := g.fences ++ [f] }) s

def execFenceAcq (o : FenceOp) (s : State) : Result := fenceOp true false o s
def execFenceRel (o : FenceOp) (s : State) : Result := fenceOp false true o s
def execFenceAr (o : FenceOp) (s : State) : Result := fenceOp true true o s
def execFenceSc (o : FenceOp) (s : State) : Result := fenceOp true true o s

/-! ### BAR -/

/-- Groups and stream that wait for a phase that is over go on (R256). -/
def Team.releaseBar (t : Team) (k : Nat) : Team :=
  let gen := barGen (t.bar k)
  { t with
    groups := t.groups.map fun g => match g.park with
      | .bar j x => if j == k && x != gen then { g with park := .none } else g
      | _ => g
    stream := t.stream.map fun m => match m.park with
      | .bar j x => if j == k && x != gen then { m with park := .none } else m
      | _ => m }

/-- Some group, or the stream, waits for the phase (R198, R280). -/
def Team.waitsFor (t : Team) (k : Nat) (gen : BitVec 32) : Bool :=
  (t.groups.any fun g => g.park == .bar k gen) || t.stream.any fun m => m.park == .bar k gen

/-- An arrival that changes the barrier's word to `w` brings an engine's arrival into the phase: its own, or one that was held. -/
def Team.engineJoins (t : Team) (k : Nat) (w : DWord) (engine : Bool) : Bool :=
  barHeld w < barHeld (t.bar k) || (engine && barHeld w == barHeld (t.bar k))

/-- Change a barrier word; `waits` says that the arriver waits, `engine` that it is the drift engine. A completed phase
releases its waiters, which acquire at `.team` scope; where an engine's arrival was part of the phase they acquire its command's
writes at `.dev` scope (R198). -/
def State.setBarrier (s : State) (tid k : Nat) (w : DWord) (completed : Bool) (waits : Bool := false) (engine : Bool := false) : State :=
  match s.team? tid with
  | none => s
  | some t =>
    let gen := barGen (t.bar k)
    let t := if t.engineJoins k w engine then { t with engPhases := t.engPhases ++ [(k, gen)] } else t
    let t' := t.setBar k w
    if completed then
      let s := s.setTeam (t'.releaseBar k)
      if t.engPhases.contains (k, gen) && (waits || t.waitsFor k gen) then s.dropL1 t.die t.core t.ctx else s
    else s.setTeam t'

/-- An engine arrived in one of the phases from `gen` on that are over. -/
def Team.engineIn (t : Team) (k : Nat) (gen : BitVec 32) : Bool :=
  t.engPhases.any fun x => x.1 == k && (x.2 - gen).toNat < (barGen (t.bar k) - gen).toNat

/-- The count of a BAR: an immediate, or the lowest active lane's element (R363). -/
def barCountOf (g : Group) (b : Src) (m : Mask) : Nat := (g.src32 b (m.lowest.getD 0)).toNat

/-- A count that R256 forbids. -/
def badCount (c : Nat) : List Trap := if c == 0 || c > 255 then [illegalTrap .operand] else []

/-- One arrival of a group's bundle (R256, R364), which waits or goes on; `k` gives the group after the arrival from the phase number before it and
whether the phase completed. It is a release at `.team` scope by the active lanes (R198). -/
def groupArrive (s : State) (t : Team) (g : Group) (m : Mask) (bar : Nat) (b : Src) (ws : List RegWrite) (waits : Bool)
    (k : BitVec 32 → Bool → Group) : State :=
  let c := barCountOf g b m
  match firstTrap (badCount c ++ g.poolTraps ws) with
  | some tr => s.raise t g tr
  | none =>
    if s.releaseWaits t g m 1 then s.stayRelease t g m 1
    else match barArrive (t.bar bar) c with
      | none => s.raise t g (barrierTrap bar c (t.bar bar))
      | some (w, done) => (s.put t (k (barGen (t.bar bar)) done)).setBarrier t.id bar w done waits

/-- BAR.arrive (R364). -/
def execBarArrive (o : BarArriveOp) (s : State) : Result :=
  issueWith o.g (fun s t g m =>
    if m == 0 then s.done t g
    else
      let ws := fun (gen : Word) => wordWrite o.d (g.shapeOf .plain [] m) fun _ => gen
      groupArrive s t g m o.k.toNat o.count (ws 0) false fun gen _ =>
        (g.apply { active := m, regs := ws gen }).advance s.cur) s

/-- Wait until GEN of the barrier differs from `gen`; a return acquires what engines have arrived with (R198). -/
def barWaitFor (s : State) (t : Team) (g : Group) (k : Nat) (gen : BitVec 32) : State :=
  if barGen (t.bar k) != gen then
    (if t.engineIn k gen then (s.done t g).dropL1 t.die t.core t.ctx else s.done t g)
  else s.put t ((g.advance s.cur).parkAs s.gtime (.bar k gen))

/-- BAR.wait (R364). -/
def execBarWait (o : BarWaitOp) (s : State) : Result :=
  issueWith o.g (fun s t g m =>
    match m.lowest with
    | none => s.done t g
    | some l => barWaitFor s t g o.k.toNat (g.elem o.a.toNat l)) s

/-- BAR.sync (R364). -/
def execBarSync (o : BarSyncOp) (s : State) : Result :=
  issueWith o.g (fun s t g m =>
    if m == 0 then s.done t g
    else groupArrive s t g m o.k.toNat o.count [] true fun gen done =>
      let g := g.advance s.cur
      if done then g else g.parkAs s.gtime (.bar o.k.toNat gen)) s

/-! ### WAITA -/

/-- The reads of a WAITA at the home slices, lane by lane (R486): values and system addresses. What the core's L1 holds of a line that is
read follows the line, so that no later load sees it older (R182, R203). -/
def State.waitaReads (s : State) (t : Team) (g : Group) (a : VR) (z : Nat) :
    List Nat → Direct (List (Nat × DWord × Nat)) × State
  | [] => (.ok [], s)
  | l :: r =>
    let va := g.globalAddr a 0 l
    match s.directReadAt t.ctx t.die va z with
    | (.ok (sa, bytes), s) =>
      match (s.refreshL1 t.die t.core (lineOf sa)).waitaReads t g a z r with
      | (.ok rest, s) => (.ok ((l, BitVec.ofNat 64 (leNat bytes), sa) :: rest), s)
      | e => e
    | (.trap tr, s) => (.trap tr, s)
    | (.fault c va, s) => (.fault c va, s)
    | (.wait, s) => (.wait, s)

/-- Forget the watches of a group. -/
def State.unwatch (s : State) (tid grp : Nat) : State :=
  { s with watches := s.watches.filter fun w => !(w.tid == tid && w.grp == grp) }

/-- The group's queue holds a write of some of `n` bytes at an address: where both translations are known the system addresses decide, for
one location may have several virtual ones (R180). -/
def Group.queues (g : Group) (va : DWord) (sa : Option Nat) (n : Nat) : Bool :=
  (List.range n).any fun i => (fifoByte g.fifo (va57 va + i) (sa.map (· + i))).isSome

/-- WAITA (R485, R486). Its reads wait for the group's earlier loads and for queued stores of the same bytes. -/
def execWaita (o : WaitaOp) (s : State) : Result :=
  issueMem o.g (fun s t g m =>
    if m == 0 then s.done t g
    else
      let z := atomBytes o.ty
      let addr := g.globalAddr o.a 0
      match firstTrap (poolFor g (regsOf o.ty o.d) .general ++ globalTraps z (m.lanes.map addr)) with
      | some tr => s.raise t g tr
      | none =>
        if g.pending.any (fun p => p.left != 0) then s.stayFor t g g.pendIds
        else if m.lanes.any fun l => g.queues (addr l) none z then s.stayFor t g (g.fifo.map fun e => e.id)
        else
          Direct.andThen (s.waitaReads t g o.a z m.lanes) t g 0 fun vs s' =>
            let val := fun l => match vs.find? fun x => x.1 == l with
              | some x => x.2.1
              | none => 0
            if vs.any fun x => g.queues (addr x.1) (some x.2.2) z then s.stayFor t g (g.fifo.map fun e => e.id)
            else
            let s := s'.unwatch t.id g.num
            if m.lanes.all fun l => val l == g.src o.ty o.b l then
              let lines := (vs.map fun x => lineOf x.2.2).dedup
              { s with watches := s.watches ++ lines.map fun x => ({ line := x, tid := t.id, grp := g.num } : Watch) }.put t
                (g.parkAs s.gtime (.waita lines false))
            else
              let s := if o.order != 0 && 2 ≤ o.scope.toNat then s.dropL1 t.die t.core t.ctx else s
              s.put t ((g.apply { active := m, regs := typedWrites o.ty o.d .general val }).advance s.cur)) s

end Sys2Proof.Machine
end

