-- ==== Sys2Proof/Machine/Drift.lean ====
section
/-! DEFINITION. The drift engine: element formats (R136, R170), the `q0` push of CPY (R172, R173, R377), and the engine's own
steps (R91, R174, R175, R177, R256). -/

namespace Sys2Proof.Machine

/-! ### Element formats -/

/-- The listed format codes of R170. -/
def formatListed (c : Nat) : Bool :=
  [0x00, 0x01, 0x02, 0x03, 0x04, 0x05, 0x10, 0x11, 0x12, 0x13, 0x14, 0x20, 0x21, 0x22, 0x23, 0x30, 0x31, 0x32, 0x33].contains c

/-- Bytes of an element (R170). -/
def formatSize (c : Nat) : Nat := 2 ^ bits c 4 2

/-- The widening pairs of R136, source first. -/
def wideningPairs : List (Nat × Nat) :=
  [(0x03, 0x13), (0x03, 0x14), (0x03, 0x23), (0x03, 0x33), (0x04, 0x13), (0x04, 0x23), (0x04, 0x33)]
  ++ [(0x13, 0x23), (0x13, 0x33), (0x14, 0x23), (0x14, 0x33), (0x23, 0x33)]
  ++ [(0x01, 0x11), (0x01, 0x21), (0x01, 0x31), (0x11, 0x21), (0x11, 0x31), (0x21, 0x31)]
  ++ [(0x02, 0x12), (0x02, 0x22), (0x02, 0x32), (0x02, 0x11), (0x02, 0x21), (0x02, 0x31)]
  ++ [(0x12, 0x22), (0x12, 0x32), (0x12, 0x21), (0x12, 0x31), (0x22, 0x32), (0x22, 0x31)]

def widens (src dst : Nat) : Bool := src == dst || wideningPairs.contains (src, dst)

/-- The float format of a code. -/
def formatFloat (c : Nat) : Option Fmt :=
  match c with
  | 0x03 => some (fmtOf .e4m3x4)
  | 0x04 => some (fmtOf .e5m2x4)
  | 0x13 => some (fmtOf .f16x2)
  | 0x14 => some (fmtOf .bf16x2)
  | 0x23 => some .f32
  | 0x33 => some .f64
  | _ => none

/-- The exact conversion of one element along a copy or a widening pair. -/
def widenElem (src dst n : Nat) : Nat :=
  if src == dst then n
  else match formatFloat src, formatFloat dst with
    | some f, some d => roundNE d (Num.decode f n)
    | _, _ =>
      if src % 16 == 1 then wrapInt (8 * formatSize dst) (sint (8 * formatSize src) n) else n

/-! ### Descriptors (R173) -/

/-- The fields of a descriptor. -/
def driftFields (id : Nat) (d : Nat) (enqGen : BitVec 32) : DriftCmd :=
  { id := id, kind := bits d 264 4, sfmt := bits d 256 8, gfmt := bits d 248 8, elems := bits d 232 16, rows := bits d 216 16
    soff := bits d 192 22, gstride := sint 64 (bits d 64 64), gaddr := BitVec.ofNat 64 d, mcast := bits d 280 12
    permit := d.testBit 278, pbar := bits d 274 4, arrive := d.testBit 272, abar := bits d 268 4
    complete := d.testBit 273, tag := BitVec.ofNat 32 (bits d 320 32), enqGen := enqGen }

/-- Bytes of the scratchpad run. -/
def DriftCmd.runBytes (c : DriftCmd) : Nat := c.rows * c.elems * formatSize c.sfmt

/-- The field errors of a descriptor (R172, R173): RESERVED, then NARROW. -/
def driftFieldErrs (t : Team) (d : Nat) (c : DriftCmd) : List Sub :=
  let rsvd := bits d 352 160 != 0 || bits d 292 28 != 0 || d.testBit 279 || bits d 128 64 != 0 || bits d 214 2 != 0
    || c.kind > 3 || !(formatListed c.sfmt) || !(formatListed c.gfmt) || c.rows == 0
  let byKind :=
    if c.kind == 2 then
      c.elems != 0 || c.soff != 0 || c.sfmt != 0 || c.gfmt != 0 || c.mcast != 0 || c.permit || c.pbar != 0
        || c.gaddr.toNat % 256 != 0
    else
      c.elems == 0 || c.elems > 4096 || c.gstride % (formatSize c.gfmt : Int) != 0
        || (if c.kind == 0 then c.permit || c.pbar != 0 || c.mcast / 2 ^ (t.cw * t.ch) != 0 else c.mcast != 0)
  let narrow := if c.kind == 0 then !(widens c.gfmt c.sfmt) else !(widens c.sfmt c.gfmt)
  if rsvd || byKind then [.reserved] else if c.kind != 2 && narrow then [.narrow] else []

/-- The cluster positions a kind 0 command writes: its own, and the MCAST targets. -/
def DriftCmd.targets (c : DriftCmd) (t : Team) : List Nat :=
  let own := t.cx + t.cw * t.cy
  own :: ((List.range (t.cw * t.ch)).filter fun j => j != own && c.mcast.testBit j)

/-- The checks of R172 for one descriptor, and that its elements are aligned (R142). -/
def State.driftTraps (s : State) (t : Team) (d : Nat) (c : DriftCmd) : List Trap :=
  let illegal := (driftFieldErrs t d c).map illegalTrap
  if !illegal.isEmpty then illegal
  else if c.kind == 2 then []
  else
    let past := fun (u : Team) => c.soff + c.runBytes > u.spadEnd
    let bad := past t || (c.kind == 0 && (c.targets t).any fun j => match s.clusterPeer t j with
      | some u => past u
      | none => false)
    (if bad then [alignTrap 1 (BitVec.ofNat 64 c.soff)] else [])
      ++ (if c.gaddr.toNat % formatSize c.gfmt != 0 then [alignTrap 0 c.gaddr] else [])
      ++ (if c.kind == 0 && c.soff < 128 then [permTrap 5] else [])

/-- The lines of a run of scratchpad bytes. -/
def runLines (off n : Nat) : List Nat :=
  if n == 0 then [] else (List.range ((off + n - 1) / 128 - off / 128 + 1)).map (off / 128 + ·)

/-- The lines of the team's own scratchpad that a command clears. -/
def DriftCmd.ownLines (c : DriftCmd) : List Nat := if c.kind == 0 then runLines c.soff c.runBytes else []

/-- Every line of some bytes is present (R91). -/
def Team.present (t : Team) (off n : Nat) : Bool := (runLines off n).all fun l => SMap.get 0 t.absent l == 0

/-- Clear a line's presence bit until the fill of command `id` lands (R91). -/
def Team.clearLine (t : Team) (line id : Nat) : Team := { t with absent := SMap.set 0 t.absent line (id + 1) }

/-- Enqueue one command after clearing its destination lines on every target core (R172, steps 3 and 4). A target position whose team has
retired or ended is passed over, without a trap and without a fill: R172 and R174 do not say, DESIGN CHOICE (log 94). -/
def State.enqueueDrift (s : State) (tid : Nat) (c : DriftCmd) : State :=
  match s.team? tid with
  | none => s
  | some t =>
    let lines := c.ownLines
    let targets := (c.targets t).filterMap fun j => (s.clusterPeer t j).map fun u => (j, u.id)
    let s := targets.foldl (fun s x => s.onTeam x.2 fun u => lines.foldl (fun u l => u.clearLine l c.id) u) s
    let left := targets.flatMap fun x => lines.map fun l => (x.1, l)
    s.onTeam tid fun u => { u with cmds := u.cmds ++ [{ c with left := left }] }

/-- What one lane's descriptor gives. -/
inductive Desc where
  | cmd (c : DriftCmd)
  | trap (tr : Trap)
  | absent
deriving DecidableEq, Repr

/-- Read and check one descriptor (R172, steps 1 and 2). -/
def State.readDesc (s : State) (t : Team) (id off : Nat) : Desc :=
  if off < 128 || off % 64 != 0 || off + 64 > t.spadEnd then .trap (alignTrap 1 (BitVec.ofNat 64 off))
  else if !(t.linePresent off) then .absent
  else
    let d := leNat (t.spadRead off 64)
    let c := driftFields id d (barGen (t.bar (bits d 274 4)))
    match firstTrap (s.driftTraps t d c) with
    | some tr => .trap tr
    | none => .cmd { c with off := BitVec.ofNat 32 off }

/-- Read and check the lanes' descriptors in ascending order; nothing is cleared or enqueued unless all pass (R83, R172, R377): a lane's
descriptor is read before a lower lane's copy clears its line (DEDUCED, log 34). -/
def State.readDescs (s : State) (t : Team) (g : Group) (a : VR) : Nat → List Nat → Except Desc (List DriftCmd)
  | _, [] => .ok []
  | id, l :: r =>
    match s.readDesc t id (g.elem a.toNat l).toNat with
    | .cmd c => match s.readDescs t g a (id + 1) r with
      | .ok cs => .ok (c :: cs)
      | .error e => .error e
    | e => .error e

/-- `q0` has room for `n` entries: its 16, or all that a bundle may push where it is empty, as the engine takes them; and the team
then has at most 32 commands (R83, R172, R377). -/
def Team.driftRoom (t : Team) (n : Nat) : Bool :=
  let waiting := (t.cmds.filter fun c => !c.started).length
  (waiting + n ≤ 16 || waiting == 0) && t.cmds.length + n ≤ 32

/-- The push of `q0` by CPY or QPUSH (R172, R377): all of a bundle's entries or none. The group's earlier writes of the scratchpad come
first (R185). -/
def pushDrift (a : VR) (s : State) (t : Team) (g : Group) (m : Mask) : State :=
  let n := m.lanes.length
  if n == 0 then s.done t g
  else if !(t.driftRoom n) then s.block t g (.queue 0)
  else if s.ownWrites t g then s
  else match s.readDescs t g a s.nextId m.lanes with
    | .error (.trap tr) => s.raise t g tr
    | .error _ => s.block t g .lines
    | .ok cs =>
      cs.zipIdx.foldl (fun s x => s.enqueueDrift t.id { x.1 with started := decide (x.2 + 16 < n) })
        { s.done t g with nextId := s.nextId + n }

/-- CPY (R377). -/
def execCpy (o : AOp) (s : State) : Result := issueAcc o.g (pushDrift o.a) s

/-! ### The engine -/

/-- The team that enqueued a command, if it is on a core with its engine running, and the command. -/
def State.drift? (s : State) (cmd : Nat) : Option (Team × DriftCmd) :=
  match s.teams.find? fun t => t.place.resident && t.place != .prologue && t.cmds.any fun c => c.id == cmd with
  | some t => match t.cmds.find? fun c => c.id == cmd with
    | some c => some (t, c)
    | none => none
  | none => none

/-- Replace a command; the engine has started it and every earlier one (R175). -/
def State.setDrift (s : State) (tid : Nat) (c : DriftCmd) : State :=
  s.onTeam tid fun t =>
    { t with cmds := t.cmds.map fun x => if x.id == c.id then { c with started := true } else if x.id < c.id then { x with started := true } else x }

def State.dropDrift (s : State) (tid cmd : Nat) : State :=
  s.onTeam tid fun t => { t with cmds := t.cmds.filter fun x => x.id != cmd }

/-- A group of the team is live. -/
def Team.anyLive (t : Team) : Bool := t.groups.any fun g => !g.frontier.isEmpty

/-- Groups and stream have all ended (R57). -/
def Team.allEnded (t : Team) : Bool :=
  !t.anyLive && (match t.stream with | some m => m.ended | none => true)

/-- An engine or stream trap waits for delivery, or is recorded where no group lives (R260). -/
def State.engineTrap (s : State) (tid : Nat) (tr : Trap) : State :=
  match s.team? tid with
  | none => s
  | some t =>
    if t.anyLive then s.onTeam tid fun t => { t with engTraps := t.engTraps ++ [tr] }
    else s.addLog (.context t.ctx tr.cause tr.info)

/-- A fatal fault or MEMFMT ends a command (R177): its lines stay absent, and it neither arrives nor pushes. -/
def State.endDrift (s : State) (tid cmd : Nat) (tr : Trap) : State := (s.dropDrift tid cmd).engineTrap tid tr

/-- A replayable fault stalls the command (R155, R177). -/
def State.driftFault (s : State) (t : Team) (c : DriftCmd) (cause : Nat) (va : DWord) : State :=
  let (i, s) := s.addFault t.die t.core t.ctx t.slot 4 cause va (.drift t.id c.id)
  s.setDrift t.id { c with faults := c.faults ++ [i] }

/-- Read bytes for an engine, block by block. -/
def State.engineRead (s : State) (t : Team) (va : DWord) (n : Nat) : Direct (List Byte) × State :=
  let k := 256 - va.toNat % 256
  if n ≤ k then s.directRead t.ctx t.die va n
  else match s.directRead t.ctx t.die va k with
    | (.ok l, s) =>
      let (r, s) := s.directRead t.ctx t.die (va + BitVec.ofNat 64 k) (n - k)
      (r.map fun x => l ++ x, s)
    | e => e

/-- Write bytes for an engine, block by block. -/
def State.engineWrite (s : State) (t : Team) (va : DWord) (l : List Byte) : Direct Unit × State :=
  let k := 256 - va.toNat % 256
  if l.length ≤ k then s.directWrite t.ctx t.die va l
  else match s.directWrite t.ctx t.die va (l.take k) with
    | (.ok _, s) => s.directWrite t.ctx t.die (va + BitVec.ofNat 64 k) (l.drop k)
    | e => e

/-- The VA of element `i` of the run (R174). -/
def DriftCmd.elemVa (c : DriftCmd) (i : Nat) : DWord :=
  c.gaddr + BitVec.ofInt 64 (((i / c.elems : Nat) : Int) * c.gstride + ((i % c.elems * formatSize c.gfmt : Nat) : Int))

/-- Read and convert elements of a kind 0 command. -/
def State.driftReads (s : State) (t : Team) (c : DriftCmd) : List Nat → Direct (List Byte) × State
  | [] => (.ok [], s)
  | i :: r =>
    match s.engineRead t (c.elemVa i) (formatSize c.gfmt) with
    | (.ok l, s) =>
      let (rest, s) := s.driftReads t c r
      (rest.map fun x => leBytes (formatSize c.sfmt) (widenElem c.gfmt c.sfmt (leNat l)) ++ x, s)
    | e => e

/-- TILEB's fill with an earlier id owes the line (R91, R293). -/
def Team.earlierTileFill (t : Team) (cmd line : Nat) : Bool :=
  match t.cov.bound with
  | some b => !b.dead && decide (b.fillId < cmd) && decide (b.coff / 128 ≤ line) && b.fill.contains (line - b.coff / 128)
  | none => false

/-- A fill of the same line by an earlier copy is still owed (R91). -/
def State.earlierFill (s : State) (target cmd line : Nat) : Bool :=
  (match s.team? target with
    | some u => u.earlierTileFill cmd line
    | none => false)
  || s.teams.any fun t => t.cmds.any fun c => c.id < cmd && c.left.any fun x =>
    x.2 == line && (match s.clusterPeer t x.1 with
      | some u => u.id == target
      | none => false)

/-- Put the filled bytes into a target's line, and set its presence bit if no later copy owes it (R91). -/
def Team.fillLine (t : Team) (line cmd off : Nat) (l : List Byte) : Team :=
  let t := t.spadWrite off l
  if SMap.get 0 t.absent line == cmd + 1 then { t with absent := SMap.set 0 t.absent line 0 } else t

/-- One line of a kind 0 command at one target (R91, R174). -/
def fillOne (cmd pos line : Nat) (s : State) : State :=
  match s.drift? cmd with
  | none => s
  | some (t, c) =>
    if c.kind != 0 || !(c.left.contains (pos, line)) || !c.faults.isEmpty then s
    else match s.clusterPeer t pos with
      | none => s.setDrift t.id { c with left := c.left.filter fun x => x != (pos, line) }
      | some u =>
        if s.earlierFill u.id c.id line then s
        else
          let sz := formatSize c.sfmt
          let lo := max c.soff (line * 128)
          let hi := min (c.soff + c.runBytes) (line * 128 + 128)
          let e0 := (lo - c.soff) / sz
          let e1 := (hi - 1 - c.soff) / sz
          match s.driftReads t c ((List.range (e1 - e0 + 1)).map (e0 + ·)) with
          | (.ok l, s) =>
            let l := (l.drop (lo - c.soff - e0 * sz)).take (hi - lo)
            (s.setDrift t.id { c with left := c.left.filter fun x => x != (pos, line) }).onTeam u.id
              fun u => u.fillLine line c.id lo l
          | (.trap tr, s) => s.endDrift t.id c.id tr
          | (.fault cause va, s) => s.driftFault t c cause va
          | (.wait, _) => s

/-- The phase that a command's permit waits for is over (R174). -/
def DriftCmd.due (c : DriftCmd) (t : Team) : Bool := decide (c.enqGen.toNat < (barGen (t.bar c.pbar)).toNat)

/-- The command, a write-back, still waits for its permit. -/
def DriftCmd.unpermitted (c : DriftCmd) : Bool := c.permit && !c.permitted && !c.finished

/-- DRIFT_PERMIT (R174). -/
def driftPermit (cmd : Nat) (s : State) : State :=
  match s.drift? cmd with
  | none => s
  | some (t, c) => if c.unpermitted && c.due t then s.setDrift t.id { c with permitted := true } else s

def execDriftPermit (cmd : Nat) (s : State) : Result := .next (driftPermit cmd s)

/-! ### Writes of the engine, one unit at a time: an element of kinds 1 and 3, a block of kind 2 (R174, R175) -/

/-- The number of a command's units. -/
def DriftCmd.units (c : DriftCmd) : Nat := if c.kind == 0 then 0 else if c.kind == 2 then c.rows else c.rows * c.elems

/-- The units that are still to be done, in order. -/
def DriftCmd.unitsLeft (c : DriftCmd) : List Nat := (List.range c.units).filter fun i => !(c.did.contains i)

/-- Some element that the command has still to write shares bytes with some bytes. -/
def DriftCmd.stillWrites (c : DriftCmd) (va n : Nat) : Bool :=
  !c.finished && (c.kind == 1 || c.kind == 3)
    && c.unitsLeft.any fun i =>
      decide (va57 (c.elemVa i) < va + n) && decide (va < va57 (c.elemVa i) + formatSize c.gfmt)

/-- A write of the element by an earlier command of the team is still to come (R175). -/
def Team.earlierWrite (t : Team) (c : DriftCmd) (i : Nat) : Bool :=
  t.cmds.any fun x => x.id < c.id && x.stillWrites (va57 (c.elemVa i)) (formatSize c.gfmt)

/-- Write one element of a kind 1 or 3 command. -/
def State.driftElem (s : State) (t : Team) (c : DriftCmd) (i : Nat) : Direct Unit × State :=
  let sz := formatSize c.sfmt
  let v := widenElem c.sfmt c.gfmt (leNat (t.spadRead (c.soff + i * sz) sz))
  if t.earlierWrite c i then (.wait, s) else s.engineWrite t (c.elemVa i) (leBytes (formatSize c.gfmt) v)

/-- Make one block of a kind 2 command raw (R168). -/
def State.driftBlock (s : State) (t : Team) (c : DriftCmd) (i : Nat) : Direct Unit × State :=
  let va := c.gaddr + BitVec.ofNat 64 (256 * i)
  match s.direct t.ctx t.die va .write with
  | (.ok (sa, bld), s) =>
    let s := s.servedVia t.ctx bld sa
    match (if bld then s.decompress sa else .ok s) with
    | .ok s => (.ok (), s)
    | .error k => (.trap (memfmtTrap k (blockVa va)), s)
  | (.trap tr, s) => (.trap tr, s)
  | (.fault k va, s) => (.fault k va, s)
  | (.wait, s) => (.wait, s)

/-- Do some units in order; answers those that are done. -/
def State.driftUnits (s : State) (t : Team) (c : DriftCmd) : List Nat → List Nat × Direct Unit × State
  | [] => ([], .ok (), s)
  | i :: r =>
    match (if c.kind == 2 then s.driftBlock t c i else s.driftElem t c i) with
    | (.ok _, s) =>
      let (done, x) := s.driftUnits t c r
      (i :: done, x)
    | e => ([], e)

/-- The command may write: it has its permit, and the lines it reads are present (R174). -/
def Team.mayWrite (t : Team) (c : DriftCmd) : Bool :=
  c.kind == 2 || (!(c.permit && !c.permitted) && (runLines c.soff c.runBytes).all fun l => SMap.get 0 t.absent l == 0)

/-- The fill that owes an absent line is still to come: its command, or TILEB's fill, has not ended. -/
def State.fillComes (s : State) (id : Nat) : Bool :=
  s.teams.any fun u => u.cmds.any (fun x => x.id == id) || u.cov.bound.any fun b => !b.dead && b.fillId == id

/-- A line that a kind 0 command has filled is absent for a later copy (R91, R175). -/
def State.laterOwes (s : State) (t : Team) (c : DriftCmd) : Bool :=
  ((c.targets t).filterMap fun j => s.clusterPeer t j).any fun u => c.ownLines.any fun l =>
    SMap.get 0 u.absent l != 0 && s.fillComes (SMap.get 0 u.absent l - 1)

/-- The rest of a command's work; answers the units that are done. Kind 0 has none left once its lines are filled and present. -/
def State.driftWork (s : State) (t : Team) (c : DriftCmd) : List Nat × Direct Unit × State :=
  if c.finished then ([], .ok (), s)
  else if !c.faults.isEmpty then ([], .wait, s)
  else if c.kind == 0 then ([], (if c.left.isEmpty && !(s.laterOwes t c) then .ok () else .wait), s)
  else if !(t.mayWrite c) then ([], .wait, s)
  else s.driftUnits t c c.unitsLeft

/-- What a try at a command's units leaves: the units done, a stall, or the command's end. -/
def State.afterUnits (s : State) (t : Team) (c : DriftCmd) (done : List Nat) (r : Direct Unit) : State :=
  let c := { c with did := c.did ++ done }
  match r with
  | .trap tr => s.endDrift t.id c.id tr
  | .fault cause va => s.driftFault t c cause va
  | _ => if done.isEmpty then s else s.setDrift t.id c

/-- One unit of a command of kind 1, 2 or 3, which becomes visible by itself (R175). -/
def unitOne (cmd i : Nat) (s : State) : State :=
  match s.drift? cmd with
  | none => s
  | some (t, c) =>
    if c.finished || !c.faults.isEmpty || !(c.unitsLeft.contains i) || !(t.mayWrite c) then s
    else
      let (done, r, s') := s.driftUnits t c [i]
      match r with
      | .wait => s
      | r => s'.afterUnits t c done r

/-- LINE_FILL: one line of a kind 0 command at one target (R91, R174); of the other kinds, one element or block. -/
def lineFill (cmd pos line : Nat) (s : State) : State :=
  match s.drift? cmd with
  | none => s
  | some (_, c) => if c.kind == 0 then fillOne cmd pos line s else unitOne cmd line s

def execLineFill (cmd pos line : Nat) (s : State) : Result := .next (lineFill cmd pos line s)

/-- `q1` holds 16 tags (R83). -/
def q1Room (t : Team) : Bool := t.q1.length < 16

/-- What a finished command still owes (R175, R256): its arrival, then its TAG; with neither it is complete. -/
def State.settleDrift (s : State) (tid cmd : Nat) : State :=
  match s.team? tid with
  | none => s
  | some t =>
    match t.cmds.find? fun c => c.id == cmd with
    | none => s
    | some c =>
      if !c.finished || c.owesArrival then s
      else if !c.owesTag then s.dropDrift tid cmd
      else if q1Room t then
        (s.onTeam tid fun t => { t with q1 := t.q1 ++ [c.tag] }).dropDrift tid cmd
      else if t.allEnded then s.dropDrift tid cmd
      else s

/-- Once groups and stream of a team have ended, its barriers advance by engine arrivals alone, which grant no permit: before the first of
them, the write-backs whose phase is over have their permit and the others are cancelled (R57, R174). -/
def State.endPermits (s : State) (tid : Nat) : State :=
  s.onTeam tid fun t =>
    if t.allEnded then
      { t with cmds := (t.cmds.filter fun c => !c.unpermitted || c.due t).map fun c =>
          if c.unpermitted then { c with permitted := true } else c }
    else t

/-- Present the arrival of a finished command (R256). -/
def State.arriveDrift (s : State) (tid cmd : Nat) : State :=
  let s := s.endPermits tid
  match s.team? tid with
  | none => s
  | some t =>
    match t.cmds.find? fun c => c.id == cmd with
    | none => s
    | some c =>
      if !c.finished || !c.owesArrival then s
      else match barEngine (t.bar c.abar) with
        | none => s
        | some (w, done) =>
          ((s.setDrift tid { c with owesArrival := false }).setBarrier tid c.abar w done false true).settleDrift tid cmd

/-- DRIFT_COMMAND_COMPLETE (R175): the writes of a command, then its arrival and its TAG. -/
def driftComplete (cmd : Nat) (s : State) : State :=
  match s.drift? cmd with
  | none => s
  | some (t, c) =>
    if c.finished then s.settleDrift t.id cmd
    else match s.driftWork t c with
      | (done, .ok _, s) =>
        let s := s.setDrift t.id
          { c with did := c.did ++ done, finished := true, owesArrival := c.arrive, owesTag := c.complete }
        (s.arriveDrift t.id cmd).settleDrift t.id cmd
      | (done, r, s') => if done.isEmpty && r = .wait then s else s'.afterUnits t c done r

def execDriftCommandComplete (cmd : Nat) (s : State) : Result := .next (driftComplete cmd s)

/-- DRIFT_COMMAND_FAULT (R177): the next access of the command meets a fatal outcome, which ends it. -/
def driftFatal (cmd : Nat) (s : State) : State :=
  match s.drift? cmd with
  | none => s
  | some (t, c) =>
    if c.finished || !c.faults.isEmpty then s
    else
      let r := if c.kind == 0 then
          (let (x, s') := s.driftReads t c (List.range (c.rows * c.elems)); (x.map fun _ => (), s'))
        else (s.driftWork t c).2
      match r with
      | (.trap tr, s) => s.endDrift t.id c.id tr
      | _ => s

def execDriftCommandFault (cmd : Nat) (s : State) : Result := .next (driftFatal cmd s)

/-- ENGINE_ARRIVAL_RETRY (R256). -/
def execEngineArrivalRetry (cmd : Nat) (s : State) : Result :=
  .next (match s.drift? cmd with
    | some (t, _) => s.arriveDrift t.id cmd
    | none => s)

end Sys2Proof.Machine
end

