-- ==== Sys2Proof/Machine/Geometry.lean ====
section
/-! DEFINITION. The coverage unit's arithmetic, in exact integers: deposits of lines and quadratics (R298 to R303), the scan
(R305), and spans (R307). Coordinates are in units of 2^-16 pixel, parameters in units of 2^-24. -/

namespace Sys2Proof.Machine

/-- One pixel. -/
def px : Int := 65536

/-- One whole parameter range. -/
def t24 : Int := 16777216

structure Pt where
  x : Int
  y : Int
deriving DecidableEq, Repr

/-- A COORD word as a coordinate (R126). -/
def coordOf (w : Word) : Int := w.toInt * 256

/-- The accumulator's cells by key (R298). -/
abbrev Cells := SMap (BitVec 32)

def Cells.add (c : Cells) (key : Nat) (v : Int) : Cells := SMap.set 0#32 c key (SMap.get 0#32 c key + BitVec.ofInt 32 v)

/-- Deposit one piece by its midpoint (R298, R299); `area` gives the A increment for a column. -/
def deposit (c : Cells) (a b : Pt) (area : Int → Int) : Cells :=
  let h := b.y - a.y
  let col := (a.x + b.x) / (2 * px)
  let row := (a.y + b.y) / (2 * px)
  if h == 0 || row < 0 || row > 15 || col > 15 then c
  else if col < 0 then Cells.add c (512 + row.toNat) h
  else
    let i := 16 * row.toNat + col.toNat
    Cells.add (Cells.add c (256 + i) h) i (area col)

/-- The A increment of a straight piece (R298). -/
def lineArea (a b : Pt) (col : Int) : Int :=
  roundDiv ((b.y - a.y) * (2 * (col + 1) * px - (a.x + b.x))) (2 * px.toNat)

/-- The integer levels strictly between two values, from `lo` to `hi`. -/
def levels (a b lo hi : Int) : List Int :=
  let mn := min a b
  let mx := max a b
  let first := max lo (mn / px + 1)
  let last := min hi ((mx - 1) / px)
  (List.range (last - first + 1).toNat).map fun (i : Nat) => first + (i : Int)

/-- RoundGrid of a rational with a denominator of either sign. -/
def roundQ (num den : Int) : Int := if den < 0 then roundDiv (-num) (-den).toNat else roundDiv num den.toNat

/-! ### Lines (R300) -/

/-- A crossing of a line: its exact parameter as num/den with den > 0, and its point. -/
structure LineCross where
  num : Int
  den : Int
  pt : Pt
deriving DecidableEq, Repr

def insertLine (x : LineCross) : List LineCross → List LineCross
  | [] => [x]
  | y :: r => if x.num * y.den < y.num * x.den then x :: y :: r else y :: insertLine x r

/-- The crossings of a line with the levels that can bear on a deposit. Pieces wholly left of column 0, right of column 15,
above row 0 or below row 15 add up to the same deposits however they are cut. -/
def lineCrossings (p q : Pt) : List LineCross :=
  let dx := q.x - p.x
  let dy := q.y - p.y
  let xs := (levels p.x q.x 0 16).map fun k =>
    { num := (k * px - p.x).natAbs, den := dx.natAbs, pt := ⟨k * px, roundQ (p.y * dx + (k * px - p.x) * dy) dx⟩ : LineCross }
  let ys := (levels p.y q.y 0 16).map fun k =>
    { num := (k * px - p.y).natAbs, den := dy.natAbs, pt := ⟨roundQ (p.x * dy + (k * px - p.y) * dx) dy, k * px⟩ : LineCross }
  (xs ++ ys).foldl (fun l x => insertLine x l) []

/-- Deposit the straight pieces between successive points. -/
def depositLines (c : Cells) (a : Pt) : List Pt → Cells
  | [] => c
  | b :: r => depositLines (deposit c a b (lineArea a b)) b r

def depositLine (c : Cells) (p q : Pt) : Cells :=
  depositLines c p ((lineCrossings p q).map (fun x => x.pt) ++ [q])

/-! ### Quadratics (R301 to R303) -/

/-- A coordinate as a polynomial c0 + c1 t + c2 t² of the whole parameter. -/
structure Poly where
  c0 : Int
  c1 : Int
  c2 : Int
deriving DecidableEq, Repr

def Poly.ofControl (a b c : Int) : Poly := { c0 := a, c1 := 2 * (b - a), c2 := a - 2 * b + c }

/-- 2^48 times the value at t / 2^24. -/
def Poly.at48 (p : Poly) (t : Int) : Int := p.c0 * (t24 * t24) + p.c1 * t * t24 + p.c2 * t * t

/-- The value at t / 2^24, rounded to the grid. -/
def Poly.round (p : Poly) (t : Int) : Int := roundDiv (p.at48 t) (t24 * t24).toNat

/-- The sign of the polynomial less a level, at the rational n / d with d ≠ 0. -/
def Poly.signAt (p : Poly) (k n d : Int) : Int := ((p.c0 - k) * (d * d) + p.c1 * n * d + p.c2 * n * n).sign

/-- The split parameter of one coordinate (R301). -/
def splitParam (p : Poly) : List Int :=
  -- the derivative c1 + 2 c2 t vanishes at t = -c1 / (2 c2)
  if p.c2 == 0 then []
  else
    let n := if p.c2 > 0 then -p.c1 else p.c1
    let d := 2 * (p.c2.natAbs : Int)
    if n ≤ 0 || n ≥ d then []
    else
      let te := roundDiv (n * t24) d.toNat
      if te ≤ 0 || te ≥ t24 then [] else [te]

/-- The bisection of R302. -/
def bisect (p : Poly) (tp tq k dir : Int) : Nat → Int → Int → Int
  | 0, _, hi => hi
  | n + 1, lo, hi =>
    let mid := (lo + hi) / 2
    if mid ≤ tp || (mid < tq && dir * (p.at48 mid - k * (t24 * t24)) < 0) then bisect p tp tq k dir n mid hi
    else bisect p tp tq k dir n lo mid

/-- A crossing of a monotone quadratic piece: its parameter, the coordinate's polynomial, level and direction, its point. -/
structure QuadCross where
  tc : Int
  poly : Poly
  level : Int
  dir : Int
  pt : Pt
deriving DecidableEq, Repr

/-- Sign of (exact parameter of `a` − exact parameter of `b`), on a piece from `tp` to `tq` on which both are monotone:
the sign, in `b`'s direction, of `b`'s coordinate less its level at `a`'s parameter. -/
def compareRoots (a b : QuadCross) (tp tq : Int) : Int :=
  let f := a.poly
  let g := b.poly
  let fc := f.c0 - a.level
  let gc := g.c0 - b.level
  b.dir * (
    if f.c2 == 0 then
      (if f.c1 == 0 then 0 else g.signAt b.level (-fc) f.c1)
    else
      -- f.c2 · g − g.c2 · f is linear in t
      let al := g.c1 * f.c2 - f.c1 * g.c2
      let be := gc * f.c2 - fc * g.c2
      let s :=
        if al == 0 then be.sign
        else
          let n := if al > 0 then -be else be
          let d := (al.natAbs : Int)
          let rel := if n * t24 ≤ tp * d then 1 else if n * t24 ≥ tq * d then -1 else -(a.dir * f.signAt a.level n d)
          al.sign * rel
      f.c2.sign * s)

/-- The order of R302: by `tc`, then by the exact parameters. -/
def QuadCross.before (a b : QuadCross) (tp tq : Int) : Bool :=
  decide (a.tc < b.tc) || (a.tc == b.tc && decide (compareRoots a b tp tq < 0))

/-- Merge the x and the y crossings, each in order along the piece; the first argument bounds the number of steps. -/
def mergeQuad (tp tq : Int) : Nat → List QuadCross → List QuadCross → List QuadCross
  | 0, a, b => a ++ b
  | _ + 1, [], b => b
  | _ + 1, a, [] => a
  | n + 1, x :: a, y :: b =>
    if y.before x tp tq then y :: mergeQuad tp tq n (x :: a) b else x :: mergeQuad tp tq n a (y :: b)

/-- The levels one coordinate crosses from `a` to `b`, in the order it meets them. -/
def levelsAlong (a b : Int) : List Int :=
  let l := levels a b (min a b / px) (max a b / px)
  if b < a then l.reverse else l

/-- The crossings of a monotone piece with every integer level of either coordinate, in order (R298, R302). -/
def quadCrossings (fx fy : Poly) (tp tq : Int) (a b : Pt) : List QuadCross :=
  let dx : Int := if b.x > a.x then 1 else -1
  let dy : Int := if b.y > a.y then 1 else -1
  let xs := (levelsAlong a.x b.x).map fun k =>
    let tc := bisect fx tp tq (k * px) dx 24 0 t24
    { tc := tc, poly := fx, level := k * px, dir := dx, pt := ⟨k * px, fy.round tc⟩ : QuadCross }
  let ys := (levelsAlong a.y b.y).map fun k =>
    let tc := bisect fy tp tq (k * px) dy 24 0 t24
    { tc := tc, poly := fy, level := k * px, dir := dy, pt := ⟨fx.round tc, k * px⟩ : QuadCross }
  mergeQuad tp tq (xs.length + ys.length) xs ys

/-- Twelve times 2^96 times the antiderivative of (X + 1 − x(t)) y′(t), with the column's right edge `e`. -/
def areaPoly (fx fy : Poly) (e t : Int) : Int :=
  let u := e - fx.c0
  let p0 := u * fy.c1
  let p1 := 2 * u * fy.c2 - fx.c1 * fy.c1
  let p2 := -2 * fx.c1 * fy.c2 - fx.c2 * fy.c1
  let p3 := -2 * fx.c2 * fy.c2
  12 * p0 * t * t24 ^ 3 + 6 * p1 * t ^ 2 * t24 ^ 2 + 4 * p2 * t ^ 3 * t24 + 3 * p3 * t ^ 4

/-- The A increment of a quadratic piece (R303). -/
def quadArea (fx fy : Poly) (ta tb col : Int) : Int :=
  let e := (col + 1) * px
  roundDiv (areaPoly fx fy e tb - areaPoly fx fy e ta) (12 * (t24 ^ 4).toNat * 65536)

/-- Two successive crossings meet at a cell corner (R302). -/
def sameCorner (tp tq : Int) (prev : Option QuadCross) (x : QuadCross) : Bool :=
  match prev with
  | some y => x.tc == y.tc && compareRoots y x tp tq == 0
  | none => false

/-- Deposit the pieces of a monotone piece from point `a` at parameter `t`. -/
def depositMono (fx fy : Poly) (tp tq : Int) (b : Pt) (c : Cells) (a : Pt) (t : Int) (prev : Option QuadCross) :
    List QuadCross → Cells
  | [] => deposit c a b (quadArea fx fy t tq)
  | x :: r =>
    let c := if sameCorner tp tq prev x then c else deposit c a x.pt (quadArea fx fy t x.tc)
    depositMono fx fy tp tq b c x.pt x.tc (some x) r

/-- The monotone pieces from `a` at `tp` over the remaining split parameters to the end. -/
def depositPieces (fx fy : Poly) (c : Cells) (a : Pt) (tp : Int) (last : Pt) : List Int → Cells
  | [] => depositMono fx fy tp t24 last c a tp none (quadCrossings fx fy tp t24 a last)
  | tq :: r =>
    let b : Pt := ⟨fx.round tq, fy.round tq⟩
    depositPieces fx fy (depositMono fx fy tp tq b c a tp none (quadCrossings fx fy tp tq a b)) b tq last r

/-- A quadratic segment (R301). -/
def depositQuad (c : Cells) (p0 p1 p2 : Pt) : Cells :=
  let fx := Poly.ofControl p0.x p1.x p2.x
  let fy := Poly.ofControl p0.y p1.y p2.y
  if fx.c2 == 0 && fy.c2 == 0 then depositLine c p0 p2
  else
    let splits := match splitParam fx, splitParam fy with
      | [a], [b] => if a < b then [a, b] else if b < a then [b, a] else [a]
      | l, r => l ++ r
    depositPieces fx fy c p0 0 p2 splits

/-! ### The scan and the spans -/

/-- The winding sum of one pixel (R305). -/
def scanSum (c : Cells) (x y : Nat) : Int :=
  let v := fun k => (SMap.get 0#32 c k).toInt
  v (512 + y) + (List.range x).foldl (fun a i => a + v (256 + 16 * y + i)) 0 + v (16 * y + x)

/-- The coverage of one pixel; `top` is the clip layer to intersect with (R305). -/
def scanPixel (c : Cells) (eo : Bool) (top : Option (List Nat)) (x y : Nat) : Nat :=
  let s := scanSum c x y
  let cov := if eo then (s - 2 * 65536 * roundDiv s 131072).natAbs else min s.natAbs 65536
  match top with
  | some l => (roundDiv ((cov * l.getD (16 * y + x) 0 : Nat) : Int) 65536).toNat
  | none => cov

def scan (c : Cells) (eo : Bool) (top : Option (List Nat)) : List Nat :=
  (List.range 256).map fun i => scanPixel c eo top (i % 16) (i / 16)

/-- A span word (R307). -/
def spanWord (cov y x0 x1 : Nat) : Word :=
  BitVec.ofNat 32 (x0 + x1 * 2 ^ 4 + y * 2 ^ 8 + cov * 2 ^ 12 + (if cov == 65536 then 2 ^ 29 else 0))

/-- The maximal runs of one row, from pixel `x`: the run open so far as (first pixel, coverage). -/
def rowSpans (y : Nat) (run : Option (Nat × Nat)) (x : Nat) : List Nat → List Word
  | [] => match run with
    | some (x0, cov) => [spanWord cov y x0 (x - 1)]
    | none => []
  | v :: r =>
    match run with
    | some (x0, cov) =>
      if v == cov then rowSpans y run (x + 1) r
      else spanWord cov y x0 (x - 1) :: rowSpans y (if v == 0 then none else some (x, v)) (x + 1) r
    | none => rowSpans y (if v == 0 then none else some (x, v)) (x + 1) r

/-- The staging entries of a closed path: its spans row by row and the end marker (R307). -/
def stageEntries (covs : List Nat) (seq paint : Word) : List (Word × Word) :=
  ((List.range 16).flatMap fun y => (rowSpans y none 0 ((covs.drop (16 * y)).take 16)).map fun w => (w, paint))
    ++ [(0x40000000#32, seq)]

end Sys2Proof.Machine
end

