-- ==== Sys2Proof/Machine/Trans.lean ====
section
/-! DEFINITION. The transcendentals FRCP to FTANH (R395 to R401). Each gives bits and flags; all are long-latency. -/

namespace Sys2Proof.Machine

/-- Quotient of two positive magnitudes: a truncated value with 80 bits or more and whether a tail remains. -/
def quotMag (m1 : Nat) (e1 : Int) (m2 : Nat) (e2 : Int) : Nat × Int × Bool :=
  let k := Nat.log2 m2 + 80
  (m1 * 2 ^ k / m2, e1 - e2 - k, m1 * 2 ^ k % m2 != 0)

/-- FRCP (R396). -/
def frcpVal (f : Fmt) (a : Nat) : Nat × FpFlags :=
  match Num.decode f a with
  | .nan => (f.nan, snan f [a])
  | .inf s => (f.signBit s, 0)
  | .fin s m e =>
    if m == 0 then (f.inf s, FpFlags.DZ)
    else
      let (q, k, more) := quotMag 1 0 m e
      roundMag f .rne s q k more

/-- FSQRT (R396). -/
def fsqrtVal (f : Fmt) (a : Nat) : Nat × FpFlags :=
  match Num.decode f a with
  | .nan => (f.nan, snan f [a])
  | .inf s => if s then (f.nan, FpFlags.NV) else (a, 0)
  | .fin s m e =>
    if m == 0 then (a, 0)
    else if s then (f.nan, FpFlags.NV)
    else
      let sh : Nat := if e % 2 == 0 then 128 else 129
      let n := m * 2 ^ sh
      let r := isqrt 92 n
      roundMag f .rne false r ((e - (sh : Int)) / 2) (r * r != n)

/-- FRSQ (R396). -/
def frsqVal (f : Fmt) (a : Nat) : Nat × FpFlags :=
  match Num.decode f a with
  | .nan => (f.nan, snan f [a])
  | .inf s => if s then (f.nan, FpFlags.NV) else (0, 0)
  | .fin s m e =>
    if m == 0 then (f.inf s, FpFlags.DZ)
    else if s then (f.nan, FpFlags.NV)
    else
      let m' := if e % 2 == 0 then m else 2 * m
      let e' := if e % 2 == 0 then e else e - 1
      let r := isqrt 101 (2 ^ 200 / m')
      roundMag f .rne false r (-100 - e' / 2) (r * r * m' != 2 ^ 200)

/-! ### F32 steps (R397) -/

/-- An F32 value with the inexactness so far. -/
abbrev Step32 := Num × Bool

def isInexact (fl : FpFlags) : Bool := fl &&& FpFlags.NX != 0

/-- RoundNE to F32, as a value. -/
def step32 (x : Num) : Step32 :=
  let (y, fl) := roundTo .f32 .rne x
  (Num.decode .f32 y, isInexact fl)

/-- RoundNE(a × b + c) with one rounding. -/
def fma32 (a b c : Num) : Step32 := step32 (Num.add false (Num.mul a b).1 c).1

def mul32 (a b : Num) : Step32 := step32 (Num.mul a b).1
def add32 (a b : Num) : Step32 := step32 (Num.add false a b).1
def sub (a b : Num) : Num := (Num.add false a b.neg).1

/-- RoundNE(a / b) for finite a and finite nonzero b. -/
def div32 (a b : Num) : Step32 :=
  match a, b with
  | .fin s m e, .fin t n k =>
    if m == 0 then (.fin (s != t) 0 0, false)
    else
      let (q, x, more) := quotMag m e n k
      let (y, fl) := roundMag .f32 .rne (s != t) q x more
      (Num.decode .f32 y, isInexact fl)
  | _, _ => (.nan, false)

/-- RoundNE(d, F32) of the decimal num × 10^-k. -/
def dec32 (num : Int) (k : Nat) : Num :=
  let n := num.natAbs * 2 ^ 100
  let y := (roundMag .f32 .rne (decide (num < 0)) (n / 10 ^ k) (-100) (n % 10 ^ k != 0)).1
  Num.decode .f32 y

/-- Horner steps from the highest coefficient down (each one rounding). -/
def horner (x : Num) (start : Num) (cs : List Num) : Step32 :=
  cs.foldl (fun (p : Step32) c => let r := fma32 p.1 x c; (r.1, p.2 || r.2)) (start, false)

/-- RoundGrid(x, 1) of a finite value, as an integer. -/
def gridInt : Num → Int
  | .fin s m e => (roundInt .rne s m e).1
  | _ => 0

def nx (b : Bool) : FpFlags := FpFlags.when b FpFlags.NX

def exp2Coeffs : List Num :=
  [dec32 154035304 12, dec32 133335581 11, dec32 961812911 11, dec32 555041087 10, dec32 240226507 9, dec32 693147181 9,
   dec32 1 0]

/-- FEXP2 (R398). -/
def fexp2Val (a : Nat) : Nat × FpFlags :=
  let x := Num.decode .f32 a
  match x with
  | .nan => (Fmt.f32.nan, snan .f32 [a])
  | .inf s => (if s then 0 else Fmt.f32.inf false, 0)
  | .fin _ _ _ =>
    if !(Num.lt x (.fin false 128 0)) then (Fmt.f32.inf false, FpFlags.OF ||| FpFlags.NX)
    else if Num.lt x (.fin true 150 0) then (0, FpFlags.UF ||| FpFlags.NX)
    else
      let n := gridInt x
      let f := sub x (Num.ofInt n)
      let p := horner f (dec32 152525273 13) exp2Coeffs
      let (y, fl) := roundTo .f32 .rne (p.1.scale n)
      (y, fl ||| nx p.2)

def k0 : Num := dec32 288539008 8

def log2Coeffs : List Num := [dec32 320598898 9, dec32 412198583 9, dec32 577078016 9, dec32 961796694 9, k0]

/-- FLOG2 (R399). -/
def flog2Val (a : Nat) : Nat × FpFlags :=
  let x := Num.decode .f32 a
  match x with
  | .nan => (Fmt.f32.nan, snan .f32 [a])
  | .inf s => if s then (Fmt.f32.nan, FpFlags.NV) else (Fmt.f32.inf false, 0)
  | .fin s n k =>
    if n == 0 then (Fmt.f32.inf true, FpFlags.DZ)
    else if s then (Fmt.f32.nan, FpFlags.NV)
    else
      let lg := Nat.log2 n
      let m : Num := .fin false n (-(lg : Int))
      let e : Int := k + lg
      let big := Num.lt (Num.decode .f32 0x3FB504F3) m
      let m := if big then m.scale (-1) else m
      let e := if big then e + 1 else e
      let a := sub m (Num.ofInt 1)
      let b := add32 m (Num.ofInt 1)
      let s := div32 a b.1
      let w := mul32 s.1 s.1
      let q := horner w.1 (dec32 262308190 9) log2Coeffs
      let (y, fl) := roundTo .f32 .rne (Num.add false (Num.mul s.1 q.1).1 (Num.ofInt e)).1
      (y, nx (b.2 || s.2 || w.2 || q.2 || isInexact fl))

def sinCoeffs : List Num := [dec32 (-767058597) 7, dec32 816052491 7, dec32 (-413417022) 7, dec32 628318531 8]
def cosCoeffs : List Num :=
  [dec32 602446420 7, dec32 (-854568172) 7, dec32 649393940 7, dec32 (-197392088) 7, dec32 1 0]

/-- FSIN and FCOS (R400). -/
def fsinVal (cos : Bool) (a : Nat) : Nat × FpFlags :=
  let x := Num.decode .f32 a
  match x with
  | .nan => (Fmt.f32.nan, snan .f32 [a])
  | .inf _ => (Fmt.f32.nan, FpFlags.NV)
  | .fin _ m _ =>
    if m == 0 then (if cos then 0x3F800000 else a, 0)
    else
      let n := gridInt x
      let r := sub x (Num.ofInt n)
      let k := gridInt (r.scale 2)
      let u := sub r ((Num.ofInt k).scale (-2))
      let k := if cos then k + 1 else k
      let w := mul32 u u
      let sp := horner w.1 (dec32 420586939 7) sinCoeffs
      let cp := horner w.1 (dec32 (-264262572) 7) cosCoeffs
      let us := mul32 u sp.1
      let inex := w.2 || sp.2 || cp.2
      match (k % 4).toNat with
      | 0 => (roundNE .f32 us.1, nx (inex || us.2))
      | 1 => (roundNE .f32 cp.1, nx inex)
      | 2 => (roundNE .f32 us.1.neg, nx (inex || us.2))
      | _ => (roundNE .f32 cp.1.neg, nx inex)

def tanhCoeffs : List Num :=
  [dec32 (-886323552) 11, dec32 218694885 10, dec32 (-539682540) 10, dec32 133333333 9, dec32 (-333333333) 9, dec32 1 0]

/-- FTANH (R401). -/
def ftanhVal (a : Nat) : Nat × FpFlags :=
  let x := Num.decode .f32 a
  let neg := x.isNeg
  let one := Fmt.f32.signBit neg + 0x3F800000
  match x with
  | .nan => (Fmt.f32.nan, snan .f32 [a])
  | .inf _ => (one, 0)
  | .fin _ m e =>
    let ax : Num := .fin false m e
    if !(Num.lt ax (Num.ofInt 10)) then (one, FpFlags.NX)
    else if Num.lt ax (.fin false 1 (-2)) then
      let w := mul32 x x
      let q := horner w.1 (dec32 359212803 11) tanhCoeffs
      let y := mul32 x q.1
      (roundNE .f32 y.1, nx (w.2 || q.2 || y.2))
    else
      let t := mul32 ax k0
      let (eb, efl) := fexp2Val (roundNE .f32 t.1)
      let d := add32 (Num.decode .f32 eb) (Num.ofInt 1)
      let g := div32 (Num.ofInt 2) d.1
      let y := add32 (Num.ofInt 1) g.1.neg
      (roundNE .f32 (if neg then y.1.neg else y.1), nx (t.2 || isInexact efl || d.2 || g.2 || y.2))

/-- Results of a transcendental. -/
def transOut (f : Fmt → Nat → Nat × FpFlags) (o : TransOp) (_ : Team) (g : Group) (m : Mask) : Out :=
  flagged m o.ty o.d (g.shapeOf .plain (regsOf o.ty o.a) m) fun l =>
    let (y, fl) := f (fmtOf o.ty) (g.typed o.ty o.a l).toNat
    (BitVec.ofNat 64 y, fl)

/-- A lane's flags of a transcendental. -/
def transFlags (f : Fmt → Nat → Nat × FpFlags) (o : TransOp) (g : Group) (l : Nat) : FpFlags :=
  (f (fmtOf o.ty) (g.typed o.ty o.a l).toNat).2

def execFrcp (o : TransOp) (s : State) : Result := issueLong o.g o.la (transOut frcpVal o) (transFlags frcpVal o) s
def execFrsq (o : TransOp) (s : State) : Result := issueLong o.g o.la (transOut frsqVal o) (transFlags frsqVal o) s
def execFsqrt (o : TransOp) (s : State) : Result := issueLong o.g o.la (transOut fsqrtVal o) (transFlags fsqrtVal o) s
def execFexp2 (o : TransOp) (s : State) : Result := issueLong o.g o.la (transOut (fun _ => fexp2Val) o) (transFlags (fun _ => fexp2Val) o) s
def execFlog2 (o : TransOp) (s : State) : Result := issueLong o.g o.la (transOut (fun _ => flog2Val) o) (transFlags (fun _ => flog2Val) o) s
def execFsin (o : TransOp) (s : State) : Result := issueLong o.g o.la (transOut (fun _ => fsinVal false) o) (transFlags (fun _ => fsinVal false) o) s
def execFcos (o : TransOp) (s : State) : Result := issueLong o.g o.la (transOut (fun _ => fsinVal true) o) (transFlags (fun _ => fsinVal true) o) s
def execFtanh (o : TransOp) (s : State) : Result := issueLong o.g o.la (transOut (fun _ => ftanhVal) o) (transFlags (fun _ => ftanhVal) o) s

end Sys2Proof.Machine
end

