-- ==== Sys2Proof/Machine/Coverage.lean ====
section
/-! DEFINITION. Paths, coverage and spans: PATHB to CLIPX, SPANP, BLND, and the coverage unit's own steps (R294 to R311, R369,
R375, R433, R434, R463, R469). TILEB and TILEF stand with the tile output. -/

namespace Sys2Proof.Machine

def noTicket : Word := 0xFFFFFFFF#32

/-- A structure error (R294). -/
def structErr : Trap := seqTrap noTicket

/-! ### Issue -/

/-- The accumulators of a core that are taken (R293). -/
def State.accsUsed (s : State) (die core : Nat) : Nat := ((s.residents die core).filter fun t => t.cov.acc).length

/-- A bound team without an accumulator takes a free one before its first instruction of the chapter (R315). -/
def needAcc (k : State → Team → Group → State) (s : State) (t : Team) (g : Group) : State :=
  match t.cov.bound with
  | none => s.raise t g structErr
  | some _ =>
    if t.cov.acc then k s t g
    else if s.accsUsed t.die t.core < 4 then
      let t := { t with cov := { t.cov with acc := true } }
      k (s.setTeam t) t g
    else s.block t g .accumulator

/-- An instruction of the chapter, for a bundle with an active lane (R294, R295). -/
def issueCov (gd : Guard) (k : Mask → State → Team → Group → State) (s : State) : Result :=
  issueWith gd (fun s t g m => if m == 0 then s.done t g else needAcc (k m) s t g) s

/-- Push entries on `q2` and change the path state the core checks; the group parks while they do not fit (R297). -/
def pushCov (cmds : List CovCmd) (f : Cov → Cov) (s : State) (t : Team) (g : Group) : State :=
  if t.cov.q2.length + cmds.length > 128 then s.block t g (.queue 2)
  else
    let c := f t.cov
    s.doneTeam { t with cov := { c with q2 := c.q2 ++ cmds } } g

/-- PATHB (R296, R434). -/
def execPathb (o : PathbOp) (s : State) : Result :=
  issueCov o.g (fun m s t g =>
    let l := m.lowest.getD 0
    let seq := g.elem o.a.toNat l
    let later := match t.cov.last with
      | some x => decide (x.toNat < seq.toNat)
      | none => true
    if t.cov.pathOpen || !later || seq == noTicket then s.raise t g (seqTrap seq)
    else pushCov [.pathb o.eo o.clip seq (g.elem o.b.toNat l)] (fun c => { c with pathOpen := true, last := some seq }) s t g) s

/-- PATHE (R296, R434). -/
def execPathe (gd : Guard) (s : State) : Result :=
  issueCov gd (fun _ s t g =>
    if !t.cov.pathOpen then s.raise t g structErr
    else pushCov [.pathe] (fun c => { c with pathOpen := false }) s t g) s

/-- The `n` words of a lane from a register run. -/
def laneWords (g : Group) (a : VR) (n l : Nat) : List Int := (List.range n).map fun i => coordOf (g.elem (a.toNat + i) l)

/-- Push segments, one per active lane (R463). -/
def pushSegs (cmds : List CovCmd) (s : State) (t : Team) (g : Group) : State :=
  if !t.cov.pathOpen then s.raise t g structErr else pushCov cmds id s t g

/-- SEGL (R463). -/
def execSegl (o : AOp) (s : State) : Result :=
  issueCov o.g (fun m => pushSegs' m o) s
where
  /-- One line per active lane. -/
  pushSegs' (m : Mask) (o : AOp) (s : State) (t : Team) (g : Group) : State :=
    pushSegs (m.lanes.map fun l => .line (laneWords g o.a 4 l)) s t g

/-- SEGQ (R463). -/
def execSegq (o : AOp) (s : State) : Result :=
  issueCov o.g (fun m => pushSegs' m o) s
where
  /-- One quadratic per active lane. -/
  pushSegs' (m : Mask) (o : AOp) (s : State) (t : Team) (g : Group) : State :=
    pushSegs (m.lanes.map fun l => .quad (laneWords g o.a 6 l)) s t g

/-- QPUSH of `q2` (R443): each entry acts as SEGL or SEGQ; another KIND raises QUEUE. -/
def pushQ2 (a : VR) (s : State) (t : Team) (g : Group) (m : Mask) : State :=
  if m == 0 then s.done t g
  else if m.lanes.any fun l => (g.elem a.toNat l).toNat > 1 then s.raise t g (queueTrap 2)
  else
    let w := fun l => (List.range 6).map fun i => coordOf (g.elem (a.toNat + 1 + i) l)
    needAcc (fun s t g =>
      pushSegs (m.lanes.map fun l => if g.elem a.toNat l == 0 then .line ((w l).take 4) else .quad (w l)) s t g) s t g

/-- CLIPP (R296, R375). -/
def execClipp (gd : Guard) (s : State) : Result :=
  issueCov gd (fun _ s t g =>
    if !t.cov.pathOpen then s.raise t g structErr
    else if t.cov.depth ≥ 8 then s.raise t g { cause := 0xF, info := 8, va := 0 }
    else pushCov [.clipp] (fun c => { c with pathOpen := false, depth := c.depth + 1 }) s t g) s

/-- CLIPX (R296, R375). -/
def execClipx (gd : Guard) (s : State) : Result :=
  issueCov gd (fun _ s t g =>
    if t.cov.pathOpen || t.cov.depth == 0 then s.raise t g structErr
    else pushCov [.clipx] (fun c => { c with depth := c.depth - 1 }) s t g) s

/-! ### Pops -/

/-- Tickets that a BLND may still name (R308). -/
def Cov.outstanding (c : Cov) : Nat := (c.tickets.filter fun k => k.op.isNone).length

/-- The entry is a span, not an end marker (R307). -/
def isSpan (w : Word) : Bool := !(w.getLsbD 30)

/-- Pop up to `n` entries of `q3`, giving each a ticket (R308, R309). `held`: the tickets stay outstanding (SPANP);
otherwise they are retired as if dropped (QPOP, R445). -/
def Cov.pop (held : Bool) (c : Cov) : Nat → List (Word × Word × Word) × Cov
  | 0 => ([], c)
  | n + 1 =>
    match c.q3 with
    | [] => ([], c)
    | (w, x) :: r =>
      if held && isSpan w && c.outstanding ≥ 128 then ([], c)
      else
        let k : Ticket := { num := c.popped, word := w, paint := x, op := if held then none else some .drop }
        let c' := { c with q3 := r, popped := c.popped + 1, tickets := if isSpan w then c.tickets ++ [k] else c.tickets }
        let (l, c'') := Cov.pop held c' n
        ((w, x, c.popped) :: l, c'')

/-- What the n-th active lane receives of a list. -/
def nthActive {α : Type} (m : Mask) (l : List α) (lane : Nat) : Option α :=
  if m.has lane then l[(m.lanes.filter fun k => k < lane).length]? else none

/-- A pending result of a pop: registers and a predicate. -/
def popPending (id : Nat) (c : Cur) (m : Mask) (la : BitVec 4) (regs : List Nat) (pred : List Nat) (pv : Mask)
    (f : Nat → Nat → Word) : Pending :=
  { id := id, kind := .ready, bundle := c.lanes, active := m, win := laneList.map fun _ => la.toNat, regs := regs
    preds := pred.filter fun p => p != 7, pvals := pv, handler := c.handler
    vals := (List.range regs.length).foldl (fun v i =>
      m.lanes.foldl (fun v l => SMap.set 0#32 v (32 * i + l) (f i l)) v) [] }

/-- SPANP (R309, R469). REGPOOL comes before SEQ_ORDER (R254). With no active lane nothing is popped and no window opens:
R111 does not say whether one does (DESIGN CHOICE, log 79). -/
def execSpanp (o : SpanpOp) (s : State) : Result :=
  issueWith o.g (fun s t g m =>
    let regs := [o.d.toNat, o.d.toNat + 1, o.d.toNat + 2]
    if m == 0 then s.done t g
    else match poolFor g regs .general with
      | tr :: _ => s.raise t g tr
      | [] => needAcc (spans m o regs) s t g) s
where
  /-- The pop itself. -/
  spans (m : Mask) (o : SpanpOp) (regs : List Nat) (s : State) (t : Team) (g : Group) : State :=
    let (es, cov) := t.cov.pop true m.lanes.length
    if es.isEmpty then s.block t g (.queue 3)
    else
      let (i, s) := s.fresh
      let word := fun (k l : Nat) => match nthActive m es l with
        | some e => if k == 0 then e.1 else if k == 1 then e.2.1 else e.2.2
        | none => if k == 2 then noTicket else 0
      let pv := Mask.ofPred fun l => match nthActive m es l with
        | some e => isSpan e.1
        | none => false
      let p := popPending i s.cur m o.la regs [o.p.toNat] pv word
      let g := (g.reserve regs false).advance s.cur
      (s.setTeam { t with cov := cov }).put { t with cov := cov } { g with pending := g.pending ++ [p] }

/-- Retire a ticket with an operation and colour (R310). -/
def Cov.retire (c : Cov) (n : Word) (op : BlendOp) (colour : List Word) : Cov :=
  { c with tickets := c.tickets.map fun k => if k.num == n then { k with op := some op, colour := colour } else k }

/-- BLND (R310, R369). -/
def blnd (op : BlendOp) (o : BlndOp) (s : State) : Result :=
  issueCov o.g (fun m s t g =>
    let ts := m.lanes.map fun l => g.elem o.a.toNat l
    let held := fun n => t.cov.tickets.any fun k => k.num == n && k.op.isNone
    if !(ts.all held) || !(decide ts.Nodup) then s.raise t g structErr
    else
      let cov := m.lanes.foldl (fun (c : Cov) l =>
        c.retire (g.elem o.a.toNat l) op ((List.range 4).map fun i => g.elem (o.b.toNat + i) l)) t.cov
      s.doneTeam { t with cov := cov } g) s

def execBlndOver (o : BlndOp) (s : State) : Result := blnd .over o s
def execBlndSrc (o : BlndOp) (s : State) : Result := blnd .src o s
def execBlndAdd (o : BlndOp) (s : State) : Result := blnd .add o s
def execBlndDrop (o : BlndOp) (s : State) : Result := blnd .drop o s

/-! ### The unit -/

/-- One path command of `q2` applied; none where it must wait (R297, R305 to R307). The Bool says that a path closed. -/
def Cov.command (c : Cov) (x : CovCmd) : Option (Cov × Bool) :=
  let pt := fun (p : List Int) (i : Nat) => (⟨p.getD (2 * i) 0, p.getD (2 * i + 1) 0⟩ : Pt)
  let top := if c.uClip then c.layers.getLast? else none
  match x with
  | .pathb eo clip seq paint => some ({ c with uEo := eo, uClip := clip, uSeq := seq, uPaint := paint, cells := [] }, false)
  | .line p => some ({ c with cells := depositLine c.cells (pt p 0) (pt p 1) }, false)
  | .quad p => some ({ c with cells := depositQuad c.cells (pt p 0) (pt p 1) (pt p 2) }, false)
  | .pathe =>
    if !c.staging.isEmpty then none
    else some ({ c with cells := [], staging := stageEntries (scan c.cells c.uEo top) c.uSeq c.uPaint }, true)
  | .clipp => some ({ c with cells := [], layers := c.layers ++ [scan c.cells c.uEo top] }, true)
  | .clipx => some ({ c with layers := c.layers.dropLast }, false)

/-- Take commands from `q2` up to and including the next close. -/
def Cov.consume (c : Cov) : List CovCmd → Cov
  | [] => { c with q2 := [] }
  | x :: r =>
    match c.command x with
    | none => { c with q2 := x :: r }
    | some (c, true) => { c with q2 := r }
    | some (c, false) => c.consume r

/-- The unit works for a team that is on its core with an accumulator (R315). -/
def State.onCov (s : State) (tid : Nat) (f : Team → Team) : State :=
  s.onTeam tid fun t => if t.place.resident && t.cov.bound.isSome && t.cov.acc then f t else t

/-- PATH_SCAN (R305). -/
def execPathScan (tid : Nat) (s : State) : Result :=
  .next (s.onCov tid fun t => { t with cov := t.cov.consume t.cov.q2 })

/-- STAGING_MOVE (R307): one entry, while `q3` has room. -/
def execStagingMove (tid : Nat) (s : State) : Result :=
  .next (s.onCov tid fun t =>
    match t.cov.staging with
    | e :: r => if t.cov.q3.length < 128 then { t with cov := { t.cov with staging := r, q3 := t.cov.q3 ++ [e] } } else t
    | [] => t)

/-- The blend of one channel (R310): buffer value, colour, alpha colour, and coverage as 2^-16 units. -/
def blendChannel (op : BlendOp) (cov : Nat) (d colour alpha : Nat) : Nat :=
  let al : Num := .fin false cov (-16)
  let dv := Num.decode (fmtOf .f16x2) d
  let cv := Num.decode .f32 colour
  let o := match op with
    | .over =>
      let k := (sub (Num.ofInt 1) (mul32 (Num.decode .f32 alpha) al).1)
      (fma32 dv (step32 k).1 (mul32 cv al).1).1
    | .src =>
      let t := (mul32 dv (.fin false (65536 - cov) (-16))).1
      (fma32 cv al t).1
    | _ => (fma32 cv al dv).1
  roundNE (fmtOf .f16x2) o

/-- Blend one pixel's 8 bytes. -/
def blendPixel (op : BlendOp) (cov : Nat) (colour : List Word) (old : List Byte) : List Byte :=
  let ch := fun i => (colour.getD i 0).toNat
  (List.range 4).flatMap fun i =>
    leBytes 2 (blendChannel op cov (leNat ((old.drop (2 * i)).take 2)) (ch i) (ch 3))

/-- Commit one span to the colour buffer. -/
def Team.commitSpan (t : Team) (coff : Nat) (k : Ticket) (op : BlendOp) : Team :=
  let w := k.word.toNat
  let x0 := bits w 0 4
  let x1 := bits w 4 4
  let y := bits w 8 4
  (List.range (x1 - x0 + 1)).foldl (fun (t : Team) i =>
    let a := coff + 8 * (16 * y + x0 + i)
    t.spadWrite a (blendPixel op (bits w 12 17) k.colour (t.spadRead a 8))) t

/-- SPAN_COMMIT (R310): the span with the lowest ticket, once it is retired and its line is present. -/
def Team.commitNext (t : Team) : Team :=
  match t.cov.bound, t.cov.tickets with
  | some b, k :: r =>
    match k.op with
    | none => t
    | some .drop => { t with cov := { t.cov with tickets := r } }
    | some op =>
      if t.linePresent (b.coff + 128 * bits k.word.toNat 8 4) then
        let t := t.commitSpan b.coff k op
        { t with cov := { t.cov with tickets := r } }
      else t
  | _, _ => t

def execSpanCommit (tid : Nat) (s : State) : Result := .next (s.onCov tid Team.commitNext)

end Sys2Proof.Machine
end

