-- ==== Sys2Proof/Machine/Clock.lean ====
section
/-! DEFINITION. Bands, thermal states and the passing of time: the clock of a die's core array, leases (R6, R251, R252, R336, R338, R339,
R344 to R346). -/

namespace Sys2Proof.Machine

/-! ### Bands and clocks (R336, R344) -/

/-- The band of a reading in 1/16 K, with the hysteresis of each boundary (R336). -/
def nextBand (band reading : Nat) : Nat :=
  let above := fun (b up down : Nat) => if band ≥ b then decide (reading > down) else decide (reading ≥ up)
  if above 3 4000 3968 then 3 else if above 2 1760 1728 then 2 else if above 1 1408 1376 then 1 else 0

/-- The band at boot: no history, so the rising boundaries. -/
def bootBand (reading : Nat) : Nat := if reading ≥ 4000 then 3 else if reading ≥ 1760 then 2 else if reading ≥ 1408 then 1 else 0

/-- The band clock of a die's core array in MHz, by its state (R6, R336, R339); in DRAIN that of the timing set in use, and none in
TRANSIT. -/
def Die.bandClock (d : Die) : Nat :=
  match d.thermal with
  | .run => 1500
  | .retreat => 1200
  | .warmIdle => 500
  | .drain => if d.selfRefresh then 0 else if d.tset == 0 then 1500 else if d.tset == 1 then 1200 else 500
  | _ => 0

/-- Give the core array its band clock; what a current limit has taken from it stays taken until firmware raises it (R6, R344). -/
def Die.setClock (d : Die) : Die :=
  match d.islands with
  | i :: r => { d with islands := { i with mhz := d.bandClock } :: r }
  | [] => d

/-- The memory controllers of a die, which a timing-set switch stalls (R340): two HBM stacks and the LPDDR. -/
def controllers : List Nat := [0, 1, 2]

/-- Enter RUN: set A, refresh off (R336, R338). -/
def Die.enterRun (d : Die) (stall : Bool) : Die :=
  { d with thermal := .run, tset := 0, refresh := false, selfRefresh := false, coldSince := none, window := none
           stalled := if stall then controllers else [] }.setClock

/-- Enter RETREAT: set B, refresh on (R339). -/
def Die.enterRetreat (d : Die) (stall : Bool) : Die :=
  { d with thermal := .retreat, tset := 1, refresh := true, selfRefresh := false, coldSince := none, window := none
           stalled := if stall then controllers else [] }.setClock

/-- Enter WARM_IDLE: set C. -/
def Die.enterWarm (d : Die) : Die :=
  { d with thermal := .warmIdle, tset := 2, refresh := true, selfRefresh := false, window := none, reachedTransit := false }.setClock

/-- Enter a state that stops compute with the DRAM in self-refresh. -/
def Die.enterStopped (d : Die) (x : Thermal) (now : Nat) : Die :=
  { d with thermal := x, refresh := false, selfRefresh := true, coldSince := none, stalled := []
           reachedTransit := d.band == 2
           window := if x == Thermal.park then none else some (now, d.temp) }.setClock

/-- A die in DRAIN takes the regime of its new band (R336): refresh, timing set and clock; in TRANSIT self-refresh, with the clock stopped.
That the regime follows the band in DRAIN is DEDUCED (log 52). -/
def Die.drainBand (d : Die) : Die :=
  (if d.band == 2 then { d with refresh := false, selfRefresh := true, stalled := [] }
   else if d.band == 3 then { d with tset := 2, refresh := true, selfRefresh := false, stalled := controllers }
   else { d with tset := d.band, refresh := d.band == 1, selfRefresh := false, stalled := controllers }).setClock

/-- Enter COLD_IDLE: training begins. -/
def Die.enterColdIdle (d : Die) : Die := { d with thermal := .coldIdle, training := true, window := none }.setClock

/-- Enter OFF: without power nothing of the clock's history stays. -/
def Die.enterOff (d : Die) : Die :=
  { d with thermal := .off, powered := false, training := false, selfRefresh := false, cycles := 0, phase := 0
           islands := d.islands.map fun (i : Island) => { i with lowered := 0 } }.setClock

/-- Enter DRAIN: a die whose regime is not that of its band takes it, as in DRAIN the regime follows the band (log 52). -/
def Die.enterDrain (d : Die) (now : Nat) : Die :=
  let d := { d with thermal := .drain, drainSince := now }
  if d.tset == d.band then d.setClock else d.drainBand

/-! ### Time -/

/-- The lease clock that a die's resident teams allow, in MHz (R345, R346): every one's context holds a live lease, and no team is
deterministic. -/
def State.leaseClock (s : State) (d : Nat) : Option Nat :=
  let ts := s.teams.filter fun t => t.die == d && t.place.resident
  let clock := fun (t : Team) => (s.leases.find? fun l => l.ctx == t.ctx && l.die == d && l.left != 0).map fun l => l.clock
  let cs := ts.filterMap clock
  if (s.die d).thermal == .run && !(ts.any fun t => t.det) && cs.length == ts.length then cs.min? else none

/-- The lease clock at which a die's core array runs now: not while a current limit keeps its island's clock below it (R344, R345). -/
def State.boostClock (s : State) (d : Nat) : Option Nat :=
  match (s.die d).islands with
  | [] => none
  | i :: _ => (s.leaseClock d).filter fun _ => i.lowered == 0

/-- The ceiling of an island's clock (R344): of the core array the band clock, or the lease clock under a lease. -/
def State.ceiling (s : State) (d island mhz : Nat) : Nat := if island == 0 then (s.leaseClock d).getD (s.die d).bandClock else mhz

/-- A deterministic team is resident on the die (R346). -/
def State.detOn (s : State) (d : Nat) : Bool := s.teams.any fun t => t.die == d && t.place.resident && t.det

/-- The clock of an island before what the hardware has taken from it: of the core array the lease clock, and without one what firmware
or the band has given it, never above the band clock, at which a die with a deterministic team runs (R6, R344 to R346). -/
def State.givenClock (s : State) (d island : Nat) (i : Island) : Nat :=
  let band := (s.die d).bandClock
  if island == 0 then (s.leaseClock d).getD (if s.detOn d then band else min i.mhz band) else i.mhz

/-- The clock of an island in MHz. -/
def State.islandClock (s : State) (d island : Nat) (i : Island) : Nat := s.givenClock d island i - i.lowered

/-- The clock of a die's core array in MHz (R6, R336, R344, R345). -/
def State.clockOf (s : State) (d : Nat) : Nat :=
  match (s.die d).islands with
  | [] => 0
  | i :: _ => s.islandClock d 0 i

/-- The voltages and clocks of the package's islands. -/
def State.islandLoads (s : State) : List (Nat × Nat) :=
  (List.range 8).flatMap fun d => (s.die d).islands.zipIdx.map fun x => (x.1.mv, s.islandClock d x.2 x.1)

/-- The package cap of 400 W holds while a die is in WARM (R336, R344). -/
def State.underCap (s : State) : Bool :=
  !(s.dies.any fun d => d.powered && d.band == 3) || decide (Config.packagePower s.islandLoads ≤ 400)

/-- A setting of firmware's is taken unless it would break the cap (R344). -/
def State.capped (s s' : State) : State := if s'.underCap then s' else s

/-- The package with the clock of every core array lowered by `k` steps of 100 MHz. -/
def State.lowerAll (s : State) (k : Nat) : State :=
  { s with dies := s.dies.map fun d =>
      { d with islands := match d.islands with
          | i :: r => { i with lowered := i.lowered + 100 * k } :: r
          | [] => [] } }

/-- The hardware keeps the WARM cap where a state's change would break it: it lowers the clocks of the core arrays together, in the steps
of R344, as far as the cap needs. R344 calls the cap a hard limit and does not say how it is kept: DESIGN CHOICE (log 98). -/
def State.holdCap (s : State) : State :=
  s.lowerAll (((List.range 19).find? fun k => (s.lowerAll k).underCap).getD 19)

/-- Core cycles of `n` ticks (R252). -/
def Die.pass (x : Die) (mhz n : Nat) : Die :=
  { x with cycles := x.cycles + (x.phase + n * mhz) / 1000, phase := (x.phase + n * mhz) % 1000 }

/-- A lease's die runs at a lease clock on its behalf (R345). -/
def State.spends (s : State) (l : Lease) : Bool :=
  l.left != 0 && (s.boostClock l.die).isSome && s.teams.any fun t => t.die == l.die && t.ctx == l.ctx && t.place.resident

/-- `n` ticks pass in which no lease that is being spent runs out before the end. -/
def State.passTicks (s : State) (n : Nat) : State :=
  { s with gtime := s.gtime + n
           dies := s.dies.zipIdx.map fun x => x.1.pass (s.clockOf x.2) n
           leases := s.leases.map fun l => if s.spends l then { l with left := l.left - n } else l }

/-- `n` ticks pass, cut where a lease runs out (R345); the first argument bounds the cuts. -/
def State.passParts (s : State) : Nat → Nat → State
  | 0, n => s.passTicks n
  | k + 1, n =>
    let m := ((s.leases.filter s.spends).map fun l => l.left).foldl min n
    if m == n then s.passTicks n else (s.passTicks m).passParts k (n - m)

/-- `n` ticks pass. -/
def State.tick (s : State) (n : Nat) : State := s.passParts s.leases.length n

/-- The ticks to the end of a die's present core cycle. -/
def State.cycleRest (s : State) (d : Nat) : Nat :=
  let f := s.clockOf d
  if f == 0 then 0 else (1000 - (s.die d).phase + f - 1) / f

/-- The core cycle in which a front end has decided a swap is over: no event falls in it any more (R249). -/
def State.endCycle (s : State) (d : Nat) : State := s.tick (s.cycleRest d)

end Sys2Proof.Machine
end

