-- ==== Sys2Proof/Machine/Queue.lean ====
section
/-! DEFINITION. The queue instructions QPUSH, QPOP and QPEEK (R83, R441 to R447). -/

namespace Sys2Proof.Machine

/-- Lanes push to `q0`, `q2`, `q6` and `q7` (R442). -/
def pushable (q : Nat) : Bool := [0, 2, 6, 7].contains q

/-- Lanes pop and peek `q1`, `q3`, `q6` and `q7` (R442). -/
def poppable (q : Nat) : Bool := [1, 3, 6, 7].contains q

/-- The FIFO `q6` or `q7` of a team. -/
def Team.fifoQ (t : Team) (q : Nat) : List Word := if q == 6 then t.q6 else t.q7

def Team.setFifoQ (t : Team) (q : Nat) (l : List Word) : Team := if q == 6 then { t with q6 := l } else { t with q7 := l }

/-- Push on `q6` or `q7`: a release of the pushing lanes, all entries or none (R444, R447). -/
def pushFifoQ (q : Nat) (a : VR) (s : State) (t : Team) (g : Group) (m : Mask) : State :=
  let es := m.lanes.map fun l => g.elem a.toNat l
  if (t.fifoQ q).length + es.length > 64 then s.block t g (.queue q)
  else if s.releaseWaits t g m 1 then s.stayRelease t g m 1
  else s.doneTeam (t.setFifoQ q (t.fifoQ q ++ es)) g

/-- QPUSH (R442 to R444). -/
def execQpush (o : QpushOp) (s : State) : Result :=
  issueWith o.g (fun s t g m =>
    let q := o.q.toNat
    if !(pushable q) then s.raise t g (queueTrap q)
    else if m == 0 then s.done t g
    else if q == 0 then s.afterAcquires t g (pushDrift o.a s t g m)
    else if q == 2 then pushQ2 o.a s t g m
    else pushFifoQ q o.a s t g m) s

/-- The entries of a poppable queue as lists of words, head first. -/
def Team.queueWords (t : Team) (q : Nat) : List (List Word) :=
  if q == 1 then t.q1.map fun w => [w]
  else if q == 3 then t.cov.q3.map fun e => [e.1, e.2]
  else (t.fifoQ q).map fun w => [w]

/-- The team after `n` pops. A span popped from `q3` takes a ticket that is retired at once (R445). -/
def Team.popQueue (t : Team) (q n : Nat) : Team :=
  if q == 1 then { t with q1 := t.q1.drop n }
  else if q == 3 then { t with cov := (t.cov.pop false n).2 }
  else t.setFifoQ q ((t.fifoQ q).drop n)

/-- The result run of a pop or peek. -/
def queueRegs (q : Nat) (d : VR) : List Nat := if q == 3 then [d.toNat, d.toNat + 1] else [d.toNat]

/-- Word `i` for lane `l` of the entries given to the active lanes; zeros where none is left (R445, R446). -/
def entryWord (m : Mask) (es : List (List Word)) (i l : Nat) : Word :=
  match nthActive m es l with
  | some e => e.getD i 0
  | none => 0

/-- The lanes that receive an entry. -/
def entryLanes (m : Mask) (es : List (List Word)) : Mask := Mask.ofPred fun l => (nthActive m es l).isSome

/-- QPOP (R445). A pop of `q1` acquires at `.dev` scope (R175). -/
def execQpop (o : QpopOp) (s : State) : Result :=
  issueWith o.g (fun s t g m =>
    let q := o.q.toNat
    let regs := queueRegs q o.d
    match firstTrap (poolFor g regs .general ++ if poppable q then [] else [queueTrap q]) with
    | some tr => s.raise t g tr
    | none =>
      let es := t.queueWords q
      if m != 0 && es.isEmpty then s.block t g (.queue q)
      else
        let (i, s) := s.fresh
        let pred := match o.pp with
          | some p => [p.toNat]
          | none => []
        let p := popPending i s.cur m o.la regs pred (entryLanes m es) (entryWord m es)
        let g := (g.reserve regs false).advance s.cur
        let s := (s.setTeam ((t.popQueue q m.lanes.length).setGroup { g with pending := g.pending ++ [p] }))
        if q == 1 && m != 0 then s.dropL1 t.die t.core t.ctx else s) s

/-- QPEEK (R446). -/
def execQpeek (o : QpeekOp) (s : State) : Result :=
  issueWith o.g (fun s t g m =>
    let q := o.q.toNat
    let regs := queueRegs q o.d
    match firstTrap (poolFor g regs .general ++ if poppable q then [] else [queueTrap q]) with
    | some tr => s.raise t g tr
    | none =>
      let es := t.queueWords q
      s.done t (g.apply
        { active := m
          regs := regs.zipIdx.map fun (r, i) => ⟨r, .general, laneVals (entryWord m es i)⟩
          preds := match o.pp with
            | some p => [(p.toNat, entryLanes m es)]
            | none => [] })) s

end Sys2Proof.Machine
end

