-- ==== Sys2Proof/Machine/Publ.lean ====
section
/-! DEFINITION. PUBL (R161, R176, R439, R440) and the ordered invalidation it shares with firmware and the migrator (R154). -/

namespace Sys2Proof.Machine

/-! ### Leaf runs -/

/-- The leaf run that maps an address: the physical address of its first entry and the number of entries. -/
def State.leafRunFrom (s : State) (va : Nat) : Nat → Nat → Option (Nat × Nat)
  | 0, _ => none
  | lvl + 1, table =>
    let idx := bits va (12 + 9 * lvl) 9
    let e := s.pte (table + 8 * idx)
    if !(e.testBit 0) then none
    else if e.testBit 1 then
      match pageSize (bits e 8 4) with
      | some (size, _) =>
        let n := size / 2 ^ (12 + 9 * lvl)
        if n == 0 then none else some (runBase table idx n, n)
      | none => none
    else s.leafRunFrom va lvl (bits e 12 40 * 4096)

def State.leafRun (s : State) (ctx va : Nat) : Option (Nat × Nat) :=
  match s.context? ctx with
  | some c => s.leafRunFrom va 5 c.root
  | none => none

def State.readRun (s : State) (pa n : Nat) : List (BitVec 64) :=
  (List.range n).map fun i => BitVec.ofNat 64 (s.pte (pa + 8 * i))

/-- Write a run of entries; the lines that change wake their watchers (R179). -/
def State.writeRun (s : State) (pa : Nat) (l : List (BitVec 64)) : State :=
  s.putBytes (s.local pa) (l.flatMap fun e => leBytes 8 e.toNat)

/-- The home slices serve the lines of a run of entries (R158). -/
def State.servedRun (s : State) (pa n : Nat) : State :=
  (List.range ((pa % 128 + 8 * n + 127) / 128)).foldl (fun (s : State) i => s.served (s.local (pa / 128 * 128 + 128 * i))) s

/-! ### Ordered invalidation (R154) -/

def inRanges (ranges : List (Nat × Nat)) (va : Nat) : Bool := ranges.any fun (a, n) => a ≤ va && va < a + n

/-- A cached translation that the ranges cover. -/
def TlbEntry.hit (e : TlbEntry) (ctx : Nat) (ranges : List (Nat × Nat)) : Bool :=
  e.ctx == ctx && ranges.any fun (a, n) => decide (e.va < a + n) && decide (a < e.va + e.size)

/-- Begin an ordered invalidation: the covered translations leave every TLB and walk cache. Answers its id. -/
def State.invalidate (s : State) (ctx : Nat) (ranges : List (Nat × Nat)) (purpose : InvalFor) : Nat × State :=
  let (i, s) := (s.seeNewPtes ctx ranges).fresh
  (i, { s with
    tlb := s.tlb.filter fun e => !(e.hit ctx ranges)
    invals := s.invals ++ [{ id := i, ctx := ctx, ranges := ranges, barrier := i, purpose := purpose }] })

/-- A translated lane's address lies in the ranges. -/
def LaneAddr.uses (ranges : List (Nat × Nat)) (a : LaneAddr) : Bool := a.sa.isSome && inRanges ranges (va57 a.va)

/-- Accesses that used a removed translation and have not been performed and returned: those on their way, and the stores that
wait in a queue with their translation. -/
def State.invalWaits (s : State) (v : Inval) : Bool :=
  s.accesses.any (fun a => a.ctx == v.ctx && a.id < v.barrier && a.lanes.any (LaneAddr.uses v.ranges))
    || s.teams.any fun t => t.ctx == v.ctx && t.groups.any fun g =>
        g.fifo.any fun e => e.id < v.barrier && e.lanes.any (LaneAddr.uses v.ranges)

/-! ### PUBL -/

/-- A page of the visible range with its shadow page: what the walk of R440 found so far. -/
structure PublScan where
  mismatch : Option DWord := none
  replay : Option (Nat × DWord) := none
  fatal : Option (Nat × DWord) := none
  /-- A table's home serves no access now. -/
  held : Bool := false
deriving DecidableEq, Repr

/-- The first fault of a page for writing. -/
def PublScan.note (r : PublScan) (w : Walk) (va : DWord) : PublScan :=
  match w with
  | .page e => if e.w then r else { r with replay := r.replay <|> some (1, va) }
  | .notValid => { r with replay := r.replay <|> some (0, va) }
  | .fatal c => { r with fatal := r.fatal <|> some (c, va) }
  | .held => { r with held := true }

/-- The page that a walk found, of which `n` bytes are left to look at from `va` on: its bytes, and whether the range starts or ends
inside it. -/
def Walk.extent (w : Walk) (va n : Nat) : Option (Nat × Bool) :=
  match w with
  | .page e => some (e.size, e.va != va || decide (n < e.size))
  | _ => none

/-- Compare the two ranges page by page; `n` bytes are left at offset `o`, and the first argument bounds the pages. -/
def State.publScan (s : State) (ctx : Nat) (d sh : DWord) (r : PublScan) : Nat → Nat → Nat → PublScan
  | 0, _, _ => r
  | k + 1, o, n =>
    if n == 0 then r
    else
      let dv := d + BitVec.ofNat 64 o
      let sv := sh + BitVec.ofNat 64 o
      let wd := s.walk ctx (va57 dv)
      let ws := s.walk ctx (va57 sv)
      let r := (r.note wd dv).note ws sv
      match wd.extent (va57 dv) n, ws.extent (va57 sv) n with
      | some (x, i), some (y, j) =>
        if x != y || i || j then { r with mismatch := some dv } else s.publScan ctx d sh r k (o + x) (n - x)
      | some (x, i), none => if i then { r with mismatch := some dv } else s.publScan ctx d sh r k (o + x) (n - x)
      | none, some (y, j) => if j then { r with mismatch := some dv } else s.publScan ctx d sh r k (o + y) (n - y)
      | none, none => s.publScan ctx d sh r k (o + 4096) (n - 4096)

/-- The offsets at which pages of the range begin. -/
def State.publPages (s : State) (ctx : Nat) (d : DWord) : Nat → Nat → Nat → List Nat
  | 0, _, _ => []
  | k + 1, o, n =>
    if n == 0 then []
    else match s.walk ctx (va57 (d + BitVec.ofNat 64 o)) with
      | .page x => o :: s.publPages ctx d k (o + x.size) (n - x.size)
      | _ => []

/-- The checks of R440 that a trap answers, and the replayable fault. -/
inductive PublCheck where
  | pass
  | trap (tr : Trap)
  | replay (cause : Nat) (va : DWord)
  | wait
deriving DecidableEq, Repr

/-- The first check that fails decides (R440). The end of a range is its last byte. -/
def State.publCheck (s : State) (ctx : Nat) (d sh size : DWord) : PublCheck :=
  let last := fun (b : DWord) => if size == 0 then b else b + (size - 1)
  match [d, sh, last d, last sh].find? fun a => !(canonical a) with
  | some a => .trap (xlateTrap 1 a)
  | none =>
    let n := size.toNat
    if n == 0 || n % 4096 != 0 || d.toNat % 4096 != 0 || sh.toNat % 4096 != 0
        || (decide (d.toNat < sh.toNat + n) && decide (sh.toNat < d.toNat + n)) then .trap (alignTrap 0 d)
    else
      let r := s.publScan ctx d sh {} (n / 4096) 0 n
      if r.held then .wait
      else match r.mismatch, r.replay, r.fatal with
      | some va, _, _ => .trap (alignTrap 0 va)
      | none, some (c, va), _ => .replay c va
      | none, none, some (c, va) => .trap (xlateTrap c va)
      | none, none, none => .pass

/-- A page of the ranges is under migration, or another PUBL of them is under way (R161, R440). -/
def State.publBusy (s : State) (ctx : Nat) (ranges : List (Nat × Nat)) : Bool :=
  s.migrations.any (fun m => m.ctx == ctx && ranges.any fun (a, n) => decide (m.va < a + n) && decide (a < m.va + m.size))
    || s.invals.any fun v => v.ctx == ctx && v.purpose != .firmware && v.ranges.any fun (b, k) =>
        ranges.any fun (a, n) => decide (b < a + n) && decide (a < b + k)

/-- The home slices of the tables serve the walks of a check that has passed (R158, R271). -/
def State.publWalks (s : State) (ctx : Nat) (d sh : DWord) (n : Nat) : State :=
  (s.publPages ctx d (n / 4096) 0 n).foldl (fun (s : State) o =>
    (s.servedWalk ctx (va57 (d + BitVec.ofNat 64 o))).servedWalk ctx (va57 (sh + BitVec.ofNat 64 o))) s

/-- The kind 3 commands that a PUBL waits for: those that the team had enqueued when the PUBL first looked (R176). -/
def Team.publBefore (t : Team) (g : Group) : List Nat :=
  g.publSeen.getD ((t.cmds.filter fun c => c.kind == 3).map fun c => c.id)

/-- PUBL (R176, R440): once its checks pass, the earlier accesses of its lanes are performed and the kind 3 commands that the team enqueued
before it are complete, it begins the ordered invalidation and parks the group until the swap. -/
def execPubl (o : PublOp) (s : State) : Result :=
  issueWith o.g (fun s t g m =>
    match m.lowest with
    | none => s.done t g
    | some l =>
      let d := g.pairElem o.a.toNat l
      let sh := g.pairElem o.b.toNat l
      let size := g.pairElem o.c.toNat l
      let before := t.publBefore g
      let g := { g with publSeen := some before }
      match s.publCheck t.ctx d sh size with
      | .trap tr => s.raise t { g with publSeen := none } tr
      | .replay c va => s.insnFault t g 1 c va
      | .wait => s.block t g .access
      | .pass =>
        let ranges := [(va57 d, size.toNat), (va57 sh, size.toNat)]
        let s := (s.put t g).publWalks t.ctx d sh size.toNat
        if s.releaseWaits t g m 4 then s.stayRelease t g m 4
        else if t.cmds.any fun c => before.contains c.id then s.block t g .drift
        else if s.publBusy t.ctx ranges then s.block t g .access
        else
          let (i, s) := s.invalidate t.ctx ranges (.publ t.id g.num)
          s.put t ((g.advance s.cur).parkAs s.gtime (.publ i))) s

/-- Exchange the leaf runs of the pages of two ranges (R176, step 3). -/
def State.swapRuns (s : State) (ctx : Nat) (d sh : Nat) : List Nat → State
  | [] => s
  | o :: r =>
    match s.leafRun ctx (d + o), s.leafRun ctx (sh + o) with
    | some (pd, n), some (ps, k) =>
      let x := s.readRun pd n
      let y := s.readRun ps k
      let s := (s.servedRun pd n).servedRun ps k
      let s := if n == k then (s.writeRun pd y).writeRun ps x else s
      s.swapRuns ctx d sh r
    | _, _ => s.swapRuns ctx d sh r

/-- The end of an ordered invalidation: PUBL swaps and its group goes on (R176). -/
def State.finishInval (s : State) (v : Inval) : State :=
  let s' := { s with invals := s.invals.filter fun x => x.id != v.id }
  match v.purpose, v.ranges with
  | .publ tid grp, (d, n) :: (sh, _) :: _ =>
    let offs := s.publPages v.ctx (BitVec.ofNat 64 d) (n / 4096) 0 n
    (s'.swapRuns v.ctx d sh offs).onGroup tid grp fun g => if g.park == .publ v.id then { g with park := .none } else g
  | _, _ => s'

/-- A table that the swap of a PUBL reads and writes is held (R340, R342). -/
def State.swapHeld (s : State) (v : Inval) : Bool :=
  match v.purpose, v.ranges with
  | .publ _ _, (d, n) :: (sh, _) :: _ =>
    (s.publScan v.ctx (BitVec.ofNat 64 d) (BitVec.ofNat 64 sh) {} (n / 4096) 0 n).held
  | _, _ => false

/-- INVALIDATION_COMPLETE (R154, R176); area copies that waited for walks of a PUBL's ranges are written (R238). -/
def execInvalidationComplete (id : Nat) (s : State) : Result :=
  .next (match s.invals.find? fun v => v.id == id with
    | some v => if s.invalWaits v || s.swapHeld v then s else (s.finishInval v).freshenAreas
    | none => s)

/-- ORDERED_INVALIDATION (R154): firmware names a range of a context. -/
def execOrderedInvalidation (ctx va size : Nat) (s : State) : Result :=
  .next (s.invalidate ctx [(va % 2 ^ 57, size)] .firmware).2

/-! ### Migration (R160) -/

/-- The system address of a frame of a page under migration, and its leaf's BLD bit, as the run stood at step 1. -/
def Migration.oldSa (m : Migration) : Nat := bits (m.run.headD 0).toNat 12 50 * 4096

/-- MIGRATE_PAGE (R160): firmware names a page and a shadow frame of the same size and alignment, in either tier. -/
def migratePage (ctx va shadow : Nat) (s : State) : State :=
  match s.walk ctx va, s.leafRun ctx va with
  | .page e, some (pa, n) =>
    let d := dieOfPhys (saPhys e.sa)
    if saPackage e.sa == s.package && shadow % e.size == 0
        && (frameOk shadow e.size false || frameOk shadow e.size true)
        && (s.migrations.filter fun m => m.die == d).length < 8
        && !(s.migrations.any fun m => m.pteAddr == pa) then
      let (i, s) := s.fresh
      { s with migrations := s.migrations ++
          [{ id := i, die := d, ctx := ctx, va := e.va, size := e.size, pteAddr := pa, run := s.readRun pa n, shadow := shadow }] }
    else s
  | _, _ => s

def execMigratePage (ctx va shadow : Nat) (s : State) : Result := .next (migratePage ctx va shadow s)

/-- The lines of a block are read at their home slices and those of its copy written (R158). -/
def State.copyServed (s : State) (src dst : Nat) : State :=
  (((s.served src).served (src + 128)).served dst).served (dst + 128)

/-- Copy one 256-byte block with its mode byte. A page smaller than a region does not carry the region's clear value (R163):
its fast-clear blocks are copied decoded. -/
def State.copyBlock (s : State) (decoded : Bool) (src dst : Nat) : State :=
  if decoded && s.bldMode src == 1 then
    match s.blockBytes src with
    | .ok l => (s.putBytes dst l).setBldMode dst 0
    | .error _ => s
  else (s.putBytes dst (s.bytes src 256)).setBldMode dst (s.bldMode src)

/-- Copy `n` blocks. -/
def State.copyBlocks (s : State) (decoded : Bool) (src dst : Nat) : Nat → State
  | 0 => s
  | n + 1 => ((s.copyBlocks decoded src dst n).copyBlock decoded (src + 256 * n) (dst + 256 * n)).copyServed
      (src + 256 * n) (dst + 256 * n)

/-- Copy the clear values of `n` whole regions. -/
def State.copyClears (s : State) (src dst : Nat) : Nat → State
  | 0 => s
  | n + 1 =>
    let s := s.copyClears src dst n
    s.setBytes (s.mdAddr (dst + 65536 * n) + 256) (s.bldClear (src + 65536 * n))

/-- Copy a page: its blocks, and the clear values of the regions it holds. -/
def State.copyPage (s : State) (bld : Bool) (src dst size : Nat) : State :=
  (s.copyBlocks (bld && size < 65536) src dst (size / 256)).copyClears src dst (size / 65536)

/-- The leaf entry with a new frame. -/
def newLeaf (e : BitVec 64) (frame : Nat) : BitVec 64 :=
  let v := e.toNat
  let v := v - bits v 12 50 * 4096 + frame
  BitVec.ofNat 64 (if (frame % 2 ^ 52) < lpddrBase then (if v.testBit 5 then v - 32 else v) else (if v.testBit 5 then v else v + 32))

/-- A held write translates again and lands in the new frame (R160, step 5). -/
def LaneAddr.moved (old size new : Nat) (a : LaneAddr) : LaneAddr :=
  match a.sa with
  | some sa => if old ≤ sa ∧ sa < old + size then { a with sa := some (new + (sa - old)) } else a
  | none => a

def StoreEntry.moved (old size new : Nat) (e : StoreEntry) : StoreEntry :=
  { e with lanes := e.lanes.map (LaneAddr.moved old size new) }

def Group.moveStores (old size new : Nat) (g : Group) : Group := { g with fifo := g.fifo.map (StoreEntry.moved old size new) }

def Team.moveStores (t : Team) (old size new : Nat) : Team := { t with groups := t.groups.map (Group.moveStores old size new) }

/-- Wake the watchers of every line of a page (R161). -/
def State.wakePage (s : State) (sa size : Nat) : State :=
  ((s.watches.filter fun w => decide (sa / 128 ≤ w.line) && decide (w.line < (sa + size) / 128)).map fun w => w.line).foldl
    State.wakeLine s

/-- MIGRATION_COMMIT (R160, R161): the copy, the comparison of the run, the new run with its ordered invalidation, and the
release of the held writes, once no access to the page is on its way. A tile whose signature entry lies in the page stays owned under
the entry's old address, a DESIGN CHOICE (log 68). -/
def migrationCommit (id : Nat) (s : State) : State :=
  match s.migrations.find? fun m => m.id == id with
  | none => s
  | some m =>
    let old := m.oldSa
    if s.accesses.any fun a => decide (old / 128 ≤ a.line) && decide (a.line < (old + m.size) / 128) then s
    else
      let s := { s with migrations := s.migrations.filter fun x => x.id != id }
      if s.readRun m.pteAddr m.run.length != m.run then s
      else
        let e0 := (m.run.headD 0).toNat
        let new := s.local m.shadow
        let s := s.copyPage (e0.testBit 6) old new m.size
        let s := (s.writeRun m.pteAddr (m.run.map fun e => newLeaf e new)).seeNewPtes m.ctx [(m.va, m.size)]
        let s := { s with
          tlb := s.tlb.filter fun e => !(e.hit m.ctx [(m.va, m.size)])
          teams := s.teams.map fun (t : Team) => if t.ctx == m.ctx then t.moveStores old m.size new else t }
        s.wakePage old m.size

def execMigrationCommit (id : Nat) (s : State) : Result := .next (migrationCommit id s)

end Sys2Proof.Machine
end

