-- ==== Sys2Proof/Machine/MemEvents.lean ====
section
/-! DEFINITION. Accesses on their way: what is performed at a home slice (R147, R158, R168, R178, R182 to R188, R197), the head
of a store FIFO, results that land (R110, R182), and the delivery of owed and engine traps (R114, R260). -/

namespace Sys2Proof.Machine

/-! ### Traps that wait -/

/-- The park of a group is one that has already taken effect, which an engine trap waits for (R260). R260 names BAR and AWAIT; PUBL
after its invalidation has begun and NAP, whose group R426 does not call parked, are DESIGN CHOICE (log 29). -/
def Park.tookEffect : Park → Bool
  | .bar _ _ => true
  | .await _ _ => true
  | .publ _ => true
  | .nap _ => true
  | .fault _ => false
  | _ => false

/-- The owed fault that the head entry must deliver now, if there is one. -/
def Group.owedAt (g : Group) (e : Entry) : Option Owed :=
  g.owed.find? fun o => (o.lanes &&& e.lanes) != 0 && (o.handler || (g.slot.isNone && !e.handler))

/-- Owed lanes that have taken the trap owe it no more. -/
def dropOwed (tr : Trap) (lanes : Mask) (h : Bool) : List Owed → List Owed
  | [] => []
  | o :: r =>
    if o.trap == tr && o.handler == h && (o.lanes &&& lanes) == lanes then
      let rest := o.lanes &&& ~~~lanes
      if rest == 0 then r else { o with lanes := rest } :: r
    else o :: dropOwed tr lanes h r

/-- A TILEF of the group has begun to write: the group is at no boundary until it is over (R332). -/
def Team.midTile (t : Team) (g : Group) : Bool := g.fbRead.isSome && t.cov.bound.any fun b => b.crc.isSome

/-- Deliver an owed fault to the owed lanes of the head entry (R114). None where nothing is owed there. -/
def State.deliverOwed (s : State) (t : Team) (g : Group) : Option State :=
  match g.head? with
  | none => none
  | some e =>
    match (if t.midTile g then none else g.owedAt e) with
    | none => none
    | some o =>
      let lanes := o.lanes &&& e.lanes
      let (s, entered) := s.takeTrap t g
        { pc := e.pc, lanes := lanes, prio := e.prio, handler := o.handler, trap := o.trap, deferred := true }
      some (if entered then s.onGroup t.id g.num fun g => { g with owed := dropOwed o.trap lanes o.handler g.owed } else s)

/-- The lowest-numbered live group of a team. -/
def Team.lowestLive (t : Team) : Option Group := t.groups.find? fun g => !g.frontier.isEmpty

/-- Deliver an engine or stream trap to the lowest-numbered live group (R260). None where it must wait. -/
def State.deliverEngine (s : State) (t : Team) : Option State :=
  match t.engTraps, t.lowestLive with
  | tr :: rest, some g =>
    if g.park.tookEffect || t.midTile g || g.slot.isSome then none
    else match g.head? with
      | none => none
      | some e =>
        let (s, entered) := s.takeTrap t g
          { pc := e.pc, lanes := e.lanes, prio := e.prio, handler := e.handler, trap := tr, engine := true }
        some (if entered then s.onTeam t.id fun t => { t with engTraps := rest } else s)
  | _, _ => none

/-- The team may issue: it is on its core and running. -/
def Team.canRun (t : Team) : Bool := t.place == .running

/-- DEFERRED_TRAP_DELIVERY (R114). A parked group is at no instruction boundary. -/
def execDeferredTrapDelivery (tid grp : Nat) (s : State) : Result :=
  .next (match s.team? tid with
    | none => s
    | some t =>
      match t.group? grp with
      | none => s
      | some g => if t.canRun && g.park == .none then (s.deliverOwed t g).getD s else s)

/-- ENGINE_TRAP_DELIVERY (R260). -/
def execEngineTrapDelivery (tid : Nat) (s : State) : Result :=
  .next (match s.team? tid with
    | none => s
    | some t => if t.canRun then (s.deliverEngine t).getD s else s)

/-! ### Giving up an access -/

/-- Fault-buffer entries of a requester that has left stay until firmware resolves them (R157). -/
def State.orphan (s : State) (r : FaultReq) : State :=
  { s with faults := s.faults.map fun f => if f.req == r then { f with req := .gone } else f }

/-- The group of a park on a fault goes on to the next of its faults, or leaves the park. -/
def State.leaveFault (s : State) (tid grp id : Nat) : State :=
  let other := s.faults.find? fun f => f.id != id && (match f.req with
    | .load t g _ => t == tid && g == grp
    | .fifo t g _ => t == tid && g == grp
    | _ => false)
  s.onGroup tid grp fun g =>
    if g.park == .fault id then
      { g with park := match other with
          | some f => .fault f.id
          | none => .none }
    else g

/-- A group parked on a fault that has gone leaves its park. -/
def State.settleParks (s : State) (tid grp : Nat) : State :=
  match s.group? tid grp with
  | some g => match g.park with
    | .fault id => match s.faults.find? fun f => f.id == id with
      | some f => if f.req == .gone then s.leaveFault tid grp id else s
      | none => s.leaveFault tid grp id
    | _ => s
  | none => s

/-- A fault found after issue leaves the destination unwritten and is owed (R114). -/
def State.failLoad (s : State) (tid grp pend : Nat) (tr : Trap) : State :=
  let s := s.orphan (.load tid grp pend)
  let s : State := { s with accesses := s.accesses.filter fun a => !(a.kind == .load && a.owner == pend) }
  (s.onGroup tid grp fun g =>
    match g.pending.find? fun p => p.id == pend with
    | none => g
    | some p => Group.owe { g with pending := g.pending.filter fun p => p.id != pend } tr p.bundle p.handler).settleParks tid grp

/-- The entry that meets a fatal outcome, and every entry behind it, are given up; the fault is owed (R114, R155). -/
def Group.failStore (g : Group) (entry : Nat) (tr : Trap) : Group :=
  match g.fifo.find? fun e => e.id == entry with
  | none => g
  | some e =>
    let lost := (g.fifo.filter fun x => x.id ≥ entry && x.kind == .atom).map fun x => x.pend
    Group.owe { g with fifo := g.fifo.filter fun x => x.id < entry
                       pending := g.pending.filter fun p => !(lost.contains p.id) } tr e.bundle e.handler

def State.failStore (s : State) (tid grp entry : Nat) (tr : Trap) : State :=
  let gone := fun (r : FaultReq) => match r with
    | .fifo t g e => t == tid && g == grp && e ≥ entry
    | _ => false
  let s : State := { s with
    accesses := s.accesses.filter fun a => !(a.kind != .load && a.tid == tid && a.grp == grp && a.owner ≥ entry)
    faults := s.faults.map fun f => if gone f.req then { f with req := .gone } else f }
  (s.onGroup tid grp fun g => g.failStore entry tr).settleParks tid grp

/-! ### Performing at the home slice -/

/-- Lane by lane, the bytes of a load: the queue's over those of memory (R183), each through the lane's own leaf. -/
def State.loadLanes (s : State) (q : List StoreEntry) (n : Nat) (p : Pending) :
    List LaneAddr → Except (Nat × DWord) Pending
  | [] => .ok p
  | a :: r =>
    if a.full q n then s.loadLanes q n (p.arrive a (a.merge q n [])) r
    else match s.readVia a.bld (a.sa.getD 0) n with
      | .ok l => s.loadLanes q n (p.arrive a (a.merge q n l)) r
      | .error c => .error (c, blockVa a.va)

/-- The entries and the lanes that some pieces of a load read from the queue (R191). -/
def Pending.noteReads (p : Pending) (q : List StoreEntry) (n : Nat) (ps : List LaneAddr) (g : Group) : Group :=
  ps.foldl (fun g a => g.noteReads (if p.bcast.isSome then p.active else Mask.single a.lane) (a.readsFrom q n)) g

/-- Some lane of the access reads or writes the line through a leaf with BLD = 1 (R162). -/
def Access.bld (a : Access) : Bool := a.lanes.any fun x => x.bld

/-- Every byte of the access is one of the queue's, so that the home slice serves nothing. -/
def Access.full (a : Access) (q : List StoreEntry) : Bool := a.lanes.all fun x => x.full q a.bytes

/-- Replace a pending result. -/
def Group.setPending (g : Group) (p : Pending) : Group :=
  { g with pending := g.pending.map fun q => if q.id == p.id then p else q }

def State.dropAccess (s : State) (id : Nat) : State := { s with accesses := s.accesses.filter fun a => a.id != id }

/-- A load is performed: its bytes return, those of its own queue from there, and the line fills L1 (R182, R183). -/
def State.performLoad (s : State) (g : Group) (a : Access) : State :=
  let q := s.ownQueue g a.owner
  let s := s.dropAccess a.id
  match g.pending.find? fun p => p.id == a.owner with
  | none => s
  | some p =>
    match s.loadLanes q a.bytes p a.lanes with
    | .error (c, va) => (s.servedVia a.ctx a.bld (a.line * 128)).failLoad a.tid a.grp a.owner (memfmtTrap c va)
    | .ok p' =>
      let s := s.onGroup a.tid a.grp fun g => p.noteReads q a.bytes a.lanes (g.setPending p')
      if a.full q then s
      else
        let s := s.servedVia a.ctx a.bld (a.line * 128)
        match s.readVia a.bld (a.line * 128) 128 with
        | .ok l => s.fillL1 a.die a.core a.ctx a.line a.bld l
        | .error _ => s

/-- The lanes of a store in one line, each through its own leaf: the highest lane's bytes stay (R184). -/
def State.storeLanes (s : State) (n : Nat) : List LaneAddr → Except (Nat × DWord) State
  | [] => .ok s
  | a :: r =>
    match s.writeVia a.bld (a.sa.getD 0) (leBytes n a.data.toNat) with
    | .ok s => s.storeLanes n r
    | .error c => .error (c, blockVa a.va)

/-- One access of the head entry is acknowledged; the last one ends the entry (R183). -/
def Group.acked (g : Group) (entry : Nat) : Group :=
  let l := g.fifo.map fun e => if e.id == entry then { e with left := e.left - 1 } else e
  { g with fifo := l.filter fun e => !(e.id == entry && e.left == 0) }

/-- The bytes of an atomic's old value return to its pending result. -/
def Group.atomReturns (g : Group) (e : StoreEntry) (a : LaneAddr) (old : List Byte) (fl : FpFlags) : Group :=
  match g.pending.find? fun p => p.id == e.pend with
  | none => g
  | some p =>
    if e.kind == .atom then
      let q := p.arrive a old
      g.setPending { q with flags := SMap.set 0#5 q.flags a.lane (SMap.get 0#5 q.flags a.lane ||| fl) }
    else g

/-- One lane's atomic (R178, R359): the read and the write are one step. -/
def State.performAtom (s : State) (e : StoreEntry) (a : Access) (l : LaneAddr) : State :=
  let s := s.dropAccess a.id
  let sa := l.sa.getD 0
  match s.readVia l.bld sa e.bytes with
  | .error c => (s.servedVia a.ctx l.bld sa).failStore a.tid a.grp e.id (memfmtTrap c (blockVa l.va))
  | .ok old =>
    let (new, fl) := atomNew e.fn e.ty (BitVec.ofNat 64 (leNat old)) l.data l.cmp
    match (s.servedVia a.ctx l.bld sa).writeVia l.bld sa (leBytes e.bytes new.toNat) with
    | .error c => (s.servedVia a.ctx l.bld sa).failStore a.tid a.grp e.id (memfmtTrap c (blockVa l.va))
    | .ok s =>
      (s.onGroup a.tid a.grp fun g => (g.atomReturns e l old fl).acked e.id).refreshL1 a.die a.core a.line

/-- A store's line is performed. -/
def State.performStore (s : State) (e : StoreEntry) (a : Access) : State :=
  let s := (s.dropAccess a.id).servedWrite a.ctx a.bld (a.line * 128)
  match s.storeLanes e.bytes a.lanes with
  | .error (c, va) => s.failStore a.tid a.grp e.id (memfmtTrap c va)
  | .ok s => (s.onGroup a.tid a.grp fun g => g.acked e.id).refreshL1 a.die a.core a.line

/-- The line is homed on the die. -/
def State.homedOn (s : State) (die line : Nat) : Bool :=
  saPackage (line * 128) == s.package && dieOfPhys (saPhys (line * 128)) == die

/-- Earlier loads of the group that a load waits for (R182, R183, R187): those of one line, those homed on the issuing die, and
among loads of scope `.team` and below all of them. -/
def State.loadWaits (s : State) (a : Access) : Bool :=
  s.accesses.any fun b =>
    b.kind == .load && b.tid == a.tid && b.grp == a.grp && b.id < a.id && b.owner != a.owner
      && (b.line == a.line || s.homedOn b.die b.line || (b.scope ≤ 1 && a.scope ≤ 1))

/-- A load waits for an ATOM of its group, for a queued RED or ATOM of its bytes, or for an earlier load (R183, R187, R359). -/
def State.loadHeldBack (s : State) (g : Group) (a : Access) : Bool :=
  a.after.any (fun i => g.fifo.any fun e => e.id == i) || s.loadWaits a
    || a.lanes.any fun x => x.waitsOwn (s.ownQueue g a.owner) a.bytes

/-! ### Remote scratchpad accesses (R144, R185) -/

/-- Two lanes of one bundle must be performed in ascending order: atomics (R359), and writes that share bytes. -/
def Remote.ordered (x r : Remote) : Bool :=
  match r.op with
  | .read => false
  | .op .store => x.lanes.any fun a => r.lanes.any fun b =>
      decide (a.va.toNat < b.va.toNat + r.bytes) && decide (b.va.toNat < a.va.toNat + x.bytes)
  | .op _ => true

/-- An earlier access of the group to the same core's scratchpad is still on its way (R185); the banks may perform the lanes of one bundle
in any order. -/
def State.remoteWaits (s : State) (r : Remote) : Bool :=
  s.remotes.any fun x => x.tid == r.tid && x.grp == r.grp && x.target == r.target && x.id < r.id && (x.issue != r.issue || x.ordered r)

/-- The remote access of one lane at the target's banks: the bytes that return, with their flags. -/
def State.remoteLane (s : State) (r : Remote) (a : LaneAddr) : List Byte × FpFlags × State :=
  let old := s.spadRead r.target a.spadOff r.bytes
  match r.op with
  | .read => (old, 0, s)
  | .op fn =>
    let (new, fl) := atomNew fn r.ty (BitVec.ofNat 64 (leNat old)) a.data a.cmp
    (old, fl, s.spadWrite r.target a.spadOff (leBytes r.bytes new.toNat))

/-- What returns to a lane of the pending result. -/
def Group.remoteReturns (g : Group) (pend lane : Nat) (old : List Byte) (fl : FpFlags) : Group :=
  match g.pending.find? fun p => p.id == pend with
  | none => g
  | some p =>
    let q := p.arrive { lane := lane, va := 0 } old
    g.setPending { q with flags := SMap.set 0#5 q.flags lane (SMap.get 0#5 q.flags lane ||| fl) }

def State.remoteLanes (s : State) (r : Remote) : List LaneAddr → State
  | [] => s
  | a :: rest =>
    let (old, fl, s) := s.remoteLane r a
    let s := match r.pend with
      | some p => s.onGroup r.tid r.grp fun g => g.remoteReturns p a.lane old fl
      | none => s
    s.remoteLanes r rest

/-- The target has ended while the rest of its cluster lives on (R144): ALIGN at the lowest of the addresses, owed to the lanes, and no
effect. -/
def Group.failRemote (g : Group) (r : Remote) (vas : List DWord) : Group :=
  let tr := alignTrap 1 ((lowestAddr vas).getD 0)
  Group.owe { g with pending := g.pending.filter fun p => some p.id != r.pend } tr r.bundle r.handler

/-- The lanes of a bundle whose targets have ended fail together. -/
def State.failRemotes (s : State) (r : Remote) : State :=
  let gone := s.remotes.filter fun x => x.issue == r.issue && (s.team? x.target).isNone
  ({ s with remotes := s.remotes.filter fun x => !(gone.contains x) } : State).onGroup r.tid r.grp fun g =>
    g.failRemote r (gone.flatMap fun (x : Remote) => x.lanes.map fun a => a.va)

/-- Perform a remote access, unless an earlier one to the same core or an absent line holds it. -/
def State.performRemote (s : State) (r : Remote) : State :=
  if s.remoteWaits r || r.lanes.any fun a => !(s.spadPresent r.target a.spadOff) then s
  else match s.team? r.target with
    | none => s.failRemotes r
    | some _ => { s with remotes := s.remotes.filter fun x => x.id != r.id }.remoteLanes r r.lanes

/-! ### The host port's accesses (R350) -/

/-- The part of a host access that falls in its first line. -/
def firstPart (a : Nat) (n : Nat) : Nat := min n (128 - a % 128)

/-- Write bytes of one line for the host; a changed line wakes its watchers (R154, R179, R350). -/
def State.hostPut (s : State) (sa : Nat) (l : List Byte) : State := (s.alter sa l).served sa

/-- The port performs the next line of its first access, unless the line's home holds it; a changed line wakes its watchers
(R179, R342, R350). -/
def hostAccess (s : State) : State :=
  match s.hostOps with
  | [] => s
  | .write a l :: rest =>
    if s.held 0 (s.local a) then s
    else
      let n := firstPart a l.length
      let s := s.hostPut (s.local a) (l.take n)
      if l.length ≤ n then { s with hostOps := rest, hostReply := .done }
      else { s with hostOps := .write (a + n) (l.drop n) :: rest }
  | .read a n got :: rest =>
    if s.held 0 (s.local a) then s
    else
      let k := firstPart a n
      let got := got ++ s.bytes (s.local a) k
      let s := s.served (s.local a)
      if n ≤ k then { s with hostOps := rest, hostReply := .data got }
      else { s with hostOps := .read (a + k) (n - k) got :: rest }

/-! ### What a home slice does next -/

/-- HOME_SLICE_ACCESS: the access is performed at its line's home slice, or at the target's banks, unless it is held or an order of
R183 to R188 holds it back. Number 0 is the host port's next line. -/
def homeSliceAccess (id : Nat) (s : State) : State :=
  if id == 0 then hostAccess s
  else match s.accesses.find? fun a => a.id == id with
  | none => match s.remotes.find? fun r => r.id == id with
    | some r => s.performRemote r
    | none => s
  | some a =>
    match s.group? a.tid a.grp with
    | none => if s.held a.die (a.line * 128) then s else s.dropAccess id
    | some g =>
      if s.held a.die (a.line * 128) && !(a.kind == .load && a.full (s.ownQueue g a.owner)) then s
      else
        match a.kind with
        | .load => if s.loadHeldBack g a then s else s.performLoad g a
        | .store => match g.fifo.find? fun e => e.id == a.owner with
          | some e => s.performStore e a
          | none => s.dropAccess id
        | .atom => match g.fifo.find? (fun e => e.id == a.owner), a.lanes with
          | some e, l :: _ =>
            if s.accesses.any fun b => b.kind == .atom && b.owner == a.owner && b.id < a.id then s
            else s.performAtom e a l
          | _, _ => s.dropAccess id

def execHomeSliceAccess (id : Nat) (s : State) : Result := .next (homeSliceAccess id s)

/-- The lanes that an entry stores for. -/
def StoreEntry.active (e : StoreEntry) : Mask := e.lanes.foldl (fun m a => m ||| Mask.single a.lane) 0

/-- Earlier loads that a store waits for (R183, R187, R191): those homed on the issuing die or of one of its lines, and for a
release every earlier load and scratchpad access of its active lanes that its scope covers (R185, R191, R196). An ATOM of narrow scope waits
also for the earlier loads of narrow scope, among which its read counts (R183, R359). -/
def State.storeWaits (s : State) (t : Team) (g : Group) (e : StoreEntry) : Bool :=
  s.accesses.any (fun b =>
      b.kind == .load && b.tid == t.id && b.grp == g.num && b.owner < e.id
        && (s.homedOn t.die b.line || (e.kind == .atom && e.scope ≤ 1 && b.scope ≤ 1)
          || e.lanes.any fun a => lineOf (a.sa.getD 0) == b.line))
    || (2 ≤ e.order && g.pending.any fun p => p.id < e.id && p.kind != .atom && p.concerns e.active e.scope)
    || (2 ≤ e.order && (s.remotesOf t.id g.num e.active e.scope true).any fun i => i < e.id)

/-- One access for each lane of an atomic, in ascending lane order (R359). -/
def perLane (ps : List LaneAddr) : List (Nat × List LaneAddr) := ps.map fun p => (lineOf (p.sa.getD 0), [p])

/-- STORE_PERFORM (R183): the head of a group's FIFO goes to the fabric. -/
def storePerform (tid grp : Nat) (s : State) : State :=
  match s.team? tid with
  | none => s
  | some t =>
    match t.group? grp with
    | none => s
    | some g =>
      match g.fifo with
      | [] => s
      | e :: r =>
        if e.handed || !e.faults.isEmpty || e.lanes.any (fun a => a.sa.isNone) || s.storeWaits t g e then s
        else
          let parts := if e.kind == .st then byLine e.lanes else perLane e.lanes
          let s := s.setTeam (t.setGroup { g with fifo := { e with handed := true, left := parts.length } :: r })
          s.addAccesses (if e.kind == .st then .store else .atom) t grp e.id e.bytes e.scope [] parts

def execStorePerform (tid grp : Nat) (s : State) : Result := .next (storePerform tid grp s)

/-! ### Landing -/

/-- The bytes of a line in a core's L1, as a leaf's view gives them. -/
def State.inL1 (s : State) (die core ctx line : Nat) (bld : Bool) : Option (List Byte) :=
  ((s.core die core).l1.find? fun l => l.ctx == ctx && l.line == line && l.bld == bld).map fun l => l.bytes

/-- The core's L1 holds the line of an access for every lane of it, as their leaves' views give it. -/
def State.hasL1 (s : State) (a : Access) : Bool := a.lanes.all fun x => (s.inL1 a.die a.core a.ctx a.line x.bld).isSome

/-- The rest of a `.grp` or `.team` load from the core's L1, where it holds every line that is left (R182). -/
def State.loadFromL1 (s : State) (g : Group) (p : Pending) : Option (Pending × State) :=
  let mine := s.accesses.filter fun a => a.kind == .load && a.owner == p.id
  let q := s.ownQueue g p.id
  let ready := fun (a : Access) => (a.full q || s.hasL1 a) && !(s.loadHeldBack g a)
  if p.kind == .load && p.scope ≤ 1 && p.lanes.isEmpty && mine.all ready then
    let p' := mine.foldl (fun (p : Pending) a =>
      a.lanes.foldl (fun p x =>
        let l := (s.inL1 a.die a.core a.ctx a.line x.bld).getD []
        p.arrive x (x.merge q a.bytes ((l.drop (x.sa.getD 0 % 128)).take a.bytes))) p) p
    let s : State := { s with accesses := s.accesses.filter fun a => !(a.kind == .load && a.owner == p.id) }
    some (p', mine.foldl (fun (s : State) a =>
      s.onGroup a.tid a.grp fun g => p.noteReads q a.bytes a.lanes g) s)
  else none

/-- LONG_LATENCY_RESULT_LAND (R110): a result whose value has arrived lands; a load of narrow scope may be served from L1. -/
def landResult (tid grp pend : Nat) (s : State) : State :=
  match s.group? tid grp with
  | none => s
  | some g =>
    match g.pending.find? fun p => p.id == pend with
    | none => s
    | some p =>
      if p.isReady then s.onGroup tid grp fun g => g.land p
      else match s.loadFromL1 g p with
        | some (p, s) => s.onGroup tid grp fun g => g.land p
        | none => s

def execLongLatencyResultLand (tid grp pend : Nat) (s : State) : Result := .next (landResult tid grp pend s)

end Sys2Proof.Machine
end

