-- ==== Sys2Proof/Machine/Records.lean ====
section
/-! DEFINITION. Work-graph records: the stockpile, RECA, RECP, RECF, and the ore bins (R229 to R237, R333, R334, R449 to R452). -/

namespace Sys2Proof.Machine

/-! ### Graphs -/

def State.graph? (s : State) (l : Nat) : Option Graph :=
  match s.launch? l with
  | some x => x.graph
  | none => none

def State.onGraph (s : State) (l : Nat) (f : Graph → Graph) : State :=
  s.onLaunch l fun x => { x with graph := x.graph.map f }

/-- Is the slot allocated? -/
def Graph.taken (g : Graph) (i : Nat) : Bool := g.alloc.any fun x => x.1 == i

/-- The lowest-numbered `n` free slots (R333); the first argument bounds the search. -/
def Graph.freeSlots (g : Graph) : Nat → Nat → Nat → List Nat
  | 0, _, _ => []
  | _, _, 0 => []
  | k + 1, i, n + 1 =>
    if i ≥ g.slots then []
    else if g.taken i then g.freeSlots k (i + 1) (n + 1) else i :: g.freeSlots k (i + 1) n

/-- `n` free slots, lowest first; fewer where the stockpile has fewer. -/
def Graph.pick (g : Graph) (n : Nat) : List Nat := g.freeSlots (g.alloc.length + n + 1) 0 n

/-- The VA of a slot, and the slot of a VA (R229). -/
def Graph.slotVa (g : Graph) (i : Nat) : DWord := g.stock + BitVec.ofNat 64 (256 * i)

def Graph.slotOf (g : Graph) (va : DWord) : Option Nat :=
  let o := (va - g.stock).toNat
  if o % 256 == 0 && decide (o / 256 < g.slots) then some (o / 256) else none

/-- Slots that are freed at once (R333). -/
def Graph.free (g : Graph) (l : List Nat) : Graph := { g with alloc := g.alloc.filter fun x => !(l.contains x.1) }

/-- Free slots; a caged RECA waiter that was not relieved becomes ready on the event it waits for (R249, R250). -/
def State.freeSlots (s : State) (l : Nat) (slots : List Nat) : State :=
  if slots.isEmpty then s
  else
    let s := s.onGraph l fun g => g.free slots
    { s with teams := s.teams.map fun t =>
        if t.launch == l && t.place.left && t.readyAt.isNone && !t.halted && t.relievedBy.isNone
            && t.groups.any (fun g => g.park == .retry (.stock none)) then { t with readyAt := some s.gtime } else t }

/-- The QUEUE trap of R449; `badNode` sets bit 8. -/
def recordTrap (badNode : Bool) : Trap := { cause := 0xD, info := if badNode then 0x104 else 4, va := 0 }

/-- A node operand of some active lane that the graph does not have. -/
def badNode (g : Group) (gr : Graph) (node : Src) (m : Mask) : Bool :=
  m.lanes.any fun l => (g.src32 node l).toNat ≥ gr.nodes.length

/-! ### RECA -/

/-- A RECA finds too few slots (R233). A waiter that was relieved leaves its entry once that has been resolved or ended. -/
def State.blockStock (s : State) (t : Team) (g : Group) : State :=
  match g.park with
  | .retry (.stock (some e)) => match s.entry? e with
    | some x =>
      if x.state.open_ then s
      else (s.leaveFor t.id g.num e).onGroup t.id g.num fun g => { g with park := .retry (.stock none) }
    | none => s.onGroup t.id g.num fun g => { g with park := .retry (.stock none) }
  | _ => s.block t g (.stock none)

/-- RECA (R450). -/
def execReca (o : RecaOp) (s : State) : Result :=
  issueWith o.g (fun s t g m =>
    let pool := poolFor g [o.d.toNat, o.d.toNat + 1] .general
    match s.graph? t.launch with
    | none => s.raise t g ((firstTrap (pool ++ [recordTrap false])).getD (recordTrap false))
    | some gr =>
      match firstTrap (pool ++ if badNode g gr o.node m then [recordTrap true] else []) with
      | some tr => s.raise t g tr
      | none =>
        let n := m.lanes.length
        let slots := gr.pick n
        if slots.length < n then
          s.blockStock t g
        else
          let va := fun l => match nthActive m slots l with
            | some i => gr.slotVa i
            | none => 0
          let s := (s.put t ((g.apply { active := m, regs := typedWrites .b64 o.d .general va }).advance s.cur)).onGraph t.launch
            fun x => { x with alloc := x.alloc ++ slots.map fun i => (i, some t.id) }
          match g.park with
          | .retry (.stock (some e)) => s.leaveFor t.id g.num e
          | _ => s) s

/-! ### RECP -/

/-- What the lanes of a RECP name, node and slot, in ascending order: the slots, or the trap of the first lane that has no such node, or
whose slot the team has not allocated, has committed, or named in a lane before. -/
def recpSlots (gr : Graph) (tid : Nat) (seen : List Nat) : List (Nat × DWord) → Except Trap (List Nat)
  | [] => .ok seen
  | (node, va) :: r =>
    if node ≥ gr.nodes.length then .error (recordTrap true)
    else match gr.slotOf va with
      | some i => if gr.alloc.contains (i, some tid) && !(seen.contains i) then recpSlots gr tid (seen ++ [i]) r
          else .error (recordTrap false)
      | none => .error (recordTrap false)

/-- A committed slot belongs to its bin and then to its batch (R451). -/
def Graph.commitSlots (g : Graph) (l : List Nat) : Graph :=
  { g with alloc := g.alloc.map fun x => if l.contains x.1 then (x.1, none) else x }

/-- RECP (R451): a release of its lanes' earlier accesses. -/
def execRecp (o : RecpOp) (s : State) : Result :=
  issueWith o.g (fun s t g m =>
    match s.graph? t.launch with
    | none => s.raise t g (recordTrap false)
    | some gr =>
      let es := m.lanes.map fun l => ((g.src32 o.node l).toNat, g.pairElem o.a.toNat l)
      match recpSlots gr t.id [] es with
        | .error tr => s.raise t g tr
        | .ok slots =>
          if t.q4.length + es.length > 32 then s.block t g (.queue 4)
          else if s.releaseWaits t g m 4 then s.stayRelease t g m 4
          else (s.doneTeam { t with q4 := t.q4 ++ es } g).onGraph t.launch fun x => x.commitSlots slots) s

/-! ### RECF -/

/-- A slot that RECF may free (R452). -/
def recfAllowed (t : Team) (gr : Graph) (va : DWord) : Option Nat :=
  match gr.slotOf va with
  | some i => if gr.alloc.contains (i, some t.id) || t.batchSlots.contains i then some i else none
  | none => none

/-- RECF (R452). -/
def execRecf (o : AOp) (s : State) : Result :=
  issueWith o.g (fun s t g m =>
    match s.graph? t.launch with
    | none => s.raise t g (recordTrap false)
    | some gr =>
      let l := m.lanes.map fun x => recfAllowed t gr (g.pairElem o.a.toNat x)
      if !(l.all Option.isSome) then s.raise t g (recordTrap false)
      else
        let slots := l.filterMap id
        (s.doneTeam { t with batchSlots := t.batchSlots.filter fun i => !(slots.contains i) } g).freeSlots t.launch slots) s

/-! ### The bins (R233) -/

/-- Close a forming batch; closed batches stand in the order in which they closed. -/
def Graph.close (g : Graph) (b : Batch) (now : Nat) : Graph :=
  if b.closedAt.isSome then g
  else { g with batches := (g.batches.filter fun x => x != b) ++ [{ b with closedAt := some now }] }

/-- A commit reaches the bin of its node on a die. -/
def Graph.commit (g : Graph) (fresh die node now : Nat) (va : DWord) : Graph :=
  let count := match g.nodes[node]? with
    | some n => n.count
    | none => 1
  match g.batches.find? fun b => b.die == die && b.node == node && b.closedAt.isNone with
  | some b =>
    let b' := { b with recs := b.recs ++ [va] }
    let g := { g with batches := g.batches.map fun x => if x == b then b' else x }
    if b.recs.length + 1 ≥ count then g.close b' now else g
  | none =>
    { g with batches := g.batches ++
      [{ id := fresh, die := die, node := node, recs := [va], first := now, closedAt := if 1 ≥ count then some now else none }] }

/-- The oldest entry of `q4` reaches its bin. -/
def State.commitHead (s : State) (tid : Nat) : State :=
  match s.team? tid with
  | none => s
  | some t =>
    match t.q4 with
    | [] => s
    | (node, va) :: r =>
      let (i, s) := s.fresh
      (s.onTeam tid fun t => { t with q4 := r }).onGraph t.launch fun g => g.commit i t.die node s.gtime va

/-- RECORD_COMMIT_ARRIVE (R233, R451). -/
def execRecordCommitArrive (tid : Nat) (s : State) : Result :=
  .next (match s.team? tid with
    | some t => if t.place.resident then s.commitHead tid else s
    | none => s)

/-- BATCH_TIMER_EXPIRY (R233): TIMER ticks have passed since the first record of a forming batch. -/
def execBatchTimerExpiry (die launch node : Nat) (s : State) : Result :=
  .next (s.onGraph launch fun g =>
    match g.nodes[node]?, g.batches.find? fun b => b.die == die && b.node == node && b.closedAt.isNone with
    | some n, some b => if n.timer != 0 && s.gtime ≥ b.first + n.timer then g.close b s.gtime else g
    | _, _ => g)

/-- The batch with the earliest first record; of several with the same tick the first of the list, which R236 and R243 leave open: DESIGN
CHOICE (log 95). -/
def oldestBatch : List Batch → Option Batch
  | [] => none
  | b :: r => match oldestBatch r with
    | none => some b
    | some c => if b.first ≤ c.first then some b else some c

/-- A RECA of the graph is parked on a core (R236, R334). -/
def State.recaParked (s : State) (launch : Nat) : Bool :=
  s.teams.any fun t => t.launch == launch && t.place.resident && t.groups.any fun g => match g.park with
    | .retry (.stock _) => true
    | _ => false

/-- BACKPRESSURE_CLOSE (R236): the die's oldest forming batch of the graph closes while a RECA is parked and no closed batch
waits there. -/
def execBackpressureClose (die launch : Nat) (s : State) : Result :=
  .next (if s.recaParked launch then
    s.onGraph launch fun g =>
      let mine := g.batches.filter fun b => b.die == die
      if mine.any fun b => b.closedAt.isSome then g
      else match oldestBatch mine with
        | some b => g.close b s.gtime
        | none => g
    else s)

end Sys2Proof.Machine
end

