-- ==== Sys2Proof/Machine/Owner.lean ====
section
/-! DEFINITION. Ownership: OWN, AWAIT and RSLV, and what launch queues and their headers hold (R217, R218, R219, R238 to
R240, R361, R362, R431, R432, R458, R459). -/

namespace Sys2Proof.Machine

/-! ### Launch queues (R217) -/

/-- A queue header's fields. -/
structure QHeader where
  write : Nat
  read : Nat
  base : DWord
  log2n : Nat
  cls : Nat
  devq : Bool
  bad : Bool
deriving DecidableEq, Repr

def parseHeader (l : List Byte) : QHeader :=
  let n := leNat l
  let k := bits n 200 5
  let base := BitVec.ofNat 64 (bits n 128 64)
  { write := bits n 0 64, read := bits n 64 64, base := base, log2n := k, cls := bits n 208 2, devq := n.testBit 210
    bad := bits n 192 8 != 0 || bits n 205 3 != 0 || bits n 211 301 != 0 || k < 4 || k > 16 }

/-- The VA of packet `n`. -/
def QHeader.slotVa (h : QHeader) (n : Nat) : DWord := h.base + BitVec.ofNat 64 (128 * (n % 2 ^ h.log2n))

def State.queue? (s : State) (p q : Nat) : Option Queue := s.queues.find? fun x => x.partition == p && x.num == q

def State.onQueue (s : State) (p q : Nat) (f : Queue → Queue) : State :=
  { s with queues := s.queues.map fun x => if x.partition == p && x.num == q then f x else x }

/-- The partition of a context. -/
def State.partitionOf (s : State) (ctx : Nat) : Nat :=
  match s.context? ctx with
  | some c => c.partition
  | none => 0

/-- Bytes of one block as the front end knows them, where they can be read. -/
def State.peekBlock (s : State) (ctx : Nat) (va : DWord) (n : Nat) : Option (List Byte) :=
  match (s.translate ctx va .read).1 with
  | .ok sa e => match s.readVia e.bld sa n with
    | .ok l => some l
    | .error _ => none
  | _ => none

/-- The same over several blocks, each translated by itself; the first argument bounds them. -/
def State.peekBlocks (s : State) (ctx : Nat) (va : DWord) : Nat → Nat → Option (List Byte)
  | 0, _ => some []
  | k + 1, n =>
    if n == 0 then some []
    else
      let m := min n (256 - va.toNat % 256)
      match s.peekBlock ctx va m, s.peekBlocks ctx (va + BitVec.ofNat 64 m) k (n - m) with
      | some a, some b => some (a ++ b)
      | _, _ => none

/-- Bytes as the front end knows them, where they can all be read. -/
def State.peek (s : State) (ctx : Nat) (va : DWord) (n : Nat) : Option (List Byte) := s.peekBlocks ctx va (n / 256 + 2) n

/-- What the translations and reads of `State.peek` leave: its walks are cached, and the home slices count its reads, in which a bad row
ends the reader's context (R158, R271). The first argument bounds the blocks. -/
def State.peekedBlocks (s : State) (ctx : Nat) (va : DWord) : Nat → Nat → State
  | 0, _ => s
  | k + 1, n =>
    if n == 0 then s
    else
      let m := min n (256 - va.toNat % 256)
      let s := match s.translate ctx va .read with
        | (.ok sa e, s) => s.servedVia ctx e.bld sa
        | (_, s) => s
      s.peekedBlocks ctx (va + BitVec.ofNat 64 m) k (n - m)

def State.peeked (s : State) (ctx : Nat) (va : DWord) (n : Nat) : State := s.peekedBlocks ctx va (n / 256 + 2) n

/-- The packet of a queue that a launch handle names, and its LID (R219, R432). -/
structure Named where
  queue : Nat
  index : Nat
  lid : Word
  state : OwnState
deriving DecidableEq, Repr

/-- The index below WRITE, among the last 2^26 packets, that is congruent to the handle's low 26 bits. -/
def namedIndex (write low : Nat) : Option Nat :=
  let back := (write + 2 ^ 26 - 1 - low) % 2 ^ 26
  if back + 1 ≤ write then some (write - 1 - back) else none

/-- Resolve a handle for a context; none where it names no packet of a queue of the context. -/
def State.named (s : State) (ctx : Nat) (handle : Word) : Option Named :=
  let p := s.partitionOf ctx
  let q := bits handle.toNat 26 6
  match s.queue? p q with
  | none => none
  | some qu =>
    if qu.ctx != ctx then none
    else match s.peek ctx qu.header 64 with
      | none => none
      | some l =>
        let h := parseHeader l
        match namedIndex h.write (bits handle.toNat 0 26) with
        | none => none
        | some n =>
          match s.launches.find? fun x => x.partition == p && x.queue == q && x.index == n with
          | some x => some { queue := q, index := n, lid := x.lid
                             state := if x.done.isSome then .ended else if x.started then .running else .unstarted }
          | none => match qu.past.find? fun x => x.1 == n with
            | some x => some { queue := q, index := n, lid := x.2, state := .ended }
            | none => match s.peek ctx (h.slotVa n + 108) 4 with
              | some w => some { queue := q, index := n, lid := BitVec.ofNat 32 (leNat w), state := .unstarted }
              | none => none

/-- What the reads of `State.named` leave: that of the queue's header, and that of the LID in a packet that has not been accepted. -/
def State.namedReads (s : State) (ctx : Nat) (handle : Word) : State :=
  match s.queue? (s.partitionOf ctx) (bits handle.toNat 26 6) with
  | none => s
  | some q =>
    if q.ctx != ctx then s
    else
      let s' := s.peeked ctx q.header 64
      match s.peek ctx q.header 64, s.named ctx handle with
      | some l, some n =>
        if s.launches.any (fun x => x.partition == q.partition && x.queue == q.num && x.index == n.index)
            || q.past.any fun x => x.1 == n.index then s'
        else s'.peeked ctx ((parseHeader l).slotVa n.index + 108) 4
      | _, _ => s'

/-! ### Objects -/

/-- The newest entry of an object (R432). -/
def State.newestEntry (s : State) (ctx obj : Nat) : Option OwnEntry :=
  (s.own.filter fun e => e.ctx == ctx && e.obj == obj).getLast?

/-- The lowest free index of a context's area (R238). -/
def freeIndexFrom (used : List Nat) : Nat → Nat → Nat
  | 0, i => i
  | k + 1, i => if used.contains i then freeIndexFrom used k (i + 1) else i

/-- A free entry of the context's area; none while it is full or a write of the area has failed (R238). -/
def State.freeIndex (s : State) (ctx : Nat) : Option Nat :=
  match s.context? ctx with
  | none => none
  | some c =>
    let used := (s.own.filter fun e => e.ctx == ctx).map fun e => e.index
    let i := freeIndexFrom used used.length 0
    if c.areaFailed || i ≥ min c.ocap 16384 then none else some i

/-- Create an entry, with its area copy behind it. Answers its id. -/
def State.createEntry (s : State) (e : OwnEntry) : Nat × State :=
  let (i, s) := s.fresh
  let e := { e with id := i }
  (i, { s with own := s.own ++ [e] }.writeArea e e.toBytes)

/-- Translate an object VA, which is not otherwise accessed (R361); answers the die that homes its line. -/
def State.objectDie (s : State) (t : Team) (va : DWord) : Direct Nat × State :=
  match s.translate t.ctx va .read with
  | (.ok sa _, s) => (.ok (dieOfPhys (saPhys sa)), s)
  | (.replay c, s) => (.fault c va, s)
  | (.fatal c, s) => (.trap (xlateTrap c va), s)
  | (.blocked, s) => (.wait, s)

/-- Translate the objects of the active lanes; answers lane, object and home die. -/
def State.objects (s : State) (t : Team) (g : Group) (a : VR) : List Nat → Direct (List (Nat × Nat × Nat)) × State
  | [] => (.ok [], s)
  | l :: r =>
    let va := g.pairElem a.toNat l
    match s.objectDie t va with
    | (.ok d, s) =>
      let (rest, s) := s.objects t g a r
      (rest.map fun x => (l, va57 va, d) :: x, s)
    | (.trap tr, s) => (.trap tr, s)
    | (.fault c va, s) => (.fault c va, s)
    | (.wait, s) => (.wait, s)

/-- The status word of a lane, from a list by lane. -/
def statusOf (l : List (Nat × Nat)) (lane : Nat) : Word :=
  match l.find? fun x => x.1 == lane with
  | some x => BitVec.ofNat 32 x.2
  | none => 0

/-! ### OWN -/

/-- The object has an entry in STATE 1 to 3 (R432). -/
def State.owned (s : State) (ctx obj : Nat) : Bool := s.own.any fun e => e.ctx == ctx && e.obj == obj && e.state.open_

/-- One lane's OWN (R432): its status. -/
def State.ownLane (s : State) (t : Team) (kind obj die : Nat) (handle : Option Word) : Nat × State :=
  let busy := s.owned t.ctx obj
  let named := handle.bind fun h => s.named t.ctx h
  let s := handle.elim s fun h => s.namedReads t.ctx h
  if busy || (handle.isSome && named.isNone) then (1, s)
  else match s.freeIndex t.ctx with
    | none => (2, s)
    | some i =>
      let e : OwnEntry :=
        { id := 0, ctx := t.ctx, index := i, die := die, obj := obj, kind := kind, state := .running, waiters := 0
          owner := .team t.id, olid := t.lid, oindex := BitVec.ofNat 32 t.index }
      let e := match named with
        | some n => { e with owner := .packet (s.partitionOf t.ctx) n.queue n.index, olid := n.lid, oindex := 0xFFFFFFFF
                             state := n.state }
        | none => e
      let (_, s) := s.createEntry e
      (0, s)

def State.ownLanes (s : State) (t : Team) (kind : Nat) (handle : Nat → Option Word) :
    List (Nat × Nat × Nat) → List (Nat × Nat) × State
  | [] => ([], s)
  | (l, obj, die) :: r =>
    let (st, s) := s.ownLane t kind obj die (handle l)
    let (rest, s) := s.ownLanes t kind handle r
    ((l, st) :: rest, s)

/-- Write one status word per active lane and go on. -/
def State.doneStatus (s : State) (tid : Nat) (g : Group) (d : VR) (m : Mask) (st : List (Nat × Nat)) : State :=
  let g := (g.apply { active := m, regs := wordWrite d .general (statusOf st) }).advance s.cur
  s.onGroup tid g.num fun _ => g

/-- OWN (R431, R432). -/
def ownOp (gd : Guard) (kind : BitVec 2) (d a : VR) (handle : Group → Nat → Option Word) (s : State) : Result :=
  issueWith gd (fun s t g m =>
    match poolFor g [d.toNat] .general with
    | tr :: _ => s.raise t g tr
    | [] =>
      Direct.andThen (s.objects t g a m.lanes) t g 0 fun objs s =>
        let (st, s) := s.ownLanes t kind.toNat (handle g) objs
        s.doneStatus t.id g d m st) s

def execOwn (o : OwnOp) (s : State) : Result := ownOp o.g o.kind o.d o.a (fun _ _ => none) s

def execOwnLaunch (o : OwnLaunchOp) (s : State) : Result :=
  ownOp o.g o.kind o.d o.a (fun g l => some (g.elem o.b.toNat l)) s

/-! ### AWAIT -/

/-- The status of a wait that is over (R240). -/
def State.awaitStatus (s : State) : Option Nat → Nat
  | none => 2
  | some e => match s.entry? e with
    | some x => if x.state == .resolved then 0 else 1
    | none => 1

/-- Some entry of the wait is still in STATE 1 to 3. -/
def State.awaitOpen (s : State) (lanes : List (Nat × Option Nat)) : Bool :=
  lanes.any fun x => match x.2 with
    | some e => match s.entry? e with
      | some y => y.state.open_
      | none => false
    | none => false

/-- The distinct entries that the lanes name. -/
def awaitEntries (lanes : List (Nat × Option Nat)) : List Nat := (lanes.filterMap fun x => x.2).dedup

/-- The set of some lanes. -/
def laneMask (lanes : List Nat) : Mask := lanes.foldl (fun m l => m ||| Mask.single l) 0

/-- The registration of an AWAIT: the team counts once in WAITERS of each distinct entry (R362). -/
def State.registerAwait (s : State) (tid n : Nat) (lanes : List (Nat × Option Nat)) : State :=
  (awaitEntries lanes).foldl (fun s e => s.joinFor tid n e) s

/-- AWAIT returns (R240, R362): the statuses, and an acquire at `.sys` (R201). -/
def State.finishAwait (s : State) (t : Team) (g : Group) (d : Nat) (lanes : List (Nat × Option Nat)) : State :=
  let st := lanes.map fun x => (x.1, s.awaitStatus x.2)
  let w : RegWrite := ⟨d, .general, laneVals (statusOf st)⟩
  let g := { (g.writeReg (laneMask (lanes.map fun x => x.1)) w) with park := .none }
  ((awaitEntries lanes).foldl (fun s e => s.leaveFor t.id g.num e) (s.put t g)).dropL1 t.die t.core t.ctx

/-- AWAIT (R361, R362). -/
def execAwait (o : DaOp) (s : State) : Result :=
  issueWith o.g (fun s t g m =>
    match poolFor g [o.d.toNat] .general with
    | tr :: _ => s.raise t g tr
    | [] =>
      Direct.andThen (s.objects t g o.a m.lanes) t g 0 fun objs s =>
        let lanes := objs.map fun x => (x.1, (s.newestEntry t.ctx x.2.1).map fun e => e.id)
        if s.awaitOpen lanes then
          let g := ((g.reserve [o.d.toNat] false).advance s.cur).parkAs s.gtime (.await o.d.toNat lanes)
          (s.onGroup t.id g.num fun _ => g).registerAwait t.id g.num lanes
        else
          let st := lanes.map fun x => (x.1, s.awaitStatus x.2)
          let s := s.doneStatus t.id g o.d m st
          if m == 0 then s else s.dropL1 t.die t.core t.ctx) s

/-- A parked AWAIT is looked at again. -/
def State.pollAwait (s : State) (t : Team) (g : Group) : State :=
  match g.park with
  | .await d lanes => if s.awaitOpen lanes then s else s.finishAwait t g d lanes
  | _ => s

/-! ### RSLV -/

/-- One lane's RSLV (R459): its status, and the entry it resolved. -/
def State.rslvLane (s : State) (ctx obj : Nat) : Nat × Option Nat × State :=
  match s.newestEntry ctx obj with
  | none => (2, none, s)
  | some e =>
    if e.kind ≥ 2 then (3, none, s)
    else if !e.state.open_ then (1, none, s)
    else (0, some e.id, (s.setEntry { e with state := .resolved }).readyWaiters e.id)

def State.rslvLanes (s : State) (ctx : Nat) : List (Nat × Nat × Nat) → List (Nat × Nat) × List Nat × State
  | [] => ([], [], s)
  | (l, obj, _) :: r =>
    let (st, e, s) := s.rslvLane ctx obj
    let (rest, es, s) := s.rslvLanes ctx r
    ((l, st) :: rest, e.toList ++ es, s)

/-- RSLV (R458, R459): a release at `.sys` of its lanes' earlier accesses; entries left without waiters are freed only after
every lane. -/
def execRslv (o : DaOp) (s : State) : Result :=
  issueWith o.g (fun s t g m =>
    match poolFor g [o.d.toNat] .general with
    | tr :: _ => s.raise t g tr
    | [] =>
      Direct.andThen (s.objects t g o.a m.lanes) t g 0 fun objs s' =>
        if s.releaseWaits t g m 5 then s.stayRelease t g m 5
        else
          let (st, es, s) := s'.rslvLanes t.ctx objs
          es.foldl State.reapEntry (s.doneStatus t.id g o.d m st)) s

end Sys2Proof.Machine
end

