-- ==== Sys2Proof/Machine/Launch.lean ====
section
/-! DEFINITION. LNCH (R218, R219, R416, R417). -/

namespace Sys2Proof.Machine

/-- The bytes of a packet in a team's scratchpad; the address is a multiple of 128, at least 128, within the slice. -/
def packetAt (t : Team) (a : Word) : Bool := decide (128 ≤ a.toNat) && a.toNat % 128 == 0 && decide (a.toNat + 128 ≤ t.spadEnd)

/-- PERM with code 4: the queue may not be written by this context's LNCH (R417). -/
def queueAllowed (s : State) (ctx q : Nat) : Option Queue :=
  match s.queue? (s.partitionOf ctx) q with
  | some x => if x.ctx == ctx && !x.disabled && q < 64 then some x else none
  | none => none

/-- The headers of the named queues, in lane order. -/
def State.lnchHeaders (s : State) (t : Team) : List Nat → Direct (List (Nat × QHeader)) × State
  | [] => (.ok [], s)
  | q :: r =>
    match queueAllowed s t.ctx q with
    | none => (.trap (permTrap 4), s)
    | some x =>
      match s.directRead t.ctx t.die x.header 64 with
      | (.ok l, s) =>
        let h := parseHeader l
        if h.bad || h.cls == 3 || !h.devq then (.trap (permTrap 4), s)
        else
          let (rest, s) := s.lnchHeaders t r
          (rest.map fun y => (q, h) :: y, s)
      | (.trap tr, s) => (.trap tr, s)
      | (.fault c va, s) => (.fault c va, s)
      | (.wait, s) => (.wait, s)

/-- How many earlier entries name the same queue. -/
def earlierOf (q : Nat) (l : List (Nat × QHeader)) : Nat := (l.filter fun x => x.1 == q).length

/-- Queue, header and packet index of each lane, in lane order. -/
def lnchPlan (done : List (Nat × QHeader)) : List (Nat × QHeader) → List (Nat × QHeader × Nat)
  | [] => []
  | (q, h) :: r => (q, h, h.write + earlierOf q done) :: lnchPlan (done ++ [(q, h)]) r

/-- Every queue has room for all of its lanes (R219). -/
def lnchRoom (plan : List (Nat × QHeader × Nat)) : Bool :=
  plan.all fun x => decide (x.2.2 + 1 - x.2.1.read ≤ 2 ^ x.2.1.log2n)

/-- Translate the ring slots and the headers for writing (R417). -/
def State.lnchSlots (s : State) (t : Team) : List (Nat × QHeader × Nat) → Direct Unit × State
  | [] => (.ok (), s)
  | (q, h, n) :: r =>
    let header := (queueAllowed s t.ctx q).map fun x => x.header
    let try_ := fun (va : DWord) (s : State) => match s.translate t.ctx va .write with
      | (.ok _ _, s) => ((.ok () : Direct Unit), s)
      | (.replay c, s) => (.fault c va, s)
      | (.fatal c, s) => (.trap (xlateTrap c va), s)
      | (.blocked, s) => (.wait, s)
    match try_ (header.getD 0) s with
    | (.ok _, s) => match try_ (h.slotVa n) s with
      | (.ok _, s) => s.lnchSlots t r
      | e => e
    | e => e

/-- Append the packets, each queue's WRITE after its packet. -/
def State.lnchWrites (s : State) (t : Team) : List (Nat × QHeader × Nat × List Byte) → Direct Unit × State
  | [] => (.ok (), s)
  | (q, h, n, bytes) :: r =>
    match s.directWrite t.ctx t.die (h.slotVa n) bytes with
    | (.ok _, s) =>
      match queueAllowed s t.ctx q with
      | none => (.trap (permTrap 4), s)
      | some x => match s.directWrite t.ctx t.die x.header (leBytes 8 (n + 1)) with
        | (.ok _, s) => s.lnchWrites t r
        | e => e
    | e => e

/-- The appends take effect together or not at all. -/
def State.lnchAll (s : State) (t : Team) (l : List (Nat × QHeader × Nat × List Byte)) : Direct Unit × State :=
  match s.lnchWrites t l with
  | (.ok _, s') => (.ok (), s')
  | (e, _) => (e, s)

/-- LNCH (R416, R417): the WRITE store is a release at `.dev` of the lanes' earlier accesses. -/
def execLnch (o : LnchOp) (s : State) : Result :=
  issueAcc o.g (fun s t g m =>
    let addr := fun l => g.elem o.a.toNat l
    let queue := fun l => (g.src32 o.q l).toNat
    let align := alignTraps 1 (((m.lanes.map addr).filter fun a => !(packetAt t a)).map fun a => a.setWidth 64)
    let perm := if m.lanes.any fun l => (queueAllowed s t.ctx (queue l)).isNone then [permTrap 4] else []
    match firstTrap (poolFor g [o.d.toNat] .general ++ align ++ perm) with
    | some tr => s.raise t g tr
    | none =>
      if m.lanes.any fun l => !(t.linePresent (addr l).toNat) then s.block t g .lines
      else if s.ownWrites t g then s
      else if s.releaseWaits t g m 4 then s.stayRelease t g m 4
      else
        Direct.andThen (s.lnchHeaders t (m.lanes.map queue)) t g 1 fun hs s =>
          let plan := lnchPlan [] hs
          Direct.andThen (s.lnchSlots t plan) t g 1 fun _ s =>
          if !(lnchRoom plan) then s.block t g .launchRoom
          else
            let packets := (plan.zip m.lanes).map fun (x, l) => (x.1, x.2.1, x.2.2, t.spadRead (addr l).toNat 128)
            Direct.andThen (s.lnchAll t packets) t g 1 fun _ s =>
              let st := (plan.zip m.lanes).map fun (x, l) => (l, x.1 * 2 ^ 26 + x.2.2 % 2 ^ 26)
              s.doneStatus t.id g o.d m st) s

end Sys2Proof.Machine
end

