-- ==== Sys2Proof/Machine/Matrix.lean ====
section
/-! DEFINITION. The matrix engine and its stream: MSET to MEND and the replay of weights (R84, R123, R124, R137 to R139,
R199, R273 to R291, R423). -/

namespace Sys2Proof.Machine

/-! ### Stream words -/

/-- The stream has ended, by MEND, by a trap or by `kill.team`. -/
def Team.streamOver (t : Team) : Bool := t.stream.all fun m => m.ended

/-- A trap ends the stream (R291); the trap's address is that of the word. A stream that has ended raises nothing. -/
def State.streamTrap (s : State) (tid : Nat) (va : DWord) (tr : Trap) : State :=
  if (s.team? tid).all Team.streamOver then s
  else
    (s.onTeam tid fun t => { t with stream := t.stream.map fun m =>
      { m with ended := true, weights := none, park := .none, owesReplay := false } }).engineTrap tid { tr with va := va }

/-- Execute a stream word given by what it does to the state. -/
def issueStream (f : State → Team → Stream → State) (s : State) : Result :=
  match s.word? with
  | none => .fault .noStream
  | some (t, m) => .next (f s t m)

/-- Put the stream back at its next word. -/
def State.wordDone (s : State) (t : Team) (m : Stream) : State :=
  s.setTeam { t with stream := some { m with pc := m.pc + 8, park := .none } }

def Stream.reg (m : Stream) (r : Nat) : Word := SMap.get 0#32 m.m r

def Stream.setReg (m : Stream) (r : Nat) (v : Word) : Stream := { m with m := SMap.set 0#32 m.m r v }

/-- The ILLEGAL of some broken conditions, then the others: the lowest cause (R118, R254). -/
def streamTraps (subs : List Sub) (others : List Trap) : Option Trap :=
  match Sub.lowest subs with
  | some x => some (illegalTrap x)
  | none => firstTrap others

/-- Run a word's checks, then its effect. -/
def checked (subs : List Sub) (others : List Trap) (k : State → Team → Stream → State) (s : State) (t : Team) (m : Stream) : State :=
  match streamTraps subs others with
  | some tr => s.streamTrap t.id m.pc tr
  | none => k s t m

/-! ### Sequencer words (R279) -/

def execMset (d : SF) (imm : BitVec 20) (s : State) : Result :=
  issueStream (fun s t m => s.wordDone t (m.setReg d.toNat (imm.setWidth 32))) s

def execMsetHi (d : SF) (imm : BitVec 12) (s : State) : Result :=
  issueStream (fun s t m => s.wordDone t (m.setReg d.toNat (imm ++ (m.reg d.toNat).extractLsb' 0 20))) s

/-- The second operand of MINC: a register, or a signed immediate. -/
def Stream.src (m : Stream) : Src → Word
  | .reg r => m.reg r.toNat
  | .imm10 i => i.signExtend 32
  | .imm32 i => i
  | .imm64 i => i.setWidth 32

def execMinc (d a : SF) (b : Src) (s : State) : Result :=
  issueStream (fun s t m => s.wordDone t (m.setReg d.toNat (m.reg a.toNat + m.src b))) s

def execMloop (d : SF) (off : BitVec 20) (s : State) : Result :=
  issueStream (fun s t m =>
    let v := m.reg d.toNat - 1
    let m := m.setReg d.toNat v
    if v == 0 then s.wordDone t m
    else s.setTeam { t with stream := some { m with pc := m.pc + off.signExtend 64 * 8, park := .none } }) s

/-- MEND (R57, R279). -/
def execMend (s : State) : Result :=
  issueStream (fun s t m => s.setTeam { t with stream := some { m with ended := true, weights := none, park := .none } }) s

/-! ### Barriers (R280) -/

/-- One stream arrival; `wait` says that the stream then waits for the phase it joined. -/
def streamArrive (k c : Nat) (wait : Bool) (s : State) (t : Team) (m : Stream) : State :=
  match barArrive (t.bar k) c with
  | none => s.streamTrap t.id m.pc (barrierTrap k c (t.bar k))
  | some (w, done) =>
    let park : StreamPark := if wait && !done then .bar k (barGen (t.bar k)) else .none
    (s.setTeam { t with stream := some { m with pc := m.pc + 8, park := park } }).setBarrier t.id k w done wait

def execMbarArrive (b : SF) (count : BitVec 10) (s : State) : Result :=
  issueStream (streamArrive b.toNat count.toNat false) s

def execMbarArriveWait (b : SF) (count : BitVec 10) (s : State) : Result :=
  issueStream (streamArrive b.toNat count.toNat true) s

/-- A wait that returns acquires (R280). -/
def execMbarWait (b a : SF) (s : State) : Result :=
  issueStream (fun s t m =>
    let k := b.toNat
    if barGen (t.bar k) != m.reg a.toNat then (s.wordDone t m).dropL1 t.die t.core t.ctx
    else s.setTeam { t with stream := some { m with pc := m.pc + 8, park := .bar k (m.reg a.toNat) } }) s

/-! ### Scratchpad operands -/

/-- Bytes per element (R274). -/
def elemSize (ty : Ty) : Nat := if ty == .f16x2 || ty == .bf16x2 then 2 else 1

/-- ALIGN for an operand at `off` of `n` bytes: a multiple of `al`, at least `lo`, within the scratchpad. -/
def spadOperand (t : Team) (off al lo n : Nat) : List Trap :=
  if off % al != 0 || off < lo || off + n > t.spadEnd then [alignTrap 1 0] else []

/-! ### MWLD (R281, R282) -/

/-- Bytes of the weight tile and of its side table. -/
def tileBytes (ty : Ty) : Nat := 4096 * elemSize ty

/-- The format takes E8 scales as a weight format (R274). -/
def takesScales (ty : Ty) : Bool := ty == .tp8x4 || ty == .e4m3x4 || ty == .e5m2x4

def sideBytes (ty : Ty) : Nat := if takesScales ty then 192 else 64

/-- The 64 permutation bytes are a permutation of 0 to 63. -/
def permOk (side : List Byte) : Bool :=
  let l := (side.take 64).map fun b => b.toNat
  decide l.Nodup && l.all fun x => decide (x < 64)

/-- Read the tile and the side table. -/
def Team.readWeights (t : Team) (ty : Ty) (a b : Word) : Weights :=
  { ty := ty, tileOff := a, sideOff := b, tile := t.spadRead a.toNat (tileBytes ty), side := t.spadRead b.toNat (sideBytes ty) }

def Team.weightsPresent (t : Team) (ty : Ty) (a b : Word) : Bool :=
  t.present a.toNat (tileBytes ty) && t.present b.toNat (sideBytes ty)

/-- Latch weights; the core's array holds this stream's (R275). -/
def State.latch (s : State) (t : Team) (m : Stream) (w : Weights) : State :=
  (s.setTeam { t with stream := some { m with weights := some w } }).onCore t.die t.core fun c => { c with array := some t.id }

/-- MWLD: it stalls while a line it reads is absent. -/
def execMwld (ty : Ty) (a b : SF) (s : State) : Result :=
  issueStream (fun s t m =>
    let ma := m.reg a.toNat
    let mb := m.reg b.toNat
    checked [] (spadOperand t ma.toNat 128 128 (tileBytes ty) ++ spadOperand t mb.toNat 64 128 (sideBytes ty)) (fun s t m =>
      if !(t.weightsPresent ty ma mb) then s
      else
        let w := t.readWeights ty ma mb
        if !(permOk w.side) then s.streamTrap t.id m.pc (illegalTrap .operand)
        else s.latch t { m with pc := m.pc + 8, park := .none } w) s t m) s

/-- MWLD_REPLAY (R267, R269, R275): the replay that a stream's word has called for, or that its resumption owes. It waits while a line
is absent. A replay that fails on resumption gives `sr.trapva` the stream's pc; of a stream that waits at an MBAR that is the word after
the MBAR, which has taken effect: DESIGN CHOICE (log 101). -/
def mwldReplay (tid : Nat) (s : State) : State :=
  match s.team? tid with
  | none => s
  | some t =>
    match t.stream with
    | none => s
    | some m =>
      match m.weights with
      | none => s
      | some w =>
        if m.ended || !m.owesReplay || t.place != .running || !(t.weightsPresent w.ty w.tileOff w.sideOff) then s
        else
          let w := t.readWeights w.ty w.tileOff w.sideOff
          if !(permOk w.side) then s.streamTrap tid m.pc (illegalTrap .operand)
          else s.latch t { m with owesReplay := false } w

def execMwldReplay (tid : Nat) (s : State) : Result := .next (mwldReplay tid s)

/-! ### MSTR (R137, R138, R283, R284) -/

/-- The row spec: rows and first tile row. -/
def rowSpec (w : Word) : Nat × Nat := (bits w.toNat 0 7, bits w.toNat 16 6)

def badRowSpec (w : Word) : Bool :=
  let (n, r0) := rowSpec w
  n < 1 || n > 64 || r0 + n > 64 || bits w.toNat 7 9 != 0 || bits w.toNat 22 10 != 0

/-- The element at place `i` of some bytes of a format, decoded. -/
def elemNum (ty : Ty) (l : List Byte) (i : Nat) : Num :=
  let z := elemSize ty
  let v := leNat ((l.drop (i * z)).take z)
  if ty == .tp8x4 then tp8 v else Num.decode (fmtOf ty) v

/-- A value under an E8 scale; 0xFF is a NaN block (R124). -/
def scaled8 (x : Num) (e : Nat) : Num := if e == 255 then .nan else x.scale ((e : Int) - 127)

/-- TruncWindow28 (R137): the magnitude in units of 2^lo. -/
def truncTo (lo : Int) : Num → Int
  | .fin s m e =>
    let x : Int := if e ≥ lo then ((m * 2 ^ (e - lo).toNat : Nat) : Int) else ((m / 2 ^ (lo - e).toNat : Nat) : Int)
    if s then -x else x
  | _ => 0

/-- The largest Expo of the nonzero values. -/
def maxLead : List Num → Option Int
  | [] => none
  | x :: r => match maxLead r with
    | none => if x.isZero then none else some x.lead
    | some e => if x.isZero then some e else some (max e x.lead)

/-- One group of R137: the accumulator with sixteen products. -/
def accGroup (acc : Num) (ps : List Num) : Num :=
  let vals := acc :: ps
  if vals.any Num.isNan then .nan
  else if vals.any (fun v => v.isInf && v.isNeg) && vals.any (fun v => v.isInf && !v.isNeg) then .nan
  else match vals.find? Num.isInf with
    | some v => v
    | none => match maxLead vals with
      | none => .zero
      | some e =>
        let lo := e - 27
        let sum := vals.foldl (fun a v => a + truncTo lo v) 0
        if sum == 0 then .zero else (step32 (.fin (decide (sum < 0)) sum.natAbs lo)).1

/-- D = A × B + C over products in weight-row order, sixteen at a time (R137). -/
def accumulate (acc : Num) (ps : List Num) : Num :=
  [0, 1, 2, 3].foldl (fun a g => accGroup a ((ps.drop (16 * g)).take 16)) acc

def negIf (b : Bool) (x : Num) : Num := if b then x.neg else x

/-- The tile word (R84). -/
def tileKey (k r c : Nat) : Nat := 4096 * k + 64 * r + c

def Team.tileWord (t : Team) (k r c : Nat) : Word := SMap.get 0#32 t.tiles (tileKey k r c)

/-- The activations of a row in weight-row order, each with its sign and scale. -/
def actRow (o : MstrOp) (perm row scales : List Byte) : List Num :=
  (List.range 64).map fun k =>
    let a := elemNum o.ty row ((perm.getD k 0).toNat)
    let a := if o.asc then scaled8 a ((scales.getD (k / 32) 0).toNat) else a
    negIf o.na a

/-- Column `c` of the weights in row order. -/
def weightCol (o : MstrOp) (w : Weights) (c : Nat) : List Num :=
  (List.range 64).map fun k =>
    let x := elemNum w.ty w.tile (64 * k + c)
    let x := if takesScales w.ty then scaled8 x ((w.side.getD (64 + 64 * (k / 32) + c) 0).toNat) else x
    negIf o.nb x

/-- A signed byte. -/
def s8At (l : List Byte) (i : Nat) : Int := (l.getD i 0).toInt

/-- One element of an S8 MSTR (R138). -/
def dotS8 (o : MstrOp) (w : Weights) (row : List Byte) (c : Nat) (acc : Word) : Word :=
  let sign : Int := if o.na != o.nb then -1 else 1
  let sum := (List.range 64).foldl (fun (a : Int) k =>
    a + sign * (s8At row ((w.side.getD k 0).toNat) * s8At w.tile (64 * k + c))) 0
  acc + BitVec.ofInt 32 sum

/-- One row of the output tile. -/
def Team.mstrRow (t : Team) (o : MstrOp) (w : Weights) (row scales : List Byte) (r : Nat) : List (Nat × Word) :=
  let k := o.d.toNat
  if o.ty == .s8x4 then
    (List.range 64).map fun c => (tileKey k r c, dotS8 o w row c (if o.zc then 0 else t.tileWord k r c))
  else
    let acts := actRow o w.side row scales
    (List.range 64).map fun c =>
      let ps := (acts.zip (weightCol o w c)).map fun (a, b) => (Num.mul a b).1
      let acc := if o.zc then Num.zero else Num.decode .f32 (t.tileWord k r c).toNat
      (tileKey k r c, BitVec.ofNat 32 (roundNE .f32 (accumulate acc ps)))

/-- Write tile words. -/
def Team.setTile (t : Team) (l : List (Nat × Word)) : Team :=
  { t with tiles := l.foldl (fun m x => SMap.set 0#32 m x.1 x.2) t.tiles }

/-- The rows of an MSTR, in injection order. -/
def Team.mstrRows (t : Team) (o : MstrOp) (w : Weights) (ma ms r0 : Nat) : Nat → Team
  | 0 => t
  | n + 1 =>
    let t := t.mstrRows o w ma ms r0 n
    let z := 64 * elemSize o.ty
    t.setTile (t.mstrRow o w (t.spadRead (ma + z * n) z) (t.spadRead (ms + 2 * n) 2) (r0 + n))

/-- The ILLEGAL conditions that MSTR finds when it runs (R283, R284). -/
def mstrSubs (t : Team) (m : Stream) (o : MstrOp) : List Sub :=
  (if badRowSpec (m.reg o.b.toNat) then [.operand] else [])
    ++ (if o.d.toNat ≥ t.acc then [.resource] else [])
    ++ (match m.weights with
        | none => [.resource]
        | some w => if (w.ty == .s8x4) != (o.ty == .s8x4) then [.type] else [])

/-- MSTR (R283, R284). It stalls while a line is absent, and while its arrival on a full barrier is not taken (R256); where the array
holds another stream's weights it calls for the replay of its own (R275). -/
def execMstr (o : MstrOp) (s : State) : Result :=
  issueStream (fun s t m =>
    let ma := (m.reg o.a.toNat).toNat
    let ms := (m.reg (o.a.toNat + 1)).toNat
    let (n, r0) := rowSpec (m.reg o.b.toNat)
    let z := 64 * elemSize o.ty
    checked (mstrSubs t m o) (spadOperand t ma 64 128 (z * n) ++ if o.asc then spadOperand t ms 64 128 (2 * n) else []) (fun s t m =>
      match m.weights with
      | none => s
      | some w =>
        if (s.core t.die t.core).array != some t.id then s.setTeam { t with stream := some { m with owesReplay := true } }
        else if !(t.present ma (z * n)) || (o.asc && !(t.present ms (2 * n))) then s
        else
          let k := o.k.toNat
          let arrival := if o.ebe then barEngine (t.bar k) else some (t.bar k, false)
          match arrival with
          | none => s
          | some (bw, done) =>
            let s := s.wordDone (t.mstrRows o w ma ms r0 n) m
            if o.ebe then s.setBarrier t.id k bw done else s) s t m) s

/-! ### MCFG (R285) -/

/-- The RESERVED conditions of the control word. -/
def badControl (w : Nat) : Bool :=
  bits w 32 32 != 0 || w.testBit 0 || (bits w 5 2 == 3 && w.testBit 3) || bits w 10 22 % 64 != 0

def execMcfg (a : SF) (s : State) : Result :=
  issueStream (fun s t m =>
    let ma := (m.reg a.toNat).toNat
    checked [] (spadOperand t ma 16 128 16) (fun s t m =>
      if !(t.present ma 16) then s
      else
        let w := leNat (t.spadRead ma 8)
        if badControl w then s.streamTrap t.id m.pc (illegalTrap .reserved)
        else s.wordDone t { m with ctl := BitVec.ofNat 64 w, seed := BitVec.ofNat 64 (leNat (t.spadRead (ma + 8) 8)) }) s t m) s

/-! ### MEPI (R286 to R288) -/

/-- The output formats of CFMT. -/
def cfmtOf (n : Nat) : Fmt := match n with | 0 => .f32 | 1 => .bf16 | 2 => .f16 | _ => .e4m3fmt

def f32Const (b : Nat) : Num := Num.decode .f32 b

/-- FTANH as an F32 value. -/
def tanh32 (z : Num) : Num := Num.decode .f32 (ftanhVal (roundNE .f32 z)).1

/-- The activation stage (R288). -/
def actStage (kind : Nat) (x : Num) : Num :=
  let half := Num.fin false 1 (-1)
  match kind with
  | 0 => if x.isNan then .nan else if Num.lt .zero x then x else .zero
  | 1 =>
    let u := (mul32 x x).1
    let v := (fma32 (f32Const 0x3D372713) u (Num.ofInt 1)).1
    let z := (mul32 (f32Const 0x3F4C422A) (mul32 x v).1).1
    let h := (mul32 half x).1
    (fma32 h (tanh32 z) h).1
  | _ =>
    let h := (mul32 half x).1
    (fma32 h (tanh32 h) h).1

/-- Maximum and minimum with −0 below +0 and NaN winning (R287). -/
def max32 (a b : Num) : Num :=
  if a.isNan || b.isNan then .nan
  else if Num.lt a b then b else if Num.lt b a then a else if a.isNeg then b else a

def min32 (a b : Num) : Num :=
  if a.isNan || b.isNan then .nan
  else if Num.lt a b then a else if Num.lt b a then b else if a.isNeg then a else b

/-- The enabled stages of one element (R287); `vec` gives the F32 at an offset of the vector block. -/
def epilogue (ctl : Nat) (vec : Nat → Num) (c : Nat) (x : Num) : Num :=
  let scale := ctl.testBit 1
  let bias := ctl.testBit 2
  let x := if scale && bias then (fma32 x (vec (4 * c)) (vec (256 + 4 * c))).1
    else if scale then (mul32 x (vec (4 * c))).1
    else if bias then (add32 x (vec (256 + 4 * c))).1
    else x
  let x := if ctl.testBit 3 then actStage (bits ctl 5 2) x else x
  if ctl.testBit 4 then min32 (max32 x (vec 512)) (vec 516) else x

/-- The parts of the vector block that the enabled stages read (R286). -/
def vecParts (ctl : Nat) : List (Nat × Nat) :=
  (if ctl.testBit 1 then [(0, 256)] else []) ++ (if ctl.testBit 2 then [(256, 256)] else [])
    ++ (if ctl.testBit 4 then [(512, 8)] else [])

/-- One output element's bits. -/
def mepiElem (t : Team) (m : Stream) (k r c : Nat) (s32in : Bool) (tag : Word) : Nat :=
  let ctl := m.ctl.toNat
  let voff := bits ctl 10 22
  let vec := fun o => Num.decode .f32 (leNat (t.spadRead (voff + o) 4))
  let w := t.tileWord k r c
  let x := if s32in then (step32 (Num.ofInt w.toInt)).1 else Num.decode .f32 w.toNat
  let x := epilogue ctl vec c x
  let f := cfmtOf (bits ctl 7 2)
  let idx := tag.setWidth 64 * 4096 + BitVec.ofNat 64 (64 * r + c)
  (roundTo f (if ctl.testBit 9 then .sr (srBits m.seed idx f.code) else .rne) x).1

/-- The bytes of one output row. -/
def mepiRow (t : Team) (m : Stream) (k r : Nat) (s32in : Bool) (tag : Word) : List Byte :=
  let z := (cfmtOf (bits m.ctl.toNat 7 2)).width / 8
  (List.range 64).flatMap fun c => leBytes z (mepiElem t m k r c s32in tag)

/-- Drain rows into scratchpad; every row reads the vector block as it stood when MEPI began. -/
def mepiRows (t0 : Team) (m : Stream) (k ma r0 : Nat) (s32in : Bool) (tag : Word) : Nat → Team
  | 0 => t0
  | n + 1 =>
    let row := mepiRow t0 m k (r0 + n) s32in tag
    (mepiRows t0 m k ma r0 s32in tag n).spadWrite (ma + row.length * n) row

/-- MEPI. It stalls while a line that it reads is absent. -/
def execMepi (d a b : SF) (s32in : Bool) (s : State) : Result :=
  issueStream (fun s t m =>
    let ma := (m.reg a.toNat).toNat
    let (n, r0) := rowSpec (m.reg b.toNat)
    let ctl := m.ctl.toNat
    let z := 8 * (cfmtOf (bits ctl 7 2)).width
    let voff := bits ctl 10 22
    let parts := vecParts ctl
    checked
      ((if badRowSpec (m.reg b.toNat) then [.operand] else []) ++ if d.toNat ≥ t.acc then [.resource] else [])
      (spadOperand t ma 64 0 (z * n)
        ++ (if parts.any fun p => voff + p.1 + p.2 > t.spadEnd then [alignTrap 1 0] else [])
        ++ (if ma < 128 then [permTrap 5] else []))
      (fun s t m =>
        if parts.any fun p => !(t.present (voff + p.1) p.2) then s
        else s.wordDone (mepiRows t m d.toNat ma r0 s32in (m.reg (a.toNat + 1)) n) m) s t m) s

end Sys2Proof.Machine
end

