-- ==== Sys2Proof/Machine/Placing.lean ====
section
/-! DEFINITION. What a die's front end may place and in which order (R54 to R63, R88, R89, R224, R225, R231 to R233, R336), and
the placing of a new team. -/

namespace Sys2Proof.Machine

/-! ### Cores (R54, R55, R89, R336) -/

/-- A core that runs compute in the die's present band (R336). -/
def Die.computeCore (d : Die) (n : Nat) : Bool :=
  decide (n < 96) && (d.band == 0 || d.band == 1 || (d.band == 3 && n % 8 == 0))

/-- Teams may be placed: in WARM_IDLE, RUN and RETREAT, and in DRAIN those that were swapped out (R337, R338). -/
def Die.places (d : Die) (swapped : Bool) : Bool :=
  d.thermal == .warmIdle || d.thermal == .run || d.thermal == .retreat || (swapped && d.thermal == .drain)

def Team.units (t : Team) : Nat := t.reg + t.scr + t.acc

/-- The lowest address at which `n` units fit beside some runs (R89); the candidates are 0 and the ends of the runs. -/
def freeRun (used : List (Nat × Nat)) (n : Nat) : Option Nat :=
  let ok := fun b => decide (b + n ≤ 256) && used.all fun u => decide (b + n ≤ u.1) || decide (u.1 + u.2 ≤ b)
  ((0 :: used.map fun u => u.1 + u.2).filter ok).min?

/-- How many of the groups 0 to `n - 1` of a team with base slot `b` issue from slot `k` (R54). -/
def slotShare (b n k : Nat) : Nat := ((List.range n).filter fun g => (b + g) % 4 == k).length

/-- Where a team would stand on a core. -/
structure Spot where
  slot : Nat
  base : Nat
  unit : Nat
deriving DecidableEq, Repr

/-- The lowest-numbered position of the least of four counts. -/
def leastOf (l : List Nat) : Nat :=
  (List.range l.length).foldl (fun b i => if l.getD i 0 < l.getD b 0 then i else b) 0

/-- The conditions of R55 for a core, with the teams in `gone` taken away. -/
def State.fit (s : State) (die core units ngroups : Nat) (gone : List Nat) : Option Spot :=
  let rs := (s.residents die core).filter fun t => !(gone.contains t.id)
  let counts := (List.range 4).map fun k => (rs.map fun t => slotShare t.base t.ngroups k).sum
  let b := leastOf counts
  let slots := (List.range 8).filter fun k => rs.all fun t => t.slot != k
  if !((s.die die).computeCore core) || !((List.range 4).all fun k => decide (counts.getD k 0 + slotShare b ngroups k ≤ 16)) then none
  else match slots.head?, freeRun (rs.map fun t => (t.unit, t.units)) units with
    | some k, some u => some { slot := k, base := b, unit := u }
    | _, _ => none

/-! ### Rectangles (R59 to R61) -/

/-- The core of a logical position in a rectangle with a corner, as written or transposed; none outside the mesh. -/
def rectCore (cw ch : Nat) (tr : Bool) (corner pos : Nat) : Option Nat :=
  let cols := if tr then ch else cw
  let rows := if tr then cw else ch
  let x := pos % cw
  let y := pos / cw
  let px := if tr then y else x
  let py := if tr then x else y
  if corner % 12 + cols ≤ 12 && corner / 12 + rows ≤ 8 then some (corner + px + 12 * py) else none

/-- What is to be placed together. -/
structure Job where
  ctx : Nat
  cls : Nat
  cw : Nat
  ch : Nat
  positions : List Nat
  units : Nat
  ngroups : Nat
  swapped : Bool
deriving DecidableEq, Repr

/-- The spots of a job in one rectangle: position, core and spot of each of its teams. -/
def State.fitRect (s : State) (die : Nat) (j : Job) (tr : Bool) (corner : Nat) (gone : List Nat) : Option (List (Nat × Nat × Spot)) :=
  let spots := j.positions.map fun p => match rectCore j.cw j.ch tr corner p with
    | some c => (s.fit die c j.units j.ngroups gone).map fun x => (p, c, x)
    | none => none
  if spots.all Option.isSome then some (spots.filterMap id) else none

/-- Some rectangle of the given form fits. -/
def State.fitsForm (s : State) (die : Nat) (j : Job) (tr : Bool) (gone : List Nat) : Bool :=
  (List.range 96).any fun c => (s.fitRect die j tr c gone).isSome

def State.fitsSome (s : State) (die : Nat) (j : Job) (gone : List Nat) : Bool :=
  s.fitsForm die j false gone || s.fitsForm die j true gone

/-- The spots with a given corner: the transposed form only where no rectangle fits as written (R59). -/
def State.fitAt (s : State) (die : Nat) (j : Job) (corner : Nat) : Option (List (Nat × Nat × Spot)) :=
  if s.fitsForm die j false [] then s.fitRect die j false corner []
  else s.fitRect die j true corner []

/-- The cores of a rectangle all run compute (R224, held candidates). -/
def Die.rectComputes (d : Die) (j : Job) (tr : Bool) (corner : Nat) : Bool :=
  j.positions.all fun p => match rectCore j.cw j.ch tr corner p with
    | some c => d.computeCore c
    | none => false

/-- No set of the die's cores that run compute in the present band can take the job. -/
def Die.holds (d : Die) (j : Job) : Bool :=
  !((List.range 96).any fun c => d.rectComputes j false c || d.rectComputes j true c)

/-! ### Jobs -/

/-- The smallest REG of R88. -/
def leastReg (ngroups rows : Nat) : Nat := (ngroups * (5120 + 128 * rows) + 128 + 16383) / 16384

def NodeInfo.reg (n : NodeInfo) : Nat := leastReg n.ngroups n.rows
def NodeInfo.units (n : NodeInfo) : Nat := n.reg + n.scr + n.acc

/-- The unretired teams of a team's cluster, itself among them (R61). -/
def State.peers (s : State) (t : Team) : List Team :=
  if t.cw * t.ch == 1 then [t]
  else s.teams.filter fun u => u.launch == t.launch && u.cluster == t.cluster && u.die == t.die && u.node.isNone

def Team.pos (t : Team) : Nat := t.cx + t.cw * t.cy

/-- An empty core could take the job's teams (R231). Of a node's record only this is asked: R230 and R231 name no refusal of a SCRATCH above
128, an ACC above 16 or a GENERAL outside 1 to 256, and the values are taken as they stand: DESIGN CHOICE (log 91). -/
def emptyFits (units ngroups : Nat) : Bool := decide (units ≤ 256) && decide (ngroups ≤ 64)

def State.launchLeft (_ : State) (l : Launch) (die : Nat) : Bool := decide (l.next.getD die 0 < l.last.getD die 0)

/-- SERIAL: every earlier packet of the queue has retired (R220). -/
def State.serialOk (s : State) (l : Launch) : Bool :=
  !l.serial || !(s.launches.any fun x => x.partition == l.partition && x.queue == l.queue && x.index < l.index && x.done.isNone)

def State.job (s : State) (c : Cand) : Option Job :=
  match c with
  | .team tid => (s.team? tid).map fun t =>
    { ctx := t.ctx, cls := t.eff, cw := t.cw, ch := t.ch, positions := (s.peers t).map Team.pos, units := t.units
      ngroups := t.ngroups, swapped := true }
  | .launch l => (s.launch? l).map fun l =>
    { ctx := l.ctx, cls := l.cls, cw := l.cw, ch := l.ch, positions := List.range (l.cw * l.ch), units := l.reg + l.scr + l.acc
      ngroups := l.ngroups, swapped := false }
  | .batch l b =>
    match s.launch? l with
    | none => none
    | some l =>
      match l.graph with
      | none => none
      | some g =>
        match g.batches.find? fun x => x.id == b with
        | none => none
        | some x => (g.nodes[x.node]?).map fun n =>
          { ctx := l.ctx, cls := l.cls, cw := 1, ch := 1, positions := [0], units := n.units, ngroups := n.ngroups, swapped := false }

/-! ### Candidates (R224) -/

/-- Insertion sort by a key, keeping the order of equal keys. -/
def insertBy {α : Type} (key : α → Nat × Nat × Nat) (x : α) : List α → List α
  | [] => [x]
  | y :: r =>
    let a := key x
    let b := key y
    if a.1 < b.1 || (a.1 == b.1 && (a.2.1 < b.2.1 || (a.2.1 == b.2.1 && a.2.2 < b.2.2))) then x :: y :: r
    else y :: insertBy key x r

def sortBy {α : Type} (key : α → Nat × Nat × Nat) (l : List α) : List α := l.foldl (fun acc x => insertBy key x acc) []

/-- The candidate to be placed first still waits (R489). -/
def State.waitsAfter (s : State) (t : Team) : Bool :=
  match t.after with
  | some c => (s.job c).isSome
  | none => false

/-- A swapped cluster is ready: all of it is caged and ready, and none of it is halted (R61, R264). That the cluster waits until the event
of every member has arrived is a DESIGN CHOICE (log 70): the spec states when one team is ready, and that a cluster resumes as a whole. -/
def State.clusterReady (s : State) (t : Team) : Bool :=
  (s.peers t).all fun u => u.place == .caged false && u.readyAt.isSome && !u.halted && !(s.waitsAfter u)

/-- A candidate with its class and its place in the order within its part of R224. -/
structure Listed where
  cand : Cand
  cls : Nat
  k1 : Nat
  k2 : Nat
deriving DecidableEq, Repr

def Listed.key (x : Listed) : Nat × Nat × Nat := (x.cls, x.k1, x.k2)

/-- Ready swapped teams, and promoted launches (R244), by class and by the tick at which they became ready. -/
def State.readyCands (s : State) (die : Nat) : List Listed :=
  let ts := s.teams.filter fun t => t.die == die && s.clusterReady t && (s.peers t).all fun u => t.id ≤ u.id
  let a := ts.map fun t => Listed.mk (.team t.id) t.eff (((s.peers t).map fun u => u.readyAt.getD 0).foldl max 0) 0
  let b := s.launches.flatMap fun l =>
    if l.done.isNone && s.launchLeft l die && s.serialOk l then
      (l.promoted.filter fun x => x.1 == die).map fun x => Listed.mk (.launch l.id) l.cls x.2 0
    else []
  sortBy Listed.key (a ++ b)

/-- Node teams that count against CAP (R233). -/
def State.nodeTeams (s : State) (l node : Nat) : Nat :=
  (s.teams.filter fun t => t.launch == l && t.node == some node && !t.byRelief).length

/-- The closed batches of a die that may be launched. -/
def State.batchCands (s : State) (die : Nat) (l : Launch) (g : Graph) : List (Cand × Nat) :=
  (g.batches.filter fun b => b.die == die && b.closedAt.isSome && (match g.nodes[b.node]? with
    | some n => n.cap == 0 || decide (s.nodeTeams l.id b.node < n.cap)
    | none => false)).map fun b => (.batch l.id b.id, b.closedAt.getD 0)

/-- Unstarted clusters and batches of one launch, with the tick from which they count. -/
def State.launchCands (s : State) (die : Nat) (l : Launch) : List (Cand × Nat) :=
  if l.done.isSome then []
  else
    (if s.launchLeft l die && s.serialOk l && !(l.promoted.any fun x => x.1 == die) then [(.launch l.id, l.acceptedAt)] else [])
      ++ (match l.graph with
          | some g => s.batchCands die l g
          | none => [])

/-- Among one queue's candidates of a class, their order by the tick from which they count. -/
def queueOrder (l : List (Cand × Nat)) : List Cand := (sortBy (fun x => (x.2, 0, 0)) l).map fun x => x.1

/-- Clove or anise candidates: one from each queue in turn, from a queue on (R224). -/
def State.turnCands (s : State) (die cls turn : Nat) : List Listed :=
  let ls := s.launches.filter fun l => l.cls == cls
  let qs := List.range 64
  let l := qs.flatMap fun i =>
    let q := (turn + i) % 64
    (queueOrder ((ls.filter fun l => l.queue == q).flatMap fun l => s.launchCands die l)).zipIdx.map fun (c, n) => Listed.mk c cls n i
  sortBy Listed.key l

/-- Saffron candidates by DEADLINE and queue number. -/
def State.saffronCands (s : State) (die : Nat) : List Listed :=
  sortBy Listed.key ((s.launches.filter fun l => l.cls == 0).flatMap fun l =>
    (s.launchCands die l).map fun c => Listed.mk c.1 0 l.deadline l.queue)

/-- GTIME has reached DEADLINE - U of a saffron launch (R226). -/
def State.launchUrgent (s : State) (l : Launch) : Bool :=
  let u := match s.partition? l.partition with
    | some p => p.urgency
    | none => 0
  l.cls == 0 && decide (s.gtime + u ≥ l.deadline)

/-- The candidate, a cluster or a batch that has not been placed, is urgent (R224, R226). -/
def State.isUrgent (s : State) (c : Cand) : Bool :=
  match c with
  | .launch l => (s.launch? l).any s.launchUrgent
  | .batch l _ => (s.launch? l).any s.launchUrgent
  | .team _ => false

/-- A die of the die's partition is in TRANSIT, which stops placing in WARM_IDLE (R341). -/
def State.transitStops (s : State) (die : Nat) : Bool :=
  (s.die die).thermal == .warmIdle && s.partitions.any fun p => p.dies.contains die && p.dies.any fun d => (s.die d).band == 2

/-- The front end may place the candidate now, apart from room. -/
def State.mayPlace (s : State) (die : Nat) (c : Cand) : Bool :=
  match s.job c with
  | some j => (s.die die).places j.swapped && !(s.transitStops die) && !((s.die die).holds j)
  | none => false

/-- All candidates of a die in the order in which the front end considers them: an urgent one is first (R226, R227). -/
def State.candidates (s : State) (die : Nat) : List Listed :=
  let x := s.die die
  let l := s.readyCands die ++ s.saffronCands die ++ s.turnCands die 1 x.turnClove ++ s.turnCands die 2 x.turnAnise
  let l := l.filter fun c => s.mayPlace die c.cand
  (l.filter fun c => s.isUrgent c.cand) ++ l.filter fun c => !(s.isUrgent c.cand)

/-- The starved candidates of a die that block their classes and lower ones now (R224): one that is gone or held blocks nothing. -/
def State.blockers (s : State) (die : Nat) : List Listed :=
  (s.candidates die).filter fun x => (s.die die).blocking.contains x.cand

/-- What is left of the candidates beside those that block (R224). -/
def State.considered (s : State) (die : Nat) : List Listed :=
  (s.candidates die).filter fun x => (s.blockers die).all fun b => x.cand == b.cand || decide (x.cls < b.cls)

/-- The first candidate that fits, and those before it. -/
def State.firstFit (s : State) (die : Nat) : List Listed → List Cand → Option (Cand × List Cand)
  | [], _ => none
  | x :: r, skipped =>
    match s.job x.cand with
    | some j => if s.fitsSome die j [] then some (x.cand, skipped) else s.firstFit die r (skipped ++ [x.cand])
    | none => s.firstFit die r skipped

/-- Candidates that were passed over count as skipped from now on, and held ones do not (R224). -/
def State.noteSkipped (s : State) (die : Nat) (l : List Cand) : State :=
  s.onDie die fun d =>
    let kept := d.skipped.filter fun x => s.mayPlace die x.1
    { d with skipped := kept ++ ((l.filter fun c => !(kept.any fun x => x.1 == c)).map fun c => (c, s.gtime)) }

/-! ### New teams (R52, R56, R60, R78, R231, R232, R335) -/

/-- A newly placed group (R56, R78). -/
def newGroup (code : DWord) (rows n : Nat) : Group :=
  { num := n, rows := rows, frontier := [{ pc := code, prio := 255, lanes := 0xFFFFFFFF }] }

/-- The matrix sequencer at the first word of its stream (R84, R276). -/
def newStream (mstream : DWord) : Option Stream := if mstream == 0 then none else some { pc := mstream }

/-- Team `idx` of a launch on a spot. -/
def newTeam (id : Nat) (l : Launch) (idx die core now : Nat) (x : Spot) : Team :=
  let n := l.cw * l.ch
  { id := id, launch := l.id, ctx := l.ctx, cls := l.cls, lid := l.lid, det := l.det, die := die, core := core, slot := x.slot
    base := x.base, unit := x.unit, reg := l.reg, scr := l.scr, acc := l.acc, index := idx
    x := BitVec.ofNat 32 (idx % l.gx), y := BitVec.ofNat 32 (idx / l.gx % l.gy), z := BitVec.ofNat 32 (idx / (l.gx * l.gy))
    cluster := idx / n, cx := idx % n % l.cw, cy := idx % n / l.cw, cw := l.cw, ch := l.ch
    code := l.code, live := l.live, mstream := l.mstream, rows := l.rows, ngroups := l.ngroups, windows := l.windows
    xfCount := l.xfCount, xfAddr := l.xfAddr, groups := (List.range l.ngroups).map (newGroup l.code l.rows)
    stream := if l.xfCount == 0 then newStream l.mstream else none
    place := if l.xfCount == 0 then .running else .prologue
    placedAt := now, eff := l.cls, begun := l.xfCount == 0 }

/-- The batch block (R232). -/
def batchBlock (b : Batch) : List Byte :=
  leBytes 4 b.recs.length ++ leBytes 2 b.node ++ [0, 0] ++ leBytes 8 (b.closedAt.getD 0) ++ b.recs.flatMap fun r => leBytes 8 r.toNat

/-- The team of a batch (R231, R335). -/
def nodeTeam (id : Nat) (l : Launch) (g : Graph) (b : Batch) (n : NodeInfo) (core now : Nat) (x : Spot) : Team :=
  { id := id, launch := l.id, ctx := l.ctx, cls := l.cls, lid := l.lid, det := l.det, node := some b.node, batch := b.id
    batchSlots := b.recs.filterMap g.slotOf, die := b.die, core := core, slot := x.slot, base := x.base, unit := x.unit
    reg := n.reg, scr := n.scr, acc := n.acc, index := 0, x := 0, y := 0, z := 0, cluster := 0, cx := 0, cy := 0, cw := 1, ch := 1
    code := n.code, live := n.live, mstream := n.mstream, rows := n.rows, ngroups := n.ngroups
    windows := l.windows.take 7 ++ [some (.block (batchBlock b))]
    groups := (List.range n.ngroups).map (newGroup n.code n.rows), stream := newStream n.mstream, place := .running
    placedAt := now, eff := l.cls, begun := true }

/-- A team comes onto a core: R77's count starts again, and its start acquires (R200, R201). -/
def State.arriveOn (s : State) (die core ctx : Nat) : State :=
  (s.onCore die core fun c => { c with countFrom := some (s.die die).cycles }).dropL1 die core ctx

/-- A deterministic team runs on a die in RETREAT, which is posted to the host (R346). -/
def State.postRetreat (s : State) (die : Nat) : State :=
  if (s.die die).thermal == .retreat && s.teams.any (fun t => t.die == die && t.det && t.place.resident) then s.addLog (.retreatDet die)
  else s

/-- Add a new team; its core sees the code as it stands (R99). -/
def State.addTeam (s : State) (t : Team) : State :=
  let s := { s with teams := s.teams ++ [t] }
  let s := (s.arriveOn t.die t.core t.ctx).dropCode t.die t.core t.ctx
  if t.det then s.postRetreat t.die else s

/-- A launch has started: entries it owns run (R432). -/
def State.startLaunch (s : State) (l : Launch) : State :=
  let s := s.onLaunch l.id fun x => { x with started := true }
  (s.own.filter fun e => e.owner == .packet l.partition l.queue l.index && e.state == .unstarted).foldl
    (fun s e => s.setEntry { e with state := .running }) s

/-- The candidate has been placed on a die: what waited for it there (R489), or counted it as skipped, does so no more. -/
def State.candPlaced (s : State) (die : Nat) (c : Cand) : State :=
  let s : State := { s with teams := s.teams.map fun (t : Team) =>
    if t.die == die && t.after == some c then { t with after := none } else t }
  s.onDie die fun d =>
    { d with skipped := d.skipped.filter fun x => x.1 != c, blocking := d.blocking.filter fun x => x != c }

/-- The next queue's turn (R224). A cluster or batch that relief or a promotion has placed takes its queue's turn like any other, which R224
does not say: DESIGN CHOICE (log 96). -/
def State.passTurn (s : State) (die : Nat) (l : Launch) : State :=
  s.onDie die fun d =>
    if l.cls == 1 then { d with turnClove := (l.queue + 1) % 64 }
    else if l.cls == 2 then { d with turnAnise := (l.queue + 1) % 64 }
    else d

/-- Place the next cluster of a launch (R60, R63); relief gives the depth, the entry and the class. -/
def State.placeLaunch (s : State) (l : Launch) (die : Nat) (spots : List (Nat × Nat × Spot)) (f : Team → Team) : State :=
  let k := l.next.getD die 0
  let n := l.cw * l.ch
  let s := spots.foldl (fun (s : State) x =>
    let (i, s) := s.fresh
    s.addTeam (f (newTeam i l (k * n + x.1) die x.2.1 s.gtime x.2.2))) s
  let s := s.startLaunch l
  let s := s.onLaunch l.id fun x => { x with
    next := x.next.set die (k + 1), promoted := x.promoted.filter fun y => y.1 != die }
  (s.passTurn die l).candPlaced die (.launch l.id)

/-- Launch a batch (R233). -/
def State.placeBatch (s : State) (l : Launch) (g : Graph) (b : Batch) (n : NodeInfo) (core : Nat) (x : Spot) (f : Team → Team) :
    State :=
  let (i, s) := s.fresh
  let s := s.addTeam (f (nodeTeam i l g b n core s.gtime x))
  let s := s.onGraph l.id fun g => { g with batches := g.batches.filter fun y => y.id != b.id }
  (s.passTurn b.die l).candPlaced b.die (.batch l.id b.id)

end Sys2Proof.Machine
end

