-- ==== Sys2Proof/Machine/Tile.lean ====
section
/-! DEFINITION. Tile output: TILEB, its fill, and TILEF (R127, R166, R241, R293, R312 to R314, R318 to R323, R332, R478 to
R480). -/

namespace Sys2Proof.Machine

/-! ### Descriptors (R318 to R320) -/

/-- The descriptor's fields; none where R320 makes it RESERVED. -/
def parseFb (l : List Byte) : Option FrameBuf :=
  let n := leNat l
  let fb : FrameBuf :=
    { base := BitVec.ofNat 64 (bits n 0 64), fmt := bits n 64 3, cmpr := n.testBit 67, tw := bits n 96 16, th := bits n 112 16
      clear := leBytes 8 (bits n 128 64), sigbase := BitVec.ofNat 64 (bits n 192 64) }
  if bits n 256 256 != 0 || bits n 68 28 != 0 || fb.fmt > 1 || fb.tw == 0 || fb.th == 0 || bits n 0 8 != 0 || bits n 192 4 != 0
  then none else some fb

def tileX (w : Word) : Nat := bits w.toNat 0 16
def tileY (w : Word) : Nat := bits w.toNat 16 16

/-- Tile index, its data, and its signature entry (R319). -/
def FrameBuf.tileIndex (fb : FrameBuf) (w : Word) : Nat := tileY w * fb.tw + tileX w
def FrameBuf.tileSize (fb : FrameBuf) : Nat := if fb.fmt == 0 then 1024 else 2048
def FrameBuf.tileVa (fb : FrameBuf) (w : Word) : DWord := fb.base + BitVec.ofNat 64 (fb.tileIndex w * fb.tileSize)
def FrameBuf.sigVa (fb : FrameBuf) (w : Word) : DWord := fb.sigbase + BitVec.ofNat 64 (16 * fb.tileIndex w)

/-- Read a descriptor and check it against a tile (R320). -/
def State.readFb (s : State) (t : Team) (va : DWord) (tile : Word) : Direct FrameBuf × State :=
  if va.toNat % 64 != 0 then (.trap (alignTrap 0 va), s)
  else match s.directRead t.ctx t.die va 64 with
    | (.ok l, s) => match parseFb l with
      | none => (.trap (illegalTrap .reserved), s)
      | some fb => if tileX tile ≥ fb.tw || tileY tile ≥ fb.th then (.trap (alignTrap 0 va), s) else (.ok fb, s)
    | (.trap tr, s) => (.trap tr, s)
    | (.fault c va, s) => (.fault c va, s)
    | (.wait, s) => (.wait, s)

/-! ### Ownership (R241, R293) -/

/-- The team that owns the tile whose signature entry is at a system address. -/
def State.tileOwner (s : State) (sa : Nat) : Option Nat := (s.tileOwners.find? fun x => x.1 == sa).map fun x => x.2

/-- The entry of kind 3 that a waiter of a tile waits on, if there is one it may wait on. -/
def State.tileEntry (s : State) (ctx owner sa : Nat) : Option Nat :=
  match s.team? owner with
  | none => none
  | some u =>
    match u.cov.bound with
    | some b => if u.ctx == ctx && b.sigSa == sa then b.own else none
    | none => none

/-- The entry that a waiting TILEB is counted on. -/
def Group.tileWait (g : Group) : Option Nat :=
  match g.park with
  | .retry (.tile e) => e
  | _ => none

/-- A TILEB waits on another team's tile: it counts once in WAITERS of its entry. -/
def State.waitTile (s : State) (t : Team) (g : Group) (e : Option Nat) : State :=
  if g.tileWait == e && g.park == .retry (.tile e) then s
  else
    let s := match g.tileWait with
      | some o => s.leaveFor t.id g.num o
      | none => s
    let s := match e with
      | some n => s.joinFor t.id g.num n
      | none => s
    s.onGroup t.id g.num fun g => g.parkAs s.gtime (.retry (.tile e))

/-- A TILEB that goes on waiting, but no longer on the tile's entry, leaves it (R240). -/
def State.leaveTile (s : State) (t : Team) (g : Group) : State × Team :=
  match g.tileWait with
  | none => (s, t)
  | some e =>
    let s := s.leaveFor t.id g.num e
    (s, (s.team? t.id).getD t)

/-- Take ownership of a tile, with an entry of kind 3 where the area has room. Answers the entry. -/
def State.takeTile (s : State) (t : Team) (sa : Nat) (va : DWord) : Option Nat × State :=
  let s := { s with tileOwners := (sa, t.id) :: s.tileOwners }
  match s.freeIndex t.ctx with
  | none => (none, s)
  | some i =>
    let (e, s) := s.createEntry
      { id := 0, ctx := t.ctx, index := i, die := dieOfPhys (saPhys sa), obj := va57 va, kind := 3, state := .running, waiters := 0
        owner := .team t.id, olid := t.lid, oindex := BitVec.ofNat 32 t.index }
    (some e, s)

/-- A caged TILEB waiter without an entry becomes ready when a tile is released (R249, R250). -/
def State.readyTileWaiters (s : State) : State :=
  { s with teams := s.teams.map fun t =>
      if t.place.left && t.readyAt.isNone && !t.halted && t.relievedBy.isNone && t.groups.any (fun g => g.park == .retry (.tile none))
      then { t with readyAt := some s.gtime } else t }

/-- The lines of a colour buffer that its fill has not written are absent only until the tile is released (R479). -/
def Team.dropFill (t : Team) (b : Bound) : Team :=
  { t with absent := (List.range 16).foldl (fun m i =>
      if SMap.get 0 m (b.coff / 128 + i) == b.fillId + 1 then SMap.set 0 m (b.coff / 128 + i) 0 else m) t.absent }

/-- Release the bound tile: its entry takes the given state, and the accumulator is freed. -/
def State.releaseTile (s : State) (tid : Nat) (st : OwnState) : State :=
  match s.team? tid with
  | none => s
  | some t =>
    match t.cov.bound with
    | none => s
    | some b =>
      let s := s.onTeam tid fun t => { (t.dropFill b) with cov := {} }
      let s : State := { s with tileOwners := s.tileOwners.filter fun x => !(x.1 == b.sigSa && x.2 == tid) }
      let s := match b.own with
        | some e => s.closeEntry e st
        | none => s
      s.readyTileWaiters

/-! ### TILEB (R478, R479) -/

/-- The colour buffer is misplaced (R293). -/
def coffTraps (t : Team) (coff : Nat) : List Trap :=
  if coff % 128 != 0 || coff < 128 || coff + 2048 > t.spadEnd then [alignTrap 1 (BitVec.ofNat 64 coff)] else []

/-- The lines of the colour buffer, absent until the fill writes them. -/
def Team.owePixels (t : Team) (coff id : Nat) : Team :=
  (List.range 16).foldl (fun t i => t.clearLine (coff / 128 + i) id) t

/-- Both steps have succeeded: bind the tile (R293). Ownership acquires at `.dev` (R200). -/
def State.bindTile (s : State) (tid : Nat) (g : Group) (o : TilebOp) (load : Bool) (desc : DWord) (tile : Word) (fb : FrameBuf)
    (sa : Nat) : State :=
  match s.team? tid with
  | none => s
  | some t =>
    let s := match g.tileWait with
      | some e => s.leaveFor tid g.num e
      | none => s
    let (own, s) := s.takeTile t sa (fb.sigVa tile)
    let (fid, s) := s.fresh
    let b : Bound :=
      { coff := o.coff.toNat, tile := tile, desc := desc, fb := fb, sigSa := sa, own := own, load := load, fill := List.range 16
        fillId := fid, grp := g.num, lanes := s.cur.lanes, handler := s.cur.handler }
    (s.onTeam tid fun t =>
      let t := (t.owePixels o.coff.toNat fid).setGroup (g.advance s.cur)
      { t with cov := { bound := some b, acc := true } }).dropL1 t.die t.core t.ctx

/-- Go on with the descriptor that TILEB or TILEF read at its issue; a parked one does not read it again (R320). -/
def withFb (desc : DWord) (tile : Word) (s : State) (t : Team) (g : Group) (k : FrameBuf → State → Group → State) : State :=
  match g.fbRead with
  | some fb => k fb s g
  | none => Direct.andThen (s.readFb t desc tile) t g 7 fun fb s =>
      let g := { g with fbRead := some fb }
      k fb (s.onGroup t.id g.num fun _ => g) g

/-- TILEB at a tile and a signature entry that it has found: both steps of R293 together, or the wait for one of them (R479). -/
def State.tryTile (s : State) (t : Team) (g : Group) (o : TilebOp) (load : Bool) (desc : DWord) (tile : Word) (fb : FrameBuf)
    (sa : Nat) : State :=
  match s.tileOwner sa with
  | some u => s.waitTile t g (s.tileEntry t.ctx u sa)
  | none =>
    if s.accsUsed t.die t.core ≥ 4 then
      let (s, t) := s.leaveTile t g
      s.block t g .accumulator
    else s.bindTile t.id g o load desc tile fb sa

/-- TILEB in either mode. -/
def tileb (load : Bool) (o : TilebOp) (s : State) : Result :=
  issueAcc o.g (fun s t g m =>
    match m.lowest with
    | none => s.done t g
    | some l =>
      let desc := g.pairElem o.a.toNat l
      let tile := g.elem o.b.toNat l
      if t.cov.bound.isSome then s.raise t g structErr
      else match coffTraps t o.coff.toNat with
        | tr :: _ => s.raise t g tr
        | [] =>
          withFb desc tile s t g fun fb s g =>
            match s.direct t.ctx t.die (fb.sigVa tile) .read with
            | (.ok x, s) => s.tryTile t g o load desc tile fb x.1
            | (.trap tr, s) => s.raise t g tr
            | (.fault c va, s) =>
              let (s, t) := s.leaveTile t g
              s.insnFault t g 7 c va
            | (.wait, s) =>
              let (s, t) := s.leaveTile t g
              s.block t g .access) s

def execTilebClear (o : TilebOp) (s : State) : Result := tileb false o s
def execTilebLoad (o : TilebOp) (s : State) : Result := tileb true o s

/-! ### The fill (R321) -/

/-- An RGBA8 channel as F16: RoundNE(n / 255, F16). -/
def unormF16 (n : Nat) : Nat := (roundMag (fmtOf .f16x2) .rne false (n * 2 ^ 60 / 255) (-60) (n * 2 ^ 60 % 255 != 0)).1

/-- RGBA8 bytes as RGBA16F bytes. -/
def unormRow (l : List Byte) : List Byte := l.flatMap fun b => leBytes 2 (unormF16 b.toNat)

/-- The 128 bytes of one row of the colour buffer, read from the framebuffer tile. -/
def State.tileRow (s : State) (t : Team) (fb : FrameBuf) (tile : Word) (y : Nat) : Direct (List Byte) × State :=
  let va := fb.tileVa tile
  if fb.fmt != 0 then s.directRead t.ctx t.die (va + BitVec.ofNat 64 (128 * y)) 128
  else
    let at_ := fun (x : Nat) => va + BitVec.ofNat 64 (256 * (2 * (y / 8) + x) + 32 * (y % 8))
    match s.directRead t.ctx t.die (at_ 0) 32 with
    | (.ok a, s) =>
      let (r, s) := s.directRead t.ctx t.die (at_ 1) 32
      (r.map fun b => unormRow (a ++ b), s)
    | e => e

/-- The bytes of one row of the fill. -/
def State.fillRow (s : State) (t : Team) (b : Bound) (y : Nat) : Direct (List Byte) × State :=
  if b.load then s.tileRow t b.fb b.tile y else (.ok ((List.range 16).flatMap fun _ => b.fb.clear), s)

/-- The fill ends by a fatal outcome (R479): the tile stays bound, its unfilled lines stay absent, and the fault is owed. -/
def State.killFill (s : State) (tid : Nat) (tr : Trap) : State :=
  match s.team? tid with
  | none => s
  | some t =>
    match t.cov.bound with
    | none => s
    | some b =>
      (s.onTeam tid fun t => { t with cov := { t.cov with bound := some { b with dead := true } } }).onGroup tid b.grp
        fun g => g.owe tr b.lanes b.handler

/-- TILE_FILL_LINE (R293, R321): one line of the buffer. -/
def tileFillLine (tid line : Nat) (s : State) : State :=
  match s.team? tid with
  | none => s
  | some t =>
    match t.cov.bound with
    | none => s
    | some b =>
      let l := b.coff / 128 + line
      if !t.place.resident || b.dead || !(b.fill.contains line) || s.faults.any (fun f => f.req == .tileFill tid)
          || (s.teams.any fun u => u.cmds.any fun c => c.id < b.fillId && c.left.any fun x =>
                x.2 == l && (match s.clusterPeer u x.1 with
                  | some v => v.id == tid
                  | none => false)) then s
      else match s.fillRow t b line with
        | (.ok bytes, s) =>
          s.onTeam tid fun t =>
            let t := t.fillLine l b.fillId (b.coff + 128 * line) bytes
            { t with cov := { t.cov with bound := some { b with fill := b.fill.filter fun x => x != line } } }
        | (.trap tr, s) => s.killFill tid tr
        | (.fault c va, s) => (s.addFault t.die t.core t.ctx t.slot 7 c va (.tileFill tid)).2
        | (.wait, _) => s

def execTileFillLine (tid line : Nat) (s : State) : Result := .next (tileFillLine tid line s)

/-! ### TILEF (R312, R313, R323, R480) -/

/-- One bit of CRC-64/ECMA-182. -/
def crcBit (c : DWord) : DWord := if c.msb then (c <<< 1) ^^^ 0x42F0E1EBA9EA3693#64 else c <<< 1

/-- CRC64 (R313). -/
def crc64 (l : List Byte) : DWord :=
  l.foldl (fun (c : DWord) b => (List.range 8).foldl (fun c _ => crcBit c) (c ^^^ (BitVec.setWidth 64 b <<< (56 : Nat)))) 0#64

/-- Conversion of an F16 channel to RGBA8 (R127). -/
def f16Unorm (h : Nat) : Nat :=
  match Num.decode (fmtOf .f16x2) h with
  | .nan => 0
  | .inf s => if s then 0 else 255
  | .fin s m e =>
    if s then 0
    else if !(Num.lt (.fin false m e) (Num.ofInt 1)) then 255
    else (roundInt .rne false (m * 255) e).1.toNat

/-- The 8 bytes of a pixel of the colour buffer as RGBA8. -/
def pixelUnorm (px : List Byte) : List Byte :=
  (List.range 4).map fun i => BitVec.ofNat 8 (f16Unorm (leNat ((px.drop (2 * i)).take 2)))

/-- The 256 bytes of BLD block `q` of the tile from the colour buffer (R319). -/
def tileBlock (fmt : Nat) (buf : List Byte) (q : Nat) : List Byte :=
  if fmt != 0 then (buf.drop (256 * q)).take 256
  else (List.range 64).flatMap fun w =>
    let x := 8 * (q % 2) + w % 8
    let y := 8 * (q / 2) + w / 8
    pixelUnorm ((buf.drop (8 * (16 * y + x))).take 8)

/-- Write one block whole with its mode byte, in one step at its home slice (R323). A malformed block or a reserved mode raises MEMFMT
(R164, R165). -/
def State.writeBlock (s : State) (bld compress : Bool) (sa : Nat) (raw : List Byte) : Except MemFmt State :=
  if !bld then match s.writeVia false sa (raw.take 128) with
    | .ok s => s.writeVia false (sa + 128) (raw.drop 128)
    | .error c => .error c
  else match s.blockBytes sa with
  | .error c => .error c
  | .ok old =>
    let s' := match (if compress then bldEncode raw else none) with
      | some p => ((s.keepOld sa p).setBytes sa p).setBldMode sa 2
      | none => ((s.keepOld sa raw).setBytes sa raw).setBldMode sa 0
    let wake := fun (s : State) (i : Nat) =>
      if (old.drop (128 * i)).take 128 != (raw.drop (128 * i)).take 128 then s.wakeLine (lineOf sa + i) else s
    .ok (wake (wake s' 0) 1)

/-- The issuing core's copies of a written block's lines and of its mode byte's line follow (R332). -/
def State.refreshBlock (s : State) (t : Team) (sa : Nat) : State :=
  [lineOf sa, lineOf sa + 1, lineOf (s.mdAddr sa + blockOf sa)].foldl (fun s l => s.refreshL1 t.die t.core l) s

/-- Write one block of the tile. -/
def State.writeQuad (s : State) (t : Team) (fb : FrameBuf) (tile : Word) (buf : List Byte) (q : Nat) : Direct Unit × State :=
  let va := fb.tileVa tile + BitVec.ofNat 64 (256 * q)
  match s.direct t.ctx t.die va .write with
  | (.ok (sa, bld), s) =>
    let s := s.servedWrite t.ctx bld sa
    match s.writeBlock bld (fb.fmt == 0 && fb.cmpr) sa (tileBlock fb.fmt buf q) with
    | .ok s => (.ok (), s.refreshBlock t sa)
    | .error c => (.trap (memfmtTrap c (blockVa va)), s)
  | (.trap tr, s) => (.trap tr, s)
  | (.fault c va, s) => (.fault c va, s)
  | (.wait, s) => (.wait, s)

/-- Write some blocks in order; answers those that have been written. -/
def State.writeTile (s : State) (t : Team) (fb : FrameBuf) (tile : Word) (buf : List Byte) :
    List Nat → List Nat × Direct Unit × State
  | [] => ([], .ok (), s)
  | q :: r =>
    match s.writeQuad t fb tile buf q with
    | (.ok _, s) =>
      let (done, x) := s.writeTile t fb tile buf r
      (q :: done, x)
    | e => ([], e)

/-- The bytes of a signature entry. -/
def sigBytes (crc : DWord) (valid : Bool) : List Byte := leBytes 16 (crc.toNat + if valid then 2 ^ 64 else 0)

/-- Write the signature entry; the issuing core's copy follows (R332). -/
def State.writeSig (s : State) (t : Team) (fb : FrameBuf) (tile : Word) (crc : DWord) (valid : Bool) : Direct Unit × State :=
  let (r, s) := s.directWriteAt t.ctx t.die (fb.sigVa tile) (sigBytes crc valid)
  match r with
  | .ok sa => (.ok (), s.refreshL1 t.die t.core (lineOf sa))
  | r => (r.map fun _ => (), s)

/-- The colour buffer's bytes. -/
def Team.pixels (t : Team) (b : Bound) : List Byte := t.spadRead b.coff 2048

/-- Change the bound tile. -/
def State.onBound (s : State) (tid : Nat) (f : Bound → Bound) : State :=
  s.onTeam tid fun t => { t with cov := { t.cov with bound := t.cov.bound.map f } }

/-- Whether TILEF writes, decided once: not where the entry is valid with the same CRC (R312). -/
def State.tileChanged (s : State) (t : Team) (fb : FrameBuf) (b : Bound) (crc : DWord) : Direct Bool × State :=
  if b.crc.isSome then (.ok true, s)
  else
    let (r, s) := s.directRead t.ctx t.die (fb.sigVa b.tile) 16
    (r.map fun l => !(leNat (l.take 8) == crc.toNat && (leNat (l.drop 8)).testBit 0), s)

/-- The blocks of the tile that TILEF has still to write. -/
def Bound.blocksLeft (b : Bound) (fb : FrameBuf) : List Nat :=
  (List.range (fb.tileSize / 256)).filter fun q => !(b.written.contains q)

/-- The writes of TILEF that are left, or the one of them that is named: the blocks in any order, then the signature entry. Answers whether
none is left. -/
def State.tileWrites (s : State) (t : Team) (fb : FrameBuf) (b : Bound) (crc : DWord) (only : Option Nat) : Direct Bool × State :=
  let left := b.blocksLeft fb
  let now := only.elim left fun q => left.filter fun x => x == q
  let (done, r, s) := s.writeTile t fb b.tile (t.pixels b) now
  let s := s.onBound t.id fun b => { b with crc := some crc, written := b.written ++ done }
  match r with
  | .ok _ =>
    if only.isSome && !left.isEmpty then (.ok false, s)
    else
      let (r, s) := s.writeSig t fb b.tile crc true
      (r.map fun _ => true, s)
  | r => (r.map fun _ => true, s)

/-- The writes of TILEF (R312, R323): none where the entry is valid with the same CRC. Answers whether none is left. -/
def State.finishTile (s : State) (t : Team) (fb : FrameBuf) (b : Bound) (only : Option Nat) : Direct Bool × State :=
  let crc := b.crc.getD (crc64 (t.pixels b))
  match s.tileChanged t fb b crc with
  | (.ok true, s) => s.tileWrites t fb b crc only
  | (.ok false, s) => (.ok true, s)
  | (r, s) => (r, s)

/-- TILEF ends by a fatal outcome (R480): the tile is released with its ownership entry ended, the group goes on, and the fault is owed. -/
def State.leaveTilef (s : State) (t : Team) (grp : Nat) (c : Cur) (tr : Trap) : State :=
  (s.releaseTile t.id .ended).onGroup t.id grp fun g => (g.advance c).owe tr c.lanes c.handler

/-- TILEF meets a fatal outcome (R480): the entry is written with VALID = 0, which may fault and wait as any of its accesses, and if it
cannot be written it is left unchanged. `fb` is TILEF's own read. That the read of the entry before any write ends TILEF in this way too
is a DESIGN CHOICE (log 69). -/
def State.endTilef (s : State) (t : Team) (g : Group) (b : Bound) (fb : FrameBuf) (c : Cur) (tr : Trap) : State :=
  let s := s.onBound t.id fun b => { b with ending := some tr }
  match s.team? t.id with
  | none => s
  | some t =>
    match s.writeSig t fb b.tile (b.crc.getD (crc64 (t.pixels b))) false with
    | (.ok _, s) => s.leaveTilef t g.num c tr
    | (.trap _, s) => s.leaveTilef t g.num c tr
    | (.fault k va, s) => s.parkFault t g 7 k va (.tileWrite t.id g.num)
    | (.wait, s) => s.block t g .access

/-- The retired span with the lowest ticket waits for a line of the buffer that no fill will write any more. -/
def State.commitStuck (s : State) (t : Team) (b : Bound) : Bool :=
  match t.cov.tickets with
  | [] => false
  | k :: _ =>
    let owner := SMap.get 0 t.absent ((b.coff + 128 * bits k.word.toNat 8 4) / 128)
    k.op.any (fun op => op != .drop) && owner != 0 && !(s.fillComes (owner - 1))

/-- Everything that TILEF waits for has landed (R312). The lines that a fill which has ended leaves absent are not waited for, nor the
commits that wait for them. -/
def State.tileDrained (s : State) (t : Team) (b : Bound) : Bool :=
  let c := t.cov
  !c.pathOpen && c.q2.isEmpty && c.staging.isEmpty && c.q3.isEmpty
    && (if b.dead then (c.tickets.all fun x => x.op.isSome) && (c.tickets.isEmpty || s.commitStuck t b)
        else c.tickets.isEmpty && b.fill.isEmpty)

/-- TILEF (R312, R480). Its accesses come after the acquires and the scratchpad writes of the group before it (R185, R192). -/
def execTilef (gd : Guard) (s : State) : Result :=
  issueCov gd (fun _ s t g =>
    match t.cov.bound with
    | none => s.raise t g structErr
    | some b =>
      if t.cov.pathOpen && g.fbRead.isNone then s.raise t g structErr
      else s.afterAcquires t g <| if s.ownWrites t g then s else withFb b.desc b.tile s t g fun fb s g =>
        match b.ending with
        | some tr => s.endTilef t g b fb s.cur tr
        | none =>
          if !(s.tileDrained t b) || !(b.dead || t.present b.coff 2048) then s.block t g .lines
          else if b.dead then (s.releaseTile t.id .ended).onGroup t.id g.num fun g => g.advance s.cur
          else
            let (r, s) := s.finishTile t fb b s.cur.only
            match s.team? t.id with
            | none => s
            | some t => match r with
              | .ok true => (s.releaseTile t.id .resolved).onGroup t.id g.num fun g => g.advance s.cur
              | .ok false => s.onGroup t.id g.num fun g => { g with park := .none }
              | .trap tr => s.endTilef t g b fb s.cur tr
              | .fault c va => s.parkFault t g 7 c va (.tileWrite t.id g.num)
              | .wait => s.block t g .access) s

end Sys2Proof.Machine
end

