-- ==== Sys2Proof/Machine/Preempt.lean ====
section
/-! DEFINITION. Pre-emption and resumption (R77, R92, R157, R179, R250, R264, R266 to R270, R315): the stop, the cage, the return,
and HALT, YIELD and the events around them. -/

namespace Sys2Proof.Machine

/-! ### Liveness (R92) -/

/-- The bits of a 640-bit mask as register numbers are read off by `testBit`. -/
abbrev LiveSet := Nat

/-- All registers. -/
def allLive : LiveSet := 2 ^ 640 - 1

/-- Search the entries of a liveness table from the first to the first that starts beyond the highest offset asked for. None: an
entry read is malformed or cannot be read. -/
def State.liveScan (s : State) (ctx : Nat) (tab : DWord) (offs : List Nat) (prevEnd : Nat) : Nat → Nat → LiveSet → List Nat →
    Option (LiveSet × List Nat)
  | 0, _, m, hit => some (m, hit)
  | k + 1, i, m, hit =>
    match s.peek ctx (tab + BitVec.ofNat 64 (16 + 88 * i)) 88 with
    | none => none
    | some l =>
      let n := leNat l
      let a := bits n 0 32
      let b := bits n 32 32
      if b ≤ a || a < prevEnd then none
      else
        let mine := offs.filter fun o => a ≤ o && o < b
        let m := if mine.isEmpty then m else m ||| bits n 64 640
        let hit := hit ++ mine
        if offs.all fun o => o < b then some (m, hit) else s.liveScan ctx tab offs b k (i + 1) m hit

/-- The live set of a group: the masks of the entries that cover its frontier's PCs, and the destinations that are still
pending; every register where the table is missing or a PC is not covered. -/
def State.liveSet (s : State) (t : Team) (g : Group) : LiveSet :=
  let pend := g.pending.foldl (fun (m : Nat) p => p.regs.foldl (fun (m : Nat) r => m ||| 2 ^ r) m) 0
  if t.live == 0 then allLive
  else match s.peek t.ctx t.live 16 with
    | none => allLive
    | some h =>
      let offs := g.frontier.map fun e => (e.pc - t.code).toNat
      match s.liveScan t.ctx t.live offs 0 (bits (leNat h) 0 32) 0 0 [] with
      | some (m, hit) => if offs.all fun o => hit.contains o then m ||| pend else allLive
      | none => allLive

/-- What the reads of `State.liveScan` leave (R158, R271). -/
def State.liveScanned (s : State) (ctx : Nat) (tab : DWord) (offs : List Nat) (prevEnd : Nat) : Nat → Nat → State
  | 0, _ => s
  | k + 1, i =>
    let va := tab + BitVec.ofNat 64 (16 + 88 * i)
    let s' := s.peeked ctx va 88
    match s.peek ctx va 88 with
    | none => s'
    | some l =>
      let a := bits (leNat l) 0 32
      let b := bits (leNat l) 32 32
      if b ≤ a || a < prevEnd || offs.all fun o => o < b then s' else s'.liveScanned ctx tab offs b k (i + 1)

/-- What the reads of a group's liveness table leave. -/
def State.liveLooked (s : State) (t : Team) (g : Group) : State :=
  if t.live == 0 || g.frontier.isEmpty then s
  else
    let s' := s.peeked t.ctx t.live 16
    match s.peek t.ctx t.live 16 with
    | none => s'
    | some h => s'.liveScanned t.ctx t.live (g.frontier.map fun e => (e.pc - t.code).toNat) 0 (bits (leNat h) 0 32) 0

/-- Dead registers become uniform zero (R93, R94); the live set that a table has given is noted. -/
def Group.bury (g : Group) (live : LiveSet) : Group :=
  { g with regs := g.regs.filter fun r => live.testBit r.1, liveSaved := if live == allLive then none else some live }

def State.buryTeam (s : State) (t : Team) : Team :=
  { t with groups := t.groups.map fun g => if g.frontier.isEmpty then g else g.bury (s.liveSet t g) }

/-! ### Settling the groups (R266, step 1) -/

/-- One round: every access of the team on its way, at home slices and in other cores' scratchpads, is performed where nothing holds it,
and every group hands its next store on and takes the results that have arrived. -/
def State.settleRound (s : State) (tid : Nat) : State :=
  let s := (s.accesses.filter fun a => a.tid == tid).foldl (fun s a => homeSliceAccess a.id s) s
  let s := (s.remotes.filter fun r => r.tid == tid).foldl (fun s r => homeSliceAccess r.id s) s
  match s.team? tid with
  | none => s
  | some t => t.groups.foldl (fun s g => (storePerform tid g.num s).onGroup tid g.num Group.landAll) s

def State.settleRounds (s : State) (tid : Nat) : Nat → State
  | 0 => s
  | n + 1 => (s.settleRound tid).settleRounds tid n

/-- Rounds enough for everything the team has under way. -/
def State.settleFuel (s : State) (t : Team) : Nat :=
  (s.accesses.filter fun a => a.tid == t.id).length + (s.remotes.filter fun r => r.tid == t.id).length
    + 2 * (t.groups.map fun g => g.fifo.length).sum + 2

/-- The group waits for the ordered invalidation of its PUBL. -/
def Park.isPubl : Park → Bool
  | .publ _ => true
  | _ => false

/-- Nothing of the team's groups is outstanding but what replayable faults hold; a PUBL past its first step has completed (R440). -/
def State.quiet (s : State) (t : Team) : Bool :=
  (s.accesses.all fun a => a.tid != t.id) && (s.remotes.all fun r => r.tid != t.id)
    && t.groups.all fun g =>
      !g.park.isPubl && (g.pending.all fun p => p.kind == .atom || !p.lanes.isEmpty)
        && (match g.fifo with
            | [] => true
            | e :: _ => !e.faults.isEmpty)

/-- The coverage unit quiesces (R315): what is retired commits as far as its lines are present, and the accumulator is freed. -/
def Team.quiesceCov (t : Team) : Team :=
  let t := { t with cov := t.cov.consume t.cov.q2 }
  let t := (List.range t.cov.tickets.length).foldl (fun t _ => Team.commitNext t) t
  { t with cov := { t.cov with acc := false, hadAcc := t.cov.acc } }

/-! ### The cage -/

/-- A fault that a team's own access waits for. -/
def FaultReq.ofTeam (tid : Nat) : FaultReq → Bool
  | .load t _ _ => t == tid
  | .fifo t _ _ => t == tid
  | .insn t _ => t == tid
  | .fetch t _ => t == tid
  | .streamFetch t => t == tid
  | .drift t _ => t == tid
  | .prologue t => t == tid
  | .tileFill t => t == tid
  | .tileWrite t _ => t == tid
  | .tex t _ => t == tid
  | .handler t _ => t == tid
  | _ => false

/-- The team's faulting accesses are cancelled; the entries stay until firmware resolves them (R157). -/
def State.orphanTeam (s : State) (tid : Nat) : State :=
  { s with faults := s.faults.map fun f => if f.req.ofTeam tid then { f with req := .gone } else f }

def Group.cancelFaults (g : Group) : Group :=
  { g with
    fifo := g.fifo.map fun e => { e with faults := [] }
    fbRead := none
    park := match g.park with
      | .fault _ => .none
      | .nap _ => .none
      | p => p }

/-- A recorded command runs again from its start (R268, R269), the order of `q0` kept; what a finished one still owes it owes on. -/
def DriftCmd.recorded (c : DriftCmd) : DriftCmd :=
  if c.finished then c else { c with permitted := false, did := [], faults := [] }

/-- A TILEF that is under way issues again from its start; one that a trap is ending goes on with that (R269, R480). -/
def Bound.recorded (b : Bound) : Bound := if b.ending.isSome then b else { b with crc := none, written := [] }

/-- A group waits on an event that can reach a swapped team (R250). -/
def State.eventWait (s : State) (g : Group) : Bool :=
  let entryOpen := fun (e : Nat) => match s.entry? e with
    | some x => x.state.open_
    | none => false
  match g.park with
  | .await _ l => s.awaitOpen l
  | .retry (.tile (some e)) => entryOpen e
  | .retry (.stock (some e)) => entryOpen e
  | .retry (.tile none) => true
  | .retry (.stock none) => true
  | .waita _ woken => !woken
  | _ => false

/-- A caged team waits for its event: the entry of its relief (R246), or groups that wait only on AWAIT, TILEB, RECA or WAITA,
with nothing cancelled (R250). A team with a group in another wait beside them is ready at once, which R250 does not say: DESIGN CHOICE
(log 97). -/
def State.waitsInCage (s : State) (t : Team) (cancelled : Bool) : Bool :=
  match t.relievedBy with
  | some e => match s.entry? e with
    | some x => x.state.open_
    | none => false
  | none => !cancelled && t.groups.all fun g => g.frontier.isEmpty || s.eventWait g

/-- Entries that a team owns follow it out and in (R238), but for the one it relieves (R248). -/
def State.ownedState (s : State) (t : Team) (old new : OwnState) : State :=
  (s.own.filter fun e => e.owner == .team t.id && e.state == old && t.relieves != some e.id).foldl
    (fun s e => s.setEntry { e with state := new }) s

/-- The array holds no stream of the team any more (R267). -/
def State.dropArray (s : State) (t : Team) : State :=
  s.onCore t.die t.core fun c => if c.array == some t.id then { c with array := none } else c

/-- A round-up to 64 bytes. -/
def roundUp64 (n : Nat) : Nat := (n + 63) / 64 * 64

/-- The bytes of a team's save record (R93, R270, R316). -/
def Team.savedBytes (t : Team) : Nat :=
  let area := fun (g : Group) => roundUp64 (0x1500 + 128 * g.rows + 0xA60)
  let fifo := fun (g : Group) => 8 + (g.fifo.map fun e => 16 + 24 * e.lanes.length).sum
  0x2D00 + 16576 + (t.groups.map area).sum + (128 + 16384 * t.scr) + 16 * t.scr + 16384 * t.acc + (t.groups.map fifo).sum

/-- The capacity of a die's cage (R18). -/
def cageBytes : Nat := 192 * 2 ^ 20

/-- The cage of the team's die has no room for its record beside those that it holds, so that it spills to HBM (R18). -/
def State.cageFull (s : State) (t : Team) : Bool :=
  let held := s.teams.filter fun u => u.die == t.die && u.id != t.id && u.place == .caged false && !u.overflow
  decide (cageBytes < (held.map Team.savedBytes).sum + t.savedBytes)

/-- The target lines of a cancelled copy are saved as absent, those that it had filled too (R268). -/
def State.clearTargets (s : State) (t : Team) (c : DriftCmd) : State :=
  if c.finished then s
  else (c.targets t).foldl (fun (s : State) j => match (s.peers t).find? fun u => u.pos == j with
    | none => s
    | some u => s.onTeam u.id fun u =>
        c.ownLines.foldl (fun (u : Team) l => if SMap.get 0 u.absent l == 0 then u.clearLine l c.id else u) u) s

/-- A stopped team goes to the cage once its accesses are performed and its commands are drained; with `cancel` the commands left
are cancelled and recorded (R266 to R268). A record that does not fit in the cage goes to HBM, and stays there until the team resumes,
whatever room the cage has later: R18 does not say, DESIGN CHOICE (log 90). -/
def State.cage (s : State) (tid : Nat) (cancel : Bool) : State :=
  match s.team? tid with
  | none => s
  | some t =>
    match t.place with
    | .draining ready _ =>
      if !(s.quiet t) || (!cancel && !t.cmds.isEmpty) then s
      else
        let hadFault := s.faults.any fun f => f.req.ofTeam tid
        let stays := t.readyAt.isNone && (t.halted || (!ready && s.waitsInCage t (hadFault || !t.cmds.isEmpty)))
        let t' := { t with
          groups := t.groups.map Group.cancelFaults
          stream := t.stream.map fun m => { m with park := match m.park with
            | .fault _ => .none
            | p => p }
          cmds := t.cmds.map DriftCmd.recorded, place := .caged t.saving, overflow := s.cageFull t, prologueFault := none
          cov := { t.cov with bound := t.cov.bound.map Bound.recorded }
          readyAt := if t.halted || stays then none else some (t.readyAt.getD s.gtime)
          relievedBy := if stays then t.relievedBy else none }
        ((((t.cmds.foldl (fun (s : State) c => s.clearTargets t c) (s.setTeam t')).orphanTeam tid).dropArray t).ownedState t .running
          .swapped)
    | _ => s

/-- Let a command that a stop finds under way run to its end, as far as nothing holds it (R268). -/
def State.drainOne (s : State) (cmd : Nat) : State :=
  match s.drift? cmd with
  | none => s
  | some (_, c) => driftComplete cmd (c.left.foldl (fun (s : State) x => fillOne cmd x.1 x.2 s) (driftPermit cmd s))

/-- The commands of a team that finish within the 2 µs of R268 do so; which of them depends on their progress: free choices (log 103). -/
def State.drainSome (s : State) (tid : Nat) : State :=
  match s.team? tid with
  | none => s
  | some t => t.cmds.foldl (fun (s : State) c =>
      let k := s.free
      let s := { s with free := k + 1 }
      if Config.drains k then s.drainOne c.id else s) s

/-- Stop a team at instruction boundaries and begin its way to the cage (R266). `ready`: it is a ready swapped team at once.
`cancel`: those of its commands that drain do so within the step, and the others are cancelled. -/
def State.stopTeam (s : State) (tid : Nat) (halt ready cancel : Bool) : State :=
  match s.team? tid with
  | none => s
  | some t =>
    match t.place with
    | .prologue =>
      ((s.setTeam { t with place := .caged t.saving, overflow := s.cageFull t, prologueFault := none, halted := halt
                           readyAt := if halt then none else some s.gtime }).orphanTeam tid).ownedState t .running .swapped
    | .running =>
      let s := t.groups.foldl (fun (s : State) g => s.liveLooked t g) s
      let t := (s.buryTeam t).quiesceCov
      let s := (s.setTeam t).settleRounds tid (s.settleFuel t)
      let s := s.onTeam tid fun t => { t with halted := t.halted || halt, place := .draining (halt || ready) s.gtime, readyAt := none }
      (if cancel then s.drainSome tid else s).cage tid cancel
    | _ => s

/-- Pre-empt a team with its whole cluster (R61); only the team itself is halted (R264). -/
def State.preempt (s : State) (t : Team) (halt ready cancel : Bool) : State :=
  (s.peers t).foldl (fun s u => s.stopTeam u.id (halt && u.id == t.id) (ready || halt) cancel) s

/-! ### Resumption (R269) -/

/-- Commands go back to `q0` with their destination lines absent again (R91, R269). -/
def State.reissue (s : State) (tid : Nat) (c : DriftCmd) : State :=
  match s.team? tid with
  | none => s
  | some t =>
    if c.finished then s
    else
      let lines := if c.kind == 0 then runLines c.soff c.runBytes else []
      let targets := (c.targets t).filterMap fun j => (s.clusterPeer t j).map fun u => (j, u.id)
      let s := targets.foldl (fun s x => s.onTeam x.2 fun u => lines.foldl (fun u l => u.clearLine l c.id) u) s
      let left := targets.flatMap fun x => lines.map fun l => (x.1, l)
      s.onTeam tid fun u => { u with cmds := u.cmds.map fun x => if x.id == c.id then { x with left := left } else x }

/-- Held pieces of a pending load, those that `sel` names, translate afresh and are issued again (R156, R157, R269). -/
def State.resendLoad (s : State) (tid grp pend : Nat) (sel : LaneAddr → Bool) : State :=
  match s.team? tid with
  | none => s
  | some t =>
    match t.group? grp with
    | none => s
    | some g =>
      match g.pending.find? fun p => p.id == pend with
      | none => s
      | some p =>
        let (x, s1) := s.xlateAll t.ctx .read (p.lanes.filter sel)
        if x.blocked then s
        else match x.fatal with
          | some (c, va) => s1.failLoad tid grp pend (xlateTrap c va)
          | none =>
            let rest := p.lanes.filter fun a => !(sel a)
            let p := { p with lanes := rest ++ x.replay.map fun r => r.1 }
            let s2 := s1.sendLoad t g p p.piece x.ok
            let (fs, s3) := s2.addFaults t grp p.faultKind (.load tid grp pend) (s2.faultGroups t.ctx x.replay)
            s3.onGroup tid grp fun g =>
              let g := g.setPending p
              match fs with
              | [] => g
              | f :: _ => if g.park == .none then g.parkAs s3.gtime (.fault f) else g

/-- Lanes of a FIFO entry, those that `sel` names, translate afresh (R156, R157, R269). -/
def State.resendStore (s : State) (tid grp entry : Nat) (sel : LaneAddr → Bool) : State :=
  match s.team? tid with
  | none => s
  | some t =>
    match t.group? grp with
    | none => s
    | some g =>
      match g.fifo.find? fun e => e.id == entry with
      | none => s
      | some e =>
        let (x, s1) := s.xlateAll t.ctx .write (e.lanes.filter sel)
        if x.blocked then s
        else match x.fatal with
          | some (c, va) => s1.failStore tid grp entry (xlateTrap c va)
          | none =>
            let (fs, s2) := s1.addFaults t grp (if e.kind == .st then 1 else 2) (.fifo tid grp entry) (s1.faultGroups t.ctx x.replay)
            let lanes := e.lanes.map fun a =>
              if sel a then (x.ok.find? fun b => b.lane == a.lane).getD { a with sa := none } else a
            s2.onGroup tid grp fun g =>
              let g := { g with fifo := g.fifo.map fun y =>
                if y.id == entry then { y with lanes := lanes, faults := y.faults ++ fs } else y }
              match fs with
              | [] => g
              | f :: _ => if g.park == .none then g.parkAs s2.gtime (.fault f) else g

/-- An access with held pieces that no fault entry stands for any more is issued again. -/
def State.unfaulted (s : State) (r : FaultReq) : Bool := !(s.faults.any fun f => f.req == r)

/-- The group has such an access. -/
def State.mustResend (s : State) (tid : Nat) (g : Group) : Bool :=
  g.pending.any (fun p => !p.lanes.isEmpty && s.unfaulted (.load tid g.num p.id))
    || g.fifo.any fun e => e.lanes.any (fun a => a.sa.isNone) && s.unfaulted (.fifo tid g.num e.id)

/-- The recorded accesses of a group are issued again (R269, step 3). -/
def State.resendGroup (s : State) (tid : Nat) (g : Group) : State :=
  let s := (g.pending.filter fun p => !p.lanes.isEmpty && s.unfaulted (.load tid g.num p.id)).foldl
    (fun s p => s.resendLoad tid g.num p.id fun _ => true) s
  (g.fifo.filter fun e => e.lanes.any (fun a => a.sa.isNone) && s.unfaulted (.fifo tid g.num e.id)).foldl
    (fun s e => s.resendStore tid g.num e.id fun _ => true) s

/-- Entries recorded with a group translate afresh. -/
def Group.forgetSa (g : Group) : Group :=
  { g with fifo := g.fifo.map fun e => { e with lanes := e.lanes.map fun a => { a with sa := none } } }

/-- A resumption wakes the team's WAITA watchers (R179). -/
def Group.wakeAlways (g : Group) : Group :=
  match g.park with
  | .waita l _ => { g with park := .waita l true }
  | _ => g

/-- A team goes on with the relief it is of while the entry that it relieves is in STATE 1 to 3 (R248); placed otherwise it has depth 0
(R245). -/
def State.relieving (s : State) (t : Team) : Bool := t.relieves.any fun e => (s.entry? e).any fun x => x.state.open_

/-- The destination of an ATOM that is issued again is outside every window (R113, R269). -/
def Group.closeWindows (g : Group) : Group :=
  { g with pending := g.pending.map fun p => if p.kind == .atom then { p with bundle := 0 } else p }

/-- Put a caged team back on a core (R269); `f` is what relief adds. -/
def State.restore (s : State) (tid core : Nat) (x : Spot) (f : Team → Team) : State :=
  match s.team? tid with
  | none => s
  | some t =>
    let s := s.arriveOn t.die core t.ctx
    let s := s.ownedState t .swapped .running
    let on := s.relieving t
    let s := s.setTeam (f { t with
      depth := if on then t.depth else 0, relieves := if on then t.relieves else none
      core := core, slot := x.slot, base := x.base, unit := x.unit, readyAt := none, relievedBy := none, after := none
      placedAt := s.gtime, place := if t.begun then .running else .prologue, saving := false, overflow := false, reliever := none
      groups := t.groups.map fun g => g.closeWindows.forgetSa.wakeAlways })
    if t.det then s.postRetreat t.die else s

/-- The stream owes the replay of its last MWLD (R267). -/
def Stream.owing (m : Stream) : Stream := { m with owesReplay := !m.ended && m.weights.isSome }

/-- The steps of R269 for a team that is back, once its whole cluster is. -/
def State.resumeSteps (s : State) (tid : Nat) : State :=
  match s.team? tid with
  | none => s
  | some t =>
    let s := t.cmds.foldl (fun s c => s.reissue tid c) s
    let s := mwldReplay tid (s.onTeam tid fun t => { t with stream := t.stream.map Stream.owing })
    t.groups.foldl (fun s g => s.resendGroup tid g) s

/-- Place a ready swapped cluster (R61, R269). -/
def State.placeSwapped (s : State) (t : Team) (spots : List (Nat × Nat × Spot)) : State :=
  let ms := s.peers t
  let s := ms.foldl (fun (s : State) u => match spots.find? fun x => x.1 == u.pos with
    | some x => s.restore u.id x.2.1 x.2.2 id
    | none => s) s
  let s := ms.foldl (fun (s : State) u => s.resumeSteps u.id) s
  ms.foldl (fun (s : State) u => s.candPlaced t.die (.team u.id)) s

/-! ### HALT, YIELD and the events -/

/-- HALT (R264, R403): in the handler only; the halting lanes go on after it when firmware releases the team. -/
def execHalt (s : State) : Result :=
  issuePriv ⟨7, false⟩ (fun s t g _ =>
    ((s.done t g).preempt t true true false).addLog (.halted t.id)) s

/-- The first candidate of at most a class that fits on a rectangle with the core, with some teams taken away. -/
def State.fitsWithout (s : State) (die core cls : Nat) (gone : List Nat) : Option Cand :=
  ((s.candidates die).find? fun x =>
    decide (x.cls ≤ cls) && (match s.job x.cand with
      | some j => (List.range 96).any fun c => [false, true].any fun tr =>
          (j.positions.any fun p => rectCore j.cw j.ch tr c p == some core) && (s.fitRect die j tr c gone).isSome
      | none => false)).map fun x => x.cand

/-- YIELD (R489). -/
def execYield (gd : Guard) (s : State) : Result :=
  issueWith gd (fun s t g m =>
    let s := s.done t g
    if m == 0 then s
    else match s.fitsWithout t.die t.core t.eff [t.id] with
      | none => s
      | some c =>
        let ms := s.peers t
        let s := ms.foldl (fun (s : State) u => s.onTeam u.id fun t => { t with after := some c }) s
        s.preempt t false true false) s

/-- 2 µs in ticks (R268). -/
def drainTicks : Nat := 2000

/-- DRIFT_DRAIN_EXPIRY (R268): commands that have not finished 2 µs after the stop are cancelled and recorded, and the team goes to
the cage. -/
def execDriftDrainExpiry (tid : Nat) (s : State) : Result :=
  .next (match s.team? tid with
    | none => s
    | some t =>
      match t.place with
      | .draining _ since =>
        if t.cmds.isEmpty || s.gtime ≥ since + drainTicks then (s.settleRounds tid (s.settleFuel t)).cage tid true else s
      | _ => s)

/-- TEAM_RESUME (R269): the team is the first candidate that fits, and the core the corner of a rectangle for it. -/
def execTeamResume (tid core : Nat) (s : State) : Result :=
  .next (match s.team? tid with
    | none => s
    | some t =>
      match s.firstFit t.die (s.considered t.die) [] with
      | some (.team u, skipped) =>
        if u != tid then s
        else match s.job (.team tid) with
          | none => s
          | some j => match s.fitAt t.die j core with
            | some spots => (s.placeSwapped t spots).noteSkipped t.die skipped
            | none => s
      | _ => s)

/-- HALT_RELEASE (R264): firmware releases a halted team. -/
def execHaltRelease (tid : Nat) (s : State) : Result :=
  .next (s.onTeam tid fun t =>
    if t.halted then { t with halted := false, readyAt := if t.place.left then some s.gtime else t.readyAt } else t)

end Sys2Proof.Machine
end

