-- ==== Sys2Proof/Machine/Retire.lean ====
section
/-! DEFINITION. The ends of teams, launches, graphs and contexts: TEAM_RETIRE, completion records, draining, containment (R57,
R223, R233, R237, R240, R264, R272, R314, R338, R490). -/

namespace Sys2Proof.Machine

/-! ### The front end's own accesses (R490) -/

/-- Read `n` bytes through a context, block by block; the first argument bounds the blocks. -/
def State.feRead (s : State) (ctx die : Nat) (va : DWord) : Nat → Nat → Direct (List Byte) × State
  | 0, _ => (.ok [], s)
  | k + 1, n =>
    if n == 0 then (.ok [], s)
    else
      let m := min n (256 - va.toNat % 256)
      match s.directRead ctx die va m with
      | (.ok l, s) =>
        let (r, s) := s.feRead ctx die (va + BitVec.ofNat 64 m) k (n - m)
        (r.map fun x => l ++ x, s)
      | e => e

/-- Write bytes through a context, block by block. -/
def State.feWrite (s : State) (ctx die : Nat) (va : DWord) : Nat → List Byte → Direct Unit × State
  | 0, _ => (.ok (), s)
  | k + 1, l =>
    if l.isEmpty then (.ok (), s)
    else
      let m := 256 - va.toNat % 256
      match s.directWrite ctx die va (l.take m) with
      | (.ok _, s) => s.feWrite ctx die (va + BitVec.ofNat 64 m) k (l.drop m)
      | e => e

/-- The die whose front end reads a partition's queues and writes its records: the first that reads queues in its present state (R19,
R338). Which of them does so is a DESIGN CHOICE (log 72). -/
def State.frontDie (s : State) (p : Nat) : Nat :=
  match s.partition? p with
  | some x => (x.dies.find? fun d => (s.die d).places false).getD (x.dies.headD 0)
  | none => 0

/-! ### Completion (R223) -/

/-- The launch is over and its record written, or given up. -/
def State.forgetLaunch (s : State) (l : Launch) : State :=
  { s with
    launches := s.launches.filter fun x => x.id != l.id
    queues := s.queues.map fun q =>
      if q.partition == l.partition && q.num == l.queue then { q with past := q.past ++ [(l.index, l.lid)] } else q }

/-- Write a completion record: bytes 4 to 15, then COMPVAL. That of a packet refused for a misaligned COMPADDR goes to the address as it
stands, which R222 and R223 do not say: DESIGN CHOICE (log 99). -/
def State.writeRecord (s : State) (l : Launch) : State :=
  match l.done with
  | none => s
  | some (status, reason, tick) =>
    if l.compaddr == 0 then s.forgetLaunch l
    else
      let die := s.frontDie l.partition
      let first := s.feWrite l.ctx die (l.compaddr + 4) 2
        (leBytes 2 status ++ leBytes 1 reason ++ [0] ++ leBytes 8 tick)
      let r := match first with
        | (.ok _, s) => s.feWrite l.ctx die l.compaddr 2 (leBytes 4 l.compval.toNat)
        | e => e
      match r with
      | (.ok _, s) => s.forgetLaunch l
      | (.trap _, s) => (s.forgetLaunch l).addLog (.completionUnwritten l.ctx)
      | (.fault c va, s) => (s.addFault die 0 l.ctx 0 9 c va (.completion l.id)).2
      | (.wait, _) => s

/-- Records that wait for no fault entry are written again. -/
def State.retryRecords (s : State) : State :=
  (s.launches.filter fun l => l.done.isSome && s.unfaulted (.completion l.id)).foldl State.writeRecord s

/-- A launch completes (R223); the entries it owns end (R240). -/
def State.completeLaunch (s : State) (lid status reason : Nat) : State :=
  match s.launch? lid with
  | none => s
  | some l =>
    if l.done.isSome then s
    else
      let s := s.onLaunch lid fun x => { x with done := some (status, reason, s.gtime) }
      let s := s.endOwnedBy (.packet l.partition l.queue l.index)
      match s.launch? lid with
      | some l => s.writeRecord l
      | none => s

/-- Every cluster has been placed, and no team of the grid is left. -/
def State.gridOver (s : State) (l : Launch) : Bool :=
  ((List.range 8).all fun d => !(s.launchLeft l d)) && !(s.teams.any fun t => t.launch == l.id && t.node.isNone)

/-- A launch completes when its last team retires; a graph when it drains, its forming batches closing once its root and its node
teams are gone (R223, R237). -/
def State.settleLaunch (s : State) (lid : Nat) : State :=
  match s.launch? lid with
  | none => s
  | some l =>
    if l.done.isSome || !(s.gridOver l) || s.teams.any (fun t => t.launch == lid) then s
    else match l.graph with
      | none => s.completeLaunch lid 0 0
      | some g =>
        let forming := g.batches.filter fun b => b.closedAt.isNone
        let g := forming.foldl (fun (g : Graph) b => g.close b s.gtime) g
        let s := s.onGraph lid fun _ => g
        if g.batches.isEmpty && g.alloc.isEmpty then
          (if g.pwordFail then s.completeLaunch lid 1 6 else s.completeLaunch lid 0 0)
        else s

/-! ### The end of a team -/

/-- The entry of R243 that a batch's team relieves is resolved as the team retires. -/
def State.resolveBatch (s : State) (t : Team) : State :=
  match t.relieves with
  | some e => match s.entry? e with
    | some x => if x.kind == 2 && x.owner == .team t.id then s.closeEntry e .resolved else s
    | none => s
  | none => s

/-- Slots that a team's end frees: what it allocated and did not commit, and its whole batch (R233). -/
def Team.endSlots (t : Team) (g : Graph) : List Nat :=
  ((g.alloc.filter fun x => x.2 == some t.id).map fun x => x.1) ++ t.batchSlots

/-- A die in DRAIN without teams goes to WARMUP: compute stopped, its DRAM in self-refresh (R338). -/
def State.drained (s : State) (die : Nat) : State :=
  if (s.die die).thermal == .drain && !(s.teams.any fun t => t.die == die) then
    s.onDie die fun d => d.enterStopped .warmup s.gtime
  else s

/-- A team leaves the machine: its tile, its entries, its slots and its faults; its launch may complete. -/
def State.removeTeam (s : State) (tid : Nat) : State :=
  let s := (match s.team? tid with
    | some t => t.groups.foldl (fun (s : State) (g : Group) => s.leaveWaits tid g.num) s
    | none => s).releaseTile tid .ended
  match s.team? tid with
  | none => s
  | some t =>
    let s := t.engTraps.foldl (fun (s : State) (tr : Trap) => s.addLog (.context t.ctx tr.cause tr.info)) s
    let s := (s.endOwnedBy (.team tid)).dropArray t
    let s := s.orphanTeam tid
    let s := (s.dropTeam tid)
    let s : State := { s with
      accesses := s.accesses.filter fun a => a.tid != tid
      remotes := s.remotes.filter fun r => r.tid != tid
      watches := s.watches.filter fun w => w.tid != tid }
    let s := match s.graph? t.launch with
      | some g => s.freeSlots t.launch (t.endSlots g)
      | none => s
    (s.settleLaunch t.launch).drained t.die

/-- Commands of a team that has ended: a write-back that waits for its permit is cancelled, arrivals are presented, and TAGs that
find `q1` full are discarded (R57). -/
def State.endCommands (s : State) (t : Team) : State :=
  let s := s.endPermits t.id
  t.cmds.foldl (fun (s : State) c => (s.arriveDrift t.id c.id).settleDrift t.id c.id) s

/-- The commits still in `q4` reach their bins. -/
def State.commitAll (s : State) (tid : Nat) : Nat → State
  | 0 => s
  | n + 1 => (s.commitHead tid).commitAll tid n

/-- A scratchpad access of the team, or of a peer to the team, is on its way between cores. -/
def State.remoteBusy (s : State) (tid : Nat) : Bool := s.remotes.any fun r => r.tid == tid || r.target == tid

/-- TEAM_RETIRE (R57): groups, stream and commands are done, the stores have left the FIFOs, and no scratchpad access of the team or to it
is on its way. -/
def execTeamRetire (tid : Nat) (s : State) : Result :=
  .next (match s.team? tid with
    | none => s
    | some t =>
      if !t.place.resident || t.place == .prologue || !t.allEnded || t.groups.any (fun g => !g.fifo.isEmpty) || s.remoteBusy tid then s
      else
        let s := s.endCommands t
        match s.team? tid with
        | none => s
        | some t =>
          if !t.cmds.isEmpty then s
          else ((s.commitAll tid t.q4.length).resolveBatch t).removeTeam tid)

/-- CAGED_TEAM_END (R264): firmware ends a team in the cage; the rest of its cluster goes on without it. -/
def execCagedTeamEnd (tid : Nat) (s : State) : Result :=
  .next (match s.team? tid with
    | none => s
    | some t =>
      match t.place with
      | .caged _ =>
        let others := (s.peers t).filter fun u => u.id != tid
        let s := s.removeTeam tid
        others.foldl (fun (s : State) u => s.onTeam u.id fun u =>
          if u.place.left && u.readyAt.isNone && !u.halted then { u with readyAt := some s.gtime } else u) s
      | _ => s)

/-! ### Containment (R272) -/

/-- A context ends: its teams and everything of theirs are discarded, its launches complete with STATUS 2, and the cause is posted. A
team of another context that waits for a tile of its teams is ready (R249, R293). -/
def State.endContext (s : State) (ctx : Nat) (cause : EndCause) : State :=
  let mine := (s.teams.filter fun t => t.ctx == ctx).map fun t => t.id
  let s := (s.teams.filter fun t => t.ctx == ctx).foldl State.dropArray s
  let s : State := { s with
    teams := s.teams.filter fun t => t.ctx != ctx
    own := s.own.filter fun e => e.ctx != ctx
    tileOwners := s.tileOwners.filter fun x => !(mine.contains x.2)
    accesses := s.accesses.filter fun a => !(mine.contains a.tid)
    remotes := s.remotes.filter fun r => !(mine.contains r.tid)
    staleAreas := s.staleAreas.filter fun x => x.1 != ctx
    doomed := s.doomed.filter fun c => c != ctx
    watches := s.watches.filter fun w => !(mine.contains w.tid)
    faults := s.faults.filter fun f => f.ctx != ctx
    invals := s.invals.filter fun v => !(v.ctx == ctx && v.purpose != .firmware)
    leases := s.leases.filter fun l => l.ctx != ctx
    queues := s.queues.map fun q => if q.ctx == ctx then { q with fault := none } else q }
  let s := s.readyTileWaiters
  let s := ((s.launches.filter fun l => l.ctx == ctx).map fun l => l.id).foldl (fun (s : State) l => s.completeLaunch l 2 0) s
  let s := s.addLog (.contextEnded ctx cause)
  (List.range 8).foldl State.drained s

/-- The contexts that have read a row which patrol found bad end (R271). -/
def State.endDoomed (s : State) : State :=
  if s.doomed.isEmpty then s else s.doomed.foldl (fun (s : State) c => s.endContext c .error) { s with doomed := [] }

/-- FIRMWARE_CONTEXT_END (R272, R341). -/
def execFirmwareContextEnd (ctx : Nat) (s : State) : Result := .next (if (s.context? ctx).isSome then s.endContext ctx .firmware else s)

end Sys2Proof.Machine
end

