-- ==== Sys2Proof/Machine/Relief.lean ====
section
/-! DEFINITION. Waiting that helps: relief and promotion (R242 to R248), the forward-progress swap (R77, R249, R250), and saffron
eviction (R226). -/

namespace Sys2Proof.Machine

/-! ### Parked teams -/

/-- In the present cycle of its die an event has arrived that a parked group of the team awaits (R249). -/
def State.eventNow (s : State) (t : Team) : Bool := t.eventAt == (s.die t.die).cycles + 1

/-- The group is parked on something that has not happened (R249). -/
def State.parked (s : State) (t : Team) (g : Group) : Bool :=
  match g.park with
  | .none => false
  | .nap _ => false
  | .waita _ woken => !woken
  | .bar k gen => decide ((barGen (t.bar k)).toNat ≤ gen.toNat)
  | .await _ _ => s.eventWait g
  | .retry (.tile (some _)) => !g.due && s.eventWait g
  | .retry (.stock (some _)) => !g.due && s.eventWait g
  | .retry _ => !g.due
  | _ => true

/-- Every live group is parked, and there is one; an event of the present cycle counts against it whatever has become of it since (R249). -/
def State.allParked (s : State) (t : Team) : Bool :=
  t.anyLive && !(s.eventNow t) && t.groups.all fun g => g.frontier.isEmpty || s.parked t g

/-- The tick since which the team has been entirely parked. -/
def Team.parkedAt (t : Team) : Nat := (t.groups.map fun g => if g.frontier.isEmpty then 0 else g.parkedSince).foldl max 0

/-! ### Relief (R242, R243) -/

/-- What a waiter waits on: an owner through an entry, the oldest batch of its graph, or nothing that could be relieved. -/
inductive WaitsOn where
  | entry (grp e : Nat)
  | stock (grp : Nat)
  | nothing
deriving DecidableEq, Repr

/-- The first open entry among some. -/
def State.firstOpen (s : State) (l : List Nat) : Option Nat :=
  l.find? fun e => match s.entry? e with
    | some x => x.state.open_
    | none => false

/-- The group is parked in a TILEB that waits for no tile: for an accumulator, a held home or a fault (R479). -/
def Group.inTileb (g : Group) (t : Team) : Bool := g.park != .none && g.fbRead.isSome && t.cov.bound.isNone

/-- What one group waits on, if it waits in AWAIT, TILEB or a RECA. -/
def State.groupWaitsOn (s : State) (t : Team) (g : Group) : Option WaitsOn :=
  let through := fun (l : List Nat) => some (match s.firstOpen l with
    | some e => WaitsOn.entry g.num e
    | none => .nothing)
  match g.park with
  | .await _ l => through (l.filterMap fun x => x.2)
  | .retry (.tile (some e)) => through [e]
  | .retry (.tile none) => some .nothing
  | .retry (.stock (some e)) => through [e]
  | .retry (.stock none) => some (.stock g.num)
  | _ => if g.inTileb t then some .nothing else none

/-- What a team waits on as a waiter: every group is parked, and the lowest-numbered one in AWAIT, TILEB or a RECA decides (R242). -/
def State.waitsOn (s : State) (t : Team) : Option WaitsOn :=
  if s.allParked t then (t.groups.filterMap fun g => s.groupWaitsOn t g).head? else none

/-- A waiter on a core. -/
def State.waiter (s : State) (t : Team) : Option WaitsOn := if t.place == .running then s.waitsOn t else none

/-- The waiter itself may be relieved: its cluster is 1×1 and its depth below 4 (R242). -/
def Team.relievable (w : Team) : Bool := w.cw * w.ch == 1 && decide (w.depth < 4)

/-- The relief of a waiter through an entry: what it adds to the team placed for it (R225, R245). -/
def Team.relievedFor (w : Team) (e : Nat) (u : Team) : Team :=
  { u with depth := w.depth + 1, relieves := some e, eff := min u.eff w.eff }

/-- Mark the entry (R242). -/
def State.markRelief (s : State) (w : Team) (e : Nat) : State :=
  match s.entry? e with
  | none => s
  | some x =>
    let link := match w.relieves with
      | some r => match s.entry? r with
        | some y => y.index
        | none => 0x3FFF
      | none => 0x3FFF
    s.setEntry { x with wlid := w.lid, windex := BitVec.ofNat 32 w.index, depth := w.depth, link := link, state := .running }

/-- Swap the waiter out for an entry: it stays until the entry has left STATE 1 to 3 (R246). None where it cannot leave yet. -/
def State.swapWaiter (s : State) (w : Team) (e : Nat) : Option State :=
  let s := (s.onTeam w.id fun t => { t with relievedBy := some e }).stopTeam w.id false false true
  match s.team? w.id with
  | some t => if t.place == .caged false then some s else none
  | none => none

/-- Room for an owner on the waiter's core once the waiter has left. -/
def State.roomFor (s : State) (w : Team) (units ngroups : Nat) : Bool := (s.fit w.die w.core units ngroups [w.id]).isSome

/-- Promote a swapped owner: its die places it, with its whole cluster, as a ready swapped team (R61, R244). -/
def State.promoteTeam (s : State) (u : Team) : State :=
  if u.place == .caged false && !u.halted then
    (s.peers u).foldl (fun (s : State) x => s.onTeam x.id fun t =>
      if t.place == .caged false && !t.halted && t.readyAt.isNone then { t with readyAt := some s.gtime } else t) s
  else s

/-- Promote a launch's next undispatched cluster, on the given die where it has one left, else on the first die that has (R244). -/
def State.promoteLaunch (s : State) (l : Launch) (die : Nat) : State :=
  match (die :: List.range 8).find? fun d => s.launchLeft l d && !(l.promoted.any fun x => x.1 == d) with
  | some d => s.onLaunch l.id fun x => { x with promoted := x.promoted ++ [(d, s.gtime)] }
  | none => s

/-- Relief by a swapped team, or its promotion (R242, R244). -/
def State.relieveByTeam (s : State) (w : Team) (e tid : Nat) : State :=
  match s.team? tid with
  | none => s
  | some u =>
    if u.place != .caged false || u.halted || u.ctx != w.ctx then s
    else if u.die != w.die then s.promoteTeam u
    else if u.cw * u.ch != 1 || !w.relievable || !((s.die w.die).places true) || !(s.roomFor w u.units u.ngroups) then s
    else match (s.markRelief w e).swapWaiter w e with
      | none => s
      | some s1 => match s1.fit w.die w.core u.units u.ngroups [] with
        | none => s
        | some x => (((s1.restore tid w.core x (w.relievedFor e)).resumeSteps tid).candPlaced w.die (.team tid)).onTeam w.id
            fun t => { t with reliever := some tid }

/-- Relief by the lowest undispatched team of a launch, or its promotion on a die that would run it. -/
def State.relieveByLaunch (s : State) (w : Team) (e : Nat) (l : Launch) : State :=
  if l.done.isSome || l.ctx != w.ctx then s
  else if !(s.launchLeft l w.die) then s.promoteLaunch l w.die
  else
    let units := l.reg + l.scr + l.acc
    if l.cw * l.ch != 1 || !w.relievable || !((s.die w.die).places false) || !(s.serialOk l) || !(s.roomFor w units l.ngroups) then s
    else match (s.markRelief w e).swapWaiter w e with
      | none => s
      | some s1 => match s1.fit w.die w.core units l.ngroups [] with
        | none => s
        | some x => (s1.placeLaunch l w.die [(0, w.core, x)] (w.relievedFor e)).onTeam w.id
            fun t => { t with reliever := some s1.nextId }

/-- Relief of a RECA by the oldest unstarted batch of its graph on its die (R243). -/
def State.relieveByBatch (s : State) (w : Team) (grp : Nat) : State :=
  match s.launch? w.launch with
  | none => s
  | some l =>
    match l.graph with
    | none => s
    | some g =>
      match oldestBatch (g.batches.filter fun b => b.die == w.die), s.freeIndex w.ctx with
      | some b, some i =>
        match g.nodes[b.node]? with
        | none => s
        | some n =>
          if !w.relievable || !((s.die w.die).places false) || !(s.roomFor w n.units n.ngroups) then s
          else
            let g := g.close b s.gtime
            let home := match (s.objectDie w g.desc).1 with
              | .ok d => d
              | _ => w.die
            let (e, s1) := (s.onGraph l.id fun _ => g).createEntry
              { id := 0, ctx := w.ctx, index := i, die := home, obj := va57 g.desc, kind := 2, state := .running, waiters := 1
                owner := .batch b.id, olid := l.lid, oindex := 0xFFFFFFFF }
            let s1 := (s1.onGroup w.id grp fun g => { g with park := .retry (.stock (some e)) }).markRelief w e
            match s1.swapWaiter w e, g.batches.find? fun x => x.id == b.id with
            | some s2, some b =>
              match s2.fit w.die w.core n.units n.ngroups [] with
              | none => s
              | some x =>
                let tid := s2.nextId
                let s3 := s2.placeBatch l g b n w.core x fun u => { (w.relievedFor e u) with byRelief := true }
                (s3.onEntry e fun y => { y with owner := .team tid }).onTeam w.id fun t => { t with reliever := some tid }
            | _, _ => s
      | _, _ => s

/-- The launch that a packet became. -/
def State.launchOf (s : State) (p q n : Nat) : Option Launch :=
  s.launches.find? fun l => l.partition == p && l.queue == q && l.index == n

/-- The relief of a waiter on a core, or the promotion of its owner (R242 to R245). -/
def State.relieve (s : State) (w : Team) : State :=
  match s.waiter w with
  | some (.stock grp) => s.relieveByBatch w grp
  | some (.entry _ e) =>
    match s.entry? e with
    | none => s
    | some x =>
      if x.ctx != w.ctx then s
      else match x.owner with
        | .team u => s.relieveByTeam w e u
        | .packet p q n => match s.launchOf p q n with
          | some l => s.relieveByLaunch w e l
          | none => s
        | .batch _ => s
  | _ => s

/-- A waiter in the cage relieves nothing; its owner is promoted (R244). -/
def State.promoteFor (s : State) (w : Team) : State :=
  match s.waitsOn w with
  | some (.entry _ e) =>
    match s.entry? e with
    | none => s
    | some x =>
      if x.ctx != w.ctx then s
      else match x.owner with
        | .team u => match s.team? u with
          | some u => s.promoteTeam u
          | none => s
        | .packet p q n => match s.launchOf p q n with
          | some l => if l.done.isSome then s else s.promoteLaunch l w.die
          | none => s
        | .batch _ => s
  | _ => s

/-- Relief has swapped the team out. -/
def State.reliefSwaps (s : State) (w : Team) : Bool :=
  match (s.relieve w).team? w.id with
  | some t => t.place != w.place
  | none => false

/-! ### The order of swaps in one cycle (R226, R249) -/

/-- Teams of a core that eviction may take, in the order in which it takes them: anise before clove, the most recently placed
first. A team leaves with its whole cluster, so that none of it may be saffron (R61, R226). -/
def State.evictable (s : State) (die core : Nat) : List Team :=
  sortBy (fun (t : Team) => (3 - t.eff, s.gtime - t.placedAt, 0)) ((s.residents die core).filter fun t =>
    !t.place.left && t.eff != 0 && (s.peers t).all fun u => u.eff != 0)

/-- Teams that are on their way out already. -/
def State.leaving (s : State) (die : Nat) : List Nat :=
  (s.teams.filter fun t => t.die == die && t.place.resident && t.place.left).map fun t => t.id

/-- The fewest of a core's evictable teams, in order, whose leaving, each with its whole cluster, makes the team fit beside those that are
gone: all that are gone then. -/
def State.victims (s : State) (die core units ngroups : Nat) (gone : List Nat) : List Team → Option (List Nat)
  | [] => if (s.fit die core units ngroups gone).isSome then some gone else none
  | t :: r =>
    if (s.fit die core units ngroups gone).isSome then some gone
    else s.victims die core units ngroups (gone ++ ((s.peers t).map fun u => u.id).filter fun i => !(gone.contains i)) r

/-- The victims of a rectangle, position by position. -/
def State.rectVictims (s : State) (die : Nat) (j : Job) (tr : Bool) (corner : Nat) : Option (List Nat) :=
  let out := s.leaving die
  (j.positions.foldl (fun (gone : Option (List Nat)) p =>
    match gone, rectCore j.cw j.ch tr corner p with
    | some gone, some c => s.victims die c j.units j.ngroups gone (s.evictable die c)
    | _, _ => none) (some out)).map fun gone => gone.filter fun i => !(out.contains i)

/-- The shorter of two lists of victims, the first on a tie. -/
def fewer (a b : Option (List Nat)) : Option (List Nat) :=
  match a, b with
  | some x, some y => if y.length < x.length then some y else some x
  | none, y => y
  | x, none => x

/-- The rectangle on which evicting the fewest teams makes the candidate fit. -/
def State.leastVictims (s : State) (die : Nat) (j : Job) : Option (List Nat) :=
  [false, true].foldl (fun r tr => (List.range 96).foldl (fun r c => fewer r (s.rectVictims die j tr c)) r) none

/-- The unplaced candidates of a launch on a die: its next cluster, and the closed batches of its graph. -/
def State.unplaced (s : State) (die : Nat) (l : Launch) : List Cand :=
  (if s.launchLeft l die && s.serialOk l then [Cand.launch l.id] else [])
    ++ (match l.graph with
        | some g => (s.batchCands die l g).map fun x => x.1
        | none => [])

/-- The teams that are to be evicted for one candidate, if it may be placed and does not fit without. -/
def State.victimsOf (s : State) (die : Nat) (c : Cand) : List Nat :=
  if !(s.mayPlace die c) then []
  else match s.job c with
    | none => []
    | some j => (s.leastVictims die j).getD []

/-- The teams of a die that an urgent saffron launch evicts now (R226): those of its first candidate that needs some. An event of this
cycle that one of them awaits cancels the eviction, which is considered again from the next cycle (R249). -/
def State.evictFor (s : State) (die : Nat) (l : Launch) : List Nat :=
  if l.done.isSome || !(s.launchUrgent l) then []
  else
    let vs := (((s.unplaced die l).map fun c => s.victimsOf die c).find? fun vs => !vs.isEmpty).getD []
    if s.teams.any fun t => vs.contains t.id && s.eventNow t then [] else vs

/-- An eviction of one of the teams is due, and comes before every other swap of them (R249). -/
def State.evictionDue (s : State) (die : Nat) (tids : List Nat) : Bool :=
  s.launches.any fun l => (s.evictFor die l).any fun v => tids.contains v

/-- Some relieved waiter of the team is ready in the cage and would fit on its core in its place (R246). -/
def State.besideWaiter (s : State) (t : Team) : Option Team :=
  s.teams.find? fun w => w.reliever == some t.id && s.clusterReady w && (s.fit t.die t.core w.units w.ngroups [t.id]).isSome

/-- A relieving team that is entirely parked makes room for its ready waiter (R246). -/
def State.yieldTo (s : State) (t w : Team) : State :=
  (s.setTeam { t with after := some (.team w.id) }).preempt t false false false

/-- RELIEF (R242 to R246, R249): the front end relieves a waiter or promotes its owner, or swaps a relieving team that has parked for
the waiter that it relieved. A swap ends the cycle in which it is decided. -/
def relief (tid : Nat) (s : State) : State :=
  match s.team? tid with
  | none => s
  | some t =>
    match t.place with
    | .caged _ => s.promoteFor t
    | .running =>
      if s.evictionDue t.die [tid] then s
      else match (if s.allParked t && t.cw * t.ch == 1 then s.besideWaiter t else none) with
        | some w => (s.yieldTo t w).endCycle t.die
        | none => if s.reliefSwaps t then (s.relieve t).endCycle t.die else s.relieve t
    | _ => s

def execRelief (tid : Nat) (s : State) : Result := .next (relief tid s)

/-! ### The forward-progress swap (R77, R250) -/

/-- The cycles without an issue after which the front end swaps (R77). -/
def idleCycles : Nat := 65536

/-- The residents of a core that the swap may choose: entirely parked with the whole cluster. -/
def State.swappable (s : State) (die core : Nat) : List Team :=
  (s.residents die core).filter fun t => (s.peers t).all fun u => u.place == .running && s.allParked u

/-- When a team's cluster became entirely parked, and its slot. -/
def State.swapKey (s : State) (t : Team) : Nat × Nat × Nat := (((s.peers t).map Team.parkedAt).foldl max 0, t.slot, 0)

/-- A swap of a higher rank falls on one of the teams now (R249). -/
def State.outranked (s : State) (die : Nat) (ts : List Team) : Bool :=
  s.evictionDue die (ts.map fun t => t.id) || ts.any fun t => s.reliefSwaps t

/-- FORWARD_PROGRESS_SWAP (R77, R249, R250). The teams that wait to be placed on the core are taken to be the die's candidates that may be
placed, and the swap takes place even where none of them would fit on the core afterwards: R77 does not say, DESIGN CHOICE (log 93). -/
def forwardProgressSwap (die core : Nat) (s : State) : State :=
  let c := s.core die core
  match c.countFrom with
  | none => s
  | some c0 =>
    if (s.die die).cycles < c0 + idleCycles then s
    else match s.candidates die, sortBy s.swapKey (s.swappable die core) with
      | _ :: _, t :: _ =>
        let ms := s.peers t
        if s.outranked die ms then s
        else
          let c := s.fitsWithout die core 3 (ms.map fun u => u.id)
          let s := ms.foldl (fun (s : State) u => s.onTeam u.id fun t => { t with after := c }) s
          (s.preempt t false false false).endCycle die
      | _, _ => s

def execForwardProgressSwap (die core : Nat) (s : State) : Result := .next (forwardProgressSwap die core s)

/-! ### Saffron eviction and starved candidates (R224, R226) -/

/-- URGENCY_REACHED (R226, R249): GTIME has reached DEADLINE - U for an unplaced saffron candidate of the launch, and teams are evicted
for it. -/
def urgency (die lid : Nat) (s : State) : State :=
  match s.launch? lid with
  | none => s
  | some l =>
    match s.evictFor die l with
    | [] => s
    | vs => (vs.foldl (fun (s : State) v => match s.team? v with
        | some t => s.preempt t false true false
        | none => s) s).endCycle die

def execUrgencyReached (die launch : Nat) (s : State) : Result := .next (urgency die launch s)

/-- The candidate has been skipped for 1,000,000 ticks, and no other one blocks its class (R224). -/
def State.starved (s : State) (die : Nat) (x : Listed) : Bool :=
  (s.die die).skipped.any (fun y => y.1 == x.cand && decide (s.gtime ≥ y.2 + 1000000))
    && (s.blockers die).all fun b => decide (x.cls < b.cls)

/-- SKIP_TIMEOUT (R224): a candidate skipped for 1,000,000 ticks blocks its class and lower ones; what blocked before and is a candidate no
more blocks no more. -/
def execSkipTimeout (die : Nat) (s : State) : Result :=
  .next (s.onDie die fun d =>
    { d with blocking := ((s.blockers die).map fun x => x.cand) ++ (((s.candidates die).find? fun x => s.starved die x).map fun x => x.cand).toList })

end Sys2Proof.Machine
end

