-- ==== Sys2Proof/Machine/FrontEnd.lean ====
section
/-! DEFINITION. The front end: doorbells and packets (R58, R60, R62, R88, R169, R171, R217 to R222, R229, R230, R490), the placing
of candidates (R224), and the prologue engine (R136, R169 to R171). -/

namespace Sys2Proof.Machine

/-! ### Launch packets (R221) -/

/-- A packet as one number, and its fields. -/
abbrev Packet := Nat

/-- The weight of a die in the partition vector (R62). -/
def Packet.weight (p : Packet) (d : Nat) : Nat := bits p (640 + 16 * d) 16

/-- W and S_d of R62. -/
def Packet.weightSum (p : Packet) (n : Nat) : Nat := ((List.range n).map (Packet.weight p)).sum

/-- The fields of a packet as an accepted launch has them; windows and graph are added as they are read. -/
def parsePacket (id partition queue index ctx now : Nat) (p : Packet) : Launch :=
  let gx := bits p 448 32
  let gy := bits p 480 16
  let gz := bits p 496 16
  let cw := bits p 558 4
  let ch := bits p 562 4
  let n := gx * gy * gz / (cw * ch)
  let w := Packet.weightSum p 8
  { id := id, partition := partition, queue := queue, index := index, lid := BitVec.ofNat 32 (bits p 864 32)
    compval := BitVec.ofNat 32 (bits p 832 32), compaddr := BitVec.ofNat 64 (bits p 768 64), ctx := ctx, cls := bits p 583 2
    det := p.testBit 585, serial := p.testBit 586, deadline := bits p 384 64, gx := gx, gy := gy, gz := gz, cw := cw, ch := ch
    ngroups := bits p 553 5 + 1, rows := bits p 544 9, reg := bits p 512 8, scr := bits p 520 8, acc := bits p 528 5
    code := BitVec.ofNat 64 (bits p 0 64), live := BitVec.ofNat 64 (bits p 64 64), mstream := BitVec.ofNat 64 (bits p 128 64)
    windows := List.replicate 8 none, xfCount := bits p 566 3, xfAddr := BitVec.ofNat 64 (bits p 256 64)
    next := (List.range 8).map fun d => n * Packet.weightSum p d / w
    last := (List.range 8).map fun d => n * Packet.weightSum p (d + 1) / w, graph := none, acceptedAt := now }

/-- The checks of R222 that the packet alone decides, by their codes. -/
def State.packetErrs (s : State) (q : Queue) (h : QHeader) (p : Packet) (l : Launch) : List Nat :=
  let c := fun (b : Bool) (code : Nat) => if b then [code] else []
  let teams := l.gx * l.gy * l.gz
  let dies := match s.partition? q.partition with
    | some x => x.dies
    | none => []
  let ctx := bits p 577 6
  c (bits p 896 128 != 0 || bits p 587 53 != 0) 1
    ++ c (l.cls != h.cls || ctx != q.ctx || (l.deadline != 0 && l.cls != 0) || s.partitionOf ctx != q.partition
          || (s.context? ctx).isNone) 2
    ++ c (l.gx == 0 || l.gy == 0 || l.gz == 0 || decide (teams > 0xFFFFFFFF)) 3
    ++ c (l.cw == 0 || l.ch == 0 || decide (l.cw > 12) || decide (l.ch > 12) || decide (l.cw * l.ch > 12)
          || teams % (l.cw * l.ch) != 0) 4
    ++ c (Packet.weightSum p 8 == 0 || (List.range 8).any fun d => Packet.weight p d != 0 && !(dies.contains d)) 5
    ++ c (bits p 533 11 != 0 || decide (l.acc > 16) || decide (l.scr > 128) || decide (l.reg + l.scr + l.acc > 256)
          || l.rows == 0 || decide (l.rows > 256) || decide (l.reg < leastReg l.ngroups l.rows)) 6
    ++ c (decide (l.xfCount > 4)) 8
    ++ c (bits p 0 5 != 0 || bits p 64 4 != 0 || bits p 128 5 != 0 || bits p 192 7 != 0 || bits p 256 6 != 0
          || bits p 768 4 != 0) 9

/-! ### Tables read during validation (R490) -/

/-- What reading a table gives: its bytes, or that it cannot be read; or the validation waits. -/
inductive TableRead where
  | ok (l : List Byte)
  | unreadable
  | waits (s : State)

/-- Read a table of a packet; `reason` names it. -/
def State.readTable (s : State) (q : Queue) (die reason : Nat) (va : DWord) (n : Nat) : TableRead × State :=
  if q.denied.contains reason then (.unreadable, s)
  else match s.feRead q.ctx die va (n / 256 + 2) n with
    | (.ok l, s) => (.ok l, s)
    | (.trap _, s) => (.unreadable, s)
    | (.fault c va, s') =>
      let (i, s') := s'.addFault die 0 q.ctx 0 9 c va (.table q.partition q.num reason)
      (.waits (s'.onQueue q.partition q.num fun q => { q with fault := some i }), s)
    | (.wait, _) => (.waits s, s)

/-- The windows of a binding table, and its errors (R222). -/
def parseWindows (pmask : Nat) (l : List Byte) : List (Option Window) × List Nat :=
  let e := fun w => leNat ((l.drop (16 * w)).take 16)
  let bound := (List.range 8).filter fun w => pmask.testBit w
  ((List.range 8).map fun w =>
      if pmask.testBit w then some (.mem (BitVec.ofNat 64 (bits (e w) 0 64)) (bits (e w) 64 32)) else none,
    (if bound.any fun w => bits (e w) 96 32 != 0 then [1] else [])
      ++ if bound.any fun w => bits (e w) 0 8 != 0 || bits (e w) 64 32 == 0 then [7] else [])

/-- A transform binding (R169). -/
structure Binding where
  src : DWord
  stride : Int
  gather : DWord
  perm : DWord
  dstoff : Nat
  rows : Nat
  elems : Nat
  sfmt : Nat
  dfmt : Nat
deriving DecidableEq, Repr

def parseBinding (l : List Byte) : Binding :=
  let n := leNat l
  { src := BitVec.ofNat 64 (bits n 0 64), stride := sint 64 (bits n 64 64), gather := BitVec.ofNat 64 (bits n 128 64)
    perm := BitVec.ofNat 64 (bits n 192 64), dstoff := bits n 256 32, rows := bits n 288 16, elems := bits n 304 16
    sfmt := bits n 320 8, dfmt := bits n 328 8 }

/-- A binding that R171 refuses. ELEMS above 4,096, outside R169's range, is not among R171's grounds: the model takes it as given, a
DESIGN CHOICE (log 73). -/
def badBinding (scr : Nat) (l : List Byte) : Bool :=
  let b := parseBinding l
  let sz := formatSize b.dfmt
  leNat (l.drop 42) != 0 || b.elems == 0 || b.rows == 0 || decide (b.dstoff < 128) || b.dstoff % sz != 0
    || b.perm.toNat % 2 != 0 || b.gather.toNat % 4 != 0 || decide (b.dstoff + b.rows * b.elems * sz > 128 + scr * 16384)

/-- The 64-byte records of a table. -/
def records64 (l : List Byte) (n : Nat) : List (List Byte) := (List.range n).map fun i => (l.drop (64 * i)).take 64

/-- A node of a graph descriptor with its kernel record (R229, R231); none where R230 refuses it. Its SCRATCH, ACC and GENERAL are taken as
they stand, with no check of a range that R230 and R231 do not name: DESIGN CHOICE (log 91). -/
def parseNode (v k : Nat) : Option NodeInfo :=
  let count := bits v 136 8
  if bits v 0 128 != 0 || count == 0 || decide (count > 64) || bits k 26 4 != 1 || bits k 22 4 != 1 || k.testBit 13 then none
  else some
    { krec := BitVec.ofNat 64 (bits v 192 64), timer := bits v 160 32, cap := bits v 144 16, count := count, recsz := bits v 128 8
      code := BitVec.ofNat 64 (bits k 192 64), mstream := BitVec.ofNat 64 (bits k 128 64), live := BitVec.ofNat 64 (bits k 64 64)
      rows := bits k 48 16, scr := bits k 40 8, acc := bits k 35 5, ngroups := bits k 30 5 + 1 }

/-- What reading a graph gives. -/
inductive GraphRead where
  | ok (g : Graph)
  | refused
  | waits (s : State)

/-- Read the kernel records of nodes. -/
def State.readNodes (s : State) (q : Queue) (die : Nat) : List Nat → Option (List NodeInfo) × Option State × State
  | [] => (some [], none, s)
  | v :: r =>
    match s.readTable q die 10 (BitVec.ofNat 64 (bits v 192 64)) 64 with
    | (.waits w, s) => (none, some w, s)
    | (.unreadable, s) => (none, none, s)
    | (.ok k, s) =>
      match parseNode v (leNat k) with
      | none => (none, none, s)
      | some n =>
        match s.readNodes q die r with
        | (some ns, w, s) => (some (n :: ns), w, s)
        | e => e

/-- Read and check a graph descriptor (R229, R230). -/
def State.readGraph (s : State) (q : Queue) (die : Nat) (va : DWord) : GraphRead × State :=
  match s.readTable q die 10 va 64 with
  | (.waits w, s) => (.waits w, s)
  | (.unreadable, s) => (.refused, s)
  | (.ok l, s) =>
    let h := leNat l
    let nn := bits h 96 16
    let slots := bits h 64 32
    if bits h 112 400 != 0 || nn == 0 || decide (nn > 256) || slots == 0 then (.refused, s)
    else match s.readTable q die 10 (va + 64) (32 * nn) with
      | (.waits w, s) => (.waits w, s)
      | (.unreadable, s) => (.refused, s)
      | (.ok l, s) =>
        match s.readNodes q die ((List.range nn).map fun i => leNat ((l.drop (32 * i)).take 32)) with
        | (some ns, _, s) =>
          (.ok { desc := va, nodes := ns, stock := BitVec.ofNat 64 (bits h 0 64), slots := slots, alloc := [], batches := [] }, s)
        | (none, some w, s) => (.waits w, s)
        | (none, none, s) => (.refused, s)

/-! ### PACKET_TAKE (R218 to R222) -/

/-- A queue is disabled, and the partition's event log records it (R217, R490). -/
def State.disableQueue (s : State) (p q : Nat) : State :=
  (s.onQueue p q fun x => { x with disabled := true }).addLog (.queueDisabled p q)

/-- The bytes of the packet in a slot; unspecified where the producer has overrun the ring (R218). -/
def State.packetBytes (s : State) (overrun : Bool) (l : List Byte) : List Byte × State :=
  if overrun then ((List.range 128).map fun i => Config.freeByte (s.free + i), { s with free := s.free + 128 }) else (l, s)

/-- The lowest of some codes. -/
def lowest (l : List Nat) : Option Nat := l.min?

/-- Advance READ past a packet; the queue waits where the write faults (R218, R490). -/
def State.passPacket (s0 s : State) (q : Queue) (h : QHeader) (die : Nat) (k : State → State) : State :=
  match s.feWrite q.ctx die (q.header + 8) 2 (leBytes 8 (h.read + 1)) with
  | (.ok _, s) => k (s.onQueue q.partition q.num fun x => { x with denied := [], doorbell := decide (h.read + 1 < h.write) })
  | (.trap _, s) => s.disableQueue q.partition q.num
  | (.fault c va, s) =>
    let (i, s) := s.addFault die 0 q.ctx 0 9 c va (.queue q.partition q.num)
    { s0 with faults := s.faults, nextId := s.nextId, tlb := s.tlb }.onQueue q.partition q.num fun x => { x with fault := some i }
  | (.wait, _) => s0

/-- Refuse a packet: no trap, and a completion record with STATUS 1 (R222). An ownership entry whose owner is the packet stays in STATE 1,
for which the spec gives no end: DESIGN CHOICE (log 74). -/
def State.refusePacket (s : State) (l : Launch) (code : Nat) : State :=
  let l := { l with done := some (1, code, s.gtime) }
  let s := { s with launches := s.launches ++ [l] }
  s.writeRecord l

/-- Accept a packet: its launch, and deterministic mode of its context (R346). -/
def State.acceptPacket (s : State) (l : Launch) : State :=
  { s with
    launches := s.launches ++ [l]
    leases := if l.det then s.leases.filter fun x => x.ctx != l.ctx else s.leases }

/-- Validate and take a packet whose bytes have been read. -/
def State.takePacket (s0 s : State) (q : Queue) (h : QHeader) (die : Nat) (p : Packet) : State :=
  let (i, s) := s.fresh
  let l := parsePacket i q.partition q.num h.read q.ctx s.gtime p
  let errs := s.packetErrs q h p l
  let pmask := bits p 569 8
  let (wr, s) := if pmask == 0 || bits p 192 7 != 0 then (TableRead.ok [], s) else s.readTable q die 7 (BitVec.ofNat 64 (bits p 192 64)) 128
  let (xr, s) := if l.xfCount == 0 || l.xfCount > 4 || bits p 256 6 != 0 then (TableRead.ok [], s)
    else s.readTable q die 8 l.xfAddr (64 * l.xfCount)
  let (gr, s) := if bits p 320 64 == 0 then (GraphRead.refused, s) else s.readGraph q die (BitVec.ofNat 64 (bits p 320 64))
  match wr, xr, gr with
  | .waits w, _, _ => w
  | _, .waits w, _ => w
  | _, _, .waits w => w
  | wr, xr, gr =>
    let (ws, e7) := match wr with
      | .ok b => if pmask == 0 || bits p 192 7 != 0 then (l.windows, []) else parseWindows pmask b
      | _ => (l.windows, [7])
    let e8 := match xr with
      | .ok b => if b.isEmpty then [] else if (records64 b l.xfCount).any (badBinding l.scr) then [8] else []
      | _ => [8]
    let (g, e10) := match gr with
      | .ok g => (some g, [])
      | _ => (none, if bits p 320 64 == 0 then [] else [10])
    s0.passPacket s q h die fun s =>
      match lowest (errs ++ e7 ++ e8 ++ e10) with
      | some code => s.refusePacket l code
      | none => s.acceptPacket { l with windows := ws, graph := g }

/-- Launches of a partition that have been accepted and have not retired (R220). -/
def State.accepted (s : State) (p : Nat) : Nat := (s.launches.filter fun l => l.partition == p && l.done.isNone).length

/-- A die of the partition reads launch queues (R338). -/
def State.readsQueues (s : State) (p : Nat) : Bool :=
  match s.partition? p with
  | some x => x.dies.any fun d => (s.die d).places false
  | none => false

/-- PACKET_TAKE (R218, R220): the front end reads, validates and accepts or refuses the next packet of a queue. -/
def packetTake (p n : Nat) (s0 : State) : State :=
  let s0 := s0.retryRecords
  match s0.queue? p n with
  | none => s0
  | some q =>
    if q.disabled || q.fault.isSome || s0.accepted p ≥ 1024 || !(s0.readsQueues p) then s0
    else
      let die := s0.frontDie p
      let failed := fun (r : Direct (List Byte) × State) => match r with
        | (.fault c va, s) =>
          let (i, s) := s.addFault die 0 q.ctx 0 9 c va (.queue p n)
          s.onQueue p n fun x => { x with fault := some i }
        | (.wait, _) => s0
        | (_, s) => s.disableQueue p n
      match s0.feRead q.ctx die q.header 2 64 with
      | (.ok l, s) =>
        let h := parseHeader l
        if h.bad then s.disableQueue p n
        else if h.cls == 3 then s
        else if h.write ≤ h.read then s.onQueue p n fun x => { x with doorbell := false }
        else match s.feRead q.ctx die (h.slotVa h.read) 2 128 with
          | (.ok b, s) =>
            let (b, s) := s.packetBytes (h.write - h.read > 2 ^ h.log2n) b
            s0.takePacket s q h die (leNat b)
          | r => failed r
      | r => failed r

def execPacketTake (partition queue : Nat) (s : State) : Result := .next (packetTake partition queue s)

/-- LAUNCH_DOORBELL (R218): the front end sees that WRITE has moved. -/
def execLaunchDoorbell (partition queue : Nat) (s : State) : Result :=
  .next (match s.queue? partition queue with
    | none => s
    | some q =>
      if q.disabled then s
      else
        let moved := (s.peek q.ctx q.header 64).elim true fun l => decide ((parseHeader l).read < (parseHeader l).write)
        (s.peeked q.ctx q.header 64).onQueue partition queue fun x => { x with doorbell := moved })

/-! ### CLUSTER_PLACE (R224) -/

/-- Closed batches whose team could not fit on an empty core: freed, and the graph completes with reason PWORD (R231). -/
def State.dropUnfit (s : State) (die : Nat) : State :=
  (s.launches.filter fun l => l.done.isNone).foldl (fun (s : State) l =>
    match l.graph with
    | none => s
    | some g =>
      let bad := g.batches.filter fun b => b.die == die && b.closedAt.isSome && (match g.nodes[b.node]? with
        | some n => !(emptyFits n.units n.ngroups)
        | none => true)
      if bad.isEmpty then s
      else
        let slots := bad.flatMap fun b => b.recs.filterMap g.slotOf
        let s := s.onGraph l.id fun g =>
          { g with batches := g.batches.filter fun b => !(bad.any fun x => x.id == b.id), pwordFail := true }
        (s.freeSlots l.id slots).settleLaunch l.id) s

/-- Place a candidate on its spots. -/
def State.placeCand (s : State) (die : Nat) (c : Cand) (spots : List (Nat × Nat × Spot)) : State :=
  match c with
  | .team tid => match s.team? tid with
    | some t => s.placeSwapped t spots
    | none => s
  | .launch l => match s.launch? l with
    | some l => s.placeLaunch l die spots id
    | none => s
  | .batch l b =>
    match s.launch? l, spots with
    | some l, x :: _ =>
      match l.graph with
      | none => s
      | some g =>
        match g.batches.find? fun y => y.id == b with
        | none => s
        | some y => match g.nodes[y.node]? with
          | some n => s.placeBatch l g y n x.2.1 x.2.2 id
          | none => s
    | _, _ => s

/-- CLUSTER_PLACE (R59, R63, R224): the first candidate that fits is placed with the given core as its rectangle's corner. -/
def clusterPlace (die core : Nat) (s : State) : State :=
  let s := s.dropUnfit die
  match s.firstFit die (s.considered die) [] with
  | none => s.noteSkipped die ((s.considered die).map fun x => x.cand)
  | some (c, skipped) =>
    match s.job c with
    | none => s
    | some j =>
      match s.fitAt die j core with
      | some spots => (s.placeCand die c spots).noteSkipped die skipped
      | none => s

def execClusterPlace (die core : Nat) (s : State) : Result := .next (clusterPlace die core s)

/-! ### The prologue engine (R136, R169 to R171) -/

/-- An index read through GATHER or PERM, or the position itself where the table is absent. -/
def State.proIndex (s : State) (t : Team) (table : DWord) (n i : Nat) : Direct Nat × State :=
  if table == 0 then (.ok i, s)
  else
    let (r, s) := s.engineRead t (table + BitVec.ofNat 64 (n * i)) n
    (r.map leNat, s)

/-- The elements of one row; the second component is the team with what has been written. -/
def State.proElems (s : State) (t : Team) (b : Binding) (src : DWord) (r : Nat) : List Nat → Direct Unit × Team × State
  | [] => (.ok (), t, s)
  | j :: rest =>
    match s.proIndex t b.perm 2 j with
    | (.ok e, s) =>
      let sz := formatSize b.sfmt
      let va := src + BitVec.ofNat 64 (e * sz)
      if va.toNat % sz != 0 then (.trap (alignTrap 0 va), t, s)
      else match s.engineRead t va sz with
        | (.ok l, s) =>
          let v := leBytes (formatSize b.dfmt) (widenElem b.sfmt b.dfmt (leNat l))
          s.proElems (t.spadWrite (b.dstoff + (r * b.elems + j) * formatSize b.dfmt) v) b src r rest
        | (x, s) => (x.map fun _ => (), t, s)
    | (x, s) => (x.map fun _ => (), t, s)

/-- The rows of one binding. -/
def State.proRows (s : State) (t : Team) (b : Binding) : List Nat → Direct Unit × Team × State
  | [] => (.ok (), t, s)
  | r :: rest =>
    match s.proIndex t b.gather 4 r with
    | (.ok row, s) =>
      match s.proElems t b (b.src + BitVec.ofInt 64 ((row : Int) * b.stride)) r (List.range b.elems) with
      | (.ok _, t, s) => s.proRows t b rest
      | e => e
    | (x, s) => (x.map fun _ => (), t, s)

/-- A pair of codes that is not listed, or does not widen, stops the team before any transform runs (R136). -/
def Binding.formatErr (b : Binding) : Option Trap :=
  if !(formatListed b.sfmt) || !(formatListed b.dfmt) then some (illegalTrap .reserved)
  else if !(widens b.sfmt b.dfmt) then some (illegalTrap .narrow)
  else none

def State.proBindings (s : State) (t : Team) : List Binding → Direct Unit × Team × State
  | [] => (.ok (), t, s)
  | b :: rest =>
    match s.proRows t b (List.range b.rows) with
    | (.ok _, t, s) => s.proBindings t rest
    | e => e

/-- The whole prologue. -/
def State.prologue (s : State) (t : Team) : Direct Unit × Team × State :=
  match s.feRead t.ctx t.die t.xfAddr 3 (64 * t.xfCount) with
  | (.ok l, s) =>
    let bs := (records64 l t.xfCount).map parseBinding
    match bs.findSome? Binding.formatErr with
    | some tr => (.trap tr, t, s)
    | none => s.proBindings t bs
  | (x, s) => (x.map fun _ => (), t, s)

/-- The prologue ended in a trap: group 0 takes it at the kernel's first instruction, and the others wait until it has left the
handler (R171). -/
def State.stopPrologue (s : State) (t : Team) (tr : Trap) : State :=
  s.setTeam { t with place := .running, begun := true, gated := true, engTraps := t.engTraps ++ [tr], prologueFault := none }

/-- Group 0 has taken the trap and left the handler. -/
def Team.gateOpens (t : Team) : Bool :=
  t.engTraps.isEmpty && (match t.group? 0 with
    | some g => g.slot.isNone
    | none => true)

/-- The groups may issue, and the sequencer starts (R276). -/
def Team.begin (t : Team) : Team :=
  { t with place := .running, begun := true, gated := false, stream := newStream t.mstream, prologueFault := none }

/-- PROLOGUE_COMPLETE (R171, R276). -/
def prologueComplete (tid : Nat) (s : State) : State :=
  match s.team? tid with
  | none => s
  | some t =>
    match t.place with
    | .prologue =>
      if t.prologueFault.isSome then s
      else match s.prologue t with
        | (.ok _, t', s) => s.setTeam t'.begin
        | (.trap tr, t', s) => s.stopPrologue t' tr
        | (.fault c va, t', s) =>
          let (i, s) := s.addFault t.die t.core t.ctx t.slot 5 c va (.prologue tid)
          s.onTeam tid fun t => { t with scratch := t'.scratch, prologueFault := some i }
        | (.wait, t', s) => s.onTeam tid fun t => { t with scratch := t'.scratch }
    | .running =>
      if t.gated && t.gateOpens then
        s.setTeam { t with gated := false, stream := if t.anyLive then newStream t.mstream else none }
      else s
    | _ => s

def execPrologueComplete (tid : Nat) (s : State) : Result := .next (prologueComplete tid s)

end Sys2Proof.Machine
end

