-- ==== Sys2Proof/Machine/Faults.lean ====
section
/-! DEFINITION. What firmware does with the fault buffer: a slot granted, a replay, a denial (R114, R155 to R157, R171, R177, R260,
R477, R479, R480, R490). -/

namespace Sys2Proof.Machine

/-- The first requester of a die that waits for a slot gets it (R156). -/
def grantFirst (die : Nat) : List FaultEntry → List FaultEntry
  | [] => []
  | f :: r => if f.die == die && !f.slot then { f with slot := true } :: r else f :: grantFirst die r

/-- FAULT_SLOT_GRANT (R156). -/
def execFaultSlotGrant (die : Nat) (s : State) : Result :=
  .next (if s.faultSlotsUsed die < faultSlots then { s with faults := grantFirst die s.faults } else s)

/-- The entry leaves the buffer. -/
def State.dropFault (s : State) (id : Nat) : State := { s with faults := s.faults.filter fun f => f.id != id }

/-- A group parked on the entry is at its instruction again. -/
def State.unpark (s : State) (tid grp id : Nat) : State :=
  s.onGroup tid grp fun g => if g.park == .fault id then { g with park := .none } else g

/-- The piece lies in the entry's page. -/
def FaultEntry.samePage (f : FaultEntry) (a : LaneAddr) : Bool :=
  decide (f.page.1 ≤ va57 a.va) && decide (va57 a.va < f.page.1 + f.page.2)

/-- The group waits for the entry no more; its head is to take the trap (R114, R156). -/
def State.denyAt (s : State) (tid grp id : Nat) (fetch : Bool) (tr : Trap) : State :=
  s.onGroup tid grp fun g =>
    if g.park == .fault id then
      { g with park := .none, deny := g.head?.map fun e => { trap := tr, pc := e.pc, handler := e.handler, fetch := fetch } }
    else g

/-- The entry no longer holds a store. -/
def Group.clearHold (g : Group) (entry id : Nat) : Group :=
  { g with fifo := g.fifo.map fun e => if e.id == entry then { e with faults := e.faults.filter fun x => x != id } else e }

/-- FAULT_REPLAY (R156): the access walks again. -/
def faultReplay (id : Nat) (s : State) : State :=
  match s.faults.find? fun f => f.id == id with
  | none => s
  | some f =>
    if !f.slot then s
    else
      let s := s.dropFault id
      match f.req with
      | .load tid grp p => (s.resendLoad tid grp p f.samePage).leaveFault tid grp id
      | .fifo tid grp e => ((s.onGroup tid grp fun g => g.clearHold e id).resendStore tid grp e f.samePage).leaveFault tid grp id
      | .insn tid grp => s.unpark tid grp id
      | .fetch tid grp => s.unpark tid grp id
      | .handler tid grp => s.unpark tid grp id
      | .tex tid grp => s.unpark tid grp id
      | .tileWrite tid grp => s.unpark tid grp id
      | .streamFetch tid => s.onTeam tid fun t => { t with stream := t.stream.map fun m => { m with park := .none } }
      | .drift tid c => s.onTeam tid fun t => { t with cmds := t.cmds.map fun x =>
          if x.id == c then { x with faults := x.faults.filter fun y => y != id } else x }
      | .prologue tid => s.onTeam tid fun t => { t with prologueFault := none }
      | .tileFill _ => s
      | .queue p q => s.onQueue p q fun x => { x with fault := none }
      | .table p q _ => s.onQueue p q fun x => { x with fault := none }
      | .completion l => match s.launch? l with
        | some l => s.writeRecord l
        | none => s
      | .ownArea ctx i => s.rewriteArea ctx i
      | .gone => s

def execFaultReplay (id : Nat) (s : State) : Result := .next (faultReplay id s)

/-- The trap of a denied access, at its address (R156, R253). -/
def FaultEntry.denial (f : FaultEntry) : Trap := xlateTrap 5 ((f.va.extractLsb' 0 57).signExtend 64)

/-- TEX or TLD goes on, its fault owed (R114, R477): both are 8 bytes long. -/
def Group.denyTex (g : Group) (tr : Trap) : Group :=
  match g.head? with
  | none => g
  | some e => ({ g with park := .none }.advance { pc := e.pc, lanes := e.lanes, prio := e.prio, handler := e.handler, len := 8 }).owe
      tr e.lanes e.handler

/-- TILEF ends by a denied access (R480); where that is the write that ends it, the signature entry is left unchanged. -/
def State.denyTilef (s : State) (tid grp : Nat) (tr : Trap) : State :=
  match s.team? tid with
  | none => s
  | some t =>
    match t.cov.bound, t.group? grp with
    | some b, some g =>
      match g.head? with
      | none => s
      | some e =>
        let c : Cur := { tid := tid, agent := .lane grp, pc := e.pc, lanes := e.lanes, prio := e.prio, handler := e.handler, len := 8 }
        match b.ending with
        | some first => s.leaveTilef t grp c first
        | none => s.endTilef t g b (g.fbRead.getD b.fb) c tr
    | _, _ => s

/-- FAULT_DENY (R156): XLATE_FATAL with code DENIED, or what R490 and the engines' rules say. -/
def faultDeny (id : Nat) (s : State) : State :=
  match s.faults.find? fun f => f.id == id with
  | none => s
  | some f =>
    if !f.slot then s
    else
      let s := s.dropFault id
      let tr := f.denial
      match f.req with
      | .load tid grp p => (s.failLoad tid grp p tr).leaveFault tid grp id
      | .fifo tid grp e => (s.failStore tid grp e tr).leaveFault tid grp id
      | .insn tid grp => s.denyAt tid grp id false tr
      | .fetch tid grp => s.denyAt tid grp id true tr
      | .handler tid grp => (s.unpark tid grp id).onGroup tid grp fun g => { g with hvaDenied := true }
      | .tex tid grp => s.onGroup tid grp fun g => g.denyTex tr
      | .tileWrite tid grp => s.denyTilef tid grp tr
      | .streamFetch tid => match s.team? tid with
        | some t => match t.stream with
          | some m => s.streamTrap tid m.pc tr
          | none => s
        | none => s
      | .drift tid c => s.endDrift tid c tr
      | .prologue tid => match s.team? tid with
        | some t => s.stopPrologue t tr
        | none => s
      | .tileFill tid => s.killFill tid tr
      | .queue p q => (s.onQueue p q fun x => { x with fault := none }).disableQueue p q
      | .table p q r => s.onQueue p q fun x => { x with fault := none, denied := x.denied ++ [r] }
      | .completion l => match s.launch? l with
        | some l => (s.forgetLaunch l).addLog (.completionUnwritten l.ctx)
        | none => s
      | .ownArea ctx _ => (s.onContext ctx fun c => { c with areaFailed := true }).addLog (.areaUnwritten ctx)
      | .gone => s

def execFaultDeny (id : Nat) (s : State) : Result := .next (faultDeny id s)

end Sys2Proof.Machine
end

