-- ==== Sys2Proof/Machine/Platform.lean ====
section
/-! DEFINITION. Cold operation, power, boot, the host port and Larsa: bands and thermal states (R336 to R346), boot and attestation
(R347 to R349), host accesses (R350, R351), Larsa ports (R352, R353), errors (R271), and what firmware writes (R7, R149, R159, R217,
R226, R238, R344). -/

namespace Sys2Proof.Machine

/-! ### Saving and ending work (R336, R341) -/

/-- Saved teams of a die that reaches RUN or RETREAT are ready swapped teams, those too that waited in the cage for an event when they were
saved (R341); a halted one is not (R264). Their records stay in HBM until they resume. -/
def State.unspill (s : State) (die : Nat) : State :=
  { s with teams := s.teams.map fun (t : Team) =>
      if t.die == die then
        (if t.place == .caged true then
          { t with place := .caged false, saving := false, overflow := true, relievedBy := none
                   readyAt := if t.halted then none else some s.gtime }
         else { t with saving := false })
      else t }

/-- Stop a team as in pre-emption and keep it in the spill area (R341); one that is on its way to the cage goes there instead. -/
def State.spillTeam (s : State) (t : Team) : State :=
  let s := (s.onTeam t.id fun t => { t with saving := true, place := if t.place == .caged false then .caged true else t.place })
  (s.stopTeam t.id false true true).cage t.id true

/-- A die of a partition has entered TRANSIT: every team on the partition's dies is saved, whatever partition its context has now, and
the dies act by their states (R341). -/
def State.transitSave (s : State) (p : Partition) : State :=
  let s := (s.teams.filter fun t => p.dies.contains t.die).foldl State.spillTeam s
  p.dies.foldl (fun (s : State) d => s.onDie d fun x =>
    match x.thermal with
    | .run => x.enterStopped .park s.gtime
    | .retreat => x.enterStopped .park s.gtime
    | .warmIdle => if x.band == 2 then x.enterStopped .cooldown s.gtime else x
    | _ => x) s

/-- A context has work on a die: a team there, or clusters or batches still to be placed there. -/
def State.worksOn (s : State) (die ctx : Nat) : Bool :=
  s.teams.any (fun t => t.die == die && t.ctx == ctx)
    || s.launches.any fun l => l.ctx == ctx && l.done.isNone
        && (s.launchLeft l die || l.graph.any fun g => g.batches.any fun b => b.die == die)

/-- The contexts with work on a die end (R336). -/
def State.endWork (s : State) (die : Nat) (cause : EndCause) : State :=
  ((s.contexts.filter fun c => s.worksOn die c.num).map fun c => c.num).foldl (fun s c => s.endContext c cause) s

/-- What a die's state machine does at a sample (R338), with the band already set; `old` is the band before. -/
def Die.sampled (d : Die) (old now : Nat) : Die :=
  match d.thermal with
  | .cooldown => if d.band ≤ 1 then d.enterColdIdle else if d.band == 3 then { d with training := true } else d
  | .run => if d.band == 1 then d.enterRetreat true else if d.band ≥ 2 then d.enterStopped .park now else d
  | .retreat =>
    if d.band ≥ 2 then d.enterStopped .park now else
    if d.band == 0 then { d with coldSince := some (d.coldSince.getD now) }
    else if old == 0 then { d with coldSince := none } else d
  | .park => if d.band == 1 || d.band == 0 then d.enterColdIdle else if d.band == 3 then { (d.enterStopped .warmup now) with training := true } else d
  | .warmup =>
    let d := { d with reachedTransit := d.reachedTransit || d.band == 2 }
    if d.band == 3 then { d with training := true }
    else if d.reachedTransit && d.band ≤ 1 then d.enterColdIdle
    else d
  | .warmIdle => if d.band == 2 then d.enterStopped .cooldown now else d
  | .drain => if d.band != old then d.drainBand else d
  | _ => d

/-- SENSOR_SAMPLE (R336 to R338, R346): the readings of a die's sensors, in 1/16 K, of which the highest counts. -/
def sensorSample (die : Nat) (readings : List Nat) (s : State) : State :=
  let d := s.die die
  if d.thermal == .off || die ≥ 8 || readings.isEmpty then s
  else
    let reading := readings.foldl max 0
    let band := nextBand d.band reading
    let s := s.onDie die fun d => { d with tsens := readings, temp := reading % 8192, band := band }
    if reading ≥ 5280 then ((s.endWork die .trip).onDie die Die.enterOff).addLog (.trip die)
    else
      let s := if reading < 1120 then (s.onDie die fun d => { d with excursion := true }).addLog (.excursion die) else s
      let s := if band == 2 && d.band != 2 then
          (s.partitions.filter fun p => p.dies.contains die).foldl State.transitSave s
        else s
      let s := s.onDie die fun x => x.sampled d.band s.gtime
      let s := if band == 3 && d.band != 3 || d.thermal == .drain && band != d.band then s.holdCap else s
      if d.thermal == .retreat then s else s.postRetreat die

def execSensorSample (die : Nat) (readings : List Nat) (s : State) : Result := .next (sensorSample die readings s)

/-- TIMING_STALL_END (R340); area copies that waited for the controller are written (R238). -/
def execTimingStallEnd (die controller : Nat) (s : State) : Result :=
  .next (s.onDie die fun d => { d with stalled := d.stalled.filter fun c => c != controller }).freshenAreas

/-- 60 s in ticks. -/
def minute : Nat := 60000000000

/-- RETREAT_TIMER_EXPIRY (R338, R339): 60 s continuously in COLD. -/
def execRetreatTimerExpiry (die : Nat) (s : State) : Result :=
  .next (let d := s.die die
    match d.thermal, d.coldSince with
    | .retreat, some c => if s.gtime ≥ c + minute then ((s.onDie die fun d => d.enterRun true).unspill die).holdCap else s
    | _, _ => s)

/-- COOLING_RATE_WINDOW (R338): more than 10 K in the window, falling in COOLDOWN, rising in WARMUP. -/
def execCoolingRateWindow (die : Nat) (s : State) : Result :=
  .next (let d := s.die die
    match d.window with
    | none => s
    | some (t0, temp0) =>
      if s.gtime < t0 + minute then s
      else
        let fast := match d.thermal with
          | .cooldown => decide (temp0 > d.temp + 160)
          | .warmup => decide (d.temp > temp0 + 160)
          | _ => false
        let s := s.onDie die fun d => { d with window := some (s.gtime, d.temp), excursion := d.excursion || fast }
        if fast then s.addLog (.excursion die) else s)

/-- PHY_TRAINING_COMPLETE (R338). -/
def execPhyTrainingComplete (die : Nat) (s : State) : Result :=
  .next (let d := s.die die
    if !d.training then s
    else
      let go := fun (f : Die → Die) => s.onDie die fun d => f { d with training := false, excursion := false }
      match d.thermal, d.band with
      | .coldIdle, 0 => ((go fun d => d.enterRun false).unspill die).holdCap
      | .coldIdle, 1 => (((go fun d => d.enterRetreat false).unspill die).postRetreat die).holdCap
      | .cooldown, 3 => (go Die.enterWarm).holdCap
      | .warmup, 3 => (go Die.enterWarm).holdCap
      | _, _ => s)

/-- DRAIN_REQUEST (R338). -/
def execDrainRequest (die : Nat) (s : State) : Result :=
  .next (match (s.die die).thermal with
    | .run => (s.onDie die fun d => d.enterDrain s.gtime).drained die
    | .retreat => (s.onDie die fun d => d.enterDrain s.gtime).drained die
    | _ => s)

/-- DRAIN_TIMEOUT (R338): the rest is saved as PARK does. -/
def execDrainTimeout (die : Nat) (s : State) : Result :=
  .next (let d := s.die die
    if d.thermal == .drain && s.gtime ≥ d.drainSince + d.drainTimeout then
      let s := (s.teams.filter fun t => t.die == die).foldl State.spillTeam s
      s.onDie die fun d => d.enterStopped .warmup s.gtime
    else s)

/-- WARMUP_REQUEST (R338). -/
def execWarmupRequest (die : Nat) (s : State) : Result :=
  .next (match (s.die die).thermal with
    | .park => s.onDie die fun d => d.enterStopped .warmup s.gtime
    | _ => s)

/-- WARMUP_CANCEL (R338): before the band has reached TRANSIT. -/
def execWarmupCancel (die : Nat) (s : State) : Result :=
  .next (let d := s.die die
    if d.thermal == .warmup && !d.reachedTransit && d.band ≤ 1 then s.onDie die Die.enterColdIdle else s)

/-! ### Errors (R271, R343) -/

/-- Patrol runs (R338, R339, R343): in COLD, wherever its regime has stopped refresh. -/
def Die.patrols (d : Die) : Bool := (d.thermal == .run || d.thermal == .drain) && d.band == 0 && !d.refresh && !d.selfRefresh

/-- PATROL_ROW (R343): in COLD, one row is read, corrected and rewritten. -/
def execPatrolRow (die : Nat) (correctable : Bool) (s : State) : Result :=
  .next (s.onDie die fun d =>
    if d.patrols then
      { d with patrolRow := d.patrolRow + 1, softErrors := if correctable then d.softErrors + 1 else d.softErrors }
    else d)

/-- The dies on the route from one die to another: first along the row, then across (R12). -/
def dieRoute (a b : Nat) : List Nat :=
  let row := a / 4
  let ca := a % 4
  let cb := b % 4
  let along := (List.range (max ca cb - min ca cb + 1)).map fun i => 4 * row + (if ca ≤ cb then ca + i else ca - i)
  if b / 4 == row then along else along ++ [b]

/-- The route crosses the edge between two dies. -/
def crosses (route : List Nat) (a b : Nat) : Bool := (route.zip (route.drop 1)).any fun x => x == (a, b) || x == (b, a)

/-- The Larsa port by which an access to a package leaves a die (R352). -/
def Die.portFor (d : Die) (package : Nat) : Option Nat :=
  ((List.range 4).map fun i => (package + i) % 4).find? fun p => d.ports.getD p false

/-- An access has a transaction on a die-to-die link: its request's route counts (R12). That the route of its answer, which runs along
the home die's row first, does not count is a DESIGN CHOICE (log 75). -/
def State.usesLink (s : State) (a b : Nat) (x : Access) : Bool :=
  saPackage (x.line * 128) == s.package && crosses (dieRoute x.die (dieOfPhys (saPhys (x.line * 128)))) a b

/-- An access has a transaction on a Larsa link. -/
def State.usesPort (s : State) (die port : Nat) (x : Access) : Bool :=
  saPackage (x.line * 128) != s.package && x.die == die && (s.die die).portFor (saPackage (x.line * 128)) == some port

/-- The contexts that an uncorrectable error ends (R271, R351). A patrol row and a soft error end none; which contexts a host link's
transactions belong to, the event names (log 54). -/
def State.errorContexts (s : State) : ErrorSite → List Nat
  | .dramRead ctx => [ctx]
  | .patrolRow _ _ => []
  | .coreSlice tid => match s.team? tid with
    | some t => [t.ctx]
    | none => []
  | .cageSlice tid => match s.team? tid with
    | some t => [t.ctx]
    | none => []
  | .link a b => ((s.accesses.filter (s.usesLink a b)).map fun x => x.ctx).dedup
  | .larsaLink die port => ((s.accesses.filter (s.usesPort die port)).map fun x => x.ctx).dedup
  | .hostLink ctxs => ctxs.filter fun c => (s.context? c).isSome
  | .soft _ => []
  | .dieTables die =>
    (s.contexts.filter fun c => s.partitions.any fun p => p.num == c.partition && p.dies.contains die).map fun c => c.num

/-- UNCORRECTABLE_ERROR (R271). -/
def execUncorrectableError (site : ErrorSite) (s : State) : Result :=
  .next (let s := match site with
      | .patrolRow die row => s.onDie die fun d => { d with badRows := d.badRows ++ [row] }
      | .soft die => s.onDie die fun d => { d with softErrors := d.softErrors + 1 }
      | _ => s
    (s.errorContexts site).foldl (fun s c => s.endContext c .error) s)

/-! ### Held accesses and Larsa (R342, R352, R353) -/

/-- An access is on its way to a die's memory, or leaves the die for another package. -/
def State.awaitsDie (s : State) (die : Nat) (a : Access) : Bool :=
  s.homedOn die a.line || (a.die == die && saPackage (a.line * 128) != s.package)

/-- HELD_ACCESS_RELEASE (R342): what was held for a die's DRAM, or at its ports, goes on: accesses in the order in which they were made,
the host port's, area copies and completion records. -/
def execHeldAccessRelease (die : Nat) (s : State) : Result :=
  .next ((hostAccess ((s.accesses.filter (s.awaitsDie die)).foldl (fun s a => homeSliceAccess a.id s) s)).freshenAreas).retryRecords

def execLarsaPortDown (die port : Nat) (s : State) : Result :=
  .next (s.onDie die fun d => { d with ports := d.ports.set port false })

def execLarsaPortUp (die port : Nat) (s : State) : Result :=
  .next (s.onDie die fun d => { d with ports := d.ports.set port true })

/-- LARSA_PACKAGE_JOIN (R353). -/
def execLarsaPackageJoin (package : Nat) (s : State) : Result :=
  .next (if package < 576 && package != s.package && !(s.joined.contains package) then { s with joined := s.joined ++ [package] } else s)

/-! ### Clocks and leases (R344 to R346) -/

/-- An island's clock one step lower (R344). -/
def State.stepDown (s : State) (die island : Nat) (i : Island) : Island :=
  { i with lowered := i.lowered + min 100 (s.islandClock die island i) }

/-- CURRENT_LIMIT_STEP (R344): the hardware lowers the clock of an island over its limit, a lease's among them, by 100 MHz and logs it. -/
def execCurrentLimitStep (die island : Nat) (s : State) : Result :=
  .next (match (s.die die).islands[island]? with
    | none => s
    | some i =>
      (s.onDie die fun d => { d with islands := d.islands.set island (s.stepDown die island i) }).addLog (.currentLimit die island))

/-- An island whose clock firmware raises to a frequency: what the hardware has taken of it is given back that far (R344). -/
def State.raised (s : State) (die island mhz : Nat) (i : Island) : Island :=
  { i with lowered := s.givenClock die island i - mhz
           mhz := if island == 0 && (s.leaseClock die).isSome then i.mhz else max i.mhz mhz }

/-- CLOCK_RAISE_COMMAND (R344). -/
def execClockRaiseCommand (die island mhz : Nat) (s : State) : Result :=
  .next (s.capped (s.onDie die fun d => match d.islands[island]? with
    | none => d
    | some i =>
      if i.lowered != 0 && s.islandClock die island i < mhz && mhz ≤ s.ceiling die island mhz then
        { d with islands := d.islands.set island (s.raised die island mhz i) }
      else d))

/-- PIPE_RETENTION (R344): a pipe whose slot has issued no vector instruction for 256 cycles. -/
def execPipeRetention (die core slot : Nat) (s : State) : Result :=
  .next (if core < 96 && slot < 4 then
    s.onCore die core fun c =>
      if (s.die die).cycles ≥ c.lastVec.getD slot 0 - 1 + 256 then { c with retention := c.retention.set slot true } else c
  else s)

/-- A context in deterministic mode (R346). -/
def State.deterministic (s : State) (ctx : Nat) : Bool := s.launches.any fun l => l.ctx == ctx && l.det && l.done.isNone

/-- The clocks of leases: 1.55 GHz to 1.8 GHz in steps of 50 MHz (R345). -/
def leaseClocks : List Nat := [1550, 1600, 1650, 1700, 1750, 1800]

/-- BOOST_LEASE_GRANT (R345, R346). -/
def execBoostLeaseGrant (ctx die clock ticks : Nat) (s : State) : Result :=
  .next (if leaseClocks.contains clock && !(s.deterministic ctx) && (s.context? ctx).isSome && die < 8 && ticks != 0 then
    { s with leases := (s.leases.filter fun l => !(l.ctx == ctx && l.die == die)) ++ [⟨ctx, die, clock, ticks⟩] }
  else s)

/-- LEASE_EXPIRY (R345). -/
def execLeaseExpiry (ctx die : Nat) (s : State) : Result :=
  .next { s with leases := s.leases.filter fun l => !(l.ctx == ctx && l.die == die && l.left == 0) }

/-- CONTEXT_REHOME (R345): the context's leases return; its placed, parked and saved teams keep their dies. -/
def execContextRehome (ctx partition : Nat) (s : State) : Result :=
  .next (if (s.context? ctx).isSome && (s.partition? partition).isSome then
    { (s.onContext ctx fun c => { c with partition := partition }) with leases := s.leases.filter fun l => l.ctx != ctx }
  else s)

/-- MCAD_WRITE (R290). -/
def execMcadWrite (die core : Nat) (idle : BitVec 8) (s : State) : Result :=
  .next (if die < 8 && core < 96 then s.onCore die core fun c => { c with mcad := idle } else s)

/-! ### What firmware writes (R7, R149, R159, R217, R226, R238, R344, R350) -/

/-- Write or replace a context's table entry. -/
def State.setContext (s : State) (c : Context) : State :=
  { s with contexts := match s.context? c.num with
      | some o => s.contexts.map fun x =>
          if x.num == c.num then { c with obase := o.obase, ocap := o.ocap, areaFailed := o.areaFailed } else x
      | none => s.contexts ++ [c] }

/-- A partition's die set (R2): one of up to 8 partitions, with one die or more. -/
def State.setPartition (s : State) (p : Nat) (dies : List Nat) : State :=
  if p ≥ 8 || dies.isEmpty then s
  else { s with partitions := match s.partition? p with
      | some o => s.partitions.map fun x => if x.num == p then { o with dies := dies } else x
      | none => s.partitions ++ [{ num := p, dies := dies }] }

/-- FIRMWARE_REGISTER_WRITE (R7). An unconfigured die joins no partition (R348). -/
def firmwareWrite (r : FwReg) (s : State) : State :=
  match r with
  | .contextEntry ctx root hva partition =>
    if ctx < 64 then s.setContext { num := ctx, root := root, hva := BitVec.ofNat 64 hva, partition := partition } else s
  | .contextOwnership ctx obase ocap => s.onContext ctx fun c => { c with obase := BitVec.ofNat 64 obase, ocap := ocap, areaFailed := false }
  | .partitionDies p dies => s.setPartition p (dies.filter fun d => (s.die d).configured && d < 8)
  | .queueEntry p q ctx header =>
    if q < 64 then
      let e : Queue := { partition := p, num := q, ctx := ctx, header := BitVec.ofNat 64 header }
      { s with queues := (s.queues.filter fun x => !(x.partition == p && x.num == q)) ++ [e] }
    else s
  | .queueClear p q => { s with queues := s.queues.filter fun x => !(x.partition == p && x.num == q) }
  | .urgency p ticks =>
    if ticks < 2 ^ 32 then
      let s : State := { s with partitions := s.partitions.map fun x => if x.num == p then { x with urgency := ticks } else x }
      (s.launches.filter fun l => l.partition == p && l.cls == 0).foldl (fun s l =>
        (List.range 8).foldl (fun s d => urgency d l.id s) s) s
    else s
  | .epoch die ticks => if 100000 ≤ ticks && ticks ≤ 100000000 then s.onDie die fun d => { d with epoch := ticks } else s
  | .drainTimeout die ticks => s.onDie die fun d => { d with drainTimeout := ticks }
  | .islandClock die island mhz => s.capped (s.onDie die fun d => match d.islands[island]? with
    | some i => if mhz ≤ s.ceiling die island mhz then { d with islands := d.islands.set island { i with mhz := mhz, lowered := 0 } } else d
    | none => d)
  | .islandVoltage die island mv => s.capped (s.onDie die fun d => match d.islands[island]? with
    | some i => { d with islands := d.islands.set island { i with mv := mv } }
    | none => d)
  | .islandLimit die island limit => s.onDie die fun d => match d.islands[island]? with
    | some i => { d with islands := d.islands.set island { i with limit := limit } }
    | none => d
  | .hostWindow base size => { s with hostWindows := s.hostWindows ++ [(base, size)] }
  | .hostWindowsClear => { s with hostWindows := [] }
  | .metadataBase die base => s.onDie die fun d => { d with mdbase := base }
  | .pte addr value => s.writePte addr value.toNat

def execFirmwareRegisterWrite (r : FwReg) (s : State) : Result := .next (firmwareWrite r s)

/-- EPOCH_BOUNDARY (R159): the epoch is over, and every hotness counter of the die is halved. -/
def execEpochBoundary (die : Nat) (s : State) : Result :=
  .next (s.onDie die fun d =>
    if s.gtime < d.epochFrom + d.epoch then d
    else { d with epochFrom := d.epochFrom + d.epoch, hotness := (d.hotness.map fun (x : Nat × BitVec 8) => (x.1, x.2 >>> (1 : Nat))).filter fun x => x.2 != 0#8 })

/-! ### Boot and attestation (R347 to R349) -/

/-- The image is accepted (R347). -/
def acceptsImage (i : BootImage) : Bool :=
  Config.sha3 i.key == Config.bootKeyHash && Config.mldsaVerify i.key (Config.sha3 i.payload) i.signature

/-- A die at boot: its identity, the record that matches it, and the state of its band (R338, R348). -/
def Die.boot (d : Die) (i : BootImage) (n now : Nat) : Die :=
  let ident := Config.pufIdentity n
  let reading := i.temps.getD n 0
  let d := { d with identity := ident, configured := (Config.recordIdentities i.payload).contains ident, powered := true, temp := reading % 8192, tsens := [reading]
                    band := bootBand reading, excursion := d.excursion || decide (reading < 1120) }
  if !d.configured || reading ≥ 5280 then d.enterOff
  else if d.band == 3 then d.enterWarm
  else if d.band == 2 then d.enterStopped .cooldown now
  else d.enterColdIdle

/-- One die boots; a reading below 70 K is logged (R336), and a die without a record is reported. -/
def State.bootDie (s : State) (i : BootImage) (n : Nat) : State :=
  let s : State := { s with cores := s.cores.filter fun c => c.1 / 96 != n }
  let s := s.onDie n fun d => d.boot i n s.gtime
  let s := if i.temps.getD n 0 < 1120 then s.addLog (.excursion n) else s
  if (s.die n).configured then s else s.addLog (.unconfigured n)

/-- POWER_ON_BOOT (R347, R348): at power-on, of the whole package, or of the dies that are off. A rejected image leaves the
package as it is. -/
def execPowerOnBoot (image : BootImage) (s : State) : Result :=
  .next (if !(acceptsImage image) then s
    else
      let which := (List.range 8).filter fun n => !s.booted || (s.die n).thermal == .off
      if which.isEmpty then s
      else (which.foldl (fun (s : State) n => s.bootDie image n)
        ({ s with booted := true, payload := image.payload, package := image.packageNumber % 576
                  gtime := if s.booted then s.gtime else 0 } : State)).holdCap)

/-- A list cut or filled with zeros to a length. -/
def fitBytes (n : Nat) (l : List Byte) : List Byte := (l ++ List.replicate n 0).take n

/-- The bytes of an attestation report before its signature (R349). -/
def State.reportBody (s : State) (nonce : List Byte) : List Byte :=
  let dies := List.range 8
  leBytes 4 1 ++ leBytes 2 s.package ++ leBytes 1 (dies.filter fun d => (s.die d).configured).length ++ [0]
    ++ fitBytes 64 (Config.sha3 s.payload)
    ++ dies.flatMap (fun d => if (s.die d).configured then fitBytes 64 (Config.sha3 (Config.configRecord s.payload (s.die d).identity))
        else List.replicate 64 0)
    ++ fitBytes 64 nonce ++ leBytes 8 s.gtime ++ dies.flatMap (fun d => leBytes 1 (s.die d).band)
    ++ fitBytes 2592 Config.attestationKey

/-- ATTESTATION_REQUEST (R349). -/
def execAttestationRequest (nonce : List Byte) (s : State) : Result :=
  .next (if s.booted then
    let b := s.reportBody nonce
    { s with hostReply := .report (b ++ fitBytes 4627 (Config.mldsaSign b)) }
  else s)

/-! ### The host port (R350, R351) -/

/-- A byte of package memory lies in an exposed window. -/
def State.exposed (s : State) (a n : Nat) : Bool :=
  decide (a + n ≤ memEnd) && s.hostWindows.any fun w => decide (w.1 ≤ a) && decide (a + n ≤ w.1 + w.2)

/-- The port takes an access; its first line is performed at once where the port has no other. -/
def State.takeHost (s : State) (x : HostOp) : State :=
  let s' : State := { s with hostOps := s.hostOps ++ [x] }
  if s.hostOps.isEmpty then hostAccess s' else s'

/-- HOST_WRITE (R350, R351): outside the windows an Unsupported Request; within them performed line by line, each at its home slice and
after what the port has received before. -/
def execHostWrite (addr : Nat) (bytes : List Byte) (s : State) : Result :=
  .next (if !(s.exposed addr bytes.length) then { s with hostReply := .unsupported } else s.takeHost (.write addr bytes))

/-- HOST_READ (R350, R351). -/
def execHostRead (addr n : Nat) (s : State) : Result :=
  .next (if !(s.exposed addr n) then { s with hostReply := .unsupported } else s.takeHost (.read addr n []))

/-! ### Power (R338) -/

/-- The byte lies in a die's memory. -/
def State.onDieMem (s : State) (die sa : Nat) : Bool := saPackage sa == s.package && dieOfPhys (saPhys sa) == die

/-- POWER_LOSS (R338): the die is OFF. Its memory is as after power-on, its caches and cores are as after reset, and the contexts
with work there end. -/
def execPowerLoss (die : Nat) (s : State) : Result :=
  .next (if die ≥ 8 || (s.die die).thermal == .off then s
    else
      let s := s.endWork die .powerLoss
      let s := s.onDie die fun d => d.enterOff
      let s : State := { s with
        mem := s.mem.filter fun c => !(s.onDieMem die c.1)
        cores := s.cores.filter fun c => c.1 / 96 != die }
      if (List.range 8).all fun d => (s.die d).thermal == .off then { s with booted := false } else s)

end Sys2Proof.Machine
end

