-- ==== Sys2Proof/Machine/System.lean ====
section
/-! DEFINITION. Special registers and the privileged instructions: RDSR, WRSR, TRET, KILL (R86, R87, R135, R261 to R263,
R337, R448, R482, R487). HALT and YIELD, which pre-empt, stand with pre-emption. -/

namespace Sys2Proof.Machine

/-- STATE of `sr.tband` (R337). -/
def Thermal.code : Thermal → Nat
  | .off => 0 | .warmIdle => 1 | .cooldown => 2 | .coldIdle => 3 | .run => 4 | .retreat => 5 | .park => 6 | .drain => 7
  | .warmup => 8

/-- `sr.tband` (R337). -/
def State.tband (s : State) (n : Nat) : Word :=
  let d := s.die n
  BitVec.ofNat 32 (d.temp % 2 ^ 13 * 2 ^ 19 + d.tset % 8 * 2 ^ 16 + d.thermal.code * 2 ^ 12
    + (if (s.boostClock n).isSome then 2 ^ 11 else 0) + d.band % 8)

/-- A field of the trap slot; zero where the slot is free. -/
def Group.trapField (g : Group) (f : TrapSlot → DWord) : DWord :=
  match g.slot with
  | some x => f x
  | none => 0

/-- The value of a special register for a lane (R53, R86, R448). -/
def State.srValue (s : State) (t : Team) (g : Group) (n l : Nat) : DWord :=
  match n with
  | 0x000 => BitVec.ofNat 64 l
  | 0x001 => BitVec.ofNat 64 g.num
  | 0x002 => t.x.setWidth 64
  | 0x003 => t.y.setWidth 64
  | 0x004 => t.z.setWidth 64
  | 0x005 => BitVec.ofNat 64 t.index
  | 0x006 => BitVec.ofNat 64 t.cluster
  | 0x007 => BitVec.ofNat 64 t.cx
  | 0x008 => BitVec.ofNat 64 t.cy
  | 0x009 => BitVec.ofNat 64 t.core
  | 0x00A => BitVec.ofNat 64 t.die
  | 0x010 => BitVec.ofNat 64 s.gtime
  | 0x011 => BitVec.ofNat 64 (s.die t.die).cycles
  | 0x012 => g.lpart.setWidth 64
  | 0x013 => (s.tband t.die).setWidth 64
  | 0x014 => (s.core t.die t.core).mcad.setWidth 64
  | 0x020 => g.fpflags.setWidth 64
  | 0x021 => g.paramoob.setWidth 64
  | 0x022 => g.seed
  | 0x040 => g.trapField fun x => x.cause.setWidth 64
  | 0x041 => g.trapField fun x => x.pc
  | 0x042 => g.trapField fun x => x.va
  | 0x043 => g.trapField fun x => x.info.setWidth 64
  | _ => 0

/-- A result that may set flags has not landed: any pending one but a load, which sets none (R135). -/
def Group.flagsPending (g : Group) : Bool := g.pending.any fun p => p.kind != .load

/-- What RDSR writes (R448). -/
def rdsrOut (s : State) (o : RdsrOp) (t : Team) (g : Group) (m : Mask) : Out :=
  let n := o.sr.toNat
  let wide := match srInfo n with
    | some i => i.wide
    | none => false
  { active := m
    regs := typedWrites (if wide then .b64 else .b32) o.d (g.shapeOf (if n == 0 then .affine else .plain) [] m) fun l =>
      s.srValue t g n l }

/-- RDSR (R254, R448). -/
def execRdsr (o : RdsrOp) (s : State) : Result :=
  issueWith o.g (fun s t g m =>
    match srInfo o.sr.toNat with
    | none => s.raise t g (illegalTrap .sreg)
    | some i =>
      let out := rdsrOut s o t g m
      match firstTrap (g.poolTraps out.regs ++ if i.priv && !s.cur.handler then [permTrap 2] else []) with
      | some tr => s.raise t g tr
      | none => if o.sr.toNat == 0x020 && g.flagsPending then s else s.commit t g [out]) s

/-- The effect of a WRSR (R87, R487); bits without a field are ignored (R8). -/
def Group.writeSr (g : Group) (n : Nat) (v : DWord) : Group :=
  match n with
  | 0x020 => { g with fpflags := v.setWidth 5 }
  | 0x021 => { g with paramoob := g.paramoob &&& ~~~(v.setWidth 8) }
  | 0x022 => { g with seed := v }
  | 0x041 => { g with slot := g.slot.map fun x => { x with pc := v } }
  | _ => g

/-- WRSR (R487). -/
def execWrsr (o : WrsrOp) (s : State) : Result :=
  issueWith o.g (fun s t g m =>
    match m.lowest with
    | none => s.done t g
    | some l =>
      match srInfo o.sr.toNat with
      | none => s.raise t g (illegalTrap .sreg)
      | some i =>
        if !i.writable || (i.priv && !s.cur.handler) then s.raise t g (permTrap 2)
        else if o.sr.toNat == 0x020 && g.flagsPending then s
        else s.done t (g.writeSr o.sr.toNat (g.typed (if i.wide then .b64 else .b32) o.a l))) s

/-- A guard that is always true (R100). -/
def always : Guard := { p := 7, neg := false }

def execTret (s : State) : Result := issuePriv always (tret false) s
def execTretSkip (s : State) : Result := issuePriv always (tret true) s

/-- KILL has ended the last team of a context: its leases are returned (R345). -/
def State.afterKill (s : State) (ctx : Nat) : State :=
  if s.teams.any fun t => t.ctx == ctx && t.groups.any fun g => !g.frontier.isEmpty then s
  else { s with leases := s.leases.filter fun l => l.ctx != ctx }

/-- KILL (R262, R403): the active lanes end, the others go on. It may end the last lanes of a task of relief (R247). -/
def execKill (gd : Guard) (s : State) : Result :=
  issuePriv gd (fun s t g m =>
    ((s.put t ((g.retarget s.cur fun l => if m.has l then none else some (succPc s.cur.pc s.cur.len, s.cur.prio)).endLanes
      m)).endedByHandler t.id).afterKill t.ctx) s

/-- KILL.grp (R262, R403). -/
def execKillGrp (gd : Guard) (s : State) : Result :=
  issuePriv gd (fun s t g m => if m == 0 then s.done t g else (s.killGroup t.id g.num).afterKill t.ctx) s

/-- KILL.team (R262, R403). -/
def execKillTeam (gd : Guard) (s : State) : Result :=
  issuePriv gd (fun s t g m => if m == 0 then s.done t g else (s.killTeam t.id).afterKill t.ctx) s

end Sys2Proof.Machine
end

