-- ==== Sys2Proof/Machine/Texture.lean ====
section
/-! DEFINITION. Texture sampling: TEX, TLD and TEXQ (R325 to R330, R474 to R477). -/

namespace Sys2Proof.Machine

/-! ### Descriptors (R325, R326) -/

/-- A texture descriptor. -/
structure Tex where
  base : DWord
  width : Nat
  height : Nat
  depth : Nat
  levels : Nat
  vol : Bool
  fmt : Nat
  ch : Nat
  filt : Nat
  taps : Nat
  wrapU : Nat
  wrapV : Nat
  wrapW : Nat
deriving DecidableEq, Repr

/-- A dimension of 1 to 16,384. -/
def dimOk (n : Nat) : Bool := 1 ≤ n && n ≤ 16384

/-- The descriptor's fields; none where it breaks a rule of R325. -/
def parseTex (l : List Byte) : Option Tex :=
  let n := leNat l
  let x : Tex :=
    { base := BitVec.ofNat 64 (bits n 0 64), width := bits n 64 16, height := bits n 80 16, depth := bits n 96 16
      levels := bits n 112 4, vol := n.testBit 116, fmt := bits n 117 3, ch := bits n 120 2, filt := bits n 122 2
      taps := bits n 124 3, wrapU := bits n 128 2, wrapV := bits n 130 2, wrapW := bits n 132 2 }
  let ok := bits n 134 378 == 0 && !(n.testBit 127) && x.wrapU ≤ 2 && x.wrapV ≤ 2 && x.wrapW ≤ 2 && x.taps ≤ 4
    && (x.fmt ≥ 2 || x.ch == 3) && x.fmt ≤ 3 && 1 ≤ x.levels && dimOk x.width && dimOk x.height && dimOk x.depth
    && (x.vol || x.depth == 1) && bits n 0 8 == 0 && (!x.vol || x.filt == 0 || x.filt == 2) && (x.taps == 0 || x.filt == 3)
  if ok then some x else none

/-- Texel bytes (R326). -/
def Tex.texel (x : Tex) : Nat := match x.fmt with | 0 => 4 | 1 => 8 | 2 => 2 * (x.ch + 1) | _ => 4 * (x.ch + 1)

def mip (n l : Nat) : Nat := max 1 (n / 2 ^ l)
def Tex.w (x : Tex) (l : Nat) : Nat := mip x.width l
def Tex.h (x : Tex) (l : Nat) : Nat := mip x.height l
def Tex.d (x : Tex) (l : Nat) : Nat := if x.vol then mip x.depth l else 1

/-- O(l). -/
def Tex.offset (x : Tex) : Nat → Nat
  | 0 => 0
  | l + 1 => x.offset l + 256 * ((x.w l * x.h l * x.d l * x.texel + 255) / 256)

/-- The VA of a texel. -/
def Tex.va (x : Tex) (l i j k : Nat) : DWord :=
  x.base + BitVec.ofNat 64 (x.offset l + x.texel * (i + x.w l * (j + x.h l * k)))

/-! ### Texels (R327, R328) -/

/-- Four F32 bit patterns. -/
abbrev Rgba := List Nat

/-- RoundNE(n / 255, F32). -/
def unormF32 (n : Nat) : Nat := (roundMag .f32 .rne false (n * 2 ^ 60 / 255) (-60) (n * 2 ^ 60 % 255 != 0)).1

/-- Decode a texel's bytes. -/
def Tex.decode (x : Tex) (l : List Byte) : Rgba :=
  (List.range 4).map fun c =>
    if c > x.ch then (if c == 3 then 0x3F800000 else 0)
    else match x.fmt with
      | 0 => unormF32 (leNat ((l.drop c).take 1))
      | 3 => leNat ((l.drop (4 * c)).take 4)
      | _ => roundNE .f32 (Num.decode (fmtOf .f16x2) (leNat ((l.drop (2 * c)).take 2)))

/-- A texel to fetch; none is OUT, which reads zeros. -/
abbrev Site := Option (Nat × Nat × Nat × Nat)

/-- Wrap one index on an axis of `n` texels (R328). -/
def wrap (mode : Nat) (i : Int) (n : Nat) : Option Nat :=
  match mode with
  | 0 => some ((max 0 (min i ((n : Int) - 1))).toNat)
  | 1 => some ((i % (n : Int)).toNat)
  | _ => if 0 ≤ i && i < (n : Int) then some i.toNat else none

/-- A site from indices before wrapping. -/
def Tex.site (x : Tex) (l : Nat) (i j k : Int) : Site :=
  match wrap x.wrapU i (x.w l), wrap x.wrapV j (x.h l), (if x.vol then wrap x.wrapW k (x.d l) else some 0) with
  | some a, some b, some c => some (l, a, b, c)
  | _, _, _ => none

/-- The exact texel coordinate u × n + off in units of 2^-16, rounded once; a NaN counts as 0 (R328). -/
def gridCoord (u : Num) (n : Nat) (off : Num) : Int :=
  let u := if u.isNan then Num.zero else u
  match (Num.add false (Num.mul u (Num.ofInt n)).1 off).1 with
  | .fin s m e => (roundInt .rne s m (e + 16)).1
  | .inf s => Config.texInfinite s n
  | .nan => 0

/-- Coord(u, n): the index, and the fraction in units of 2^-16. -/
def coord (u : Num) (n : Nat) : Int × Nat :=
  let x := gridCoord u n (.fin true 1 (-1))
  (x / 65536, (x % 65536).toNat)

/-- floor(RoundGrid(u × n, 2^-16)). -/
def pointCoord (u : Num) (n : Nat) : Int := gridCoord u n .zero / 65536

/-- Level(λ) in units of 2^-8. -/
def Tex.level (x : Tex) (lam : Num) : Nat :=
  let top := x.levels - 1
  match lam with
  | .nan => 0
  | .inf s => if s then 0 else 256 * top
  | .fin s m e =>
    if s then 0
    else if !(Num.lt (.fin false m e) (Num.ofInt top)) then 256 * top
    else (roundInt .rne false m (e + 8)).1.toNat

/-- RoundHalfEven of a level. -/
def nearLevel (q : Nat) : Nat := (roundDiv (q : Int) 256).toNat

/-- Lerp per channel, with the weight `f` in units of 2^-s (R328). -/
def lerp (a b : Rgba) (f s : Nat) : Rgba :=
  (List.range 4).map fun c =>
    let x := Num.decode .f32 (a.getD c 0)
    let y := Num.decode .f32 (b.getD c 0)
    roundNE .f32 (Num.add false (Num.mul x (.fin false (2 ^ s - f) (-(s : Int)))).1 (Num.mul y (.fin false f (-(s : Int)))).1).1

/-! ### Filters (R329): the texels they fetch, and what they make of them -/

/-- What a sample fetches and how its texels combine. -/
structure Plan where
  sites : List Site
  combine : List Rgba → Rgba

def rgbaAt (l : List Rgba) (i : Nat) : Rgba := l.getD i [0, 0, 0, 0]

/-- Bil(l, u, v). -/
def Tex.bil (x : Tex) (l : Nat) (u v : Num) : Plan :=
  let (i, fx) := coord u (x.w l)
  let (j, fy) := coord v (x.h l)
  { sites := [x.site l i j 0, x.site l (i + 1) j 0, x.site l i (j + 1) 0, x.site l (i + 1) (j + 1) 0]
    combine := fun t => lerp (lerp (rgbaAt t 0) (rgbaAt t 1) fx 16) (lerp (rgbaAt t 2) (rgbaAt t 3) fx 16) fy 16 }

def Tex.point (x : Tex) (l : Nat) (u v w : Num) : Plan :=
  { sites := [x.site l (pointCoord u (x.w l)) (pointCoord v (x.h l)) (if x.vol then pointCoord w (x.d l) else 0)]
    combine := fun t => rgbaAt t 0 }

def Tex.trilinear (x : Tex) (q : Nat) (u v : Num) : Plan :=
  let l0 := q / 256
  let a := x.bil l0 u v
  let b := x.bil (min (l0 + 1) (x.levels - 1)) u v
  { sites := a.sites ++ b.sites
    combine := fun t => lerp (a.combine (t.take 4)) (b.combine (t.drop 4)) (q % 256) 8 }

def Tex.volume (x : Tex) (l : Nat) (u v w : Num) : Plan :=
  let (i, fx) := coord u (x.w l)
  let (j, fy) := coord v (x.h l)
  let (k, fz) := coord w (x.d l)
  { sites := [(0, 0), (1, 0), (0, 1), (1, 1)].flatMap fun (b, c) =>
      [x.site l i (j + b) (k + c), x.site l (i + 1) (j + b) (k + c)]
    combine := fun t =>
      let rx := fun n => lerp (rgbaAt t (2 * n)) (rgbaAt t (2 * n + 1)) fx 16
      lerp (lerp (rx 0) (rx 1) fy 16) (lerp (rx 2) (rx 3) fy 16) fz 16 }

/-- Sum taps from the left, one rounding each. -/
def sumTaps : Rgba → List Rgba → Rgba
  | a, [] => a
  | a, b :: r =>
    sumTaps ((List.range 4).map fun c => roundNE .f32
      (Num.add false (Num.decode .f32 (a.getD c 0)) (Num.decode .f32 (b.getD c 0))).1) r

def Tex.aniso (x : Tex) (l : Nat) (u v du dv : Num) : Plan :=
  let n : Nat := 2 ^ x.taps
  let at_ := fun (p d : Num) (j : Nat) =>
    (Num.add false p (Num.mul d ((Num.ofInt (2 * (j : Int) + 1 - (n : Int))).scale (-(x.taps : Int) - 1))).1).1
  let plans := (List.range n).map fun j => x.bil l (at_ u du j) (at_ v dv j)
  { sites := plans.flatMap fun p => p.sites
    combine := fun t =>
      let taps := plans.zipIdx.map fun (p, j) => p.combine ((t.drop (4 * j)).take 4)
      (sumTaps (rgbaAt taps 0) (taps.drop 1)).map fun y => roundNE .f32 ((Num.decode .f32 y).scale (-(x.taps : Int))) }

/-- The sample of TEX (R329, R475); the run gives u, v, w, λ, du, dv. -/
def Tex.plan (x : Tex) (r : Nat → Num) : Plan :=
  let q := x.level (r 3)
  match x.filt with
  | 0 => x.point (nearLevel q) (r 0) (r 1) (r 2)
  | 1 => x.bil (nearLevel q) (r 0) (r 1)
  | 2 => if x.vol then x.volume (nearLevel q) (r 0) (r 1) (r 2) else x.trilinear q (r 0) (r 1)
  | _ => x.aniso (nearLevel q) (r 0) (r 1) (r 4) (r 5)

/-- The one texel of TLD (R476). -/
def Tex.loadSite (x : Tex) (i j k l : Int) : Site :=
  if l < 0 || l ≥ (x.levels : Int) then none
  else
    let n := l.toNat
    if 0 ≤ i && i < (x.w n : Int) && 0 ≤ j && j < (x.h n : Int) && 0 ≤ k && k < (x.d n : Int)
    then some (n, i.toNat, j.toNat, k.toNat) else none

/-! ### Reading -/

/-- A line in a core's texture cache, as a leaf's view gives it. -/
def State.inTexCache (s : State) (die core ctx line : Nat) (bld : Bool) : Option (List Byte) :=
  ((s.core die core).texCache.find? fun l => l.ctx == ctx && l.line == line && l.bld == bld).map fun l => l.bytes

/-- Put a line's current bytes, as the leaf shows them, into the texture cache. -/
def State.fillTexCache (s : State) (die core ctx : Nat) (bld : Bool) (line : Nat) : State :=
  match s.readVia bld (line * 128) 128 with
  | .ok b => s.onCore die core fun c =>
      { c with texCache := ⟨ctx, line, bld, b⟩ :: c.texCache.filter fun l => !(l.ctx == ctx && l.line == line) }
  | .error _ => s

/-- An earlier load of the group that is issuing is on its way to a line (R183, R203). -/
def State.lineLoading (s : State) (t : Team) (line : Nat) : Bool :=
  s.accesses.any fun b => b.kind == .load && b.tid == t.id && s.cur.agent == .lane b.grp && b.line == line

/-- Read bytes at the home slice into the texture cache, after the group's earlier loads of the line; what the core's L1 holds of the line
follows it, so that no later load sees it older (R182, R203). -/
def State.texFetch (s : State) (t : Team) (bld : Bool) (va : DWord) (sa n : Nat) : Direct (List Byte) × State :=
  if s.held t.die sa || s.lineLoading t (lineOf sa) then (.wait, s)
  else match s.readVia bld sa n with
    | .error c => (.trap (memfmtTrap c (blockVa va)), s.servedVia t.ctx bld sa)
    | .ok b => (.ok b, ((s.servedVia t.ctx bld sa).fillTexCache t.die t.core t.ctx bld (lineOf sa)).refreshL1 t.die t.core (lineOf sa))

/-- Read bytes of one line for a texture instruction (R330): where the texture cache holds other bytes than memory, either are read, by
a free choice. What the cache gives is no access to the home slice. -/
def State.texPiece (s : State) (t : Team) (va : DWord) (n : Nat) : Direct (List Byte) × State :=
  match s.translate t.ctx va .read with
  | (.ok sa e, s) =>
    match s.inTexCache t.die t.core t.ctx (lineOf sa) e.bld with
    | none => s.texFetch t e.bld va sa n
    | some l =>
      let old := (l.drop (sa % 128)).take n
      let same := match s.readVia e.bld sa n with
        | .ok b => b == old
        | .error _ => false
      if same then (.ok old, s)
      else
        let k := s.free
        let s : State := { s with free := s.free + 1 }
        if Config.fromTexCache k then (.ok old, s) else s.texFetch t e.bld va sa n
  | (.replay c, s) => (.fault c va, s)
  | (.fatal c, s) => (.trap (xlateTrap c va), s)
  | (.blocked, s) => (.wait, s)

/-- Read bytes, line by line; a texel lies in two lines at most. -/
def State.texRead (s : State) (t : Team) (va : DWord) (n : Nat) : Direct (List Byte) × State :=
  let k := 128 - va.toNat % 128
  if n ≤ k then s.texPiece t va n
  else match s.texPiece t va k with
    | (.ok l, s) =>
      let (r, s) := s.texPiece t (va + BitVec.ofNat 64 k) (n - k)
      (r.map fun x => l ++ x, s)
    | e => e

/-- Read texels in order. -/
def State.texels (s : State) (t : Team) (x : Tex) : List Site → Direct (List Rgba) × State
  | [] => (.ok [], s)
  | p :: r =>
    match p with
    | none =>
      let (rest, s) := s.texels t x r
      (rest.map fun l => [0, 0, 0, 0] :: l, s)
    | some (l, i, j, k) =>
      match s.texRead t (x.va l i j k) x.texel with
      | (.ok b, s) =>
        let (rest, s) := s.texels t x r
        (rest.map fun l => x.decode b :: l, s)
      | (.trap tr, s) => (.trap tr, s)
      | (.fault c va, s) => (.fault c va, s)
      | (.wait, s) => (.wait, s)

/-- Read the descriptor of each lane (R475); `ok` judges it beyond R325. -/
def State.texDescs (s : State) (t : Team) (g : Group) (a : VR) (ok : Tex → Bool) :
    List Nat → Direct (List (Nat × Option Tex)) × State
  | [] => (.ok [], s)
  | l :: r =>
    match s.texRead t (g.pairElem a.toNat l) 64 with
    | (.ok b, s) =>
      let (rest, s) := s.texDescs t g a ok r
      let x := match parseTex b with
        | some x => if ok x then some x else none
        | none => none
      (rest.map fun y => (l, x) :: y, s)
    | (.trap tr, s) => (.trap tr, s)
    | (.fault c va, s) => (.fault c va, s)
    | (.wait, s) => (.wait, s)

/-- Sample for each lane. -/
def State.texSamples (s : State) (t : Team) (plan : Nat → Tex → Plan) :
    List (Nat × Option Tex) → Direct (List (Nat × Rgba)) × State
  | [] => (.ok [], s)
  | (l, some x) :: r =>
    let p := plan l x
    match s.texels t x p.sites with
    | (.ok ts, s) =>
      let (rest, s) := s.texSamples t plan r
      (rest.map fun y => (l, p.combine ts) :: y, s)
    | (.trap tr, s) => (.trap tr, s)
    | (.fault c va, s) => (.fault c va, s)
    | (.wait, s) => (.wait, s)
  | (_, none) :: r => s.texSamples t plan r

def texRegs (d : VR) : List Nat := [d.toNat, d.toNat + 1, d.toNat + 2, d.toNat + 3]

/-- The word of a lane from its texel. -/
def texWord (l : List (Nat × Rgba)) (i lane : Nat) : Word :=
  match l.find? fun x => x.1 == lane with
  | some x => BitVec.ofNat 32 (x.2.getD i 0)
  | none => 0

/-- Loads of the group are on their way. -/
def State.loading (s : State) (t : Team) (g : Group) : Bool :=
  s.accesses.any fun b => b.kind == .load && b.tid == t.id && b.grp == g.num

/-- Earlier accesses of the group that a texture read waits for, as a load of scope `.team` does: ATOMs (R359), loads of such scope, and
those homed on the issuing die (R183). -/
def State.texWaits (s : State) (t : Team) (g : Group) : Bool :=
  (g.pending.any fun p => p.left != 0 && (p.kind == .atom || (p.kind == .load && p.scope ≤ 1)))
    || s.accesses.any fun b => b.kind == .load && b.tid == t.id && b.grp == g.num && s.homedOn t.die b.line

/-- Go on with what a texture read gave: a fatal outcome is owed (R114), a replayable one parks the group (KIND 6). A read that waits for
the group's own loads leaves it in the issue rotation. -/
def Direct.texThen {α : Type} (r : Direct α × State) (t : Team) (g : Group) (regs : List Nat) (k : α → State → State) : State :=
  match r with
  | (.ok v, s) => k v s
  | (.trap tr, s) => s.put t (((g.reserve regs false).advance s.cur).owe tr s.cur.lanes s.cur.handler)
  | (.fault c va, s) => s.parkFault t (g.reserve regs false) 6 c va (.tex t.id g.num)
  | (.wait, s) => if s.loading t g then s.stayFor t g g.pendIds else s.block t g .access

/-- Issue a texture instruction. Its reads are relaxed `.team` loads (R330): fences and acquires before it hold it (R192, R394), and it
waits for earlier loads of the group (R183, R359). -/
def issueTex (gd : Guard) (f : State → Team → Group → Mask → State) (s : State) : Result :=
  issueMem gd (fun s t g m => if s.texWaits t g then s.stayFor t g g.pendIds else f s t g m) s

/-- TEX and TLD: descriptors first, then texels; the results are pending (R110, R475, R476). -/
def texOp (o : TexOp) (ok : Tex → Bool) (plan : Group → Nat → Tex → Plan) (s : State) : Result :=
  issueTex o.g (fun s t g m =>
    let regs := texRegs o.d
    match firstTrap (poolFor g regs .general ++ globalTraps 64 (m.lanes.map fun l => g.pairElem o.a.toNat l)) with
    | some tr => s.raise t g tr
    | none =>
      Direct.texThen (s.texDescs t g o.a ok m.lanes) t g regs fun ds s =>
        if ds.any fun d => d.2.isNone then s.raise t g (illegalTrap .reserved)
        else
          Direct.texThen (s.texSamples t (plan g) ds) t g regs fun vs s =>
            let (i, s) := s.fresh
            let p := popPending i s.cur m o.la regs [] 0 (texWord vs)
            let g := (g.reserve regs false).advance s.cur
            s.onGroup t.id g.num fun _ => { g with pending := g.pending ++ [p] }) s

/-- The run of a lane as F32 values. -/
def texRun (o : TexOp) (g : Group) (l i : Nat) : Num := Num.decode .f32 (g.elem (o.b.toNat + i) l).toNat

/-- TEX: `.aniso` is present exactly when FILT is 3 (R475). -/
def execTex (o : TexOp) (s : State) : Result :=
  texOp o (fun x => x.filt != 3) (fun g l x => x.plan (texRun o g l)) s

def execTexAniso (o : TexOp) (s : State) : Result :=
  texOp o (fun x => x.filt == 3) (fun g l x => x.plan (texRun o g l)) s

/-- TLD (R476). -/
def execTld (o : TexOp) (s : State) : Result :=
  texOp o (fun _ => true) (fun g l x =>
    let w := fun i => (g.elem (o.b.toNat + i) l).toInt
    { sites := [x.loadSite (w 0) (w 1) (w 2) (w 3)], combine := fun t => rgbaAt t 0 }) s

/-- TEXQ's values for a level (R476). -/
def Tex.query (x : Tex) (l : Nat) : List Nat := if l < x.levels then [x.w l, x.h l, x.d l, x.levels] else [0, 0, 0, 0]

/-- TEXQ: its faults are precise (R114). -/
def execTexq (o : TexqOp) (s : State) : Result :=
  issueTex o.g (fun s t g m =>
    let regs := texRegs o.d
    match firstTrap (poolFor g regs .general ++ globalTraps 64 (m.lanes.map fun l => g.pairElem o.a.toNat l)) with
    | some tr => s.raise t g tr
    | none =>
      Direct.andThen (s.texDescs t g o.a (fun _ => true) m.lanes) t g 6 fun ds s =>
        if ds.any fun d => d.2.isNone then s.raise t g (illegalTrap .reserved)
        else
          let vs := ds.filterMap fun (l, x) => x.map fun x => (l, x.query (g.elem o.b.toNat l).toNat)
          let w := regs.zipIdx.map fun (r, i) => (⟨r, .general, laneVals (texWord vs i)⟩ : RegWrite)
          s.onGroup t.id g.num fun g => (g.apply { active := m, regs := w }).advance s.cur) s

end Sys2Proof.Machine
end

