-- ==== Sys2Proof/Machine/Dispatch.lean ====
section
/-! DEFINITION. One arm for every instruction and event of the opcode table. -/

namespace Sys2Proof.Machine

def exec (i : Instr) (s : State) : Host.Outcome State Fault Refusal :=
  match i with
  | .nop g => Sys2Proof.Machine.execNop g s
  | .iadd o => Sys2Proof.Machine.execIadd o s
  | .isub o => Sys2Proof.Machine.execIsub o s
  | .imul o => Sys2Proof.Machine.execImul o s
  | .imad o => Sys2Proof.Machine.execImad o s
  | .imin o => Sys2Proof.Machine.execImin o s
  | .imax o => Sys2Proof.Machine.execImax o s
  | .iabs o => Sys2Proof.Machine.execIabs o s
  | .icmp o => Sys2Proof.Machine.execIcmp o s
  | .lea o => Sys2Proof.Machine.execLea o s
  | .aff o => Sys2Proof.Machine.execAff o s
  | .sel o => Sys2Proof.Machine.execSel o s
  | .mov o => Sys2Proof.Machine.execMov o s
  | .cvt o => Sys2Proof.Machine.execCvt o s
  | .and o => Sys2Proof.Machine.execAnd o s
  | .or o => Sys2Proof.Machine.execOr o s
  | .xor o => Sys2Proof.Machine.execXor o s
  | .not o => Sys2Proof.Machine.execNot o s
  | .shl o => Sys2Proof.Machine.execShl o s
  | .shr o => Sys2Proof.Machine.execShr o s
  | .rot o => Sys2Proof.Machine.execRot o s
  | .clz o => Sys2Proof.Machine.execClz o s
  | .popc o => Sys2Proof.Machine.execPopc o s
  | .brev o => Sys2Proof.Machine.execBrev o s
  | .bfx o => Sys2Proof.Machine.execBfx o s
  | .bfi o => Sys2Proof.Machine.execBfi o s
  | .ilv o => Sys2Proof.Machine.execIlv o s
  | .dlv o => Sys2Proof.Machine.execDlv o s
  | .plop o => Sys2Proof.Machine.execPlop o s
  | .fadd o => Sys2Proof.Machine.execFadd o s
  | .fmul o => Sys2Proof.Machine.execFmul o s
  | .ffma o => Sys2Proof.Machine.execFfma o s
  | .fmin o => Sys2Proof.Machine.execFmin o s
  | .fmax o => Sys2Proof.Machine.execFmax o s
  | .fcmp o => Sys2Proof.Machine.execFcmp o s
  | .frnd o => Sys2Proof.Machine.execFrnd o s
  | .fdot o => Sys2Proof.Machine.execFdot o s
  | .frcp o => Sys2Proof.Machine.execFrcp o s
  | .frsq o => Sys2Proof.Machine.execFrsq o s
  | .fsqrt o => Sys2Proof.Machine.execFsqrt o s
  | .fexp2 o => Sys2Proof.Machine.execFexp2 o s
  | .flog2 o => Sys2Proof.Machine.execFlog2 o s
  | .fsin o => Sys2Proof.Machine.execFsin o s
  | .fcos o => Sys2Proof.Machine.execFcos o s
  | .ftanh o => Sys2Proof.Machine.execFtanh o s
  | .shflIdx o => Sys2Proof.Machine.execShflIdx o s
  | .shflUp o => Sys2Proof.Machine.execShflUp o s
  | .shflDown o => Sys2Proof.Machine.execShflDown o s
  | .shflXor o => Sys2Proof.Machine.execShflXor o s
  | .lsend o => Sys2Proof.Machine.execLsend o s
  | .voteAny o => Sys2Proof.Machine.execVoteAny o s
  | .voteAll o => Sys2Proof.Machine.execVoteAll o s
  | .voteUni o => Sys2Proof.Machine.execVoteUni o s
  | .voteBallot o => Sys2Proof.Machine.execVoteBallot o s
  | .redxAdd o => Sys2Proof.Machine.execRedxAdd o s
  | .redxMin o => Sys2Proof.Machine.execRedxMin o s
  | .redxMax o => Sys2Proof.Machine.execRedxMax o s
  | .redxAnd o => Sys2Proof.Machine.execRedxAnd o s
  | .redxOr o => Sys2Proof.Machine.execRedxOr o s
  | .redxXor o => Sys2Proof.Machine.execRedxXor o s
  | .scanAdd o => Sys2Proof.Machine.execScanAdd o s
  | .scanMin o => Sys2Proof.Machine.execScanMin o s
  | .scanMax o => Sys2Proof.Machine.execScanMax o s
  | .scanAnd o => Sys2Proof.Machine.execScanAnd o s
  | .scanOr o => Sys2Proof.Machine.execScanOr o s
  | .scanXor o => Sys2Proof.Machine.execScanXor o s
  | .matchAny o => Sys2Proof.Machine.execMatchAny o s
  | .matchAll o => Sys2Proof.Machine.execMatchAll o s
  | .lpart g n => Sys2Proof.Machine.execLpart g n s
  | .bra o => Sys2Proof.Machine.execBra o s
  | .brx o => Sys2Proof.Machine.execBrx o s
  | .call o => Sys2Proof.Machine.execCall o s
  | .ret g u => Sys2Proof.Machine.execRet g u s
  | .exit g => Sys2Proof.Machine.execExit g s
  | .prio g n => Sys2Proof.Machine.execPrio g n s
  | .nap g n => Sys2Proof.Machine.execNap g n s
  | .bkpt g code => Sys2Proof.Machine.execBkpt g code s
  | .trap g code => Sys2Proof.Machine.execTrap g code s
  | .ld o => Sys2Proof.Machine.execLd o s
  | .st o => Sys2Proof.Machine.execSt o s
  | .lds o => Sys2Proof.Machine.execLds o s
  | .sts o => Sys2Proof.Machine.execSts o s
  | .ldp o => Sys2Proof.Machine.execLdp o s
  | .pref o => Sys2Proof.Machine.execPref o s
  | .atomAdd o => Sys2Proof.Machine.execAtomAdd o s
  | .atomMin o => Sys2Proof.Machine.execAtomMin o s
  | .atomMax o => Sys2Proof.Machine.execAtomMax o s
  | .atomAnd o => Sys2Proof.Machine.execAtomAnd o s
  | .atomOr o => Sys2Proof.Machine.execAtomOr o s
  | .atomXor o => Sys2Proof.Machine.execAtomXor o s
  | .atomExch o => Sys2Proof.Machine.execAtomExch o s
  | .atomCas o => Sys2Proof.Machine.execAtomCas o s
  | .redAdd o => Sys2Proof.Machine.execRedAdd o s
  | .redMin o => Sys2Proof.Machine.execRedMin o s
  | .redMax o => Sys2Proof.Machine.execRedMax o s
  | .redAnd o => Sys2Proof.Machine.execRedAnd o s
  | .redOr o => Sys2Proof.Machine.execRedOr o s
  | .redXor o => Sys2Proof.Machine.execRedXor o s
  | .fenceAcq o => Sys2Proof.Machine.execFenceAcq o s
  | .fenceRel o => Sys2Proof.Machine.execFenceRel o s
  | .fenceAr o => Sys2Proof.Machine.execFenceAr o s
  | .fenceSc o => Sys2Proof.Machine.execFenceSc o s
  | .barArrive o => Sys2Proof.Machine.execBarArrive o s
  | .barWait o => Sys2Proof.Machine.execBarWait o s
  | .barSync o => Sys2Proof.Machine.execBarSync o s
  | .waita o => Sys2Proof.Machine.execWaita o s
  | .rdsr o => Sys2Proof.Machine.execRdsr o s
  | .wrsr o => Sys2Proof.Machine.execWrsr o s
  | .tret => Sys2Proof.Machine.execTret s
  | .tretSkip => Sys2Proof.Machine.execTretSkip s
  | .kill g => Sys2Proof.Machine.execKill g s
  | .killGrp g => Sys2Proof.Machine.execKillGrp g s
  | .killTeam g => Sys2Proof.Machine.execKillTeam g s
  | .halt => Sys2Proof.Machine.execHalt s
  | .qpush o => Sys2Proof.Machine.execQpush o s
  | .qpop o => Sys2Proof.Machine.execQpop o s
  | .qpeek o => Sys2Proof.Machine.execQpeek o s
  | .cpy o => Sys2Proof.Machine.execCpy o s
  | .publ o => Sys2Proof.Machine.execPubl o s
  | .reca o => Sys2Proof.Machine.execReca o s
  | .recp o => Sys2Proof.Machine.execRecp o s
  | .recf o => Sys2Proof.Machine.execRecf o s
  | .own o => Sys2Proof.Machine.execOwn o s
  | .ownLaunch o => Sys2Proof.Machine.execOwnLaunch o s
  | .await o => Sys2Proof.Machine.execAwait o s
  | .rslv o => Sys2Proof.Machine.execRslv o s
  | .lnch o => Sys2Proof.Machine.execLnch o s
  | .yield g => Sys2Proof.Machine.execYield g s
  | .mset d imm => Sys2Proof.Machine.execMset d imm s
  | .msetHi d imm => Sys2Proof.Machine.execMsetHi d imm s
  | .minc d a b => Sys2Proof.Machine.execMinc d a b s
  | .mloop d off => Sys2Proof.Machine.execMloop d off s
  | .mbarArrive b count => Sys2Proof.Machine.execMbarArrive b count s
  | .mbarWait b a => Sys2Proof.Machine.execMbarWait b a s
  | .mbarArriveWait b count => Sys2Proof.Machine.execMbarArriveWait b count s
  | .mwld ty a b => Sys2Proof.Machine.execMwld ty a b s
  | .mstr o => Sys2Proof.Machine.execMstr o s
  | .mepi d a b s32in => Sys2Proof.Machine.execMepi d a b s32in s
  | .mcfg a => Sys2Proof.Machine.execMcfg a s
  | .mend => Sys2Proof.Machine.execMend s
  | .tilebClear o => Sys2Proof.Machine.execTilebClear o s
  | .tilebLoad o => Sys2Proof.Machine.execTilebLoad o s
  | .tilef g => Sys2Proof.Machine.execTilef g s
  | .pathb o => Sys2Proof.Machine.execPathb o s
  | .pathe g => Sys2Proof.Machine.execPathe g s
  | .segl o => Sys2Proof.Machine.execSegl o s
  | .segq o => Sys2Proof.Machine.execSegq o s
  | .clipp g => Sys2Proof.Machine.execClipp g s
  | .clipx g => Sys2Proof.Machine.execClipx g s
  | .spanp o => Sys2Proof.Machine.execSpanp o s
  | .blndOver o => Sys2Proof.Machine.execBlndOver o s
  | .blndSrc o => Sys2Proof.Machine.execBlndSrc o s
  | .blndAdd o => Sys2Proof.Machine.execBlndAdd o s
  | .blndDrop o => Sys2Proof.Machine.execBlndDrop o s
  | .tex o => Sys2Proof.Machine.execTex o s
  | .texAniso o => Sys2Proof.Machine.execTexAniso o s
  | .tld o => Sys2Proof.Machine.execTld o s
  | .texq o => Sys2Proof.Machine.execTexq o s
  | .powerOnBoot image => Sys2Proof.Machine.execPowerOnBoot image s
  | .attestationRequest nonce => Sys2Proof.Machine.execAttestationRequest nonce s
  | .hostWrite addr bytes => Sys2Proof.Machine.execHostWrite addr bytes s
  | .hostRead addr n => Sys2Proof.Machine.execHostRead addr n s
  | .sensorSample die reading => Sys2Proof.Machine.execSensorSample die reading s
  | .timingStallEnd die controller => Sys2Proof.Machine.execTimingStallEnd die controller s
  | .retreatTimerExpiry die => Sys2Proof.Machine.execRetreatTimerExpiry die s
  | .coolingRateWindow die => Sys2Proof.Machine.execCoolingRateWindow die s
  | .phyTrainingComplete die => Sys2Proof.Machine.execPhyTrainingComplete die s
  | .drainRequest die => Sys2Proof.Machine.execDrainRequest die s
  | .drainTimeout die => Sys2Proof.Machine.execDrainTimeout die s
  | .warmupRequest die => Sys2Proof.Machine.execWarmupRequest die s
  | .warmupCancel die => Sys2Proof.Machine.execWarmupCancel die s
  | .patrolRow die correctable => Sys2Proof.Machine.execPatrolRow die correctable s
  | .uncorrectableError site => Sys2Proof.Machine.execUncorrectableError site s
  | .heldAccessRelease die => Sys2Proof.Machine.execHeldAccessRelease die s
  | .larsaPortDown die port => Sys2Proof.Machine.execLarsaPortDown die port s
  | .larsaPortUp die port => Sys2Proof.Machine.execLarsaPortUp die port s
  | .currentLimitStep die island => Sys2Proof.Machine.execCurrentLimitStep die island s
  | .clockRaiseCommand die island mhz => Sys2Proof.Machine.execClockRaiseCommand die island mhz s
  | .pipeRetention die core slot => Sys2Proof.Machine.execPipeRetention die core slot s
  | .boostLeaseGrant ctx die clock ticks => Sys2Proof.Machine.execBoostLeaseGrant ctx die clock ticks s
  | .leaseExpiry ctx die => Sys2Proof.Machine.execLeaseExpiry ctx die s
  | .contextRehome ctx partition => Sys2Proof.Machine.execContextRehome ctx partition s
  | .mcadWrite die core idle => Sys2Proof.Machine.execMcadWrite die core idle s
  | .firmwareRegisterWrite r => Sys2Proof.Machine.execFirmwareRegisterWrite r s
  | .epochBoundary die => Sys2Proof.Machine.execEpochBoundary die s
  | .homeSliceAccess id => Sys2Proof.Machine.execHomeSliceAccess id s
  | .storePerform tid grp => Sys2Proof.Machine.execStorePerform tid grp s
  | .faultSlotGrant die => Sys2Proof.Machine.execFaultSlotGrant die s
  | .faultReplay id => Sys2Proof.Machine.execFaultReplay id s
  | .faultDeny id => Sys2Proof.Machine.execFaultDeny id s
  | .orderedInvalidation ctx va size => Sys2Proof.Machine.execOrderedInvalidation ctx va size s
  | .invalidationComplete id => Sys2Proof.Machine.execInvalidationComplete id s
  | .migratePage ctx va shadow => Sys2Proof.Machine.execMigratePage ctx va shadow s
  | .migrationCommit id => Sys2Proof.Machine.execMigrationCommit id s
  | .launchDoorbell partition queue => Sys2Proof.Machine.execLaunchDoorbell partition queue s
  | .packetTake partition queue => Sys2Proof.Machine.execPacketTake partition queue s
  | .clusterPlace die core => Sys2Proof.Machine.execClusterPlace die core s
  | .prologueComplete tid => Sys2Proof.Machine.execPrologueComplete tid s
  | .teamRetire tid => Sys2Proof.Machine.execTeamRetire tid s
  | .urgencyReached die launch => Sys2Proof.Machine.execUrgencyReached die launch s
  | .skipTimeout die => Sys2Proof.Machine.execSkipTimeout die s
  | .forwardProgressSwap die core => Sys2Proof.Machine.execForwardProgressSwap die core s
  | .relief tid => Sys2Proof.Machine.execRelief tid s
  | .driftDrainExpiry tid => Sys2Proof.Machine.execDriftDrainExpiry tid s
  | .teamResume tid core => Sys2Proof.Machine.execTeamResume tid core s
  | .haltRelease tid => Sys2Proof.Machine.execHaltRelease tid s
  | .cagedTeamEnd tid => Sys2Proof.Machine.execCagedTeamEnd tid s
  | .recordCommitArrive tid => Sys2Proof.Machine.execRecordCommitArrive tid s
  | .batchTimerExpiry die launch node => Sys2Proof.Machine.execBatchTimerExpiry die launch node s
  | .backpressureClose die launch => Sys2Proof.Machine.execBackpressureClose die launch s
  | .driftPermit cmd => Sys2Proof.Machine.execDriftPermit cmd s
  | .lineFill cmd pos line => Sys2Proof.Machine.execLineFill cmd pos line s
  | .driftCommandComplete cmd => Sys2Proof.Machine.execDriftCommandComplete cmd s
  | .driftCommandFault cmd => Sys2Proof.Machine.execDriftCommandFault cmd s
  | .engineArrivalRetry cmd => Sys2Proof.Machine.execEngineArrivalRetry cmd s
  | .mwldReplay tid => Sys2Proof.Machine.execMwldReplay tid s
  | .pathScan tid => Sys2Proof.Machine.execPathScan tid s
  | .stagingMove tid => Sys2Proof.Machine.execStagingMove tid s
  | .spanCommit tid => Sys2Proof.Machine.execSpanCommit tid s
  | .tileFillLine tid line => Sys2Proof.Machine.execTileFillLine tid line s
  | .deferredTrapDelivery tid grp => Sys2Proof.Machine.execDeferredTrapDelivery tid grp s
  | .engineTrapDelivery tid => Sys2Proof.Machine.execEngineTrapDelivery tid s
  | .powerLoss die => Sys2Proof.Machine.execPowerLoss die s
  | .longLatencyResultLand tid grp pend => Sys2Proof.Machine.execLongLatencyResultLand tid grp pend s
  | .firmwareContextEnd ctx => Sys2Proof.Machine.execFirmwareContextEnd ctx s
  | .larsaPackageJoin package => Sys2Proof.Machine.execLarsaPackageJoin package s

end Sys2Proof.Machine
end

