-- ==== Sys2Proof/Machine/Issue.lean ====
section
/-! DEFINITION. Issuing: when a group is at its next instruction, fetching (R96, R99, R149 to R156), the lookahead windows (R75,
R110 to R113), pairs (R106 to R108), the slots' choice and record (R54, R75, R77, R344), the word of a matrix stream (R117, R276), and
what the machine may do next. -/

namespace Sys2Proof.Machine

/-! ### Fetching -/

inductive Fetched where
  | bytes (l : List Byte)
  | trap (tr : Trap)
  | fault (cause : Nat)
  | wait
deriving DecidableEq, Repr

/-- Read a block at its home slice, `now` being its bytes, and keep it in the core; none where the home serves nothing now. -/
def State.newCode (s : State) (t : Team) (sa : Nat) (now : List Byte) : Option (List Byte) × State :=
  if s.held t.die sa then (none, s) else (some now, (s.servedRead t.ctx sa).keepCode t.die t.core ⟨t.ctx, sa / 32, now⟩)

/-- The block that a fetch sees, `now` being its bytes in memory: where stores have changed it since the core fetched it, the fetch sees
it either as it was or as it is, by a free choice (R99). -/
def State.codeBlock (s : State) (t : Team) (sa : Nat) (now : List Byte) : Option (List Byte) × State :=
  match (s.core t.die t.core).code.find? fun x => x.ctx == t.ctx && x.block == sa / 32 with
  | none => s.newCode t sa now
  | some old =>
    if old.bytes = now then (some now, s)
    else
      let k := s.free
      let s : State := { s with free := s.free + 1 }
      if Config.fromOldCode k then (some old.bytes, s) else s.newCode t sa now

/-- Read code of one block through the team's context (R96, R99, R149 to R153, R158, R342). -/
def State.fetch (s : State) (t : Team) (pc : DWord) (n : Nat) : Fetched × State :=
  match s.translate t.ctx pc .fetch with
  | (.ok sa e, s) =>
    match s.readVia e.bld (sa / 32 * 32) 32 with
    | .ok b => match s.codeBlock t sa b with
      | (some b, s) => (.bytes ((b.drop (sa % 32)).take n), s)
      | (none, s) => (.wait, s)
    | .error c => if s.held t.die sa then (.wait, s) else (.trap (memfmtTrap c (blockVa pc)), s)
  | (.replay c, s) => (.fault c, s)
  | (.fatal c, s) => (.trap (xlateTrap c pc), s)
  | (.blocked, s) => (.wait, s)

/-- The bytes of the block from the instruction on, at most one instruction's length (R96). -/
def fetchLen (pc : DWord) : Nat := min 16 (32 - pc.toNat % 32)

/-- What stands at an address of a lane stream. -/
def decodeBytes (pc : DWord) (l : List Byte) : Decoded := decodeLane (pc.toNat % 32) (BitVec.ofNat 128 (leNat l))

/-- What stands at a word of a matrix stream. -/
def decodeWord (l : List Byte) : Decoded := decodeStream (BitVec.ofNat 64 (leNat l))

/-! ### Lookahead (R75, R110 to R113) -/

/-- Some lane of the bundle is inside the window. -/
def Pending.inside (p : Pending) (lanes : Mask) : Bool := lanes.lanes.any fun l => p.bundle.has l && p.win.getD l 0 != 0

/-- Some lane of the bundle is beyond the window. -/
def Pending.beyond (p : Pending) (lanes : Mask) : Bool := lanes.lanes.any fun l => p.bundle.has l && p.win.getD l 0 == 0

/-- Pending registers and predicates that the instructions name; nothing is ever written to p7 (R82). -/
def Pending.regsNamed (p : Pending) (is : List Instr) : List Nat := p.regs.filter fun r => is.any fun i => i.touchesReg r

def Pending.predsNamed (p : Pending) (is : List Instr) : List Nat :=
  p.preds.filter fun q => q != 7 && is.any fun i => i.touchesPred q

def Pending.named (p : Pending) (is : List Instr) : Bool := !(p.regsNamed is).isEmpty || !(p.predsNamed is).isEmpty

/-- The bundle waits for the result: a lane is beyond its window (R113), or every window is another's and the bundle names it (R75). -/
def Pending.holds (lanes : Mask) (is : List Instr) (p : Pending) : Bool :=
  p.beyond lanes || (!(p.inside lanes) && p.named is)

/-- LOOKAHEAD, with the lowest register touched inside a window, or the lowest predicate (R112). -/
def Group.lookahead (g : Group) (lanes : Mask) (is : List Instr) : Option Trap :=
  let ps := g.pending.filter fun p => p.inside lanes
  match (ps.flatMap fun p => p.regsNamed is).min?, (ps.flatMap fun p => p.predsNamed is).min? with
  | some r, _ => some { cause := 3, info := BitVec.ofNat 32 r, va := 0 }
  | none, some q => some { cause := 3, info := BitVec.ofNat 32 (1024 + q), va := 0 }
  | none, none => none

/-! ### Pairs (R106 to R108) -/

/-- The operation of a pairable instruction. -/
def pairOut : Instr → Option (Guard × (Team → Group → Mask → Out))
  | .nop g => some (g, nopOut)
  | .iadd o => some (o.g, iaddOut o) | .isub o => some (o.g, isubOut o) | .imul o => some (o.g, imulOut o)
  | .imad o => some (o.g, imadOut o) | .imin o => some (o.g, iminOut o) | .imax o => some (o.g, imaxOut o)
  | .iabs o => some (o.g, iabsOut o) | .icmp o => some (o.g, icmpOut o) | .lea o => some (o.g, leaOut o)
  | .aff o => some (o.g, affOut o) | .sel o => some (o.g, selOut o) | .mov o => some (o.g, movOut o)
  | .and o => some (o.g, andOut o) | .or o => some (o.g, orOut o) | .xor o => some (o.g, xorOut o)
  | .not o => some (o.g, notOut o) | .shl o => some (o.g, shlOut o) | .shr o => some (o.g, shrOut o)
  | .rot o => some (o.g, rotOut o) | .clz o => some (o.g, clzOut o) | .popc o => some (o.g, popcOut o)
  | .brev o => some (o.g, brevOut o) | .bfx o => some (o.g, bfxOut o) | .bfi o => some (o.g, bfiOut o)
  | .ilv o => some (o.g, ilvOut o) | .dlv o => some (o.g, dlvOut o) | .plop o => some (o.g, plopOut o)
  | .fadd o => some (o.g, faddOut o) | .fmul o => some (o.g, fmulOut o) | .ffma o => some (o.g, ffmaOut o)
  | .fmin o => some (o.g, fminOut o) | .fmax o => some (o.g, fmaxOut o) | .fcmp o => some (o.g, fcmpOut o)
  | .frnd o => some (o.g, frndOut o) | .fdot o => some (o.g, fdotOut o)
  | _ => none

/-- Both operations read before either writes, and REGPOOL is counted over both. -/
def execPair (i j : Instr) (s : State) : Result :=
  match s.bundle?, pairOut i, pairOut j with
  | some (t, g), some (gi, fi), some (gj, fj) =>
    .next (s.commit t g [fi t g (g.active gi s.cur.lanes), fj t g (g.active gj s.cur.lanes)])
  | _, _, _ => .fault .noBundle

/-! ### Recording an issue -/

/-- The bundle has issued: its entry has moved on, or it is a transfer that may stay where it is. -/
def issuedNow (is : List Instr) (before after : List Entry) : Bool :=
  match is with
  | [.bra _] => true
  | [.brx _] => true
  | [.call _] => true
  | [.ret _ _] => true
  | _ => before != after

/-- A vector instruction, which uses its slot's vector pipe: all but the transfers of control, the waits and the fences (log 102). -/
def isVector : Instr → Bool
  | .nop _ | .nap _ _ | .bra _ | .brx _ | .call _ | .ret _ _ | .exit _ | .tret | .tretSkip | .kill _ | .killGrp _ | .killTeam _ | .halt
  | .yield _ | .fenceAcq _ | .fenceRel _ | .fenceAr _ | .fenceSc _ => false
  | _ => true

/-- The core's record of an issue from a slot (R54, R75, R77, R344): the place of the group in the slot's order, the cycle, whether it uses
the vector pipe, and whether it was a NAP that holds its group, which is no issue for the count of R77 (R426). -/
def CoreSt.issued (c : CoreSt) (slot place now : Nat) (vec naps : Bool) : CoreSt :=
  { c with
    countFrom := if naps then c.countFrom else some now
    rr := c.rr.set slot (place + 1)
    lastIssue := c.lastIssue.set slot (now + 1)
    lastVec := if vec then c.lastVec.set slot (now + 1) else c.lastVec
    retention := if vec then c.retention.set slot false else c.retention }

/-- The slot a group issues from (R54). -/
def Team.slotOf (t : Team) (n : Nat) : Nat := (t.base + n) % 4

/-- The place of a group in the ascending group order of its slot (R75). That it is the team's place on the core first and then the
group's number is a DESIGN CHOICE (log 92). -/
def Team.placeOf (t : Team) (n : Nat) : Nat := 1024 * t.slot + n

/-- The group is held by a NAP. -/
def Group.naps (g : Group) : Bool :=
  match g.park with
  | .nap _ => true
  | _ => false

/-- Record the issue of a bundle of `g`. -/
def State.noteIssue (s : State) (t : Team) (g : Group) (is : List Instr) : State :=
  let after := s.group? t.id g.num
  if issuedNow is g.frontier ((after.map fun g => g.frontier).getD []) then
    s.onCore t.die t.core fun c =>
      c.issued (t.slotOf g.num) (t.placeOf g.num) (s.die t.die).cycles (is.any isVector) (after.any Group.naps)
  else s

/-- Change the state of a next outcome. -/
def mapNext (f : State → State) : Result → Result
  | .next s => .next (f s)
  | .fault x => .fault x
  | .refused x => .refused x

/-! ### A lane turn -/

/-- The denied fault is that of the entry (R114, R156). -/
def Denied.isAt (d : Denied) (e : Entry) : Bool := d.pc == e.pc && d.handler == e.handler

/-- A trap of the entry's bundle, with the length of its instruction in words (R255). -/
def Entry.trapTo (e : Entry) (tr : Trap) (ilen : Nat) : TrapTo :=
  { pc := e.pc, lanes := e.lanes, prio := e.prio, handler := e.handler, trap := tr, ilen := ilen }

/-- The head takes the trap of its denied fault. -/
def State.takeDenied (s : State) (t : Team) (g : Group) (e : Entry) (d : Denied) (ilen : Nat) : State :=
  let (s, entered) := s.takeTrap t g (e.trapTo d.trap ilen)
  if entered then s.onGroup t.id g.num fun g => { g with deny := none } else s

/-- The bundle that is to be issued. -/
def Entry.cur (e : Entry) (t : Team) (g : Group) (len : Nat) : Cur :=
  { tid := t.id, agent := .lane g.num, pc := e.pc, lanes := e.lanes, prio := e.prio, handler := e.handler, len := len }

/-- An access that the result comes from is held for its home's DRAM, or at a port (R342). -/
def State.heldFor (s : State) (t : Team) (g : Group) (p : Pending) : Bool :=
  s.accesses.any fun a => a.tid == t.id && a.grp == g.num && s.held a.die (a.line * 128)
    && (a.owner == p.id || g.fifo.any fun e => e.id == a.owner && e.pend == p.id)

/-- Issue the decoded instructions of a bundle. It waits where a pending result holds it; results that have arrived land first. -/
def State.issueBundle (s : State) (t : Team) (g : Group) (e : Entry) (len : Nat) (is : List Instr) (run : State → Result) : Result :=
  match (if g.deny.any fun d => d.isAt e then g.deny else none) with
  | some d => .next (s.takeDenied t g e d (len / 4))
  | none =>
    let hold := g.pending.filter fun p => p.holds e.lanes is
    if !hold.isEmpty then
      .next (if hold.all Pending.isReady then s.put t (hold.foldl Group.land g)
        else if hold.any (fun p => s.heldFor t g p) then s.parkHeld t g else s)
    else match g.lookahead e.lanes is with
      | some tr => .next (s.takeTrap t g (e.trapTo tr (len / 4))).1
      | none => mapNext (fun (s' : State) => s'.noteIssue t g is)
        (run { s with cur := { e.cur t g len with only := s.cur.only, later := s.cur.later } })

/-- Issue what stands at the head's PC (R95 to R97, R118). -/
def State.issueDecoded (s : State) (t : Team) (g : Group) (e : Entry) (d : Decoded) : Result :=
  match d with
  | .illegal sub ilen => .next (s.takeTrap t g (e.trapTo (illegalTrap sub) ilen)).1
  | .one i len => s.issueBundle t g e len [i] (exec i)
  | .pair i j => s.issueBundle t g e 16 [i, j] (execPair i j)

/-- Issue the group's head. -/
def State.issueHead (s : State) (t : Team) (g : Group) (e : Entry) : Result :=
  match (if g.deny.any fun d => d.fetch && d.isAt e then g.deny else none) with
  | some d => .next (s.takeDenied t g e d 0)
  | none => match s.fetch t e.pc (fetchLen e.pc) with
    | (.bytes l, s) => s.issueDecoded t g e (decodeBytes e.pc l)
    | (.trap tr, s) => .next (s.takeTrap t g (e.trapTo tr 0)).1
    | (.fault c, s) => .next (s.parkFault t g 3 c e.pc (.fetch t.id g.num))
    | (.wait, s) => .next (s.parkHeld t g)

/-- A denial that belongs to no entry any more is forgotten. -/
def Group.dropDeny (g : Group) : Group :=
  if g.deny.any fun d => !(g.frontier.any fun e => d.isAt e) then { g with deny := none } else g

/-- What stands at the PC of an entry, if its code can be read now. -/
def State.codeAt (s : State) (t : Team) (e : Entry) : Option Decoded :=
  match (s.fetch t e.pc (fetchLen e.pc)).1 with
  | .bytes l => some (decodeBytes e.pc l)
  | _ => none

/-- The entry that issues: the head, but for a TILEF that has begun to write, which the group goes on with until it is over (R332). -/
def State.headEntry (s : State) (t : Team) (g : Group) : Option Entry :=
  if t.midTile g then g.frontier.find? fun e => match s.codeAt t e with
    | some (.one (.tilef _) _) => true
    | _ => false
  else g.head?

/-- The group issues its next instruction, or takes a fault that is owed at this boundary. -/
def State.boundary (s : State) (t : Team) (g : Group) : Result :=
  match s.deliverOwed t g with
  | some s => .next s
  | none => match s.headEntry t g with
    | none => .next s
    | some e => s.issueHead t g.dropDeny e

/-- What a park lets the group do. -/
inductive AtPark where
  | stay | poll | go
deriving DecidableEq, Repr

def Park.allows (p : Park) (cycles : Nat) : AtPark :=
  match p with
  | .none => .go
  | .retry _ => .go
  | .fault _ => .stay
  | .waita _ woken => if woken then .go else .stay
  | .bar _ _ => .stay
  | .await _ _ => .poll
  | .publ _ => .stay
  | .nap wake => if wake ≤ cycles then .go else .stay

/-- The team's groups may issue: it runs on a core whose clock runs, and its prologue's trap is over but for group 0 (R171). -/
def State.mayIssue (s : State) (t : Team) (n : Nat) : Bool :=
  t.canRun && (!t.gated || n == 0) && s.clockOf t.die != 0

/-! ### The slots (R75) -/

/-- The instructions of what stands at a PC. -/
def decodedInstrs : Decoded → List Instr
  | .illegal _ _ => []
  | .one i _ => [i]
  | .pair i j => [i, j]

/-- The instructions of a group's head that could issue now: the group is not parked and does not nap, its code is there, and no pending
result holds it. A group that only looks again for its event is parked (R76). -/
def State.readyInstrs (s : State) (t : Team) (g : Group) : Option (List Instr) :=
  if !(s.mayIssue t g.num) || s.parked t g || g.park.allows (s.die t.die).cycles != .go then none
  else (s.headEntry t g).bind fun e => (s.codeAt t e).bind fun d =>
    if g.pending.any fun p => p.holds e.lanes (decodedInstrs d) then none else some (decodedInstrs d)

def State.headReady (s : State) (t : Team) (g : Group) : Bool := (s.readyInstrs t g).isSome

/-- Before an index in the round-robin that starts at `from_`: the indexes it passes over to reach `i`. -/
def passedIn (from_ i k : Nat) : Bool := if from_ ≤ i then decide (from_ ≤ k) && decide (k < i) else decide (from_ ≤ k) || decide (k < i)

/-- The ready groups of a core that its slot would choose before the given one: those of the same slot that come earlier in its
round-robin. The ascending group order of R75 is that of `Team.placeOf`, a DESIGN CHOICE where the slot has groups of several teams
(log 92). -/
def State.readyBefore (s : State) (t : Team) (g : Group) : List (Nat × Nat) :=
  let start := (s.core t.die t.core).rr.getD (t.slotOf g.num) 0
  (s.residents t.die t.core).flatMap fun u => (u.groups.filter fun h =>
    u.slotOf h.num == t.slotOf g.num && passedIn start (t.placeOf g.num) (u.placeOf h.num) && s.headReady u h).map
      fun h => (u.id, h.num)

/-- The slot of a group has issued in this cycle. -/
def State.slotIssued (s : State) (t : Team) (n : Nat) : Bool :=
  decide ((s.core t.die t.core).lastIssue.getD (t.slotOf n) 0 > (s.die t.die).cycles)

/-- The queue that a QPUSH or QPOP, or a CPY, names. -/
def queueNamed : List Instr → Option Nat
  | [.qpush o] => some o.q.toNat
  | [.qpop o] => some o.q.toNat
  | [.cpy _] => some 0
  | _ => none

/-- A lower-numbered group of the team that another slot may still issue in this cycle pushes or pops the same queue: it comes first
(R444, R445). -/
def State.queueLater (s : State) (t : Team) (g : Group) : Bool :=
  match (s.readyInstrs t g).bind queueNamed with
  | none => false
  | some q => t.groups.any fun h => decide (h.num < g.num) && t.slotOf h.num != t.slotOf g.num && !(s.slotIssued t h.num)
      && ((s.readyInstrs t h).bind queueNamed) == some q

/-- The slot chooses the group: it has issued nothing in this cycle, and the ready groups before it in the round-robin need a pipe that
cannot accept them, which is the implementation's (log 1). Answers also the state with the choices drawn. -/
def State.chooses (s : State) (t : Team) (g : Group) : Bool × State :=
  if s.slotIssued t g.num || s.queueLater t g then (false, s)
  else
    let l := s.readyBefore t g
    if l.isEmpty then (true, s)
    else ((List.range l.length).all fun k => !(Config.pipeAccepts (s.free + k)), { s with free := s.free + l.length })

/-- An engine or stream trap that goes to this group (R260). -/
def State.engineTrapTo (s : State) (t : Team) (n : Nat) : Option State :=
  if t.lowestLive.any fun g => g.num == n then s.deliverEngine t else none

/-- One turn of a group: what its slot does with it when it is chosen (R65, R75). -/
def laneTurn (tid n : Nat) (s : State) : Result :=
  match s.team? tid with
  | none => .next s
  | some t =>
    match t.group? n with
    | none => .next s
    | some g =>
      if !(s.mayIssue t n) then .next s
      else if s.mustResend tid g then .next (s.resendGroup tid g)
      else match s.engineTrapTo t n with
        | some s => .next s
        | none => match g.park.allows (s.die t.die).cycles with
          | .stay => .next s
          | .poll => .next (s.pollAwait t g)
          | .go => match s.chooses t g with
            | (true, s) => s.boundary t g
            | (false, s) => .next s

/-! ### A stream's turn (R276) -/

/-- Issue a word of the stream. -/
def State.issueWord (s : State) (t : Team) (m : Stream) (d : Decoded) : Result :=
  match d with
  | .one i len => exec i { s with cur := { tid := t.id, agent := .stream, pc := m.pc, len := len } }
  | .illegal sub _ => .next (s.streamTrap t.id m.pc (illegalTrap sub))
  | .pair _ _ => .next (s.streamTrap t.id m.pc (illegalTrap .stream))

/-- The stream waits for the fault of its fetch: KIND 3, AGENT the lowest-numbered resident group (R276). -/
def State.streamFault (s : State) (t : Team) (m : Stream) (cause : Nat) : State :=
  let (i, s) := s.addFault t.die t.core t.ctx (s.groupIndex t 0) 3 cause m.pc (.streamFetch t.id)
  s.setTeam { t with stream := some { m with park := .fault i } }

def streamTurn (tid : Nat) (s : State) : Result :=
  match s.team? tid with
  | none => .next s
  | some t =>
    match t.stream with
    | none => .next s
    | some m =>
      if m.ended || m.park != .none || !(s.mayIssue t 1) then .next s
      else if m.owesReplay then .next (mwldReplay tid s)
      else match s.fetch t m.pc 8 with
        | (.bytes l, s) => s.issueWord t m (decodeWord l)
        | (.trap tr, s) => .next (s.streamTrap tid m.pc tr)
        | (.fault c, s) => .next (s.streamFault t m c)
        | (.wait, s) => .next s

/-! ### Turns that the machine takes by itself -/

/-- The rows of the table that are no instruction of a lane or matrix stream. -/
def isEvent : Instr → Bool
  | .powerOnBoot _ | .attestationRequest _ | .hostWrite _ _ | .hostRead _ _ | .sensorSample _ _ | .timingStallEnd _ _
  | .retreatTimerExpiry _ | .coolingRateWindow _ | .phyTrainingComplete _ | .drainRequest _ | .drainTimeout _ | .warmupRequest _
  | .warmupCancel _ | .patrolRow _ _ | .uncorrectableError _ | .heldAccessRelease _ | .larsaPortDown _ _ | .larsaPortUp _ _
  | .currentLimitStep _ _ | .clockRaiseCommand _ _ _ | .pipeRetention _ _ _ | .boostLeaseGrant _ _ _ _ | .leaseExpiry _ _
  | .contextRehome _ _ | .mcadWrite _ _ _ | .firmwareRegisterWrite _ | .epochBoundary _ | .homeSliceAccess _ | .storePerform _ _
  | .faultSlotGrant _ | .faultReplay _ | .faultDeny _ | .orderedInvalidation _ _ _ | .invalidationComplete _ | .migratePage _ _ _
  | .migrationCommit _ | .launchDoorbell _ _ | .packetTake _ _ | .clusterPlace _ _ | .prologueComplete _ | .teamRetire _
  | .urgencyReached _ _ | .skipTimeout _ | .forwardProgressSwap _ _ | .relief _ | .driftDrainExpiry _ | .teamResume _ _
  | .haltRelease _ | .cagedTeamEnd _ | .recordCommitArrive _ | .batchTimerExpiry _ _ _ | .backpressureClose _ _ | .driftPermit _
  | .lineFill _ _ _ | .driftCommandComplete _ | .driftCommandFault _ | .engineArrivalRetry _ | .mwldReplay _ | .pathScan _
  | .stagingMove _ | .spanCommit _ | .tileFillLine _ _ | .deferredTrapDelivery _ _ | .engineTrapDelivery _ | .powerLoss _
  | .longLatencyResultLand _ _ _ | .firmwareContextEnd _ | .larsaPackageJoin _ => true
  | _ => false

/-- The turns of one group and its results. -/
def Group.turns (tid : Nat) (g : Group) : List Turn :=
  .lane tid g.num :: .later tid g.num :: (if g.fifo.isEmpty then [] else [.event (.storePerform tid g.num)])
    ++ g.pending.map fun p => .event (.longLatencyResultLand tid g.num p.id)

/-- The turns of one drift-engine command. -/
def DriftCmd.turns (c : DriftCmd) : List Turn :=
  [.event (.driftPermit c.id), .event (.driftCommandComplete c.id), .event (.driftCommandFault c.id)]
    ++ (match c.left with
        | [] => []
        | (pos, line) :: _ => [.event (.lineFill c.id pos line)])
    ++ (match if c.finished then [] else c.unitsLeft with
        | [] => []
        | i :: _ => [.event (.lineFill c.id 0 i)])
    ++ if c.owesArrival then [.event (.engineArrivalRetry c.id)] else []

/-- The turns of one team and its engines. -/
def Team.turns (t : Team) : List Turn :=
  t.groups.flatMap (fun g => g.turns t.id) ++ t.cmds.flatMap DriftCmd.turns
    ++ (if t.stream.isSome then [.stream t.id, .event (.mwldReplay t.id)] else [])
    ++ (if t.q4.isEmpty then [] else [.event (.recordCommitArrive t.id)])
    ++ (match t.cov.bound with
        | none => []
        | some b => (t.groups.flatMap fun g => ((List.range 9).filter fun n => !(b.written.contains n)).map fun n =>
              Turn.blocks t.id g.num n) ++ .event (.pathScan t.id) :: .event (.stagingMove t.id) :: .event (.spanCommit t.id)
            :: b.fill.map fun l => .event (.tileFillLine t.id l))
    ++ (match t.place with
        | .prologue => [.event (.prologueComplete t.id)]
        | .running => [.event (.prologueComplete t.id), .event (.teamRetire t.id)]
        | .draining _ _ => [.event (.driftDrainExpiry t.id)]
        | .caged _ => [])

/-- The cores on which the first candidate of a die that fits can be placed. -/
def State.placeTurns (s : State) (d : Nat) : List Turn :=
  match s.firstFit d (s.considered d) [] with
  | none => [.event (.clusterPlace d 0)]
  | some (c, _) => match s.job c with
    | none => []
    | some j => ((List.range 96).filter fun k => (s.fitAt d j k).isSome).map fun k =>
        match c with
        | .team tid => .event (.teamResume tid k)
        | _ => .event (.clusterPlace d k)

/-- The turns of a die's memory, sensors' timers and training (R338, R340). -/
def Die.turns (x : Die) (d : Nat) : List Turn :=
  x.stalled.map (fun c => .event (.timingStallEnd d c))
    ++ (if x.training then [.event (.phyTrainingComplete d)] else [])
    ++ (if x.coldSince.isSome then [.event (.retreatTimerExpiry d)] else [])
    ++ if x.window.isSome then [.event (.coolingRateWindow d)] else []

/-- The turns of a die's front end. -/
def State.dieTurns (s : State) (d : Nat) : List Turn :=
  if (s.candidates d).isEmpty then [.event (.epochBoundary d)]
  else s.placeTurns d ++ [.event (.skipTimeout d), .event (.epochBoundary d)]
    ++ (s.launches.map fun l => .event (.urgencyReached d l.id))
    ++ ((s.teams.filter fun t => t.die == d && t.place == .running).map fun t => .event (.forwardProgressSwap d t.core))

/-- Everything that the machine may do next of its own accord, and the passing of a tick. -/
def State.options (s : State) : List Turn :=
  s.teams.flatMap Team.turns
    ++ s.accesses.map (fun a => .event (.homeSliceAccess a.id))
    ++ s.remotes.map (fun r => .event (.homeSliceAccess r.id))
    ++ (if s.hostOps.isEmpty then [] else [.event (.homeSliceAccess 0)])
    ++ (if s.staleAreas.isEmpty then [] else [.event (.heldAccessRelease 0)])
    ++ s.invals.map (fun i => .event (.invalidationComplete i.id))
    ++ s.queues.flatMap (fun q => [.event (.launchDoorbell q.partition q.num), .event (.packetTake q.partition q.num)])
    ++ s.launches.flatMap (fun l => (List.range 8).flatMap fun d => .event (.backpressureClose d l.id)
        :: (match l.graph with
            | none => []
            | some g => (List.range g.nodes.length).map fun n => .event (.batchTimerExpiry d l.id n)))
    ++ s.leases.map (fun l => .event (.leaseExpiry l.ctx l.die))
    ++ (if s.faults.all FaultEntry.slot then [] else (List.range 8).map fun d => .event (.faultSlotGrant d))
    ++ (s.teams.map fun t => .event (.relief t.id))
    ++ (List.range 8).flatMap (fun d => (s.die d).turns d ++ s.dieTurns d)
    ++ [.tick 1]

/-- The turn that is taken where the agenda names none: every option in its turn. -/
def State.ownTurn (s : State) : Turn :=
  let o := s.options
  o.getD (s.turn % o.length) (.tick 1)

/-! ### The events that parked groups wait for (R249) -/

/-- The amounts of what a blocked instruction waits for to be gone, of its kind of wait. -/
def State.standing (s : State) (t : Team) (g : Group) : Wait → List Nat
  | .queue q =>
    let n := if q == 0 then (t.cmds.filter fun c => !c.started).length else if q == 2 then t.cov.q2.length
      else if q == 4 then t.q4.length else (t.queueWords q).length
    [n, if n == 0 then 1 else 0]
  | .lines => [t.absent.length, t.cov.q2.length, t.cov.staging.length, t.cov.q3.length, t.cov.tickets.length,
      ((t.cov.bound.map fun b => b.fill.length).getD 0)]
  | .tile _ => [s.tileOwners.length]
  | .accumulator => [s.accsUsed t.die t.core]
  | .stock _ => [((s.graph? t.launch).map fun x => x.alloc.length).getD 0]
  | .launchRoom => (s.queues.filter fun q => q.ctx == t.ctx).map fun q =>
      2 ^ 64 - ((s.peek t.ctx q.header 32).map fun l => (parseHeader l).read).getD 0
  | .access => [(s.accesses.filter fun a => a.tid == t.id && a.grp == g.num).length,
      (s.remotes.filter fun r => r.tid == t.id && r.grp == g.num).length, s.invals.length, 576 - s.joined.length]
      ++ s.dies.flatMap fun d => [d.stalled.length, if d.selfRefresh then 1 else 0, (d.ports.filter fun p => !p).length]
  | .drift => [t.cmds.length]

/-- Something of it is gone. -/
def lessStands (before after : List Nat) : Bool := (before.zip after).any fun x => decide (x.2 < x.1)

/-- What a parked group of `s0` waits for has come by `s`, or may have: its park is over, or less stands in its way. -/
def State.cameFor (s0 s : State) (t0 t : Team) (g0 g : Group) : Bool :=
  s0.parked t0 g0 && (!(s.parked t g) || (match g0.park with
    | .retry w => lessStands (s0.standing t0 g0 w) (s.standing t g w)
    | _ => false))

/-- The groups of a team for which an event has come between two states. -/
def State.came (s0 s : State) (t : Team) : List Nat :=
  match s0.team? t.id with
  | none => []
  | some t0 => if t.place != .running || t0.place != .running then [] else
    (t.groups.filter fun g => (t0.group? g.num).any fun g0 => s0.cameFor s t0 t g0 g).map fun g => g.num

/-- Note the events of a turn, and their cycle, with the teams that they concern. -/
def State.noteEvents (s0 s : State) : State :=
  if s.teams.all fun t => (s0.came s t).isEmpty then s
  else
    { s with teams := s.teams.map fun t =>
        let c := s0.came s t
        if c.isEmpty then t
        else { t with eventAt := (s.die t.die).cycles + 1
                      groups := t.groups.map fun g => if c.contains g.num then { g with due := true } else g } }

/-- Take a turn; the events that it brings are noted, and contexts that have read a bad row end with it (R249, R271). -/
def takeTurn (x : Turn) (s : State) : Result :=
  mapNext (fun (s' : State) => (s.noteEvents s').endDoomed) (match x with
    | .lane tid n => laneTurn tid n { s with cur := {} }
    | .blocks tid n k => laneTurn tid n { s with cur := { only := some k } }
    | .later tid n => laneTurn tid n { s with cur := { later := true } }
    | .stream tid => streamTurn tid s
    | .event i => if isEvent i then exec i { s with cur := {} } else .next s
    | .tick n => .next (s.tick n))

end Sys2Proof.Machine
end

