-- ==== Sys2Proof/Machine/Loader.lean ====
section
/-! DEFINITION. One instruction made ready to be issued, as loading a program and placing its team would: a context whose tables
map one page, a team with one group and a stream at the instruction, and a turn of it on the agenda (log 9). -/

namespace Sys2Proof.Machine

/-- Where the instruction stands: virtual and, through the identity map, physical. -/
def loadVa : Nat := 0x40000000

/-- Physical addresses of the three tables of the walk. -/
def loadTables : Nat := 0x10000

/-- The entries of the walk (R149 to R151): two pointers, and a leaf of 1 GiB that may be read, written and executed. -/
def State.loadTablesInto (s : State) : State :=
  let p := fun (n : Nat) => loadTables + 0x1000 * n
  let s := s.setBytes (s.local (p 0)) (leBytes 8 (1 + p 1))
  let s := s.setBytes (s.local (p 1)) (leBytes 8 (1 + p 2))
  s.setBytes (s.local (p 2 + 8)) (leBytes 8 (0xF + 10 * 2 ^ 8 + s.local loadVa))

/-- A number that no context has. -/
def State.freeContext (s : State) : Nat := (s.contexts.map fun c => c.num).foldl max 0 + 1

/-- A number that no team has. -/
def State.freeTeam (s : State) : Nat := s.teams.foldl (fun n t => max n (t.id + 1)) s.nextId

/-- The loaded group: 32 lanes at the instruction (R56). -/
def loadGroup : Group :=
  { num := 0, rows := 640, frontier := [{ pc := BitVec.ofNat 64 loadVa, prio := 255, lanes := 0xFFFFFFFF#32 }] }

/-- The loaded team, on core 0 of die 0, with a scratchpad of 64 KiB and two tiles. -/
def loadTeam (tid ctx : Nat) (now : Nat) : Team :=
  { id := tid, launch := 0, ctx := ctx, cls := 1, lid := 0, die := 0, core := 0, slot := 0, base := 0, unit := 0, reg := 0
    scr := 4, acc := 2, index := 0, x := 0, y := 0, z := 0, cluster := 0, cx := 0, cy := 0, cw := 1, ch := 1
    code := BitVec.ofNat 64 loadVa, live := 0, mstream := BitVec.ofNat 64 loadVa, rows := 640, ngroups := 1
    windows := [], groups := [loadGroup], stream := some { pc := BitVec.ofNat 64 loadVa }, place := .running, placedAt := now
    begun := true }

/-- Place one instruction, given by its 128 bits, for the next step to fetch. -/
def State.loadWord (s : State) (w : Nat) : State :=
  let c := s.freeContext
  let t := s.freeTeam
  let s := (s.loadTablesInto).setBytes (s.local loadVa) (leBytes 16 w)
  let turn := if isRow6 (BitVec.ofNat 7 (w / 8)) then Turn.stream t else .lane t 0
  let s : State := { s with
    contexts := s.contexts ++ [{ num := c, root := loadTables, hva := 0, partition := 0 }]
    teams := s.teams ++ [loadTeam t c s.gtime], nextId := t + 1, agenda := turn :: s.agenda }
  (s.dropCode 0 0 c).onCore 0 0 fun x => { x with rr := [0, 0, 0, 0], lastIssue := [0, 0, 0, 0] }

end Sys2Proof.Machine
end

