-- ==== Sys2Proof/Machine/Step.lean ====
section
/-! DEFINITION. One step of the machine: the next turn of the agenda, or the machine's own where it names none. -/

namespace Sys2Proof.Machine

/-- One step. -/
def step (s : State) : Host.Outcome State Fault Refusal :=
  match s.agenda with
  | x :: r => takeTurn x { s with agenda := r }
  | [] => takeTurn s.ownTurn { s with turn := s.turn + 1 }

/-- The state with an instruction placed where the next step fetches (log 9). -/
def State.withFetchWord (s : State) (nbits w : Nat) : State := s.loadWord (w % 2 ^ nbits)

end Sys2Proof.Machine
end

