-- ==== Sys2Proof/Safety.lean ====
section
/-! DEFINITION. What counts as a safe run, and the terms in which the statements speak: a bundle and a word under issue, what an
instruction leaves alone, the canonical form of memory, and the invariant that every step keeps. -/

namespace Sys2Proof.Machine

/-- The canonical form of memory: addresses strictly rising, and no entry equal to what an unlisted address reads as. -/
def Memory.wf (m : SMap Byte) : Bool := SMap.wf 0#8 m

/-- What every step keeps: memory is canonical, and the package has its eight dies (R13). -/
structure State.Inv (s : State) : Prop where
  mem : Memory.wf s.mem = true
  dies : s.dies.length = 8

/-- The machine goes on: it ends neither in a fault nor in a refusal. -/
def Answers (r : Result) : Prop := ∃ s', r = .next s'

/-- A run of `n` steps that never stops. -/
def SafeRun (n : Nat) (s : State) : Prop := Answers (Host.Core.run Sys2Proof.core n s)

/-! ### Issuing -/

/-- A bundle of group `g` of team `t` is under issue, and its lanes are live lanes of the group (R64, R65). -/
structure Issuing (s : State) (t : Team) (g : Group) : Prop where
  bundle : s.bundle? = some (t, g)
  live : s.cur.lanes &&& ~~~g.live = 0

/-- The stream of team `t` is at a word (R276). -/
def AtWord (s : State) (t : Team) (m : Stream) : Prop := s.word? = some (t, m)

/-- Every byte of memory reads as before. -/
def SameMemory (s s' : State) : Prop := ∀ a, s'.byte a = s.byte a

/-- What a lane instruction that acts on its own group alone leaves: group `g` of team `t` has become `g'`, every byte of memory
reads as before, and every other group and team, and every field of the state but the teams and the counter of fresh ids, is as
before. -/
structure OwnGroup (s s' : State) (t : Team) (g g' : Group) : Prop where
  state : s' = { s with teams := s'.teams, nextId := s'.nextId }
  bytes : SameMemory s s'
  team : ∀ tid, tid ≠ t.id → s'.team? tid = s.team? tid
  others : ∀ n, n ≠ g.num → s'.group? t.id n = s.group? t.id n
  rest : s'.team? t.id = some { t with groups := (t.setGroup g').groups }
  group : s'.group? t.id g.num = some g'

/-- What a register operation leaves of its group: registers outside `rs` and predicates outside `ps` are as before, the flags too
unless `fl`, and every other field but the frontier, the park and the windows of pending results; what a parked instruction had kept for
itself is gone. -/
structure Group.Kept (g g' : Group) (rs ps : List Nat) (fl : Bool) : Prop where
  regs : ∀ r, r ∉ rs → g'.reg r = g.reg r
  preds : ∀ p, p ∉ ps → g'.pred p = g.pred p
  flags : fl = false → g'.fpflags = g.fpflags
  rest : g' = { g with regs := g'.regs, preds := g'.preds, fpflags := g'.fpflags, frontier := g'.frontier, park := g'.park
                       pending := g'.pending, due := false, publSeen := none, fbRead := none }

/-- The bundle of `c` has gone on to its sequential successor, with its priority (R66). -/
def Group.WentOn (g g' : Group) (c : Cur) : Prop :=
  g'.frontier = insertEntry (removeLanes g.frontier c.lanes)
    { pc := succPc c.pc c.len, prio := c.prio, lanes := c.lanes, handler := c.handler } ∧ g'.park = .none

/-- A trap of the bundle would enter the handler: the bundle is outside it and the slot is free (R260), every pending result of the
group has arrived (R259, step 1), the group waits in no line of an ownership entry, the team is no task of relief (R247), and the
record at HVA gives the code address `code`; reading it leaves the state `s1`. -/
structure CanTrap (s : State) (t : Team) (g : Group) (code : DWord) (s1 : State) : Prop where
  outside : s.cur.handler = false
  free : g.slot = none
  landed : g.pending.all Pending.isReady = true
  waits : g.waitEntries = []
  readable : g.hvaDenied = false
  depth : t.depth = 0
  record : s.handlerCode t.ctx = (.code code, s1)

/-- The bundle has taken the trap, precise at its instruction (R255, R259): the slot holds cause, length, PC, address, information,
priority and lanes; the lanes stand at the handler with priority 255; every pending result has landed, and the group's registers,
predicates and flags are otherwise as they were. -/
structure TookTrap (s s1 s' : State) (t : Team) (g g' : Group) (tr : Trap) (code : DWord) : Prop where
  state : s' = s1.put t g'
  slot : g'.slot = some { cause := causeWord tr.cause (s.cur.len / 4) false false, info := tr.info, pc := s.cur.pc, va := tr.va
                          prio := s.cur.prio, lanes := s.cur.lanes }
  frontier : g'.frontier = placeEntry { pc := code, prio := 255, lanes := s.cur.lanes, handler := true }
    (removeLanes g.landAll.frontier s.cur.lanes)
  rest : g' = { g.landAll with slot := g'.slot, frontier := g'.frontier, park := .none, due := false, hvaDenied := false
                               publSeen := none, fbRead := none }
  none : g.pending = [] → g'.regs = g.regs ∧ g'.preds = g.preds ∧ g'.fpflags = g.fpflags

/-- Issuing `i` raises the trap `tr`: wherever a trap can be taken, the next state is that of its entry. -/
def Raises (i : Instr) (s : State) (t : Team) (g : Group) (tr : Trap) : Prop :=
  ∀ code s1, CanTrap s t g code s1 → ∃ s' g', exec i s = .next s' ∧ TookTrap s s1 s' t g g' tr code

/-- Lane `l` of the group is at `pc`. -/
def Group.Stands (g : Group) (l : Nat) (pc : DWord) : Prop := ∃ e ∈ g.frontier, e.lanes.has l = true ∧ e.pc = pc

/-- The lanes of the bundle of `c` have moved, each to what `next` says with at most that priority (R66, R67), and a lane for which it
says nothing has ended; every other lane is where it was. -/
structure Group.Moved (g g' : Group) (c : Cur) (next : Nat → Option (DWord × BitVec 8)) : Prop where
  goes : ∀ l, l < 32 → c.lanes.has l = true → ∀ pc pr, next l = some (pc, pr) →
    ∃ e ∈ g'.frontier, e.lanes.has l = true ∧ e.pc = pc ∧ e.handler = c.handler ∧ e.prio.toNat ≤ pr.toNat
  ends : ∀ l, l < 32 → c.lanes.has l = true → next l = none → ∀ pc, ¬ g'.Stands l pc
  stays : ∀ l, l < 32 → c.lanes.has l = false → ∀ pc, g'.Stands l pc ↔ g.Stands l pc
  park : g'.park = .none

/-- Registers, predicates and the group's special registers are as before. -/
structure Group.SameValues (g g' : Group) : Prop where
  regs : ∀ r, g'.reg r = g.reg r
  preds : ∀ p, g'.pred p = g.pred p
  special : g'.fpflags = g.fpflags ∧ g'.paramoob = g.paramoob ∧ g'.seed = g.seed ∧ g'.lpart = g.lpart
  own : g'.num = g.num ∧ g'.rows = g.rows ∧ g'.fifo = g.fifo

end Sys2Proof.Machine
end

