-- ==== Sys2Proof/Certificates/Slice0/Obligations.lean ====
section
/-! DEFINITION. The statements for the provers. Each docstring names the rules of the spec that the statement rests on. -/

open Sys2Proof Sys2Proof.Machine

namespace Sys2Proof.Machine

/-! ### Terms for the register operations -/

/-- The instructions that read registers, predicates and special lane state and write registers, predicates and flags at issue. -/
def registerOp : Instr → Option (Guard × (Team → Group → Mask → Out))
  | .cvt o => some (o.g, cvtOut o)
  | .shflIdx o => some (o.g, shflOut .idx o) | .shflUp o => some (o.g, shflOut .up o)
  | .shflDown o => some (o.g, shflOut .down o) | .shflXor o => some (o.g, shflOut .xor o)
  | .lsend o => some (o.g, lsendOut o)
  | .voteAny o => some (o.g, voteOut .any o) | .voteAll o => some (o.g, voteOut .all o)
  | .voteUni o => some (o.g, voteOut .uni o) | .voteBallot o => some (o.g, ballotOut o)
  | .redxAdd o => some (o.g, redxOut .add o) | .redxMin o => some (o.g, redxOut .min o)
  | .redxMax o => some (o.g, redxOut .max o) | .redxAnd o => some (o.g, redxOut .and o)
  | .redxOr o => some (o.g, redxOut .or o) | .redxXor o => some (o.g, redxOut .xor o)
  | .scanAdd o => some (o.g, scanOut .add o) | .scanMin o => some (o.g, scanOut .min o)
  | .scanMax o => some (o.g, scanOut .max o) | .scanAnd o => some (o.g, scanOut .and o)
  | .scanOr o => some (o.g, scanOut .or o) | .scanXor o => some (o.g, scanOut .xor o)
  | .matchAny o => some (o.g, matchAnyOut o) | .matchAll o => some (o.g, matchAllOut o)
  | i => pairOut i

/-- The instructions that may set a flag of `sr.fpflags` (R134, R354): those with a floating-point element. -/
def Instr.mayFlag : Instr → Bool
  | .fadd _ | .fmul _ | .ffma _ | .fmin _ | .fmax _ | .fcmp _ | .frnd _ | .fdot _ => true
  | .cvt o => o.sty.isFloat || o.ty.isFloat
  | .redxAdd o | .redxMin o | .redxMax o | .redxAnd o | .redxOr o | .redxXor o => o.ty == .f32
  | .scanAdd o | .scanMin o | .scanMax o | .scanAnd o | .scanOr o | .scanXor o => o.ty == .f32
  | _ => false

/-- The low bits of a value that a register or pair of the type holds. -/
def lowBits (ty : Ty) (x : DWord) : DWord := if ty.is64 then x else (loHalf x).setWidth 64

/-- Destination `d` of a type holds `f` in the active lanes and what it held in the other live lanes. -/
def Group.Holds (g g' : Group) (m : Mask) (ty : Ty) (d : VR) (f : Nat → DWord) : Prop :=
  ∀ l, l < 32 → g.live.has l = true → g'.typed ty d l = if m.has l then lowBits ty (f l) else g.typed ty d l

/-- Predicate `p` holds `f` in the active lanes and what it held in the others; `p7` stays true (R82). -/
def Group.HoldsPred (g g' : Group) (m : Mask) (p : Nat) (f : Nat → Bool) : Prop :=
  ∀ l, l < 32 → (g'.pred p).has l = if m.has l && p != 7 then f l else (g.pred p).has l

/-- The register operation `i` completes wherever its results find their rows (R81), and then `Q` relates its group before and
after and its active lanes. -/
def Completes (i : Instr) (Q : Group → Group → Mask → Prop) : Prop :=
  ∀ gd op s t g, registerOp i = some (gd, op) → Issuing s t g →
    g.poolTraps (op t g (g.active gd s.cur.lanes)).regs = [] →
    ∃ s' g', exec i s = .next s' ∧ s'.group? t.id g.num = some g' ∧ Q g g' (g.active gd s.cur.lanes)

/-- The operation writes `f` to destination `d` of type `ty`. -/
def Writes (i : Instr) (ty : Ty) (d : VR) (f : Group → Mask → Nat → DWord) : Prop :=
  Completes i fun g g' m => g.Holds g' m ty d (f g m)

/-- The operation writes `f` to predicate `p`. -/
def WritesPred (i : Instr) (p : Nat) (f : Group → Mask → Nat → Bool) : Prop :=
  Completes i fun g g' m => g.HoldsPred g' m p (f g m)

/-- R80's table: the shape of a result that covers all lanes, of no general source; `a`: some source is affine. -/
def Group.tableShape (g : Group) (i : Instr) (a : Bool) : Shape :=
  let isAffine := fun (b : Src) => match b with | .reg r => (g.reg r.toNat).shape == .affine | _ => false
  let linear := fun (b : Bool) => if a = false then Shape.uniform else if b then .affine else .general
  match i with
  | .iadd o | .isub o => linear (wraps32 o.ty && !o.sat && !o.hi)
  | .imul o => linear (wraps32 o.ty && !o.sat && !o.hi && !(isAffine (.reg o.a) && isAffine o.b))
  | .imad o => linear (wraps32 o.ty && !o.sat && !(isAffine (.reg o.a) && isAffine (.reg o.b)))
  | .lea o => linear (o.ty == .n32)
  | .shl o => linear (o.ty == .b32 && !(isAffine o.b))
  | .mov o => linear (!o.ty.is64)
  | .aff _ => .affine
  | .shflIdx _ | .shflUp _ | .shflDown _ | .shflXor _ | .lsend _ | .matchAny _ => .general
  | .scanAdd _ | .scanMin _ | .scanMax _ | .scanAnd _ | .scanOr _ | .scanXor _ => .general
  | .redxAdd _ | .redxMin _ | .redxMax _ | .redxAnd _ | .redxOr _ | .redxXor _ | .voteBallot _ =>
    if g.lpart = 5 then .uniform else .general
  | .sel o => if o.p = 7 then linear false else .general
  | _ => linear false

/-- REDX, whose entry gives its result's shape whatever its source's is (R456). -/
def isRedx : Instr → Bool
  | .redxAdd _ | .redxMin _ | .redxMax _ | .redxAnd _ | .redxOr _ | .redxXor _ => true
  | _ => false

end Sys2Proof.Machine

/-! ### Register operations -/

/-- Every register operation completes wherever its results find their rows. It changes nothing but its own group: there the
registers and predicates that its entry names as written, the flags only where it has floating-point elements (R354), and its
bundle goes on to the sequential successor (R66). -/
def Obligations.RegisterOperationsFrame : Prop :=
  ∀ i gd op s t g, registerOp i = some (gd, op) → Issuing s t g →
    g.poolTraps (op t g (g.active gd s.cur.lanes)).regs = [] →
    ∃ s' g', exec i s = .next s' ∧ OwnGroup s s' t g g' ∧ g.Kept g' i.uses.rd i.uses.pd (Instr.mayFlag i) ∧ g.WentOn g' s.cur

/-- R79: a tag never changes a value: whatever shape a register operation's result takes, every live lane reads back the operation's own
value of that lane where it is active and the old element where it is not. R80: the result is general where the write does not cover
all lanes, or a source is general, and otherwise as the table says; REDX is judged by its own entry (R456), also of a general
source, which is the model's choice between the two rules (log 25), and a SEL by a predicate counts the predicate as a general
source (R464). -/
def Obligations.ShapesKeepValues : Prop :=
  ∀ i gd op s t g w, registerOp i = some (gd, op) → Issuing s t g → let m := g.active gd s.cur.lanes
    w ∈ (op t g m).regs →
      (∀ l, l < 32 → g.live.has l = true →
        ((g.reg w.reg).write m w).elem l = if m.has l then w.vals.getD l 0 else g.elem w.reg l)
      ∧ w.shape = (if m ≠ g.live then .general
          else if isRedx i = false ∧ ∃ r ∈ i.uses.rs, (g.reg r).shape = .general then .general
          else g.tableShape i (i.uses.rs.any fun r => (g.reg r).shape == .affine))

/-- REGPOOL (R81): a register operation whose results find no row takes the trap on its whole bundle, with the lowest such register
in `sr.trapinfo`, and no register changes. -/
def Obligations.RegpoolTrap : Prop :=
  ∀ i gd op s t g code s1 r, registerOp i = some (gd, op) → Issuing s t g → CanTrap s t g code s1 →
    g.poolFail ((op t g (g.active gd s.cur.lanes)).regs.map fun w => (w.reg, w.shape)) = some r →
    ∃ s' g', exec i s = .next s' ∧ TookTrap s s1 s' t g g' { cause := 6, info := BitVec.ofNat 32 r, va := 0 } code

/-- R406 on elements: IADD, ISUB, IMUL, IMIN, IMAX with `.hi`, `.sat` or wrapping, IMAD and IABS. -/
def Obligations.IntegerArithmetic : Prop :=
  (∀ (o : IntOp) (i : Instr) (f : Int → Int → Int),
    (i, f) ∈ [(.iadd o, (· + ·)), (.isub o, (· - ·)), (.imul o, (· * ·)), (.imin o, min), (.imax o, max)] →
    Completes i fun g g' m => ∀ l, l < 32 → m.has l = true → ∀ j, j < o.ty.count →
      elemNat o.ty (g'.typed o.ty o.d l) j
        = narrowInt o.ty o.sat o.hi (f (elemInt o.ty (g.typed o.ty o.a l) j) (elemInt o.ty (g.src o.ty o.b l) j)) % 2 ^ o.ty.width)
  ∧ (∀ o : MadOp, Completes (.imad o) fun g g' m => ∀ l, l < 32 → m.has l = true → ∀ j, j < o.ty.count →
      elemNat o.ty (g'.typed o.ty o.d l) j
        = narrowInt o.ty o.sat false
            (elemInt o.ty (g.typed o.ty o.a l) j * elemInt o.ty (g.typed o.ty o.b l) j
              + elemInt o.ty (g.typed o.ty (o.c.getD o.d) l) j) % 2 ^ o.ty.width)
  ∧ (∀ o : AbsOp, Completes (.iabs o) fun g g' m => ∀ l, l < 32 → m.has l = true → ∀ j, j < o.ty.count →
      elemNat o.ty (g'.typed o.ty o.d l) j
        = narrowInt o.ty o.sat false ((elemInt o.ty (g.typed o.ty o.a l) j).natAbs : Nat) % 2 ^ o.ty.width)

/-- R408: ICMP writes the truth of the comparison in each active lane, signed or natural by the type, under the predicate rules of
R82, and sets no flag. -/
def Obligations.IntegerCompare : Prop :=
  ∀ o : CmpOp, WritesPred (.icmp o) o.p.toNat (fun g _ l =>
      let a := elemInt o.ty (g.typed o.ty o.a l) 0
      let b := elemInt o.ty (g.src o.ty o.b l) 0
      match o.cc.toNat with
      | 0 => decide (a = b)
      | 1 => decide (a ≠ b)
      | 2 => decide (a < b)
      | 3 => decide (a ≤ b)
      | 4 => decide (b < a)
      | _ => decide (b ≤ a))
    ∧ Completes (.icmp o) fun g g' _ => g'.fpflags = g.fpflags

/-- R356, R414, R464, R425: LEA shifts and adds its index, AFF adds lane number times lane 0's stride, SEL chooses by its predicate,
MOV copies. -/
def Obligations.AddressAndSelect : Prop :=
  (∀ o : LeaOp, Writes (.lea o) o.ty o.d fun g _ l =>
    g.typed o.ty o.a l
      + ((if o.ty = .s64 then (g.src32 o.b l).signExtend 64 else (g.src32 o.b l).setWidth 64) <<< o.sh.toNat))
  ∧ (∀ o : BinOp, Writes (.aff o) .b32 o.d fun g _ l =>
    (g.elem o.a.toNat l + g.src32 o.b 0 * BitVec.ofNat 32 l).setWidth 64)
  ∧ (∀ o : SelOp, Writes (.sel o) o.ty o.d fun g _ l =>
    if (g.pred o.p.toNat).has l then g.typed o.ty o.a l else g.src o.ty o.b l)
  ∧ (∀ o : MovOp, Writes (.mov o) o.ty o.d fun g _ l => g.src o.ty o.b l)

/-- R357, R429, R488, R428, R468, R430, R376, R372: the logical operations, shifts and rotations, and the counts. -/
def Obligations.BitOperations : Prop :=
  (∀ o : BinOp, Writes (.and o) o.ty o.d fun g _ l => g.typed o.ty o.a l &&& g.src o.ty o.b l)
  ∧ (∀ o : BinOp, Writes (.or o) o.ty o.d fun g _ l => g.typed o.ty o.a l ||| g.src o.ty o.b l)
  ∧ (∀ o : BinOp, Writes (.xor o) o.ty o.d fun g _ l => g.typed o.ty o.a l ^^^ g.src o.ty o.b l)
  ∧ (∀ o : UnOp, Writes (.not o) o.ty o.d fun g _ l => ~~~(g.typed o.ty o.a l))
  ∧ (∀ o : BinOp, Writes (.shl o) o.ty o.d fun g _ l =>
    if (g.src32 o.b l).toNat ≥ o.ty.width then 0 else g.typed o.ty o.a l <<< (g.src32 o.b l).toNat)
  ∧ (∀ o : BinOp, Writes (.shr o) o.ty o.d fun g _ l =>
    let k := (g.src32 o.b l).toNat
    let n := (g.typed o.ty o.a l).toNat % 2 ^ o.ty.width
    if o.ty.signed then BitVec.ofNat 64 (wrapInt o.ty.width (sint o.ty.width n / (2 ^ min k (o.ty.width - 1) : Nat)))
    else if k ≥ o.ty.width then 0 else BitVec.ofNat 64 (n / 2 ^ k))
  ∧ (∀ o : RotOp, Writes (.rot o) o.ty o.d fun g _ l =>
    let k0 := (g.src32 o.b l).toNat % o.ty.width
    let k := if o.right then (o.ty.width - k0) % o.ty.width else k0
    let n := (g.typed o.ty o.a l).toNat % 2 ^ o.ty.width
    BitVec.ofNat 64 ((n * 2 ^ k + n / 2 ^ (o.ty.width - k)) % 2 ^ o.ty.width))
  ∧ (∀ o : UnOp, Writes (.clz o) .b32 o.d fun g _ l =>
    let n := (g.typed o.ty o.a l).toNat % 2 ^ o.ty.width
    BitVec.ofNat 64 (if n = 0 then o.ty.width else o.ty.width - 1 - Nat.log2 n))
  ∧ (∀ o : UnOp, Writes (.popc o) .b32 o.d fun g _ l =>
    BitVec.ofNat 64 ((List.range o.ty.width).countP fun i => (g.typed o.ty o.a l).getLsbD i))
  ∧ (∀ o : UnOp, Completes (.brev o) fun g g' m => ∀ l, l < 32 → m.has l = true → ∀ i, i < o.ty.width →
    (g'.typed o.ty o.d l).getLsbD i = (g.typed o.ty o.a l).getLsbD (o.ty.width - 1 - i))

/-- R436: PLOP writes the bit of its table that its three source predicates select. -/
def Obligations.PredicateLogic : Prop :=
  ∀ o : PlopOp, WritesPred (.plop o) o.d.toNat fun g _ l =>
    o.lut.getLsbD ((if (g.pred o.a.toNat).has l then 1 else 0) + 2 * (if (g.pred o.b.toNat).has l then 1 else 0)
      + 4 * (if (g.pred o.c.toNat).has l then 1 else 0))

/-- R365 to R367, R384: BFX and BFI take the effective field of their control word, ILV and DLV interleave bits. -/
def Obligations.BitFields : Prop :=
  (∀ o : BinOp, Writes (.bfx o) o.ty o.d fun g _ l =>
    let w := o.ty.width
    let c := (g.src32 o.b l).toNat
    let p := min (c % 256) w
    let n := min (c / 256 % 256) (w - p)
    let f := (g.typed o.ty o.a l).toNat % 2 ^ w / 2 ^ p % 2 ^ n
    BitVec.ofNat 64 (if o.ty.signed ∧ 0 < n then wrapInt w (sint n f) else f))
  ∧ (∀ o : BfiOp, Completes (.bfi o) fun g g' m => ∀ l, l < 32 → m.has l = true → ∀ i, i < o.ty.width →
    let c := (g.src32 o.ctl l).toNat
    let p := min (c % 256) o.ty.width
    let n := min (c / 256 % 256) (o.ty.width - p)
    (g'.typed o.ty o.d l).getLsbD i
      = if p ≤ i ∧ i < p + n then (g.typed o.ty o.a l).getLsbD (i - p) else (g.typed o.ty o.c l).getLsbD i)
  ∧ (∀ o : IlvOp, Completes (.ilv o) fun g g' m => ∀ l, l < 32 → m.has l = true → ∀ b, b < o.ty.width / 2 →
    (g'.typed o.ty o.d l).getLsbD (2 * b) = (g.elem o.a.toNat l).getLsbD b
      ∧ (g'.typed o.ty o.d l).getLsbD (2 * b + 1) = (g.elem o.b.toNat l).getLsbD b)
  ∧ (∀ o : UnOp, o.ty = .b32 ∨ o.ty = .b64 →
    Completes (.dlv o) fun g g' m => ∀ l, l < 32 → m.has l = true → ∀ b, b < 32 →
    (g'.elem o.d.toNat l).getLsbD b = (decide (b < o.ty.width / 2) && (g.typed o.ty o.a l).getLsbD (2 * b))
      ∧ (g'.elem (o.d.toNat + 1) l).getLsbD b = (decide (b < o.ty.width / 2) && (g.typed o.ty o.a l).getLsbD (2 * b + 1)))

/-- R387: FADD and FMUL of f32 round the exact sum or product once, with one rounding for FFMA; a NaN operand, inf − inf and
0 × inf give the canonical NaN; flags of active lanes are added to those that stand (R87, R134). -/
def Obligations.FloatArithmetic : Prop :=
  (∀ o : FltOp, Completes (.fadd o) fun g g' m => ∀ l, l < 32 → m.has l = true → ∀ j, j < o.ty.count →
    let f := fmtOf o.ty
    let x := Machine.Num.add (RMode.ofCode o.rnd.toNat).isRdn (Machine.Num.decode f (elemNat o.ty (g.typed o.ty o.a l) j))
      (Machine.Num.decode f (elemNat o.ty (fltSrc g o.ty o.b l) j))
    elemNat o.ty (g'.typed o.ty o.d l) j
      = (roundTo f (RMode.ofCode o.rnd.toNat) x.1).1 % 2 ^ o.ty.width)
  ∧ (∀ o : FltOp, Completes (.fmul o) fun g g' m => ∀ l, l < 32 → m.has l = true → ∀ j, j < o.ty.count →
    let f := fmtOf o.ty
    let x := Machine.Num.mul (Machine.Num.decode f (elemNat o.ty (g.typed o.ty o.a l) j)) (Machine.Num.decode f (elemNat o.ty (fltSrc g o.ty o.b l) j))
    elemNat o.ty (g'.typed o.ty o.d l) j
      = (roundTo f (RMode.ofCode o.rnd.toNat) x.1).1 % 2 ^ o.ty.width)
  ∧ (∀ o : FmaOp, Completes (.ffma o) fun g g' m => ∀ l, l < 32 → m.has l = true → ∀ j, j < o.ty.count →
    let f := fmtOf o.ty
    let p := Machine.Num.mul (Machine.Num.decode f (elemNat o.ty (g.typed o.ty o.a l) j)) (Machine.Num.decode f (elemNat o.ty (g.typed o.ty o.b l) j))
    let x := Machine.Num.add (RMode.ofCode o.rnd.toNat).isRdn p.1 (Machine.Num.decode f (elemNat o.ty (g.typed o.ty (o.c.getD o.d) l) j))
    elemNat o.ty (g'.typed o.ty o.d l) j
      = (roundTo f (RMode.ofCode o.rnd.toNat) x.1).1 % 2 ^ o.ty.width)
  ∧ (∀ (i : Instr) (o : FltOp), i ∈ [.fadd o, .fmul o, .fmin o, .fmax o] → Completes i fun g g' m =>
    (g.fpflags &&& ~~~g'.fpflags = 0) ∧ (m = 0 → g'.fpflags = g.fpflags))

/-- R388: FMIN and FMAX give the other operand bit for bit where exactly one is NaN, the canonical NaN where both are, and otherwise
one of the two that no other operand passes, −0 ordering below +0. R392: FCMP writes the truth of its condition; `.eq` to `.ge` but
`.ne` are false where an operand is NaN, and `.num` and `.nan` tell whether one is. -/
def Obligations.FloatMinMaxCompare : Prop :=
  (∀ (o : FltOp) (i : Instr) (mx : Bool), (i, mx) ∈ [(.fmin o, false), (.fmax o, true)] → o.ty = .f32 ∨ o.ty = .f64 →
    Completes i fun g g' m => ∀ l, l < 32 → m.has l = true →
      let a := (g.typed o.ty o.a l).toNat
      let b := (fltSrc g o.ty o.b l).toNat
      let y := (g'.typed o.ty o.d l).toNat
      let x := Machine.Num.decode (fmtOf o.ty)
      ((x a).isNan = true → (x b).isNan = true → y = (fmtOf o.ty).nan)
      ∧ ((x a).isNan = true → (x b).isNan = false → y = b % 2 ^ o.ty.width)
      ∧ ((x a).isNan = false → (x b).isNan = true → y = a % 2 ^ o.ty.width)
      ∧ ((x a).isNan = false → (x b).isNan = false →
          (Machine.Num.lt (x a) (x b) = true → y = (if mx then b % 2 ^ o.ty.width else a % 2 ^ o.ty.width))
          ∧ (Machine.Num.lt (x b) (x a) = true → y = (if mx then a % 2 ^ o.ty.width else b % 2 ^ o.ty.width))
          ∧ (Machine.Num.eq (x a) (x b) = true → (x a).isNeg ≠ (x b).isNeg → (Machine.Num.decode (fmtOf o.ty) y).isNeg = !mx)))
  ∧ (∀ o : CmpOp, o.ty = .f32 ∨ o.ty = .f64 → WritesPred (.fcmp o) o.p.toNat fun g _ l =>
    let x := Machine.Num.decode (fmtOf o.ty) (g.typed o.ty o.a l).toNat
    let y := Machine.Num.decode (fmtOf o.ty) (fltSrc g o.ty o.b l).toNat
    let nan := x.isNan || y.isNan
    match o.cc.toNat with
    | 0 => !nan && !(Machine.Num.lt x y) && !(Machine.Num.lt y x)
    | 1 => nan || Machine.Num.lt x y || Machine.Num.lt y x
    | 2 => !nan && Machine.Num.lt x y
    | 3 => !nan && !(Machine.Num.lt y x)
    | 4 => !nan && Machine.Num.lt y x
    | 5 => !nan && !(Machine.Num.lt x y)
    | 6 => !nan
    | _ => nan)


/-- R402, R389, R380: FRND gives an integral value of the operand's sign and keeps zeros and infinities; FDOT of a NaN accumulator
gives the canonical NaN; CVT of a NaN to an integer gives 0, and CVT between integers wraps, or saturates under `.sat`. -/
def Obligations.RoundDotConvert : Prop :=
  (∀ o : RndOp, o.ty = .f32 ∨ o.ty = .f64 → Completes (.frnd o) fun g g' m => ∀ l, l < 32 → m.has l = true →
    let a := (g.typed o.ty o.a l).toNat
    let y := (g'.typed o.ty o.d l).toNat
    match Machine.Num.decode (fmtOf o.ty) a with
    | .nan => y = (fmtOf o.ty).nan
    | .inf _ => y = a
    | .fin n m e => y = (roundNE (fmtOf o.ty) (.fin n (roundInt (RMode.ofCode o.rnd.toNat) n m e).1.natAbs 0)) % 2 ^ o.ty.width)
  ∧ (∀ o : DotOp, Completes (.fdot o) fun g g' m => ∀ l, l < 32 → m.has l = true →
    (Machine.Num.decode .f32 (g.elem o.d.toNat l).toNat).isNan = true → g'.elem o.d.toNat l = 0x7FC00000#32)
  ∧ (∀ o : CvtOp, o.sty = .f32 → o.ty = .s32 ∨ o.ty = .n32 → Completes (.cvt o) fun g g' m => ∀ l, l < 32 → m.has l = true →
    (Machine.Num.decode .f32 (g.elem o.a.toNat l).toNat).isNan = true → g'.elem o.d.toNat l = 0 ∧ g'.fpflags.getLsbD 0 = true)
  ∧ (∀ o : CvtOp, o.sty = .s32 ∨ o.sty = .n32 → o.ty = .s32 ∨ o.ty = .n32 → Completes (.cvt o) fun g g' m =>
    ∀ l, l < 32 → m.has l = true →
      let x : Int := if o.sty = .s32 then (g.elem o.a.toNat l).toInt else ((g.elem o.a.toNat l).toNat : Int)
      g'.elem o.d.toNat l = BitVec.ofInt 32 (if o.sat then satInt (o.ty == .s32) 32 x else x))

/-- R466, R420: SHFL reads the named lane of its tile, active or not; LSEND delivers the value of the highest-numbered active lane
that names a lane, and an active lane that none names keeps its value; both results are general. -/
def Obligations.LaneMoves : Prop :=
  (∀ (o : BinOp) (i : Instr) (src : Nat → Nat → Nat → Nat),
    (i, src) ∈ [(.shflIdx o, fun s l b => l - l % s + b % s),
                (.shflUp o, fun s l b => if l % s ≥ b then l - b else l),
                (.shflDown o, fun s l b => if l % s + b < s then l + b else l),
                (.shflXor o, fun s l b => l - l % s + ((l % s) ^^^ (b % s)))] →
    Writes i o.ty o.d (fun g _ l => g.typed o.ty o.a (src (2 ^ g.lpart.toNat) l (g.src32 o.b l).toNat))
      ∧ Completes i fun _ g' _ => (g'.reg o.d.toNat).shape = .general)
  ∧ (∀ o : BinOp, Completes (.lsend o) fun g g' m => ∀ l, l < 32 → m.has l = true →
      let names := fun k => m.has k = true ∧ lsendTarget g o.b k = l
      (∀ k, k < 32 → names k → (∀ j, j < 32 → names j → j ≤ k) → g'.typed o.ty o.d l = lowBits o.ty (g.typed o.ty o.a k))
      ∧ ((∀ k, k < 32 → ¬ names k) → g'.typed o.ty o.d l = lowBits o.ty (g.typed o.ty o.d l)))

/-- R484: VOTE combines the source bits of the active lanes of each tile; in `f v a`, `v` is the set of the active lanes that hold the bit
and `a` that of all active lanes. The ballot is uniform where it covers the group as one tile (R80), general otherwise. -/
def Obligations.Votes : Prop :=
  let tile := fun (g : Group) (m : Mask) (l : Nat) => Mask.ofPred fun k => m.has k && k / 2 ^ g.lpart.toNat == l / 2 ^ g.lpart.toNat
  (∀ (o : VoteOp) (i : Instr) (f : Mask → Mask → Bool),
    (i, f) ∈ [(.voteAny o, fun v _ => v != 0), (.voteAll o, fun v a => v == a), (.voteUni o, fun v a => v == 0 || v == a)] →
    WritesPred i o.p.toNat fun g m l => f (g.pred o.a.toNat &&& tile g m l) (tile g m l))
  ∧ (∀ o : BallotOp, Writes (.voteBallot o) .b32 o.d fun g m l => (g.pred o.a.toNat &&& tile g m l).setWidth 64)
  ∧ (∀ o : BallotOp, Completes (.voteBallot o) fun g g' m =>
      (g'.reg o.d.toNat).shape = if m = g.live ∧ g.lpart = 5 then .uniform else .general)

/-- R456, R462, R422: REDX gives every active lane of a tile the combination of the tile's active lanes in ascending order; SCAN the
combination of those up to it, or below it under `.excl`, from the identity; MATCH compares whole values within the tile. -/
def Obligations.ReduceScanMatch : Prop :=
  (∀ (o : UnOp) (i : Instr) (fn : RedFn), (i, fn) ∈ [(.redxAdd o, .add), (.redxMin o, .min), (.redxMax o, .max), (.redxAnd o, .and),
      (.redxOr o, .or), (.redxXor o, .xor)] →
    Writes i o.ty o.d fun g m l =>
      match (g.tileLanes m l).map fun k => g.typed o.ty o.a k with
      | [] => 0
      | x :: r => r.foldl (fun a b => (redStep fn o.ty a b).1) x)
  ∧ (∀ (o : ScanOp) (i : Instr) (fn : RedFn), (i, fn) ∈ [(.scanAdd o, .add), (.scanMin o, .min), (.scanMax o, .max),
      (.scanAnd o, .and), (.scanOr o, .or), (.scanXor o, .xor)] →
    Writes i o.ty o.d fun g m l =>
      (((g.tileLanes m l).filter fun k => k < l || (!o.excl && k == l)).map fun k => g.typed o.ty o.a k).foldl
        (fun a b => (redStep fn o.ty a b).1) (redIdentity fn o.ty))
  ∧ (∀ o : UnOp, Completes (.matchAny o) fun g g' m => ∀ l, l < 32 → m.has l = true → ∀ k, k < 32 →
      ((g'.elem o.d.toNat l).getLsbD k = true ↔
        m.has k = true ∧ k / 2 ^ g.lpart.toNat = l / 2 ^ g.lpart.toNat ∧ g.typed o.ty o.a k = g.typed o.ty o.a l))
  ∧ (∀ o : MatchAllOp, WritesPred (.matchAll o) o.p.toNat fun g m l =>
      laneList.all fun k => !(m.has k) || k / 2 ^ g.lpart.toNat != l / 2 ^ g.lpart.toNat
        || g.typed o.ty o.a k == g.typed o.ty o.a l)

/-! ### Long-latency results -/

/-- R109 to R111: a transcendental reads its source at issue and leaves a pending result with a window of LA instructions in every
lane; until it lands every register reads as before and no flag has changed. -/
def Obligations.TranscendentalIssues : Prop :=
  ∀ (o : TransOp) (i : Instr) (f : Fmt → Nat → Nat × FpFlags),
    (i, f) ∈ [(.frcp o, frcpVal), (.frsq o, frsqVal), (.fsqrt o, fsqrtVal), (.fexp2 o, fun _ => fexp2Val),
      (.flog2 o, fun _ => flog2Val), (.fsin o, fun _ => fsinVal false), (.fcos o, fun _ => fsinVal true),
      (.ftanh o, fun _ => ftanhVal)] →
    ∀ s t g, Issuing s t g → let m := g.active o.g s.cur.lanes
      g.poolTraps (transOut f o t g m).regs = [] →
      ∃ s' g' p, exec i s = .next s' ∧ OwnGroup s s' t g g' ∧ g.WentOn g' s.cur
        ∧ g'.pending = (g.tickWindows s.cur.lanes).pending ++ [p]
        ∧ p.isReady = true ∧ p.bundle = s.cur.lanes ∧ p.active = m ∧ p.regs = Uses.ofTy o.ty o.d ∧ p.preds = []
        ∧ (∀ l, l < 32 → p.win.getD l 0 = o.la.toNat)
        ∧ (∀ l, l < 32 → ∀ k, k < p.regs.length →
            p.word k l = BitVec.ofNat 32 ((f (fmtOf o.ty) (g.typed o.ty o.a l).toNat).1 % 2 ^ 64 / 2 ^ (32 * k)))
        ∧ (∀ r l, l < 32 → g'.elem r l = g.elem r l) ∧ (∀ q, g'.pred q = g.pred q) ∧ g'.fpflags = g.fpflags

/-- R110: a pending result whose value has arrived lands in all of its lanes at once: its registers take its words in its active lanes
that are live still (R385), and, unless it is uniform, keep their elements in the others; its predicates take its bits there, but `p7`;
its flags of those lanes are added (R135); no other register and no memory changes. -/
def Obligations.ResultLands : Prop :=
  ∀ s tid n id g p, s.group? tid n = some g → g.pending.find? (fun q => q.id == id) = some p → p.isReady = true → p.regs.Nodup →
    let live := p.active &&& g.live
    ∃ s' g', exec (.longLatencyResultLand tid n id) s = .next s' ∧ SameMemory s s' ∧ s'.group? tid n = some g'
      ∧ g'.pending = g.pending.filter (fun q => q.id != id) ∧ g'.frontier = g.frontier
      ∧ (p.uniform = false → ∀ k, k < p.regs.length → ∀ l, l < 32 →
          g'.elem (p.regs.getD k 0) l = if live.has l then p.word k l else g.elem (p.regs.getD k 0) l)
      ∧ (p.uniform = true → live ≠ 0 → ∀ k, k < p.regs.length → ∀ l,
          g'.elem (p.regs.getD k 0) l = p.word k (live.lowest.getD 0))
      ∧ (∀ q, q ∈ p.preds → q ≠ 7 → ∀ l, l < 32 → (g'.pred q).has l = if live.has l then p.pvals.has l else (g.pred q).has l)
      ∧ (∀ r, r ∉ p.regs → g'.reg r = g.reg r)
      ∧ (∀ q, q ∉ p.preds → g'.pred q = g.pred q)
      ∧ (∀ b, b < 5 → (g'.fpflags.getLsbD b = true ↔ g.fpflags.getLsbD b = true
          ∨ ∃ x ∈ p.flags, live.has x.1 = true ∧ x.2.getLsbD b = true))

/-- R112: a bundle inside the window of a pending result that touches one of its registers raises LOOKAHEAD at that instruction, with
the lowest such register in `sr.trapinfo`, whatever the instruction would have done. R113: a bundle with a lane beyond the window of
a pending result that has not arrived does not issue: the state is unchanged, but that the group parks where the result comes from an
access that a die's DRAM or a port holds (R342). -/
def Obligations.LookaheadWindows : Prop :=
  (∀ (s s1 : State) (t : Team) (g : Machine.Group) (e : Entry) (len : Nat) (i : Instr) (run : State → Result) (r : Nat) (code : DWord),
    g.deny = none → (∀ p ∈ g.pending, p.holds e.lanes [i] = false) →
    ((g.pending.filter fun p => p.inside e.lanes).flatMap fun p => p.regsNamed [i]).min? = some r →
    e.handler = false → g.slot = none → g.pending.all Pending.isReady = true → g.waitEntries = [] → g.hvaDenied = false →
    t.depth = 0 → s.handlerCode t.ctx = (.code code, s1) →
    ∃ s' g', s.issueBundle t g e len [i] run = .next s' ∧ s' = s1.put t g'
      ∧ g'.slot = some { cause := causeWord 3 (len / 4) false false, info := BitVec.ofNat 32 r, pc := e.pc, va := 0, prio := e.prio
                         lanes := e.lanes }
      ∧ g'.pending = [] ∧ ∀ l, l < 32 → e.lanes.has l = true → g'.Stands l code)
  ∧ (∀ (s : State) (t : Team) (g : Machine.Group) (e : Entry) (len : Nat) (is : List Instr) (run : State → Result) (p : Pending) (l : Nat),
    g.deny = none → p ∈ g.pending → p.isReady = false → l < 32 → e.lanes.has l = true → p.bundle.has l = true →
    p.win.getD l 0 = 0 → s.issueBundle t g e len is run = .next (if g.park = .none ∧ ∃ q ∈ g.pending, q.holds e.lanes is = true
      ∧ s.heldFor t g q = true then s.block t g .access else s))


/-! ### Lane partition and control flow -/

/-- R73: LPART is legal only where the frontier holds exactly one entry; in any other case it raises LPART_DIVERGED on the issuing
bundle and `sr.lpart` is unchanged. A bundle with no active lane only goes on. -/
def Obligations.LanePartition : Prop :=
  ∀ gd n s t g, Issuing s t g → let m := g.active gd s.cur.lanes
    (m ≠ 0 → g.frontier.length = 1 →
      ∃ s' g', exec (.lpart gd n) s = .next s' ∧ OwnGroup s s' t g g' ∧ g.WentOn g' s.cur ∧ g'.lpart = n
        ∧ (∀ r, g'.reg r = g.reg r) ∧ (∀ p, g'.pred p = g.pred p) ∧ g'.fpflags = g.fpflags)
    ∧ (m ≠ 0 → g.frontier.length ≠ 1 →
      Raises (.lpart gd n) s t g { cause := 5, info := BitVec.ofNat 32 g.frontier.length, va := 0 })
    ∧ (m = 0 → ∃ s' g', exec (.lpart gd n) s = .next s' ∧ OwnGroup s s' t g g' ∧ g.WentOn g' s.cur ∧ g.SameValues g')

/-- R371, R373: where every taken lane's target is legal (R98) and, under `.u`, all next PCs agree, the active lanes of BRA and BRX go
to their targets with at most the priority PRI, and the others to the sequential successor with at most their own. -/
def Obligations.BranchesMove : Prop :=
  let Moves := fun (i : Instr) (gd : Guard) (u : Bool) (s : State) (t : Team) (g : Machine.Group) (target : Nat → DWord) (pri : BitVec 8) =>
    let m := g.active gd s.cur.lanes
    let next := fun l => if m.has l then (target l, pri) else (succPc s.cur.pc s.cur.len, s.cur.prio)
    (∀ l, l < 32 → m.has l = true → legalTarget (target l) = true) →
    (u = true → ∀ l k, l < 32 → k < 32 → s.cur.lanes.has l = true → s.cur.lanes.has k = true → (next l).1 = (next k).1) →
    ∃ s' g', exec i s = .next s' ∧ OwnGroup s s' t g g' ∧ g.SameValues g' ∧ g'.links = g.links
      ∧ g.Moved g' s.cur fun l => some (next l)
  (∀ (o : BrOp) s t g, Issuing s t g → Moves (.bra o) o.g o.u s t g (fun _ => s.cur.pc + brBytes o.off) o.pri)
  ∧ (∀ (o : BrxOp) s t g, Issuing s t g → Moves (.brx o) o.g o.u s t g
      (fun l => s.cur.pc + o.off.signExtend 64 * 4 + (g.elem o.a.toNat l).setWidth 64 * 8) o.pri)

/-- R374, R457: CALL pushes PC + length and the caller's priority on the link stack of each active lane and goes to its target; RET pops it and goes there, past a block tail, with the saved priority. -/
def Obligations.CallsAndReturns : Prop :=
  (∀ (o : BrOp) s t g, Issuing s t g → let m := g.active o.g s.cur.lanes
    o.u = false → (∀ l, l < 32 → m.has l = true → (g.linkStack l).length < 8) → legalTarget (s.cur.pc + brBytes o.off) = true →
    ∃ s' g', exec (.call o) s = .next s' ∧ OwnGroup s s' t g g' ∧ g.SameValues g'
      ∧ (∀ l, l < 32 → g'.linkStack l = if m.has l then ⟨s.cur.pc + BitVec.ofNat 64 s.cur.len, s.cur.prio⟩ :: g.linkStack l else g.linkStack l)
      ∧ g.Moved g' s.cur fun l =>
          some (if m.has l then (s.cur.pc + brBytes o.off, o.pri) else (succPc s.cur.pc s.cur.len, s.cur.prio)))
  ∧ (∀ gd s t g (x : Nat → Link), Issuing s t g → let m := g.active gd s.cur.lanes
    (∀ l, l < 32 → m.has l = true → (g.linkStack l).head? = some (x l) ∧ legalTarget (retAddress (x l).ret) = true) →
    ∃ s' g', exec (.ret gd false) s = .next s' ∧ OwnGroup s s' t g g' ∧ g.SameValues g'
      ∧ (∀ l, l < 32 → g'.linkStack l = if m.has l then (g.linkStack l).drop 1 else g.linkStack l)
      ∧ g.Moved g' s.cur fun l =>
          some (if m.has l then (retAddress (x l).ret, (x l).prio) else (succPc s.cur.pc s.cur.len, s.cur.prio)))

/-- R371, R374, R457, R71: a CALL with a full link stack and a RET at depth 0 raise ILLEGAL with sub-code RESOURCE (0x0B), before a bad
target; a bad target of a taken lane raises sub-code TARGET (0x0D); a `.u` branch with legal targets whose next PCs differ raises
UNIFORMITY (cause 4) with the lanes that differ from the lowest. -/
def Obligations.BranchTraps : Prop :=
  (∀ (o : BrOp) s t g l, Issuing s t g → l < 32 → (g.active o.g s.cur.lanes).has l = true → 8 ≤ (g.linkStack l).length →
    Raises (.call o) s t g { cause := 1, info := 0x0B, va := 0 })
  ∧ (∀ gd u s t g l, Issuing s t g → l < 32 → (g.active gd s.cur.lanes).has l = true → g.linkStack l = [] →
    Raises (.ret gd u) s t g { cause := 1, info := 0x0B, va := 0 })
  ∧ (∀ (o : BrOp) s t g, Issuing s t g → g.active o.g s.cur.lanes ≠ 0 → legalTarget (s.cur.pc + brBytes o.off) = false →
    Raises (.bra o) s t g { cause := 1, info := 0x0D, va := 0 })
  ∧ (∀ (o : BrOp) s t g l k, Issuing s t g → o.u = true → legalTarget (s.cur.pc + brBytes o.off) = true → s.cur.pc + brBytes o.off ≠ succPc s.cur.pc s.cur.len →
    let m := g.active o.g s.cur.lanes
    s.cur.lanes.lowest = some k → l < 32 → s.cur.lanes.has l = true → m.has l ≠ m.has k →
    Raises (.bra o) s t g { cause := 4, info := Mask.ofPred fun j => s.cur.lanes.has j && m.has j != m.has k, va := 0 })

/-- R385, R438, R426: EXIT ends its active lanes and the others go on; PRIO gives its active lanes at most the priority of its operand;
NAP goes on and holds the whole group out of issue for n cycles after the present one. -/
def Obligations.ExitPrioNap : Prop :=
  (∀ gd s t g, Issuing s t g → let m := g.active gd s.cur.lanes
    ∃ s' g', exec (.exit gd) s = .next s' ∧ OwnGroup s s' t g g' ∧ g.SameValues g'
      ∧ g.Moved g' s.cur fun l => if m.has l then none else some (succPc s.cur.pc s.cur.len, s.cur.prio))
  ∧ (∀ gd n s t g, Issuing s t g → let m := g.active gd s.cur.lanes
    ∃ s' g', exec (.prio gd n) s = .next s' ∧ OwnGroup s s' t g g' ∧ g.SameValues g' ∧ g'.links = g.links
      ∧ g.Moved g' s.cur fun l => some (succPc s.cur.pc s.cur.len, if m.has l then n else s.cur.prio))
  ∧ (∀ gd n s t g, Issuing s t g →
    ∃ s' g', exec (.nap gd n) s = .next s' ∧ OwnGroup s s' t g g' ∧ g.SameValues g'
      ∧ g'.frontier = (g.advance s.cur).frontier
      ∧ g'.park = if g.active gd s.cur.lanes = 0 ∨ n = 0 then .none else .nap ((s.die t.die).cycles + n.toNat + 1))

/-! ### Traps and special registers -/

/-- R261, R482: TRET of the handler's lanes sends them to `sr.trappc`, TRET.skip past the instruction there where ILEN is not 0, with
at most the saved priority; once no lane remains in the handler, the slot is free. -/
def Obligations.TrapReturns : Prop :=
  ∀ (i : Instr) (skip : Bool) s t g x, (i, skip) ∈ [(.tret, false), (.tretSkip, true)] → Issuing s t g → s.cur.handler = true →
    g.slot = some x →
    let ilen := x.cause.toNat / 256 % 16
    let pc := if skip && ilen != 0 then succPc x.pc (4 * ilen) else x.pc
    legalTarget pc = true →
    ∃ s' g', exec i s = .next s' ∧ OwnGroup s s' t g g' ∧ g.SameValues g' ∧ g'.links = g.links
      ∧ (∀ l, l < 32 → s.cur.lanes.has l = true →
          ∃ e ∈ g'.frontier, e.lanes.has l = true ∧ e.pc = pc ∧ e.handler = false ∧ e.prio.toNat ≤ x.prio.toNat)
      ∧ (∀ l, l < 32 → s.cur.lanes.has l = false → ∀ q, g'.Stands l q ↔ g.Stands l q)
      ∧ ((∀ e ∈ g'.frontier, e.handler = false) → g'.slot = none)

/-- R368, R481, R259: BKPT (cause 0x12) and TRAP (cause 0x11) with an active lane take their trap, precise at their own address, with
the code in `sr.trapinfo`; with none they only go on. R263, R253: outside the handler TRET, KILL in its three forms and HALT raise PERM
with code 1, whatever their guard. -/
def Obligations.SoftwareAndPrivilegeTraps : Prop :=
  (∀ gd code s t g (i : Instr) (cause : Nat), (i, cause) ∈ [(.bkpt gd code, 0x12), (.trap gd code, 0x11)] → Issuing s t g →
    (g.active gd s.cur.lanes ≠ 0 → Raises i s t g { cause := cause, info := code.setWidth 32, va := 0 })
    ∧ (g.active gd s.cur.lanes = 0 →
        ∃ s' g', exec i s = .next s' ∧ OwnGroup s s' t g g' ∧ g.WentOn g' s.cur ∧ g.SameValues g'))
  ∧ (∀ gd (i : Instr) s t g, i ∈ [.tret, .tretSkip, .kill gd, .killGrp gd, .killTeam gd, .halt] → Issuing s t g →
    s.cur.handler = false → Raises i s t g { cause := 0xA, info := 1, va := 0 })

/-- R262, R403: in the handler, KILL ends the active lanes and the others go on; KILL.grp with an active lane ends every lane of the
group, KILL.team every lane of the team, and its stream; where one of them ends the last lanes of a task of relief, the entry it
relieves ends (R247). R260: a trap raised by lanes of the handler ends the group, and its cause is recorded in the context's event log. R259, R265: in a context without a handler a trap ends every lane of the team and its stream, and
its cause is recorded; traps of the team's engines that were still to be delivered are recorded too. -/
def Obligations.LanesEnd : Prop :=
  (∀ gd s t g, Issuing s t g → s.cur.handler = true → let m := g.active gd s.cur.lanes
    t.depth = 0 ∨ g.live &&& ~~~m ≠ 0 ∨ (∃ u ∈ t.groups, u.num ≠ g.num ∧ u.frontier ≠ []) →
    ∃ s' g', exec (.kill gd) s = .next s' ∧ SameMemory s s' ∧ s'.group? t.id g.num = some g' ∧ g.SameValues g'
      ∧ g.Moved g' s.cur fun l => if m.has l then none else some (succPc s.cur.pc s.cur.len, s.cur.prio))
  ∧ (∀ gd s t g, Issuing s t g → s.cur.handler = true → g.active gd s.cur.lanes ≠ 0 → g.waitEntries = [] →
    t.depth = 0 ∨ (∃ u ∈ t.groups, u.num ≠ g.num ∧ u.frontier ≠ []) →
    ∃ s' g', exec (.killGrp gd) s = .next s' ∧ SameMemory s s' ∧ s'.group? t.id g.num = some g' ∧ g'.frontier = [] ∧ g'.slot = none)
  ∧ (∀ gd s t g, Issuing s t g → s.cur.handler = true → g.active gd s.cur.lanes ≠ 0 → (∀ u ∈ t.groups, u.waitEntries = []) →
    (∀ e ∈ s.own, e.owner ≠ .team t.id) → t.depth = 0 →
    ∃ s' t', exec (.killTeam gd) s = .next s' ∧ SameMemory s s' ∧ s'.team? t.id = some t' ∧ (∀ u ∈ t'.groups, u.frontier = [])
      ∧ (∀ m, t'.stream = some m → m.ended = true) ∧ t'.engTraps = []
      ∧ s'.log = s.log ++ t.engTraps.map fun x => .context t.ctx x.cause x.info)
  ∧ (∀ gd i s t g e, Issuing s t g → s.cur.handler = true → g.active gd s.cur.lanes ≠ 0 → (∀ u ∈ t.groups, u.waitEntries = []) →
    t.depth ≠ 0 → t.relieves = some e → (∀ x, s.entry? e = some x → x.state.open_ = true) →
    i = .killTeam gd ∨ (i = .killGrp gd ∨ (i = .kill gd ∧ g.live &&& ~~~(g.active gd s.cur.lanes) = 0))
      ∧ (∀ u ∈ t.groups, u.num ≠ g.num → u.frontier = []) →
    ∃ s', exec i s = .next s' ∧ ∀ y, s'.entry? e = some y → y.state = .ended)
  ∧ (∀ gd code s t g, Issuing s t g → s.cur.handler = true → g.active gd s.cur.lanes ≠ 0 → g.waitEntries = [] → t.depth = 0 →
    ∃ s' g', exec (.bkpt gd code) s = .next s' ∧ SameMemory s s' ∧ s'.group? t.id g.num = some g' ∧ g'.frontier = []
      ∧ s'.log = s.log ++ [.context t.ctx 0x12 (code.setWidth 32)])
  ∧ (∀ gd code s s1 t g, Issuing s t g → s.cur.handler = false → g.slot = none → g.pending.all Pending.isReady = true →
    g.hvaDenied = false → t.depth = 0 → s.handlerCode t.ctx = (.none, s1) → g.active gd s.cur.lanes ≠ 0 →
    (∀ u ∈ t.groups, u.waitEntries = []) → (∀ e ∈ s.own, e.owner ≠ .team t.id) →
    ∃ s' t', exec (.trap gd code) s = .next s' ∧ s'.team? t.id = some t' ∧ (∀ u ∈ t'.groups, u.frontier = [])
      ∧ (∀ m, t'.stream = some m → m.ended = true) ∧ s'.log = s1.log ++ (t.engTraps.map fun x => .context t.ctx x.cause x.info) ++ [.context t.ctx 0x11 (code.setWidth 32)])

namespace Sys2Proof.Machine

/-- STATE of `sr.tband`, by the state's place in R337's list. -/
def thermalCode (x : Thermal) : Nat :=
  [Thermal.off, .warmIdle, .cooldown, .coldIdle, .run, .retreat, .park, .drain, .warmup].idxOf x

end Sys2Proof.Machine

/-- R448, R86: RDSR of a listed register, in the handler where it is privileged, writes its value to every active lane and nothing
else; RDSR of `sr.fpflags` does so where no result that may set a flag is pending (R135). R80: the result is uniform, that of `sr.lane`
affine, where it covers all lanes. R337: the fields of `sr.tband`, BOOST saying that the die runs above its band's clock. -/
def Obligations.ReadSpecial : Prop :=
  ∀ (o : RdsrOp) info s t g, Issuing s t g → srInfo o.sr.toNat = some info → (info.priv = true → s.cur.handler = true) →
    (o.sr.toNat = 0x020 → g.flagsPending = false) →
    let m := g.active o.g s.cur.lanes
    g.poolTraps (rdsrOut s o t g m).regs = [] →
    ∃ s' g', exec (.rdsr o) s = .next s' ∧ OwnGroup s s' t g g' ∧ g.WentOn g' s.cur
      ∧ g.Kept g' (Instr.rdsr o).uses.rd [] false
      ∧ (g'.reg o.d.toNat).shape = (if m ≠ g.live then .general else if o.sr.toNat = 0 then .affine else .uniform)
      ∧ (∀ l, l < 32 → m.has l = true →
          (o.sr.toNat = 0x000 → g'.elem o.d.toNat l = BitVec.ofNat 32 l)
          ∧ (o.sr.toNat = 0x001 → g'.elem o.d.toNat l = BitVec.ofNat 32 g.num)
          ∧ (o.sr.toNat = 0x002 → g'.elem o.d.toNat l = t.x) ∧ (o.sr.toNat = 0x003 → g'.elem o.d.toNat l = t.y)
          ∧ (o.sr.toNat = 0x004 → g'.elem o.d.toNat l = t.z)
          ∧ (o.sr.toNat = 0x006 → g'.elem o.d.toNat l = BitVec.ofNat 32 t.cluster)
          ∧ (o.sr.toNat = 0x007 → g'.elem o.d.toNat l = BitVec.ofNat 32 t.cx)
          ∧ (o.sr.toNat = 0x008 → g'.elem o.d.toNat l = BitVec.ofNat 32 t.cy)
          ∧ (o.sr.toNat = 0x005 → g'.elem o.d.toNat l = BitVec.ofNat 32 t.index)
          ∧ (o.sr.toNat = 0x009 → g'.elem o.d.toNat l = BitVec.ofNat 32 t.core)
          ∧ (o.sr.toNat = 0x00A → g'.elem o.d.toNat l = BitVec.ofNat 32 t.die)
          ∧ (o.sr.toNat = 0x010 → g'.pairElem o.d.toNat l = BitVec.ofNat 64 s.gtime)
          ∧ (o.sr.toNat = 0x011 → g'.pairElem o.d.toNat l = BitVec.ofNat 64 (s.die t.die).cycles)
          ∧ (o.sr.toNat = 0x012 → g'.elem o.d.toNat l = g.lpart.setWidth 32)
          ∧ (o.sr.toNat = 0x013 → let d := s.die t.die
              let x := (g'.elem o.d.toNat l).toNat
              d.temp < 2 ^ 13 → d.tset < 8 → d.band < 8 →
                x / 2 ^ 19 = d.temp ∧ x / 2 ^ 16 % 8 = d.tset ∧ x / 2 ^ 12 % 16 = thermalCode d.thermal
                  ∧ (x / 2 ^ 11 % 2 = 1 ↔ ∃ mhz, s.boostClock t.die = some mhz) ∧ x / 8 % 2 ^ 8 = 0 ∧ x % 8 = d.band)
          ∧ (o.sr.toNat = 0x014 → g'.elem o.d.toNat l = (s.core t.die t.core).mcad.setWidth 32)
          ∧ (o.sr.toNat = 0x020 → g'.elem o.d.toNat l = g.fpflags.setWidth 32)
          ∧ (o.sr.toNat = 0x021 → g'.elem o.d.toNat l = g.paramoob.setWidth 32)
          ∧ (o.sr.toNat = 0x022 → g'.pairElem o.d.toNat l = g.seed)
          ∧ (∀ x, g.slot = some x →
              (o.sr.toNat = 0x040 → g'.elem o.d.toNat l = x.cause) ∧ (o.sr.toNat = 0x041 → g'.pairElem o.d.toNat l = x.pc)
              ∧ (o.sr.toNat = 0x042 → g'.pairElem o.d.toNat l = x.va) ∧ (o.sr.toNat = 0x043 → g'.elem o.d.toNat l = x.info)))

/-- R487: WRSR takes the value of its lowest active lane: it replaces the flags, clears the bounds bits that are 1, sets the seed, and
in the handler the saved PC; of its group it changes nothing else. A read of a privileged register outside the handler, whose result
would find its row (R81, R254), and a write of one, and outside it or in it a write of a read-only register, by an active lane, raise
PERM with code 2; in the handler that trap ends the group (R260). -/
def Obligations.WriteSpecial : Prop :=
  (∀ (o : RdsrOp) info s t g, Issuing s t g → srInfo o.sr.toNat = some info → info.priv = true → s.cur.handler = false →
    g.active o.g s.cur.lanes ≠ 0 → g.poolTraps (rdsrOut s o t g (g.active o.g s.cur.lanes)).regs = [] →
    Raises (.rdsr o) s t g { cause := 0xA, info := 2, va := 0 })
  ∧ (∀ (o : WrsrOp) s t g l, Issuing s t g → (g.active o.g s.cur.lanes).lowest = some l →
    let v := g.elem o.a.toNat l
    let Left := fun (g1 : Machine.Group) => ∃ s' g', exec (.wrsr o) s = .next s' ∧ OwnGroup s s' t g g' ∧ g.WentOn g' s.cur
      ∧ g' = { g1 with frontier := g'.frontier, park := .none, pending := (g.tickWindows s.cur.lanes).pending
                       due := false, publSeen := none, fbRead := none }
    (o.sr.toNat = 0x020 → g.flagsPending = false → Left { g with fpflags := v.setWidth 5 })
    ∧ (o.sr.toNat = 0x021 → Left { g with paramoob := g.paramoob &&& ~~~(v.setWidth 8) })
    ∧ (o.sr.toNat = 0x022 → Left { g with seed := g.pairElem o.a.toNat l })
    ∧ (o.sr.toNat = 0x041 → s.cur.handler = true → ∀ x, g.slot = some x →
        Left { g with slot := some { x with pc := g.pairElem o.a.toNat l } }))
  ∧ (∀ (o : WrsrOp) info s t g, Issuing s t g → g.active o.g s.cur.lanes ≠ 0 → srInfo o.sr.toNat = some info →
    info.writable = false ∨ info.priv = true → s.cur.handler = false → Raises (.wrsr o) s t g { cause := 0xA, info := 2, va := 0 })
  ∧ (∀ (o : WrsrOp) info s t g, Issuing s t g → g.active o.g s.cur.lanes ≠ 0 → srInfo o.sr.toNat = some info →
    info.writable = false → s.cur.handler = true → g.waitEntries = [] → t.depth = 0 →
    ∃ s' g', exec (.wrsr o) s = .next s' ∧ SameMemory s s' ∧ s'.group? t.id g.num = some g' ∧ g'.frontier = []
      ∧ s'.log = s.log ++ [.context t.ctx 0xA 2])

/-! ### The machine's step -/

namespace Sys2Proof.Machine

/-- Turn of group `g` of team `t` at entry `e` of its frontier, with no trap owed to it, no denial and no park, chosen by its slot: it
fetches the bytes `l`; choosing leaves the state `s0`, fetching the state `s1` (R65, R75, R96, R99). -/
structure AtInstruction (s s0 s1 : State) (t : Team) (g : Group) (e : Entry) (l : List Byte) : Prop where
  team : s.team? t.id = some t
  group : t.group? g.num = some g
  may : s.mayIssue t g.num = true
  sent : s.mustResend t.id g = false
  engine : s.engineTrapTo t g.num = none
  park : g.park.allows (s.die t.die).cycles = .go
  chosen : s.chooses t g = (true, s0)
  owed : s0.deliverOwed t g = none
  head : s0.headEntry t g = some e
  deny : g.deny = none
  fetched : s0.fetch t e.pc (fetchLen e.pc) = (.bytes l, s1)

/-- The team and group of a group's turn, and what the turn says of the accesses that are made in it. -/
def Turn.ofGroup : Turn → Option (Nat × Nat × Cur)
  | .lane tid n => some (tid, n, {})
  | .blocks tid n k => some (tid, n, { only := some k })
  | .later tid n => some (tid, n, { later := true })
  | _ => none

/-- No pending result holds the bundle, and none has it inside its window (R110 to R113). -/
def Group.Free (g : Group) (e : Entry) (is : List Instr) : Prop :=
  (∀ p ∈ g.pending, p.holds e.lanes is = false) ∧ g.lookahead e.lanes is = none

end Sys2Proof.Machine

/-- A turn of a group whose bytes decode to an instruction is that instruction on the group's head; to a pair, both its operations; and
what the step adds is the core's record of the issue, the mark on parked groups that what they wait for has come (R249), and the end of
the contexts that have read a bad row (R271). A turn of a stream is the word it decodes, an event of the agenda is that event, and bytes
that decode to nothing raise ILLEGAL with their sub-code. A turn may besides say which of its writes a TILEF makes in it (R323, log 40),
or that accesses to the own core's scratchpad are performed after their issue (R185, log 8). -/
def Obligations.StepRunsWhatItDecodes : Prop :=
  (∀ s s0 s1 rest t g e l (x : Turn) c, x.ofGroup = some (t.id, g.num, c) → let s' : State := { s with agenda := rest }
    s.agenda = x :: rest → AtInstruction { s' with cur := c } s0 s1 t g e l →
    (∀ i len, decodeBytes e.pc l = .one i len → g.Free e [i] →
      step s = mapNext (fun r => (s'.noteEvents (r.noteIssue t g [i])).endDoomed)
        (exec i { s1 with cur := { e.cur t g len with only := c.only, later := c.later } }))
    ∧ (∀ i j, decodeBytes e.pc l = .pair i j → g.Free e [i, j] →
      step s = mapNext (fun r => (s'.noteEvents (r.noteIssue t g [i, j])).endDoomed)
        (execPair i j { s1 with cur := { e.cur t g 16 with only := c.only, later := c.later } }))
    ∧ (∀ sub n, decodeBytes e.pc l = .illegal sub n →
      step s = .next (s'.noteEvents
        (s1.takeTrap t g (e.trapTo { cause := 1, info := BitVec.ofNat 32 sub.code, va := 0 } n)).1).endDoomed))
  ∧ (∀ (s : State) t g is, ∃ c, s.noteIssue t g is = { s with cores := c })
  ∧ (∀ s r : State, ∃ ts, s.noteEvents r = { r with teams := ts } ∧ ∀ tid t, r.team? tid = some t →
      ∃ t', (s.noteEvents r).team? tid = some t' ∧ t' = { t with groups := t'.groups, eventAt := t'.eventAt }
        ∧ ∀ n g, t.group? n = some g → ∃ b, t'.group? n = some { g with due := b })
  ∧ (∀ s : State, s.doomed = [] → s.endDoomed = s)
  ∧ (∀ s s1 rest t m l i len, s.agenda = .stream t.id :: rest → let s0 : State := { s with agenda := rest }
    s0.team? t.id = some t → t.stream = some m → m.ended = false → m.park = .none → m.owesReplay = false → s0.mayIssue t 1 = true →
    s0.fetch t m.pc 8 = (.bytes l, s1) → decodeWord l = .one i len →
    step s = mapNext (fun r => (s0.noteEvents r).endDoomed)
      (exec i { s1 with cur := { tid := t.id, agent := .stream, pc := m.pc, len := len } }))
  ∧ (∀ s rest i, s.agenda = .event i :: rest → isEvent i = true → let s0 : State := { s with agenda := rest }
    step s = mapNext (fun r => (s0.noteEvents r).endDoomed) (exec i { s0 with cur := {} }))

/-- R108: both operations of a pair read before either writes, under their own guards; REGPOOL is counted over both. The pair's
registers and predicates are those that each operation gives alone, its flags those of both. -/
def Obligations.PairActsAsBoth : Prop :=
  ∀ i j gi fi gj fj s t g, pairOut i = some (gi, fi) → pairOut j = some (gj, fj) → PairRule.independent i j = true →
    Issuing s t g → let oi := fi t g (g.active gi s.cur.lanes)
    let oj := fj t g (g.active gj s.cur.lanes)
    (g.poolTraps (oi.regs ++ oj.regs) = [] →
      ∃ s' g', execPair i j s = .next s' ∧ OwnGroup s s' t g g' ∧ g.WentOn g' s.cur
        ∧ (g.poolTraps oi.regs = [] → g.poolTraps oj.regs = [] → ∀ si sj gi' gj', exec i s = .next si → exec j s = .next sj →
            si.group? t.id g.num = some gi' → sj.group? t.id g.num = some gj' →
            (∀ r, g'.reg r = if r ∈ j.uses.rd then gj'.reg r else gi'.reg r)
            ∧ (∀ p, g'.pred p = if p ∈ j.uses.pd then gj'.pred p else gi'.pred p)
            ∧ g'.fpflags = gi'.fpflags ||| gj'.fpflags))
    ∧ (∀ code s1 r, CanTrap s t g code s1 → g.poolFail ((oi.regs ++ oj.regs).map fun w => (w.reg, w.shape)) = some r →
      ∃ s' g', execPair i j s = .next s' ∧ TookTrap s s1 s' t g g' { cause := 6, info := BitVec.ofNat 32 r, va := 0 } code)

/-- No step of the machine stops: whatever the state, it goes on to a next one. -/
def Obligations.EveryStepAnswers : Prop := ∀ s : State, Answers (step s)

/-- Every step keeps memory canonical and the package's eight dies. -/
def Obligations.StepKeepsInvariant : Prop := ∀ s s' : State, s.Inv → step s = .next s' → s'.Inv

/-- The package after reset: memory is canonical with nothing listed, and every byte reads as zero (the model's choice, log 3); every
die is at band WARM, timing set C and WARM_IDLE (R337), with an epoch of 1 ms (R159) and no injection idle cycles (R290); nothing is
booted, placed, queued or pending. -/
def Obligations.ResetState : Prop :=
  State.reset.Inv ∧ (∀ a, State.reset.byte a = 0)
    ∧ (∀ d, d < 8 → let x := State.reset.die d
        x.band = 3 ∧ x.tset = 2 ∧ x.thermal = .warmIdle ∧ x.epoch = 1000000 ∧ x.cycles = 0 ∧ State.reset.leaseClock d = none)
    ∧ (∀ d k, (State.reset.core d k).mcad = 0)
    ∧ State.reset.gtime = 0 ∧ State.reset.booted = false ∧ State.reset.contexts = [] ∧ State.reset.launches = []
    ∧ State.reset.teams = [] ∧ State.reset.faults = [] ∧ State.reset.own = [] ∧ State.reset.log = []

/-! ### Decoding -/

/-- Decoding the words of a well-formed instruction gives it back, with every operand, at every place in a fetch block where it fits,
whatever stands behind it (R95 to R105); the same for the words of a matrix stream, NOP among them (R117). -/
def Obligations.EncodingRoundTrip : Prop :=
  (∀ i off (w : BitVec 128), i.WellFormed → i.kind = .lane → 0 < (encode i).len → off + (encode i).len ≤ 32 →
    w.toNat % 2 ^ (8 * (encode i).len) = (encode i).bits.toNat → decodeLane off w = .one i (encode i).len)
  ∧ (∀ i, i.WellFormed → i.kind = .matrix → decodeStream ((encode i).bits.extractLsb' 0 64) = .one i 8)
  ∧ (∀ g, decodeStream ((encode (.nop g)).bits.extractLsb' 0 64) = .one (.nop g) 8)
  ∧ (∀ i j off, i.WellFormed → j.WellFormed → (encode i).len = 8 → (encode j).len = 8 → off + 16 ≤ 32 →
    PairRule.legal 0 ((encode i).bits.extractLsb' 3 7).toNat ((encode j).bits.extractLsb' 3 7).toNat i j = true →
    decodeLane off (encodePair i j) = .pair i j)

/-- Every word that decodes is the encoding of a well-formed instruction, to the last bit of its length: no field is ignored and no
two words stand for one instruction (R95 to R105, R118). -/
def Obligations.DecodingIsExact : Prop :=
  (∀ i off n (w : BitVec 128), decodeLane off w = .one i n →
    i.WellFormed ∧ i.kind = .lane ∧ (encode i).len = n ∧ (encode i).bits.toNat = w.toNat % 2 ^ (8 * n) ∧ off + n ≤ 32)
  ∧ (∀ i n (w : BitVec 64), decodeStream w = .one i n →
    i.WellFormed ∧ (i.kind = .matrix ∨ ∃ g, i = .nop g) ∧ n = 8 ∧ (encode i).bits = w.setWidth 128)
  ∧ (∀ i j off (w : BitVec 128), decodeLane off w = .pair i j → i.WellFormed ∧ j.WellFormed ∧ encodePair i j = w ∧ off + 16 ≤ 32)

/-- Words that the spec writes out stand for the instructions it names (R355, R404, R408, R425, R482, R410, R453, R116), and some that it
refuses for their sub-codes: the last one, a NOP paired with the assigned opcode of LD, breaks a rule of pairs (R107, R118). -/
def Obligations.SpecWords : Prop :=
  decodeLane 0 0x40010100_30141C50 = .one (.aff ⟨⟨7, false⟩, .s32, 5, 3, .imm10 4⟩) 8
  ∧ decodeLane 0 0x40210500_00041C40 = .one (.icmp ⟨⟨7, false⟩, .s32, 2, 1, 0, .imm10 20⟩) 8
  ∧ decodeLane 24 0x4000FFC0_00381C60 = .one (.mov ⟨⟨7, false⟩, .b32, 14, .imm10 (-1)⟩) 8
  ∧ decodeLane 0 0x3F800000_80000000_000C1C61 = .one (.mov ⟨⟨7, false⟩, .b32, 3, .imm32 0x3F800000⟩) 12
  ∧ decodeLane 0 0x00000000_20249E00 = .one (.ld ⟨⟨7, false⟩, 2, .b32, 0, false, 0, 0, 9, 2, .none⟩) 8
  ∧ decodeLane 0 0x60042000_00080618 = .one (.sts ⟨⟨1, false⟩, .b64, 0, 0, 0, true, 2, 0, .b10 0x80⟩) 8
  ∧ decodeLane 0 0x06020180_20101E30 = .one (.atomAdd ⟨⟨7, false⟩, 0, .n32, false, 1, 4, 4, 2, .reg 6, none⟩) 8
  ∧ decodeLane 0 0x00100000_00001E68 = .one .tretSkip 8
  ∧ decodeStream 0x080A0180_40001F28 = .one (.mstr ⟨.e4m3x4, 0, 4, 6, 0, false, false, false, true, false⟩) 8
  ∧ decodeStream 0x00000000_00001C00 = .one (.nop ⟨7, false⟩) 8
  ∧ decodeLane 0 0x80001C63 = .illegal .length 0
  ∧ decodeLane 28 0x00000000_00001C00 = .illegal .fetchStraddle 2
  ∧ decodeLane 0 0x00000000_00001C70 = .illegal .opcode 2
  ∧ decodeLane 0 0x00000000_000003C0_00000000_00001C06 = .illegal .pair 4

/-! ### Memory -/

namespace Sys2Proof.Machine

/-- The bundle has gone on with a result outstanding in `regs` for its active lanes `m`, with a window of `la` instructions in every
lane (R110, R111); until it lands, every element of a register reads as before. -/
structure Group.Owes (g g' : Group) (c : Cur) (m : Mask) (la : BitVec 4) (regs : List Nat) (p : Pending) : Prop where
  pending : g'.pending = (g.tickWindows c.lanes).pending ++ [p]
  bundle : p.bundle = c.lanes
  active : p.active = m
  regs : p.regs = regs
  handler : p.handler = c.handler
  preds : p.preds = []
  win : ∀ l, l < 32 → p.win.getD l 0 = la.toNat
  elems : ∀ r l, l < 32 → g'.elem r l = g.elem r l
  others : (∀ q, g'.pred q = g.pred q) ∧ g'.fpflags = g.fpflags ∧ g'.seed = g.seed ∧ g'.lpart = g.lpart ∧ g'.slot = g.slot
  goes : g'.frontier = (g.advance c).frontier

/-- The pieces of the lanes' global accesses. -/
def Group.pieces (g : Group) (ls : List Nat) (a : VR) (off : DWord) : List LaneAddr :=
  ls.map fun l => { lane := l, va := g.globalAddr a off l }

/-- Every address of the lanes is aligned and canonical (R142). -/
def Group.Aligned (g : Group) (ls : List Nat) (a : VR) (off : DWord) (z : Nat) : Prop :=
  ∀ l ∈ ls, (g.globalAddr a off l).toNat % z = 0 ∧ canonical (g.globalAddr a off l) = true

/-- The result of a load is uniform: under BCAST, where its active lanes are all the live ones and its address registers are uniform
(R80, R411). -/
def Group.LoadsUniform (g : Group) (bcast : Bool) (srcs : List Nat) (m : Mask) : Prop :=
  bcast = true ∧ m = g.live ∧ ∀ r ∈ srcs, (g.reg r).shape = .uniform

/-- The ATOM entries of the group's store FIFO that are older than an access with number `id` (R359). -/
def Group.olderAtoms (g : Group) (id : Nat) : List Nat := (g.fifo.filter fun e => e.kind == .atom && e.id < id).map fun e => e.id

/-- Piece `p` of the load whose pending result has number `id` is on its way to its home slice. -/
def State.LoadSent (s : State) (t : Team) (g : Group) (id z scope : Nat) (p : LaneAddr) : Prop :=
  ∃ a ∈ s.accesses, a.kind = .load ∧ a.tid = t.id ∧ a.grp = g.num ∧ a.owner = id ∧ a.ctx = t.ctx ∧ a.die = t.die ∧ a.core = t.core
    ∧ a.line = lineOf (p.sa.getD 0) ∧ p ∈ a.lanes ∧ a.bytes = z ∧ a.scope = scope ∧ a.after = g.olderAtoms id

/-- The access of lane `l` of the bundle to the scratchpad of team `u` at the 32-bit address `v` is on its way to that core's banks, with
its data and the pending result that it returns to (R144, R185). -/
def State.RemoteSent (s : State) (t : Team) (g : Group) (u : Nat) (op : RemoteOp) (ty : Ty) (z : Nat) (pend : Option Nat)
    (l : Nat) (v : Word) (data cmp : DWord) : Prop :=
  ∃ r ∈ s.remotes, r.tid = t.id ∧ r.grp = g.num ∧ r.target = u ∧ r.op = op ∧ r.ty = ty ∧ r.bytes = z ∧ r.pend = pend
    ∧ ∃ a, r.lanes = [a] ∧ a.lane = l ∧ a.va = v.setWidth 64 ∧ a.data = data ∧ a.cmp = cmp

/-- A store of the group before number `id` that its queue still holds covers a byte in lane piece `x` of entry `e` (R183): it has not
been performed at its home slice. -/
def State.Queues (s : State) (g : Group) (id : Nat) (e : StoreEntry) (x : LaneAddr) (va : Nat) (sa : Option Nat) : Prop :=
  e ∈ g.fifo ∧ e.id < id ∧ x ∈ e.lanes ∧ (x.covers e.bytes va sa).isSome = true
    ∧ (e.handed = false ∨ ∃ b ∈ s.accesses, b.kind ≠ .load ∧ b.owner = e.id ∧ ∃ y ∈ b.lanes, y.lane = x.lane)

/-- A release by the lanes `m` has something to wait for (R191): a queued store of theirs or one that an earlier load of theirs has
read, a pending access of theirs, and a scratchpad access of theirs on its way, to another core only at `.clu` and wider (R185). What is
no release has of these none but those that return a value. -/
def State.Outstanding (s : State) (t : Team) (g : Group) (m : Mask) (scope : Nat) (rel : Bool) : Prop :=
  (rel = true ∧ ∃ e ∈ g.fifo, (∃ a ∈ e.lanes, m.has a.lane = true) ∨ e.readers &&& m ≠ 0)
    ∨ (∃ p ∈ g.pending, p.left ≠ 0 ∧ p.active &&& m ≠ 0 ∧ (2 ≤ scope ∨ p.kind ≠ .remote))
    ∨ (∃ r ∈ s.remotes, r.tid = t.id ∧ r.grp = g.num ∧ (r.target = t.id ∨ 2 ≤ scope) ∧ (rel = true ∨ r.pend ≠ none)
        ∧ ∃ a ∈ r.lanes, m.has a.lane = true)

/-- No line that a context has read lies in the core's L1 or texture cache. -/
def State.NoLines (s : State) (t : Team) : Prop := ∀ x ∈ (s.core t.die t.core).l1 ++ (s.core t.die t.core).texCache, x.ctx ≠ t.ctx

/-- The request of an ATOM or RED. -/
def atomicOf : Instr → Option AtomReq
  | .atomAdd o => some (atomReq .add o) | .atomMin o => some (atomReq .min o) | .atomMax o => some (atomReq .max o)
  | .atomAnd o => some (atomReq .and o) | .atomOr o => some (atomReq .or o) | .atomXor o => some (atomReq .xor o)
  | .atomExch o => some (atomReq .exch o)
  | .atomCas o => some { g := o.g, fn := .cas, ty := o.ty, spad := o.spad, order := o.order.toNat, scope := o.scope.toNat, a := o.a
                         off := o.off, v := .reg o.b, c := some o.c, dst := some (o.d, o.la) }
  | .redAdd o => some (redReq .add o) | .redMin o => some (redReq .min o) | .redMax o => some (redReq .max o)
  | .redAnd o => some (redReq .and o) | .redOr o => some (redReq .or o) | .redXor o => some (redReq .xor o)
  | _ => none

/-- The new value of an atomic, from the old one, the operand and the third one (R358). -/
def atomValue (fn : AtomFn) (ty : Ty) (old v c : DWord) : DWord :=
  match fn with
  | .store | .exch => v
  | .cas => if old = v then c else old
  | .and => old &&& v
  | .or => old ||| v
  | .xor => old ^^^ v
  | .min => (redStep .min ty old v).1
  | .max => (redStep .max ty old v).1
  | .add => (redStep .add ty old v).1

/-- A global access: its address pair and offset, its size and the lanes that access. -/
def globalAccess (i : Instr) (s : State) (g : Group) : Option (VR × DWord × Nat × List Nat) :=
  match i with
  | .ld o => some (o.a, moffVal o.off, elemBytes o.ty o.sz, accessLanes o.bcast (g.active o.g s.cur.lanes))
  | .st o => some (o.a, moffVal o.off, elemBytes o.ty o.sz, (g.active o.g s.cur.lanes).lanes)
  | i => match atomicOf i with
    | some q => if q.spad then none
      else some (q.a, q.off.signExtend 64, atomBytes q.ty, (g.active q.g s.cur.lanes).lanes)
    | none => none

/-- A scratchpad access: its lanes' addresses, its size, whether it writes, and the lanes that access. -/
def spadAccess (i : Instr) (s : State) (g : Group) : Option ((Nat → Word) × Nat × Bool × List Nat) :=
  match i with
  | .lds o => some (g.shortAddr o.abs o.a (moffVal o.off), elemBytes o.ty o.sz, false,
      accessLanes o.bcast (g.active o.g s.cur.lanes))
  | .sts o => some (g.shortAddr o.abs o.a (moffVal o.off), elemBytes o.ty o.sz, true, (g.active o.g s.cur.lanes).lanes)
  | i => match atomicOf i with
    | some q => if q.spad then
        some (fun l => g.elem q.a.toNat l + q.off.signExtend 32, atomBytes q.ty, true, (g.active q.g s.cur.lanes).lanes)
      else none
    | none => none

/-- The global and scratchpad accesses, each of which waits while a fence of its group does (R394). -/
def isMemoryAccess : Instr → Bool
  | .ld _ | .st _ | .lds _ | .sts _ | .ldp _ | .pref _ | .waita _ | .tex _ | .texAniso _ | .tld _ | .texq _ => true
  | i => (atomicOf i).isSome

end Sys2Proof.Machine

/-- R410 to R413, R110: LD goes on and leaves a result pending: each piece whose page is there is on its way to its home slice, behind
the group's older ATOMs (R359), and a piece whose page is not there waits in the fault buffer, the group parked on it (R155). LDS
reads the own core's scratchpad bytes at issue, unless the turn says that they are read later or an earlier access of the group to it
is still on its way (log 8); those and its accesses to other cores of the cluster are then on their way (R144, R185). LDP
reads its window, zero beyond its end with the window's bit set in `sr.paramoob` (R145), and PARAM is raised where the launch has no
such window. The result is uniform only under BCAST from a uniform address (R80). No byte of memory changes. -/
def Obligations.LoadsIssue : Prop :=
  (∀ (o : LdOp) s t g, Issuing s t g → g.fences = [] → let m := g.active o.g s.cur.lanes
    let z := elemBytes o.ty o.sz
    let ls := accessLanes o.bcast m
    let x := (s.xlateAll t.ctx .read (g.pieces ls o.a (moffVal o.off))).1
    g.Aligned ls o.a (moffVal o.off) z → poolFor g (regsOf o.ty o.d) (g.loadShape o.bcast [o.a.toNat, o.a.toNat + 1] m) = [] →
    (o.order = 4 → s.releaseWaits t g m o.scope.toNat = false) → x.fatal = none → x.blocked = false →
    ∃ s' g' p, exec (.ld o) s = .next s' ∧ SameMemory s s' ∧ s'.group? t.id g.num = some g'
      ∧ g.Owes g' s.cur m o.la (regsOf o.ty o.d) p ∧ p.kind = .load ∧ p.bytes = z ∧ p.signExt = (o.sz != 0 && o.ty == .s32)
      ∧ p.bcast = (if o.bcast then m.lowest else none) ∧ p.left = ls.length ∧ p.scope = o.scope.toNat ∧ g'.fifo = g.fifo
      ∧ (p.uniform = true ↔ g.LoadsUniform o.bcast [o.a.toNat, o.a.toNat + 1] m)
      ∧ (∀ a ∈ x.ok, s'.LoadSent t g p.id z o.scope.toNat a)
      ∧ (x.replay = [] → g'.park = .none)
      ∧ (x.replay ≠ [] → ∃ f ∈ s'.faults, g'.park = .fault f.id ∧ f.kind = 0 ∧ f.ctx = t.ctx ∧ f.req = .load t.id g.num p.id))
  ∧ (∀ (o : LdsOp) s t g, Issuing s t g → g.fences = [] → let m := g.active o.g s.cur.lanes
    let z := elemBytes o.ty o.sz
    let ls := accessLanes o.bcast m
    let addr := fun l => g.shortAddr o.abs o.a (moffVal o.off) l
    let at_ := fun l => (s.spadTarget t (addr l) z).getD (0, 0)
    let srcs := if o.abs then [] else [o.a.toNat]
    poolFor g (regsOf o.ty o.d) (g.loadShape o.bcast srcs m) = [] →
    s.spadTraps t false z (ls.map addr) = [] → (∀ l ∈ ls, s.spadPresent (at_ l).1 (at_ l).2 = true) →
    (o.order = 4 → s.releaseWaits t g m o.scope.toNat = false) →
    ∃ s' g' p, exec (.lds o) s = .next s' ∧ SameMemory s s' ∧ s'.group? t.id g.num = some g'
      ∧ g.Owes g' s.cur m o.la (regsOf o.ty o.d) p ∧ g'.fifo = g.fifo ∧ g'.park = .none
      ∧ (p.uniform = true ↔ g.LoadsUniform o.bcast srcs m)
      ∧ ((∀ l ∈ ls, s.spadLater t g (at_ l).1 = false) → p.isReady = true ∧ ∀ l, l < 32 → m.has l = true →
          let k0 := if o.bcast then m.lowest.getD 0 else l
          ∀ k, k < (regsOf o.ty o.d).length →
            p.word k l = (loadValue (o.sz != 0 && o.ty == .s32) (s.spadRead (at_ k0).1 (at_ k0).2 z)).extractLsb' (32 * k) 32)
      ∧ ((∃ l ∈ ls, s.spadLater t g (at_ l).1 = true) →
          p.kind = .remote ∧ p.bytes = z ∧ p.signExt = (o.sz != 0 && o.ty == .s32) ∧ p.bcast = (if o.bcast then m.lowest else none)
          ∧ p.left = (ls.filter fun l => s.spadLater t g (at_ l).1).length
          ∧ (∀ l ∈ ls, s.spadLater t g (at_ l).1 = true → s'.RemoteSent t g (at_ l).1 .read o.ty z (some p.id) l (addr l) 0 0)
          ∧ (∀ l ∈ ls, s.spadLater t g (at_ l).1 = false → ∀ i, i < z →
              SMap.get 0 p.data (8 * l + i) = (s.spadRead (at_ l).1 (at_ l).2 z).getD i 0)))
  ∧ (∀ (o : LdpOp) s t g, Issuing s t g → g.fences = [] → let m := g.active o.g s.cur.lanes
    let z := elemBytes o.ty o.sz
    let ls := accessLanes o.bcast m
    let off := fun l => (g.shortAddr o.abs o.a (moffVal o.off) l).toNat
    let srcs := if o.abs then [] else [o.a.toNat]
    poolFor g (regsOf o.ty o.d) (g.loadShape o.bcast srcs m) = [] →
    (∀ b, t.windows.getD o.win.toNat none = some (.block b) →
      ∃ s' g' p, exec (.ldp o) s = .next s' ∧ SameMemory s s' ∧ s'.group? t.id g.num = some g'
        ∧ g.Owes g' s.cur m o.la (regsOf o.ty o.d) p ∧ p.isReady = true ∧ g'.fifo = g.fifo ∧ g'.park = .none
        ∧ (p.uniform = true ↔ g.LoadsUniform o.bcast srcs m)
        ∧ g'.paramoob = (if ls.any fun l => decide (off l + z > b.length) then g.paramoob ||| (1 <<< o.win.toNat) else g.paramoob)
        ∧ ∀ l, l < 32 → m.has l = true → ∀ k, k < (regsOf o.ty o.d).length →
            p.word k l = (loadValue (o.sz != 0 && o.ty == .s32) ((List.range z).map fun i =>
              b.getD (off (if o.bcast then m.lowest.getD 0 else l) + i) 0)).extractLsb' (32 * k) 32)
    ∧ (∀ base n, t.windows.getD o.win.toNat none = some (.mem base n) →
      let ps := ls.flatMap fun l => windowPieces base n z l (off l)
      let x := (s.xlateAll t.ctx .read ps).1
      x.fatal = none → x.blocked = false →
      ∃ s' g' p, exec (.ldp o) s = .next s' ∧ SameMemory s s' ∧ s'.group? t.id g.num = some g'
        ∧ g.Owes g' s.cur m o.la (regsOf o.ty o.d) p ∧ p.kind = .load ∧ p.bytes = z ∧ g'.fifo = g.fifo ∧ p.left = ps.length
        ∧ (p.uniform = true ↔ g.LoadsUniform o.bcast srcs m)
        ∧ (∀ a ∈ x.ok, s'.LoadSent t g p.id 1 4 a)
        ∧ g'.paramoob = (if ls.any fun l => decide (off l + z > n) then g.paramoob ||| (1 <<< o.win.toNat) else g.paramoob))
    ∧ (t.windows.getD o.win.toNat none = none → m ≠ 0 →
      Raises (.ldp o) s t g { cause := 7, info := o.win.setWidth 32, va := 0 }))

/-- R471 to R473, R183: ST goes on with its lanes' addresses and data at the back of its group's store FIFO, translated, and no byte of
memory changes yet. STS writes its lanes' bytes to the own core's scratchpad at issue, the highest lane's where lanes overlap (R184);
those that are performed later (log 8), and at another core of the cluster all of them, are on their way, and that scratchpad has not
changed (R144, R185). No other byte of a scratchpad and no byte of memory changes. With `.sc` at `.clu` or wider both drop the context's
L1 lines (R192, R193). -/
def Obligations.StoresIssue : Prop :=
  (∀ (o : StOp) s t g, Issuing s t g → g.fences = [] → let m := g.active o.g s.cur.lanes
    let z := elemBytes o.ty o.sz
    g.Aligned m.lanes o.a (moffVal o.off) z → (o.order = 4 → s.releaseWaits t g m o.scope.toNat = false) →
    (∀ x, (s.xlateAll t.ctx .write (m.lanes.map fun l =>
        { lane := l, va := g.globalAddr o.a (moffVal o.off) l, data := g.typed o.ty o.d l })).1 = x →
      x.fatal = none ∧ x.blocked = false) →
    ∃ s' g', exec (.st o) s = .next s' ∧ SameMemory s s' ∧ s'.group? t.id g.num = some g' ∧ g'.frontier = (g.advance s.cur).frontier
      ∧ (∀ r, g'.reg r = g.reg r) ∧ (∀ p, g'.pred p = g.pred p) ∧ g'.fpflags = g.fpflags
      ∧ (o.order = 4 → 2 ≤ o.scope.toNat → s'.NoLines t)
      ∧ (m = 0 → g'.fifo = g.fifo)
      ∧ (m ≠ 0 → ∃ e, g'.fifo = g.fifo ++ [e] ∧ e.kind = .st ∧ e.bytes = z ∧ e.order = o.order.toNat ∧ e.scope = o.scope.toNat
          ∧ e.bundle = s.cur.lanes ∧ e.handed = false ∧ e.readers = 0
          ∧ (e.lanes.map fun a => (a.lane, a.va, a.data))
              = m.lanes.map fun l => (l, g.globalAddr o.a (moffVal o.off) l, g.typed o.ty o.d l)))
  ∧ (∀ (o : StsOp) s t g, Issuing s t g → g.fences = [] → let m := g.active o.g s.cur.lanes
    let z := elemBytes o.ty o.sz
    let addr := fun l => g.shortAddr o.abs o.a (moffVal o.off) l
    let at_ := fun l => (s.spadTarget t (addr l) z).getD (0, 0)
    s.spadTraps t true z (m.lanes.map addr) = [] → (∀ l ∈ m.lanes, s.spadPresent (at_ l).1 (at_ l).2 = true) →
    (o.order ≠ 0 → s.releaseWaits t g m o.scope.toNat = false) →
    ∃ s' g', exec (.sts o) s = .next s' ∧ SameMemory s s' ∧ s'.group? t.id g.num = some g' ∧ g.WentOn g' s.cur ∧ g.SameValues g'
      ∧ (o.order = 4 → 2 ≤ o.scope.toNat → s'.NoLines t)
      ∧ (∀ l ∈ m.lanes, s.spadLater t g (at_ l).1 = true →
          s'.RemoteSent t g (at_ l).1 (.op .store) o.ty z none l (addr l) (g.typed o.ty o.d l) 0)
      ∧ ∀ u x, let covers := fun l => s.spadLater t g u = false ∧ (at_ l).1 = u ∧ (at_ l).2 ≤ x ∧ x < (at_ l).2 + z
        ((∀ l ∈ m.lanes, ¬ covers l) → s'.spadRead u x 1 = s.spadRead u x 1)
        ∧ (∀ l ∈ m.lanes, covers l → (∀ k ∈ m.lanes, l < k → ¬ covers k) →
            s'.spadRead u x 1 = [BitVec.ofNat 8 ((g.typed o.ty o.d l).toNat / 256 ^ (x - (at_ l).2))]))

/-- The head of a store FIFO goes to the fabric line by line (R183), and an access performed at its home slice writes exactly its lanes'
bytes, or for an atomic the new value of its one lane whose old bytes return (R359), and for a load returns the bytes that memory holds
as its leaf shows them (R162 to R165), with those of the group's own stores that its queue still holds over them, the newest's and in
it the highest lane's (R182 to R184). A write through a BLD leaf leaves its block raw (R168), and a block that cannot be read raises
MEMFMT, owed to the lanes (R114). A lane's scratchpad access that is on its way is performed at the target's banks (R144, R185); where
the target has ended, ALIGN is owed, with the lowest of the bundle's addresses whose targets have. Every other byte reads as before. -/
def Obligations.AccessesPerform : Prop :=
  (∀ s t g e r, s.team? t.id = some t → t.group? g.num = some g → g.fifo = e :: r → e.handed = false → e.faults = [] →
    (∀ a ∈ e.lanes, a.sa.isSome = true) → s.storeWaits t g e = false →
    ∃ s' g', exec (.storePerform t.id g.num) s = .next s' ∧ SameMemory s s' ∧ s'.group? t.id g.num = some g'
      ∧ (∃ n, g'.fifo = { e with handed := true, left := n } :: r)
      ∧ ∀ a ∈ e.lanes, ∃ b ∈ s'.accesses, b.owner = e.id ∧ b.line = lineOf (a.sa.getD 0) ∧ a ∈ b.lanes
          ∧ b.kind = if e.kind = .st then .store else .atom)
  ∧ (∀ s a g e, a.id ≠ 0 → s.accesses.find? (fun b => b.id == a.id) = some a → a.kind = .store →
    s.held a.die (a.line * 128) = false → s.group? a.tid a.grp = some g → g.fifo.find? (fun e => e.id == a.owner) = some e →
    (a.bld = false →
      ∃ s', exec (.homeSliceAccess a.id) s = .next s'
        ∧ ∀ x, let covers := fun (p : LaneAddr) => p.sa.getD 0 ≤ x ∧ x < p.sa.getD 0 + e.bytes
          ((∀ p ∈ a.lanes, ¬ covers p) → s'.byte x = s.byte x)
          ∧ (∀ l1 p l2, a.lanes = l1 ++ p :: l2 → covers p → (∀ q ∈ l2, ¬ covers q) →
              s'.byte x = BitVec.ofNat 8 (p.data.toNat / 256 ^ (x - p.sa.getD 0))))
    ∧ (∀ p l, a.bld = true → a.lanes = [p] → s.bldMode (p.sa.getD 0) ≠ 0 → s.blockBytes (p.sa.getD 0) = .ok l → l.length = 256 →
      let sa := p.sa.getD 0
      let block := sa / 256 * 256
      let md := s.mdAddr sa + blockOf sa
      sa % 256 + e.bytes ≤ 256 → ¬ (block ≤ md ∧ md < block + 256) →
      ∃ s', exec (.homeSliceAccess a.id) s = .next s' ∧ s'.byte md = 0
        ∧ ∀ x, x ≠ md → s'.byte x = if sa ≤ x ∧ x < sa + e.bytes then BitVec.ofNat 8 (p.data.toNat / 256 ^ (x - sa))
            else if block ≤ x ∧ x < block + 256 then l.getD (x - block) 0 else s.byte x))
  ∧ (∀ s a g e p, a.id ≠ 0 → s.accesses.find? (fun b => b.id == a.id) = some a → a.kind = .atom →
    s.held a.die (a.line * 128) = false →
    s.group? a.tid a.grp = some g → g.fifo.find? (fun e => e.id == a.owner) = some e → a.bld = false → a.lanes = [p] →
    (∀ b ∈ s.accesses, b.kind = .atom → b.owner = a.owner → a.id ≤ b.id) →
    let old := s.bytes (p.sa.getD 0) e.bytes
    let new := atomValue e.fn e.ty (BitVec.ofNat 64 (leNat old)) p.data p.cmp
    ∃ s', exec (.homeSliceAccess a.id) s = .next s'
      ∧ s'.bytes (p.sa.getD 0) e.bytes = leBytes e.bytes new.toNat
      ∧ (∀ x, ¬ (p.sa.getD 0 ≤ x ∧ x < p.sa.getD 0 + e.bytes) → s'.byte x = s.byte x)
      ∧ (∀ q, e.kind = .atom → g.pending.find? (fun q => q.id == e.pend) = some q → ∃ g' q',
          s'.group? a.tid a.grp = some g' ∧ g'.pending.find? (fun q => q.id == e.pend) = some q'
            ∧ q'.left = q.left - 1 ∧ ∀ i, i < e.bytes → SMap.get 0 q'.data (8 * p.lane + p.off + i) = old.getD i 0))
  ∧ (∀ s a g q (mem : LaneAddr → List Byte), a.id ≠ 0 → s.accesses.find? (fun b => b.id == a.id) = some a → a.kind = .load →
    s.held a.die (a.line * 128) = false → s.group? a.tid a.grp = some g → s.loadHeldBack g a = false →
    g.pending.find? (fun q => q.id == a.owner) = some q → (∀ p ∈ a.lanes, s.readVia p.bld (p.sa.getD 0) a.bytes = .ok (mem p)) →
    (a.lanes.map fun p => 8 * p.lane + p.off).Nodup →
    (∀ p ∈ a.lanes, ∀ r ∈ a.lanes, p.lane = r.lane → p.off ≠ r.off → p.off + a.bytes ≤ r.off ∨ r.off + a.bytes ≤ p.off) →
    (∀ p ∈ a.lanes, p.off + a.bytes ≤ 8) →
    ∃ s' g' q', exec (.homeSliceAccess a.id) s = .next s' ∧ SameMemory s s' ∧ s'.group? a.tid a.grp = some g'
      ∧ g'.pending.find? (fun q => q.id == a.owner) = some q' ∧ q'.left = q.left - a.lanes.length ∧ g'.regs = g.regs
      ∧ ∀ p ∈ a.lanes, ∀ i, i < a.bytes → let va := va57 p.va + i
          let sa := p.sa.map (· + i)
          let got := SMap.get 0 q'.data (8 * p.lane + p.off + i)
          ((∀ e x, ¬ s.Queues g a.owner e x va sa) → got = (mem p).getD i 0)
          ∧ (∀ f1 e f2 m1 x m2 k, g.fifo = f1 ++ e :: f2 → e.lanes = m1 ++ x :: m2 → e.kind = .st → s.Queues g a.owner e x va sa →
              (∀ y ∈ m2, ¬ s.Queues g a.owner e y va sa) → (∀ e2 ∈ f2, ∀ y, ¬ s.Queues g a.owner e2 y va sa) →
              x.covers e.bytes va sa = some k → got = x.data.extractLsb' (8 * k) 8))
  ∧ (∀ s a g q p rest c, a.id ≠ 0 → s.accesses.find? (fun b => b.id == a.id) = some a → a.kind = .load →
    s.held a.die (a.line * 128) = false → s.group? a.tid a.grp = some g → s.loadHeldBack g a = false →
    g.pending.find? (fun q => q.id == a.owner) = some q → a.lanes = p :: rest → p.full (s.ownQueue g a.owner) a.bytes = false →
    s.readVia p.bld (p.sa.getD 0) a.bytes = .error c → q.bundle &&& g.live ≠ 0 →
    ∃ s' g', exec (.homeSliceAccess a.id) s = .next s' ∧ SameMemory s s' ∧ s'.group? a.tid a.grp = some g'
      ∧ g'.pending = g.pending.filter (fun q => q.id != a.owner) ∧ g'.regs = g.regs
      ∧ g'.owed = g.owed ++ [{ trap := { cause := 0xC, info := BitVec.ofNat 32 c, va := blockVa p.va }
                               lanes := q.bundle &&& g.live, handler := q.handler }])
  ∧ (∀ (s : State) sa n, s.readVia false sa n = .ok (s.bytes sa n)
    ∧ (s.bldMode sa = 0 → s.readVia true sa n = .ok (s.bytes sa n))
    ∧ (s.bldMode sa = 1 → ∃ l, s.readVia true sa n = .ok l
        ∧ ∀ i, i < n → sa % 256 + i < 256 → l.getD i 0 = s.byte (s.mdAddr sa + 256 + (sa + i) % 4))
    ∧ (3 ≤ s.bldMode sa → s.readVia true sa n = .error (s.bldMode sa)))
  ∧ (∀ s r g u a, r.id ≠ 0 → s.accesses.find? (fun b => b.id == r.id) = none → s.remotes.find? (fun x => x.id == r.id) = some r →
    s.remoteWaits r = false → s.group? r.tid r.grp = some g → s.team? r.target = some u → r.lanes = [a] → r.bytes ≤ 8 →
    s.spadPresent r.target a.spadOff = true →
    let old := s.spadRead r.target a.spadOff r.bytes
    ∃ s', exec (.homeSliceAccess r.id) s = .next s' ∧ SameMemory s s' ∧ s'.remotes = s.remotes.filter (fun x => x.id != r.id)
      ∧ (r.op = .read → ∀ v x, s'.spadRead v x 1 = s.spadRead v x 1)
      ∧ (∀ fn, r.op = .op fn → 128 ≤ a.spadOff →
          s'.spadRead r.target a.spadOff r.bytes
            = leBytes r.bytes (atomValue fn r.ty (BitVec.ofNat 64 (leNat old)) a.data a.cmp).toNat
          ∧ ∀ v x, ¬ (v = r.target ∧ a.spadOff ≤ x ∧ x < a.spadOff + r.bytes) → s'.spadRead v x 1 = s.spadRead v x 1)
      ∧ (∀ i q, r.pend = some i → g.pending.find? (fun q => q.id == i) = some q → ∃ g' q', s'.group? r.tid r.grp = some g'
          ∧ g'.pending.find? (fun q => q.id == i) = some q' ∧ q'.left = q.left - 1
          ∧ ∀ k, k < r.bytes → SMap.get 0 q'.data (8 * a.lane + k) = old.getD k 0))
  ∧ (∀ s r g a, r.id ≠ 0 → s.accesses.find? (fun b => b.id == r.id) = none → s.remotes.find? (fun x => x.id == r.id) = some r →
    s.remoteWaits r = false → s.group? r.tid r.grp = some g → s.team? r.target = none → r.lanes = [a] → r.bundle &&& g.live ≠ 0 →
    ∃ s' g' v, exec (.homeSliceAccess r.id) s = .next s' ∧ SameMemory s s' ∧ s'.group? r.tid r.grp = some g'
      ∧ (∀ u x, s'.spadRead u x 1 = s.spadRead u x 1)
      ∧ g'.owed = g.owed ++ [{ trap := { cause := 9, info := 1, va := v }, lanes := r.bundle &&& g.live, handler := r.handler }]
      ∧ (∃ x ∈ s.remotes, x.issue = r.issue ∧ s.team? x.target = none ∧ ∃ b ∈ x.lanes, b.va = v)
      ∧ ∀ x ∈ s.remotes, x.issue = r.issue → s.team? x.target = none → ∀ b ∈ x.lanes, v.toNat ≤ b.va.toNat)

/-- R358 to R360, R453, R454: a global ATOM or RED goes on with its lanes at the back of the store FIFO, and an ATOM leaves its result
pending. On the own core's scratchpad it is performed at issue or later (log 8): at issue, at places that do not overlap, each lane writes
its new value, every other byte stays, and an ATOM's result is the old value; later, and at another core of the cluster, it is on its
way (R144, R185). No byte of memory changes. -/
def Obligations.AtomicsIssue : Prop :=
  (∀ i q s t g, atomicOf i = some q → q.spad = false → Issuing s t g → g.fences = [] → let m := g.active q.g s.cur.lanes
    let third := fun l => match q.c with | some c => g.typed q.ty c l | none => 0
    let regs := match q.dst with | some (d, _) => regsOf q.ty d | none => []
    g.Aligned m.lanes q.a (q.off.signExtend 64) (atomBytes q.ty) → poolFor g regs .general = [] →
    (q.order = 4 → s.releaseWaits t g m q.scope = false) →
    (∀ x, (s.xlateAll t.ctx .write (m.lanes.map fun l =>
        { lane := l, va := g.globalAddr q.a (q.off.signExtend 64) l, data := g.src q.ty q.v l, cmp := third l })).1 = x →
      x.fatal = none ∧ x.blocked = false) →
    ∃ s' g', exec i s = .next s' ∧ SameMemory s s' ∧ s'.group? t.id g.num = some g'
      ∧ (q.order = 4 → 2 ≤ q.scope → s'.NoLines t)
      ∧ (m = 0 → g'.fifo = g.fifo)
      ∧ (m ≠ 0 → ∃ e, g'.fifo = g.fifo ++ [e] ∧ e.fn = q.fn ∧ e.ty = q.ty ∧ e.bytes = atomBytes q.ty ∧ e.bundle = s.cur.lanes
          ∧ e.kind = (if q.dst.isSome then .atom else .red)
          ∧ (e.lanes.map fun a => (a.lane, a.va, a.data, a.cmp))
              = m.lanes.map fun l => (l, g.globalAddr q.a (q.off.signExtend 64) l, g.src q.ty q.v l, third l))
      ∧ (∀ d la, q.dst = some (d, la) → ∃ p, g.Owes g' s.cur m la regs p ∧ p.uniform = false ∧ p.left = m.lanes.length)
      ∧ (q.dst = none → g'.frontier = (g.advance s.cur).frontier ∧ g.SameValues { g' with fifo := g.fifo }))
  ∧ (∀ i q s t g, atomicOf i = some q → q.spad = true → Issuing s t g → g.fences = [] → let m := g.active q.g s.cur.lanes
    let third := fun l => match q.c with | some c => g.typed q.ty c l | none => 0
    let regs := match q.dst with | some (d, _) => regsOf q.ty d | none => []
    let z := atomBytes q.ty
    let addr := fun l => g.elem q.a.toNat l + q.off.signExtend 32
    let at_ := fun l => (s.spadTarget t (addr l) z).getD (0, 0)
    let near := fun l => s.spadLater t g (at_ l).1 = false
    let old := fun l => BitVec.ofNat 64 (leNat (s.spadRead (at_ l).1 (at_ l).2 z))
    poolFor g regs .general = [] → s.spadTraps t true z (m.lanes.map addr) = [] →
    (∀ l ∈ m.lanes, s.spadPresent (at_ l).1 (at_ l).2 = true) → (2 ≤ q.order → s.releaseWaits t g m q.scope = false) →
    (∀ l ∈ m.lanes, ∀ k ∈ m.lanes, l ≠ k → at_ l ≠ at_ k) →
    ∃ s' g', exec i s = .next s' ∧ SameMemory s s' ∧ s'.group? t.id g.num = some g' ∧ g'.fifo = g.fifo
      ∧ (q.order = 4 → 2 ≤ q.scope → s'.NoLines t)
      ∧ (∀ l ∈ m.lanes, near l → s'.spadRead (at_ l).1 (at_ l).2 z
          = leBytes z (atomValue q.fn q.ty (old l) (g.src q.ty q.v l) (third l)).toNat)
      ∧ (∀ u x, (∀ l ∈ m.lanes, near l → ¬ ((at_ l).1 = u ∧ (at_ l).2 ≤ x ∧ x < (at_ l).2 + z)) →
          s'.spadRead u x 1 = s.spadRead u x 1)
      ∧ (∀ d la, q.dst = some (d, la) → ∃ p, g.Owes g' s.cur m la regs p ∧ p.uniform = false
          ∧ p.left = (m.lanes.filter fun l => s.spadLater t g (at_ l).1).length
          ∧ ((∀ l ∈ m.lanes, near l) → ∀ l ∈ m.lanes, ∀ k, k < regs.length → p.word k l = (old l).extractLsb' (32 * k) 32)
          ∧ ((∃ l ∈ m.lanes, ¬ near l) → p.kind = .remote ∧ p.bytes = z
              ∧ (∀ l ∈ m.lanes, near l → ∀ k, k < z →
                  SMap.get 0 p.data (8 * l + k) = (s.spadRead (at_ l).1 (at_ l).2 z).getD k 0)
              ∧ (∀ l ∈ m.lanes, ¬ near l →
                  s'.RemoteSent t g (at_ l).1 (.op q.fn) q.ty z (some p.id) l (addr l) (g.src q.ty q.v l) (third l))))
      ∧ (q.dst = none → g.WentOn g' s.cur ∧ g.SameValues g' ∧ ∀ l ∈ m.lanes, ¬ near l →
          s'.RemoteSent t g (at_ l).1 (.op q.fn) q.ty z none l (addr l) (g.src q.ty q.v l) (third l)))

/-- R142 to R144, R85, R413, R473: an access that is not a multiple of its size raises ALIGN with the lowest such address, in its space
(0 global, 1 scratchpad), before a noncanonical one raises XLATE with code 1; a scratchpad address outside the
team's or its cluster's scratchpads raises ALIGN, and a write of the barrier words PERM with code 3. That the noncanonical trap
carries the address of the first lane that has one is the model's choice (log 21): the rules say only the faulting VA. -/
def Obligations.MemoryTraps : Prop :=
  (∀ i s t g a off z ls, globalAccess i s g = some (a, off, z, ls) →
    Issuing s t g → g.fences = [] → (∀ d ∈ i.uses.rd, (g.reg d).shape = .general) →
    let bad := (ls.map (g.globalAddr a off)).filter fun v => v.toNat % z != 0
    (∀ v ∈ bad, (∀ w ∈ bad, v.toNat ≤ w.toNat) → Raises i s t g { cause := 9, info := 0, va := v })
    ∧ (bad = [] → ∀ v, (ls.map (g.globalAddr a off)).find? (fun v => !(canonical v)) = some v →
        Raises i s t g { cause := 0xB, info := 1, va := v }))
  ∧ (∀ i s t g addr z write ls, spadAccess i s g = some (addr, z, write, ls) →
    Issuing s t g → g.fences = [] → (∀ d ∈ i.uses.rd, (g.reg d).shape = .general) →
    let bad := (ls.map addr).filter fun a => (s.spadTarget t a z).isNone
    (∀ v ∈ bad, (∀ w ∈ bad, v.toNat ≤ w.toNat) → Raises i s t g { cause := 9, info := 1, va := v.setWidth 64 })
    ∧ (bad = [] → write = true → ∀ l ∈ ls, ∀ u off, s.spadTarget t (addr l) z = some (u, off) → off < 128 →
        Raises i s t g { cause := 0xA, info := 3, va := 0 }))

/-- R191, R192, R330, R394: a FENCE with an active lane goes on; where it has nothing to wait for, an acquire of scope `.clu` or wider
drops its context's L1 and texture-cache lines at once, and otherwise every later memory instruction of the group waits until what was
outstanding is over, its state unchanged but that the group parks where a die's DRAM or a port holds one of those accesses (R342); then
the next one, be it with no active lane, finds those lines dropped. So do CPY, TILEB and LNCH wait for the acquires of ordered accesses
alone (R192; that R394 names them not is the reading of log 38). R437: PREF
goes on and changes no register and no byte of memory. -/
def Obligations.FencesAndPrefetch : Prop :=
  (∀ (o : FenceOp) (i : Instr) (acq rel : Bool), (i, acq, rel) ∈
      [(.fenceAcq o, true, false), (.fenceRel o, false, true), (.fenceAr o, true, true), (.fenceSc o, true, true)] →
    ∀ s t g, Issuing s t g → let m := g.active o.g s.cur.lanes
      let waits := s.Outstanding t g m o.scope.toNat rel
      ∃ s' g', exec i s = .next s' ∧ SameMemory s s' ∧ s'.group? t.id g.num = some g' ∧ g.WentOn g' s.cur ∧ g.SameValues g'
        ∧ (m = 0 ∨ ¬ waits → g'.fences = g.fences)
        ∧ (m ≠ 0 → ¬ waits → acq = true → 2 ≤ o.scope.toNat → s'.NoLines t)
        ∧ (m ≠ 0 → waits → ∃ f, g'.fences = g.fences ++ [f] ∧ f.lanes = m ∧ f.acq = (acq && decide (2 ≤ o.scope.toNat))
            ∧ s.fenceBusy { g with fences := [f] } = true))
  ∧ (∀ (s : State) (g : Machine.Group), s.fenceBusy g = true ↔ ∃ f ∈ g.fences,
      (∃ e ∈ g.fifo, e.id ∈ f.entries ∧ ((∃ a ∈ e.lanes, f.lanes.has a.lane = true) ∨ e.readers &&& f.lanes ≠ 0))
        ∨ (∃ r ∈ s.remotes, r.id ∈ f.remotes) ∨ ∃ p ∈ g.pending, p.id ∈ f.pends ∧ p.left ≠ 0)
  ∧ (∀ (s : State) t g m scope, s.releaseWaits t g m scope = true ↔ s.Outstanding t g m scope true)
  ∧ (∀ i s t g, isMemoryAccess i = true → Issuing s t g → s.fenceBusy g = true → exec i s = .next (s.stayFor t g g.fenceIds))
  ∧ (∀ i s t g, (∃ o, i = .cpy o) ∨ (∃ o, i = .tilebClear o ∨ i = .tilebLoad o) ∨ (∃ o, i = .lnch o) → Issuing s t g →
    s.fenceBusy { g with fences := g.fences.filter fun f => f.access } = true →
    exec i s = .next (s.stayFor t g g.acquires.fenceIds))
  ∧ (∀ (s : State) t (g : Machine.Group) ids, s.stayFor t g ids = s
      ∨ (s.stayFor t g ids = s.block t g .access ∧ g.park = .none
        ∧ ∃ a ∈ s.accesses, a.tid = t.id ∧ a.grp = g.num ∧ a.owner ∈ ids ∧ s.held a.die (a.line * 128) = true))
  ∧ (∀ (o : PrefOp) s t g, Issuing s t g → s.fenceBusy g = false →
    ∃ s' g', exec (.pref o) s = .next s' ∧ SameMemory s s' ∧ s'.group? t.id g.num = some g' ∧ g.WentOn g' s.cur ∧ g.SameValues g'
      ∧ g'.fences = []
      ∧ (g.active o.g s.cur.lanes = 0 → (∃ f ∈ g.fences, f.acq = true) → s'.NoLines t))

/-! ### Barriers, waits, queues -/

namespace Sys2Proof.Machine

/-- A barrier word after one arrival with count `c`, and whether the phase has completed (R256): an arrival that opens a phase takes
up to `c - 1` held arrivals with it. -/
def afterArrival (w : DWord) (c : Nat) : DWord × Bool :=
  let k := if barCount w = 0 then min (barHeld w) (c - 1) else 0
  let a := (if barCount w = 0 then k else barArrived w) + 1
  if a = c then (barWord (barGen w + 1) 0 0 (barHeld w - k), true) else (barWord (barGen w) a c (barHeld w - k), false)

/-- One arrival of the group has left barrier `k` at `w`, and no other barrier of the team changed; where it completed the phase,
every group that waited for that goes on (R256). -/
structure Arrived (s s' : State) (t t' : Team) (g g' : Group) (k c : Nat) : Prop where
  bytes : SameMemory s s'
  team : s'.team? t.id = some t'
  group : t'.group? g.num = some g'
  word : t'.bar k = (afterArrival (t.bar k) c).1
  others : ∀ j, j ≠ k → t'.bar j = t.bar j
  goes : g'.frontier = (g.advance s.cur).frontier
  released : (afterArrival (t.bar k) c).2 = true → ∀ u x, t.group? u.num = some u → u.num ≠ g.num → u.park = .bar k x →
    x ≠ barGen (t'.bar k) → ∃ u', t'.group? u.num = some u' ∧ u'.park = .none

end Sys2Proof.Machine

/-- R256, R363, R364: BAR.arrive and BAR.sync count one arrival of the group on their barrier; BAR.arrive writes GEN as it stood and
goes on, BAR.sync parks until the phase completes; BAR.wait goes on where GEN differs from its operand and parks otherwise, and where
an engine arrived in a phase that is over it acquires at `.dev` scope (R198). An arrival is a release at `.team` scope. A count
of 0 or above 255 raises ILLEGAL with sub-code OPERAND, one that disagrees with the open phase BARRIER_COUNT; with no active lane
they only go on. -/
def Obligations.Barriers : Prop :=
  (∀ (o : BarArriveOp) s t g, Issuing s t g → let m := g.active o.g s.cur.lanes
    let c := (g.src32 o.count (m.lowest.getD 0)).toNat
    let w := t.bar o.k.toNat
    m ≠ 0 → 1 ≤ c → c ≤ 255 → barCount w = 0 ∨ barCount w = c →
    g.poolTraps (wordWrite o.d (g.shapeOf .plain [] m) fun _ => 0) = [] → s.releaseWaits t g m 1 = false →
    ∃ s' t' g', exec (.barArrive o) s = .next s' ∧ Arrived s s' t t' g g' o.k.toNat c ∧ g'.park = .none
      ∧ (∀ l, l < 32 → m.has l = true → g'.elem o.d.toNat l = barGen w) ∧ (∀ r, r ≠ o.d.toNat → g'.reg r = g.reg r)
      ∧ (∀ p, g'.pred p = g.pred p) ∧ g'.fpflags = g.fpflags)
  ∧ (∀ (o : BarSyncOp) s t g, Issuing s t g → let m := g.active o.g s.cur.lanes
    let c := (g.src32 o.count (m.lowest.getD 0)).toNat
    let w := t.bar o.k.toNat
    m ≠ 0 → 1 ≤ c → c ≤ 255 → barCount w = 0 ∨ barCount w = c → s.releaseWaits t g m 1 = false →
    ∃ s' t' g', exec (.barSync o) s = .next s' ∧ Arrived s s' t t' g g' o.k.toNat c ∧ g.SameValues g'
      ∧ g'.park = if (afterArrival w c).2 then .none else .bar o.k.toNat (barGen w))
  ∧ (∀ (o : BarWaitOp) s t g l, Issuing s t g → (g.active o.g s.cur.lanes).lowest = some l →
    ∃ s' g', exec (.barWait o) s = .next s' ∧ SameMemory s s' ∧ s'.group? t.id g.num = some g' ∧ g.SameValues g'
      ∧ g'.frontier = (g.advance s.cur).frontier
      ∧ (g'.park = if barGen (t.bar o.k.toNat) = g.elem o.a.toNat l then .bar o.k.toNat (g.elem o.a.toNat l) else .none)
      ∧ (barGen (t.bar o.k.toNat) ≠ g.elem o.a.toNat l → t.engineIn o.k.toNat (g.elem o.a.toNat l) = true → s'.NoLines t))
  ∧ (∀ (i : Instr) (gd : Guard) (k : Nat) (b : Src) s t g, (i, gd, k, b) ∈ (match i with
      | .barArrive o => [(i, o.g, o.k.toNat, o.count)] | .barSync o => [(i, o.g, o.k.toNat, o.count)] | _ => []) →
    Issuing s t g → let m := g.active gd s.cur.lanes
    let c := (g.src32 b (m.lowest.getD 0)).toNat
    m ≠ 0 → (c = 0 ∨ 255 < c → Raises i s t g { cause := 1, info := 9, va := 0 })
      ∧ (1 ≤ c → c ≤ 255 → (∀ d ∈ i.uses.rd, (g.reg d).shape = .general) → s.releaseWaits t g m 1 = false → barCount (t.bar k) ≠ 0 →
          barCount (t.bar k) ≠ c →
          Raises i s t g { cause := 8, info := BitVec.ofNat 32 (k + c * 2 ^ 8 + barCount (t.bar k) * 2 ^ 16), va := 0 }))
  ∧ (∀ (i : Instr) (gd : Guard) s t g, (i, gd) ∈ (match i with
      | .barArrive o => [(i, o.g)] | .barSync o => [(i, o.g)] | .barWait o => [(i, o.g)] | _ => []) →
    Issuing s t g → g.active gd s.cur.lanes = 0 →
    ∃ s' g', exec i s = .next s' ∧ OwnGroup s s' t g g' ∧ g.WentOn g' s.cur ∧ g.SameValues g')

/-- R485, R486, R179: a WAITA whose lanes all read the values they expect parks and watches their lines, at its own place; where one
lane differs it writes the values read and goes on; it waits for its group's pending results and for queued stores of the bytes that
it reads, by whatever address they are named (R180). R264: HALT of the handler leaves the team halted, away from its core and no
candidate, with an entry in the log. R489: YIELD goes on, and its team leaves its core for a waiting candidate that fits there. -/
def Obligations.WaitingAndLeaving : Prop :=
  (∀ (o : WaitaOp) s s1 t g vs, Issuing s t g → g.fences = [] → let m := g.active o.g s.cur.lanes
    let z := atomBytes o.ty
    m ≠ 0 → poolFor g (regsOf o.ty o.d) .general = [] → g.Aligned m.lanes o.a 0 z → 
    let clear := (∀ p ∈ g.pending, p.left = 0) ∧ ∀ e ∈ g.fifo, ∀ a ∈ e.lanes, ∀ l ∈ m.lanes, ∀ k, k < z →
      a.covers e.bytes (va57 (g.globalAddr o.a 0 l) + k) none = none
    let queued := ∃ x ∈ vs, ∃ e ∈ g.fifo, ∃ a ∈ e.lanes, ∃ k, k < z ∧
      (a.covers e.bytes (va57 (g.globalAddr o.a 0 x.1) + k) (some (x.2.2 + k))).isSome = true
    (¬ clear → ∃ ids, exec (.waita o) s = .next (s.stayFor t g ids))
    ∧ (clear → s.waitaReads t g o.a z m.lanes = (.ok vs, s1) → queued → ∃ ids, exec (.waita o) s = .next (s.stayFor t g ids))
    ∧ (clear → s.waitaReads t g o.a z m.lanes = (.ok vs, s1) → ¬ queued →
      let val := fun l => ((vs.find? fun x => x.1 == l).map fun x => x.2.1).getD 0
      ((∀ l ∈ m.lanes, val l = g.src o.ty o.b l) →
      ∃ s' g', exec (.waita o) s = .next s' ∧ SameMemory s s' ∧ s'.group? t.id g.num = some g' ∧ g.SameValues g'
        ∧ g'.frontier = g.frontier
        ∧ ∃ lines, g'.park = .waita lines false ∧ ∀ x ∈ vs, lineOf x.2.2 ∈ lines
            ∧ (⟨lineOf x.2.2, t.id, g.num⟩ : Watch) ∈ s'.watches)
    ∧ (¬ (∀ l ∈ m.lanes, val l = g.src o.ty o.b l) →
      ∃ s' g', exec (.waita o) s = .next s' ∧ SameMemory s s' ∧ s'.group? t.id g.num = some g' ∧ g.WentOn g' s.cur
        ∧ g.Kept g' (regsOf o.ty o.d) [] false
        ∧ ∀ l, l < 32 → g'.typed o.ty o.d l = if m.has l then lowBits o.ty (val l) else g.typed o.ty o.d l)))
  ∧ (∀ s t g, Issuing s t g → s.cur.handler = true → t.place = .running → t.cw * t.ch = 1 → t.halted = false →
    ∃ s' t', exec .halt s = .next s' ∧ s'.team? t.id = some t' ∧ t'.halted = true ∧ t'.place.left = true ∧ t'.readyAt = none
      ∧ LogEvent.halted t.id ∈ s'.log)
  ∧ (∀ gd s t g, Issuing s t g →
    (g.active gd s.cur.lanes = 0 ∨ (s.done t g).fitsWithout t.die t.core t.eff [t.id] = none →
      ∃ s' g', exec (.yield gd) s = .next s' ∧ OwnGroup s s' t g g' ∧ g.WentOn g' s.cur ∧ g.SameValues g')
    ∧ (∀ c, g.active gd s.cur.lanes ≠ 0 → (s.done t g).fitsWithout t.die t.core t.eff [t.id] = some c → t.place = .running →
        t.cw * t.ch = 1 →
        ∃ s' t', exec (.yield gd) s = .next s' ∧ s'.team? t.id = some t' ∧ t'.place.left = true ∧ t'.after = some c))

/-- R83, R441 to R447, R172, R377: QPUSH of `q6` and `q7` appends one entry per active lane in lane order where all fit, and parks
otherwise; QPOP takes the entries in the same order and leaves them pending, a span popped from `q3` taking a ticket that is retired at
once; QPEEK writes them and changes no queue, and lanes beyond the last receive zeros with their predicate cleared. CPY and QPUSH of
`q0` enqueue their lanes' descriptors in lane order, all of them where the 16 entries, or an empty `q0`, and the 32 commands have room
and every descriptor's line is present, and otherwise none, and park; every lane's descriptor is read before any lane's command clears a
line, the model's choice (log 34). A pop of `q1` acquires at `.dev` scope (R175). A queue that lanes may not
push, or pop, raises QUEUE with its number. No byte of memory changes. -/
def Obligations.QueueInstructions : Prop :=
  (∀ (o : QpushOp) s t g, Issuing s t g → o.q = 6 ∨ o.q = 7 → let m := g.active o.g s.cur.lanes
    let es := m.lanes.map fun l => g.elem o.a.toNat l
    ((t.fifoQ o.q.toNat).length + es.length ≤ 64 → s.releaseWaits t g m 1 = false →
      ∃ s' t' g', exec (.qpush o) s = .next s' ∧ SameMemory s s' ∧ s'.team? t.id = some t' ∧ t'.group? g.num = some g'
        ∧ g.WentOn g' s.cur ∧ g.SameValues g' ∧ t'.fifoQ o.q.toNat = t.fifoQ o.q.toNat ++ es)
    ∧ (m ≠ 0 → 64 < (t.fifoQ o.q.toNat).length + es.length →
      ∃ s' g', exec (.qpush o) s = .next s' ∧ OwnGroup s s' t g g' ∧ g.SameValues g' ∧ g'.frontier = g.frontier
        ∧ g'.park = .retry (.queue o.q.toNat)))
  ∧ (∀ (o : QpopOp) s t g, Issuing s t g → o.q.toNat ∈ [1, 6, 7] → let m := g.active o.g s.cur.lanes
    let es := if o.q = 1 then t.q1 else t.fifoQ o.q.toNat
    let place := fun l => (m.lanes.filter fun k => k < l).length
    poolFor g [o.d.toNat] .general = [] →
    (m ≠ 0 → es = [] → ∃ s' g', exec (.qpop o) s = .next s' ∧ OwnGroup s s' t g g' ∧ g.SameValues g' ∧ g'.frontier = g.frontier
      ∧ g'.park = .retry (.queue o.q.toNat))
    ∧ (m = 0 ∨ es ≠ [] → ∃ s' t' g' p, exec (.qpop o) s = .next s' ∧ SameMemory s s' ∧ s'.team? t.id = some t'
        ∧ t'.group? g.num = some g' ∧ g'.frontier = (g.advance s.cur).frontier ∧ (∀ r l, l < 32 → g'.elem r l = g.elem r l)
        ∧ (if o.q = 1 then t'.q1 else t'.fifoQ o.q.toNat) = es.drop m.lanes.length
        ∧ (o.q = 1 → m ≠ 0 → s'.NoLines t)
        ∧ g'.pending = (g.tickWindows s.cur.lanes).pending ++ [p] ∧ p.isReady = true ∧ p.active = m ∧ p.regs = [o.d.toNat]
        ∧ p.uniform = false
        ∧ (∀ q, q ∈ p.preds ↔ ∃ x : BitVec 3, o.pp = some x ∧ x.toNat = q ∧ q ≠ 7)
        ∧ (∀ l, l < 32 → m.has l = true → p.word 0 l = es.getD (place l) 0 ∧ p.pvals.has l = decide (place l < es.length))))
  ∧ (∀ (o : QpopOp) s t g, Issuing s t g → o.q = 3 → let m := g.active o.g s.cur.lanes
    let es := t.cov.q3
    let place := fun l => (m.lanes.filter fun k => k < l).length
    let open_ := fun (c : Cov) => c.tickets.filter fun k => k.op.isNone
    poolFor g [o.d.toNat, o.d.toNat + 1] .general = [] →
    (m ≠ 0 → es = [] → ∃ s' g', exec (.qpop o) s = .next s' ∧ OwnGroup s s' t g g' ∧ g.SameValues g' ∧ g'.frontier = g.frontier
      ∧ g'.park = .retry (.queue 3))
    ∧ (m = 0 ∨ es ≠ [] → ∃ s' t' g' p, exec (.qpop o) s = .next s' ∧ SameMemory s s' ∧ s'.team? t.id = some t'
        ∧ t'.group? g.num = some g' ∧ g'.frontier = (g.advance s.cur).frontier ∧ (∀ r l, l < 32 → g'.elem r l = g.elem r l)
        ∧ t'.cov.q3 = es.drop m.lanes.length ∧ t'.cov.popped = t.cov.popped + BitVec.ofNat 32 (min m.lanes.length es.length)
        ∧ open_ t'.cov = open_ t.cov
        ∧ g'.pending = (g.tickWindows s.cur.lanes).pending ++ [p] ∧ p.isReady = true ∧ p.active = m
        ∧ p.regs = [o.d.toNat, o.d.toNat + 1] ∧ p.uniform = false
        ∧ (∀ q, q ∈ p.preds ↔ ∃ x : BitVec 3, o.pp = some x ∧ x.toNat = q ∧ q ≠ 7)
        ∧ (∀ l, l < 32 → m.has l = true → p.word 0 l = (es.getD (place l) (0, 0)).1 ∧ p.word 1 l = (es.getD (place l) (0, 0)).2
            ∧ p.pvals.has l = decide (place l < es.length))))
  ∧ (∀ (o : QpeekOp) s t g, Issuing s t g → o.q = 3 → let m := g.active o.g s.cur.lanes
    let place := fun l => (m.lanes.filter fun k => k < l).length
    poolFor g [o.d.toNat, o.d.toNat + 1] .general = [] →
    ∃ s' g', exec (.qpeek o) s = .next s' ∧ OwnGroup s s' t g g' ∧ g.WentOn g' s.cur
      ∧ g.Kept g' [o.d.toNat, o.d.toNat + 1] (o.pp.toList.map fun p => p.toNat) false
      ∧ (∀ l, l < 32 → m.has l = true → g'.elem o.d.toNat l = (t.cov.q3.getD (place l) (0, 0)).1
          ∧ g'.elem (o.d.toNat + 1) l = (t.cov.q3.getD (place l) (0, 0)).2)
      ∧ (∀ p : BitVec 3, o.pp = some p → p ≠ 7 → ∀ l, l < 32 →
          (g'.pred p.toNat).has l = if m.has l then decide (place l < t.cov.q3.length) else (g.pred p.toNat).has l))
  ∧ (∀ (o : QpeekOp) s t g, Issuing s t g → o.q.toNat ∈ [1, 6, 7] → let m := g.active o.g s.cur.lanes
    let es := if o.q = 1 then t.q1 else t.fifoQ o.q.toNat
    let place := fun l => (m.lanes.filter fun k => k < l).length
    poolFor g [o.d.toNat] .general = [] →
    ∃ s' g', exec (.qpeek o) s = .next s' ∧ OwnGroup s s' t g g' ∧ g.WentOn g' s.cur
      ∧ g.Kept g' [o.d.toNat] (o.pp.toList.map fun p => p.toNat) false
      ∧ (∀ l, l < 32 → m.has l = true → g'.elem o.d.toNat l = es.getD (place l) 0)
      ∧ (∀ p : BitVec 3, o.pp = some p → p ≠ 7 → ∀ l, l < 32 →
          (g'.pred p.toNat).has l = if m.has l then decide (place l < es.length) else (g.pred p.toNat).has l))
  ∧ (∀ (i : Instr) (gd : Guard) (a : VR) (s : State) t g cs, (i, gd, a) ∈ (match i with
      | .cpy o => [(i, o.g, o.a)] | .qpush o => if o.q = 0 then [(i, o.g, o.a)] else [] | _ => []) →
    Issuing s t g → s.fenceBusy g.acquires = false → let m := g.active gd s.cur.lanes
    let waiting := fun (u : Team) => (u.cmds.filter fun c => !c.started).length
    let room := (waiting t + m.lanes.length ≤ 16 ∨ waiting t = 0) ∧ t.cmds.length + m.lanes.length ≤ 32
    let key := fun (c : DriftCmd) => (c.id, c.kind, c.gaddr, c.soff)
    (m ≠ 0 → ¬ room → ∃ s' g', exec i s = .next s' ∧ OwnGroup s s' t g g' ∧ g.SameValues g' ∧ g'.frontier = g.frontier
      ∧ g'.park = .retry (.queue 0))
    ∧ (m = 0 ∨ (room ∧ s.ownWrites t g = false) → s.readDescs t g a s.nextId m.lanes = .ok cs →
      ∃ s' t' g', exec i s = .next s' ∧ SameMemory s s' ∧ s'.team? t.id = some t' ∧ t'.group? g.num = some g' ∧ g.SameValues g'
        ∧ g.WentOn g' s.cur ∧ cs.length = m.lanes.length ∧ t'.cmds.map key = t.cmds.map key ++ cs.map key
        ∧ (m ≠ 0 → waiting t' ≤ 16))
    ∧ (m ≠ 0 → room → s.ownWrites t g = false → s.readDescs t g a s.nextId m.lanes = .error .absent →
      ∃ s' g', exec i s = .next s' ∧ OwnGroup s s' t g g' ∧ g.SameValues g' ∧ g'.frontier = g.frontier ∧ g'.park = .retry .lines)
    ∧ (m ≠ 0 → room → s.ownWrites t g = false → ∀ tr, s.readDescs t g a s.nextId m.lanes = .error (.trap tr) → Raises i s t g tr))
  ∧ (∀ (s : State) t g a id l ls, let off := (g.elem a.toNat l).toNat
    (off < 128 ∨ off % 64 ≠ 0 ∨ t.spadEnd < off + 64 →
      s.readDescs t g a id (l :: ls) = .error (.trap { cause := 9, info := 1, va := BitVec.ofNat 64 off }))
    ∧ (128 ≤ off → off % 64 = 0 → off + 64 ≤ t.spadEnd → t.linePresent off = false → s.readDescs t g a id (l :: ls) = .error .absent))
  ∧ (∀ (o : QpushOp) s t g, Issuing s t g → o.q.toNat ∈ [1, 3, 4, 5] →
    Raises (.qpush o) s t g { cause := 0xD, info := o.q.setWidth 32, va := 0 })
  ∧ (∀ (i : Instr) (d : Nat) (q : BitVec 10) s t g, (i, d, q) ∈ (match i with
      | .qpop o => [(i, o.d.toNat, o.q)] | .qpeek o => [(i, o.d.toNat, o.q)] | _ => []) →
    Issuing s t g → q.toNat ∈ [0, 2, 4, 5] → (g.reg d).shape = .general →
    Raises i s t g { cause := 0xD, info := q.setWidth 32, va := 0 })

/-- R440, R176: PUBL of two aligned disjoint ranges whose pages agree parks its group behind an ordered invalidation of both, once the
kind 3 commands that its team had enqueued when it first looked are complete; once no access that used a removed translation is outstanding,
INVALIDATION_COMPLETE exchanges the pages' leaf entries and the group goes on. A size of zero, misalignment or overlapping ranges raise
ALIGN with D's base, and pages that do not agree ALIGN with the address in D of the first that does not. -/
def Obligations.Publishing : Prop :=
  (∀ (o : PublOp) s t g l, Issuing s t g → (g.active o.g s.cur.lanes).lowest = some l →
    let d := g.pairElem o.a.toNat l
    let sh := g.pairElem o.b.toNat l
    let n := g.pairElem o.c.toNat l
    let ranges := [(va57 d, n.toNat), (va57 sh, n.toNat)]
    s.publCheck t.ctx d sh n = .pass → s.releaseWaits t g (g.active o.g s.cur.lanes) 4 = false →
    (∀ ids, g.publSeen = some ids → ∀ c ∈ t.cmds, c.id ∉ ids) →
    (g.publSeen = none → ∀ c ∈ t.cmds, c.kind ≠ 3) → s.publBusy t.ctx ranges = false →
    ∃ s' g' v, exec (.publ o) s = .next s' ∧ SameMemory s s' ∧ s'.group? t.id g.num = some g' ∧ g.SameValues g'
      ∧ g'.frontier = (g.advance s.cur).frontier ∧ g'.park = .publ v.id ∧ s'.invals = s.invals ++ [v] ∧ v.ctx = t.ctx
      ∧ v.ranges = ranges ∧ v.purpose = .publ t.id g.num ∧ ∀ e ∈ s'.tlb, e.hit t.ctx ranges = false)
  ∧ (∀ (o : PublOp) s t g l, Issuing s t g → (g.active o.g s.cur.lanes).lowest = some l →
    let d := g.pairElem o.a.toNat l
    let sh := g.pairElem o.b.toNat l
    let n := g.pairElem o.c.toNat l
    let odd := n = 0 ∨ n.toNat % 4096 ≠ 0 ∨ d.toNat % 4096 ≠ 0 ∨ sh.toNat % 4096 ≠ 0
      ∨ (d.toNat < sh.toNat + n.toNat ∧ sh.toNat < d.toNat + n.toNat)
    canonical d = true → canonical sh = true → (n ≠ 0 → canonical (d + (n - 1)) = true ∧ canonical (sh + (n - 1)) = true) →
    (odd → Raises (.publ o) s t g { cause := 9, info := 0, va := d })
    ∧ (¬ odd → ∀ x y, s.walk t.ctx (va57 d) = .page x → s.walk t.ctx (va57 sh) = .page y → x.w = true → y.w = true →
        x.size ≠ y.size ∨ x.va ≠ va57 d ∨ y.va ≠ va57 sh ∨ n.toNat < x.size → Raises (.publ o) s t g { cause := 9, info := 0, va := d }))
  ∧ (∀ (o : PublOp) s t g l, Issuing s t g → (g.active o.g s.cur.lanes).lowest = some l →
    s.publCheck t.ctx (g.pairElem o.a.toNat l) (g.pairElem o.b.toNat l) (g.pairElem o.c.toNat l) = .pass →
    s.releaseWaits t g (g.active o.g s.cur.lanes) 4 = false →
    let before := g.publSeen.getD ((t.cmds.filter fun c => c.kind == 3).map fun c => c.id)
    (∃ c ∈ t.cmds, c.id ∈ before) →
    ∃ s' g', exec (.publ o) s = .next s' ∧ SameMemory s s' ∧ s'.group? t.id g.num = some g' ∧ g.SameValues g'
      ∧ g'.frontier = g.frontier ∧ g'.park = .retry .drift ∧ g'.publSeen = some before)
  ∧ (∀ (o : PublOp) s t g, Issuing s t g → g.active o.g s.cur.lanes = 0 →
    ∃ s' g', exec (.publ o) s = .next s' ∧ OwnGroup s s' t g g' ∧ g.WentOn g' s.cur ∧ g.SameValues g')
  ∧ (∀ s v tid grp d sh n rest, s.invals.find? (fun x => x.id == v.id) = some v → v.purpose = .publ tid grp →
    v.ranges = (d, n) :: (sh, n) :: rest → s.invalWaits v = false → s.swapHeld v = false → s.staleAreas = [] →
    ∃ s', exec (.invalidationComplete v.id) s = .next s'
      ∧ s'.mem = (s.swapRuns v.ctx d sh (s.publPages v.ctx (BitVec.ofNat 64 d) (n / 4096) 0 n)).mem
      ∧ s'.invals = s.invals.filter (fun x => x.id != v.id)
      ∧ ∀ g, s.group? tid grp = some g → g.park = .publ v.id → ∃ g', s'.group? tid grp = some g' ∧ g'.park = .none)
  ∧ (∀ (s : State) pd ps n ctx d sh, s.leafRun ctx d = some (pd, n) → s.leafRun ctx sh = some (ps, n) →
    (∀ i j, i < n → j < n → pd + 8 * i + 8 ≤ ps + 8 * j ∨ ps + 8 * j + 8 ≤ pd + 8 * i) →
    ∀ i, i < n → (s.swapRuns ctx d sh [0]).pte (pd + 8 * i) = s.pte (ps + 8 * i)
      ∧ (s.swapRuns ctx d sh [0]).pte (ps + 8 * i) = s.pte (pd + 8 * i))

/-! ### Records, ownership, launching -/

namespace Sys2Proof.Machine

/-- Guard, KIND, destination and object registers of OWN, and the launch handle of a lane of OWN.launch. -/
def ownOf : Instr → Option (Guard × BitVec 2 × VR × VR × (Group → Nat → Option Word))
  | .own o => some (o.g, o.kind, o.d, o.a, fun _ _ => none)
  | .ownLaunch o => some (o.g, o.kind, o.d, o.a, fun g l => some (g.elem o.b.toNat l))
  | _ => none

end Sys2Proof.Machine

/-- R449 to R452, R333: RECA gives each active lane one of the lowest-numbered free slots, all or none, and parks where the stockpile
has fewer; RECP commits its lanes' own slots and queues them on `q4` in lane order; RECF frees slots of its team's own or of its
batch. A slot or node that the instruction may not name raises QUEUE, with bit 8 set for a node; that the lowest lane of a RECP which
names one decides which of the two is reported is the model's choice (log 21). In a team whose launch has no graph all three raise QUEUE;
that they do so whatever their mask, also with no active lane, is the model's choice (log 39). -/
def Obligations.RecordInstructions : Prop :=
  (∀ (o : RecaOp) s t g gr, Issuing s t g → s.graph? t.launch = some gr → g.park = .none → let m := g.active o.g s.cur.lanes
    let n := m.lanes.length
    let place := fun l => (m.lanes.filter fun k => k < l).length
    (∀ l ∈ m.lanes, (g.src32 o.node l).toNat < gr.nodes.length) → poolFor g [o.d.toNat, o.d.toNat + 1] .general = [] →
    ((gr.pick n).length = n →
      ∃ s' g' gr', exec (.reca o) s = .next s' ∧ SameMemory s s' ∧ s'.group? t.id g.num = some g' ∧ g.WentOn g' s.cur
        ∧ g.Kept g' [o.d.toNat, o.d.toNat + 1] [] false
        ∧ (∀ l ∈ m.lanes, g'.pairElem o.d.toNat l = gr.slotVa ((gr.pick n).getD (place l) 0))
        ∧ s'.graph? t.launch = some gr' ∧ gr'.alloc = gr.alloc ++ (gr.pick n).map fun i => (i, some t.id))
    ∧ ((gr.pick n).length < n →
      ∃ s' g', exec (.reca o) s = .next s' ∧ OwnGroup s s' t g g' ∧ g.SameValues g' ∧ g'.frontier = g.frontier
        ∧ g'.park = .retry (.stock none)))
  ∧ (∀ (gr : Graph) n, (gr.pick n).length ≤ n ∧ (gr.pick n).Nodup ∧ (∀ i ∈ gr.pick n, i < gr.slots ∧ gr.taken i = false)
      ∧ ((gr.pick n).length < n → ∀ i, i < gr.slots → gr.taken i = false → i ∈ gr.pick n))
  ∧ (∀ (o : RecpOp) s t g gr (slots : List Nat), Issuing s t g → s.graph? t.launch = some gr → let m := g.active o.g s.cur.lanes
    let va := fun l => g.pairElem o.a.toNat l
    (∀ l ∈ m.lanes, (g.src32 o.node l).toNat < gr.nodes.length) → slots.Nodup → slots.length = m.lanes.length →
    (∀ l ∈ m.lanes, ∀ i, gr.slotOf (va l) = some i → (i, some t.id) ∈ gr.alloc) →
    (m.lanes.map fun l => gr.slotOf (va l)) = slots.map some →
    t.q4.length + m.lanes.length ≤ 32 → s.releaseWaits t g m 4 = false →
    ∃ s' t' g' gr', exec (.recp o) s = .next s' ∧ SameMemory s s' ∧ s'.team? t.id = some t' ∧ t'.group? g.num = some g'
      ∧ g.WentOn g' s.cur ∧ g.SameValues g' ∧ t'.q4 = t.q4 ++ m.lanes.map (fun l => ((g.src32 o.node l).toNat, va l))
      ∧ s'.graph? t.launch = some gr' ∧ gr'.alloc = gr.alloc.map fun x => if x.1 ∈ slots then (x.1, none) else x)
  ∧ (∀ (o : AOp) s t g gr, Issuing s t g → s.graph? t.launch = some gr → let m := g.active o.g s.cur.lanes
    let va := fun l => g.pairElem o.a.toNat l
    (∀ l ∈ m.lanes, ∃ i, gr.slotOf (va l) = some i ∧ ((i, some t.id) ∈ gr.alloc ∨ i ∈ t.batchSlots)) →
    ∃ s' t' g' gr', exec (.recf o) s = .next s' ∧ SameMemory s s' ∧ s'.team? t.id = some t' ∧ t'.group? g.num = some g'
      ∧ g.WentOn g' s.cur ∧ g.SameValues g' ∧ s'.graph? t.launch = some gr'
      ∧ (∀ x, x ∈ gr'.alloc ↔ x ∈ gr.alloc ∧ ∀ l ∈ m.lanes, gr.slotOf (va l) ≠ some x.1)
      ∧ ∀ i, i ∈ t'.batchSlots ↔ i ∈ t.batchSlots ∧ ∀ l ∈ m.lanes, gr.slotOf (va l) ≠ some i)
  ∧ (∀ o s t g gr l, Issuing s t g → s.graph? t.launch = some gr → l ∈ (g.active (RecpOp.g o) s.cur.lanes).lanes →
    let before := (g.active o.g s.cur.lanes).lanes.filter fun k => k < l
    let node := fun k => (g.src32 o.node k).toNat
    let slot := fun k => gr.slotOf (g.pairElem o.a.toNat k)
    (∀ k ∈ before, node k < gr.nodes.length ∧ ∃ i, slot k = some i ∧ (i, some t.id) ∈ gr.alloc) → (before.map slot).Nodup →
    (gr.nodes.length ≤ node l → Raises (.recp o) s t g { cause := 0xD, info := 0x104, va := 0 })
    ∧ (node l < gr.nodes.length → (∀ i, slot l = some i → (i, some t.id) ∈ gr.alloc → ∃ k ∈ before, slot k = some i) →
        Raises (.recp o) s t g { cause := 0xD, info := 4, va := 0 }))
  ∧ (∀ (i : Instr) s t g, Issuing s t g → s.graph? t.launch = none →
    (∃ o, i = .recf o) ∨ (∃ o, i = .recp o) ∨ (∃ o, i = .reca o ∧ poolFor g [o.d.toNat, o.d.toNat + 1] .general = []) →
    Raises i s t g { cause := 0xD, info := 4, va := 0 })

/-- R431, R432, R361, R362, R458, R459: each lane's request of OWN, AWAIT and RSLV, on one lane. OWN of an object whose entry is open
answers BUSY, of a full area FULL, and otherwise makes an entry and answers OK, owned by the team, or for OWN.launch by the launch that
its handle names. AWAIT of an object without an open entry answers at once, an acquire at `.sys` (R201), and of an open one parks and
counts the team once among its waiters (R238). RSLV settles the object's open entry. -/
def Obligations.OwnershipInstructions : Prop :=
  (∀ i gd kind d a handle, ownOf i = some (gd, kind, d, a, handle) →
    ∀ (s s1 : State) t g objs, Issuing s t g → let m := g.active gd s.cur.lanes
    poolFor g [d.toNat] .general = [] → s.objects t g a m.lanes = (.ok objs, s1) →
    ∃ s' g', exec i s = .next s' ∧ s'.group? t.id g.num = some g' ∧ g.WentOn g' s.cur ∧ g.Kept g' [d.toNat] [] false
      ∧ ∀ l obj die, objs = [(l, obj, die)] → m = Mask.single l → l < 32 →
          let named := (handle g l).map (s1.named t.ctx)
          let busy := s1.own.any fun e => e.ctx == t.ctx && e.obj == obj && e.state.open_
          (busy = true ∨ named = some none → g'.elem d.toNat l = 1 ∧ s'.own = s1.own)
          ∧ (busy = false → named ≠ some none → s1.freeIndex t.ctx = none → g'.elem d.toNat l = 2 ∧ s'.own = s1.own)
          ∧ (∀ k, busy = false → named ≠ some none → s1.freeIndex t.ctx = some k → g'.elem d.toNat l = 0
              ∧ ∃ e, s'.own = s1.own ++ [e] ∧ e.ctx = t.ctx ∧ e.index = k ∧ e.die = die ∧ e.obj = obj ∧ e.kind = kind.toNat
                  ∧ e.waiters = 0 ∧ e.link = 0x3FFF
                  ∧ (named = none → e.state = .running ∧ e.owner = .team t.id ∧ e.olid = t.lid ∧ e.oindex = BitVec.ofNat 32 t.index)
                  ∧ (∀ n, named = some (some n) → e.state = n.state ∧ e.olid = n.lid ∧ e.oindex = 0xFFFFFFFF
                      ∧ e.owner = .packet (s1.partitionOf t.ctx) n.queue n.index)))
  ∧ (∀ (o : DaOp) s s1 t g objs, Issuing s t g → let m := g.active o.g s.cur.lanes
    let entries := objs.map fun x => (x.1, (s1.newestEntry t.ctx x.2.1).map fun e => e.id)
    poolFor g [o.d.toNat] .general = [] → s.objects t g o.a m.lanes = (.ok objs, s1) →
    ((∀ x ∈ entries, ∀ e, x.2 = some e → ∀ y, s1.entry? e = some y → y.state.open_ = false) →
      ∃ s' g', exec (.await o) s = .next s' ∧ SameMemory s s' ∧ s'.group? t.id g.num = some g' ∧ g.WentOn g' s.cur
        ∧ g.Kept g' [o.d.toNat] [] false ∧ (m ≠ 0 → s'.NoLines t)
        ∧ ∀ l obj die, objs = [(l, obj, die)] → m = Mask.single l → l < 32 →
            g'.elem o.d.toNat l = match s1.newestEntry t.ctx obj with
              | none => 2
              | some e => match s1.entry? e.id with
                | some y => if y.state = .resolved then 0 else 1
                | none => 1)
    ∧ (∀ l obj die e, objs = [(l, obj, die)] → s1.newestEntry t.ctx obj = some e → s1.entry? e.id = some e → e.state.open_ = true →
      ∃ s' g' e', exec (.await o) s = .next s' ∧ s'.group? t.id g.num = some g' ∧ g'.park = .await o.d.toNat [(l, some e.id)]
        ∧ g'.frontier = (g.advance s.cur).frontier ∧ (∀ r k, k < 32 → g'.elem r k = g.elem r k)
        ∧ s'.entry? e.id = some e' ∧ ((∀ h ∈ t.groups, h.num ≠ g.num → e.id ∉ h.waitEntries) → e' = { e with waiters := e.waiters + 1 })
        ∧ ((∃ h ∈ t.groups, h.num ≠ g.num ∧ e.id ∈ h.waitEntries) → e' = e)))
  ∧ (∀ (o : DaOp) s s1 t g objs, Issuing s t g → let m := g.active o.g s.cur.lanes
    poolFor g [o.d.toNat] .general = [] → s.objects t g o.a m.lanes = (.ok objs, s1) → s.releaseWaits t g m 5 = false →
    ∃ s' g', exec (.rslv o) s = .next s' ∧ s'.group? t.id g.num = some g' ∧ g.WentOn g' s.cur ∧ g.Kept g' [o.d.toNat] [] false
      ∧ ∀ l obj die, objs = [(l, obj, die)] → m = Mask.single l → l < 32 →
          (s1.newestEntry t.ctx obj = none → g'.elem o.d.toNat l = 2 ∧ s'.own = s1.own)
          ∧ (∀ e, s1.newestEntry t.ctx obj = some e →
              (2 ≤ e.kind → g'.elem o.d.toNat l = 3 ∧ s'.own = s1.own)
              ∧ (e.kind < 2 → e.state.open_ = false → g'.elem o.d.toNat l = 1 ∧ s'.own = s1.own)
              ∧ (e.kind < 2 → e.state.open_ = true → g'.elem o.d.toNat l = 0
                  ∧ (0 < e.waiters → s1.entry? e.id = some e → s'.entry? e.id = some { e with state := .resolved })
                  ∧ (e.waiters = 0 → s1.entry? e.id = some e → s'.entry? e.id = none))))

/-- R416 to R419, R219: LNCH completes where its packets lie in the scratchpad and every queue may be written and has room, and no earlier
access of its group that it must come after is outstanding (R185, R191, R192); its headers
and ring slots are translated before it parks for room. On one
lane it stores the 128 bytes of its packet in the next slot of the ring and then WRITE in the queue's header, changes no other byte of
memory, and answers the launch's handle. A queue that it may not write raises PERM with code 4, a packet address out of place ALIGN. -/
def Obligations.Launching : Prop :=
  (∀ (o : LnchOp) s s1 t g hs, Issuing s t g → let m := g.active o.g s.cur.lanes
    let addr := fun l => g.elem o.a.toNat l
    let queue := fun l => (g.src32 o.q l).toNat
    let plan := lnchPlan [] hs
    poolFor g [o.d.toNat] .general = [] → (∀ l ∈ m.lanes, packetAt t (addr l) = true) →
    (∀ l ∈ m.lanes, (queueAllowed s t.ctx (queue l)).isSome = true) → (∀ l ∈ m.lanes, t.linePresent (addr l).toNat = true) →
    s.fenceBusy g.acquires = false → s.ownWrites t g = false → s.releaseWaits t g m 4 = false → s.lnchHeaders t (m.lanes.map queue) = (.ok hs, s1) →
    (∀ s2 s3 u v, s1.lnchSlots t plan = (.ok v, s2) → lnchRoom plan = true →
      s2.lnchAll t ((plan.zip m.lanes).map fun (x, l) => (x.1, x.2.1, x.2.2, t.spadRead (addr l).toNat 128)) = (.ok u, s3) →
      ∃ s' g', exec (.lnch o) s = .next s' ∧ s'.mem = s3.mem ∧ s'.group? t.id g.num = some g' ∧ g.WentOn g' s.cur
        ∧ g.Kept g' [o.d.toNat] [] false
        ∧ ∀ l h, m = Mask.single l → l < 32 → hs = [(queue l, h)] →
            g'.elem o.d.toNat l = BitVec.ofNat 32 (queue l * 2 ^ 26 + h.write % 2 ^ 26))
    ∧ (∀ s2 v, s1.lnchSlots t plan = (.ok v, s2) → lnchRoom plan = false →
      ∃ s' g', exec (.lnch o) s = .next s' ∧ SameMemory s s' ∧ s'.group? t.id g.num = some g' ∧ g.SameValues g'
        ∧ g'.frontier = g.frontier ∧ g'.park = .retry .launchRoom)
    ∧ (∀ s2 c va, s1.lnchSlots t plan = (.fault c va, s2) →
      ∃ s' g', exec (.lnch o) s = .next s' ∧ SameMemory s s' ∧ s'.group? t.id g.num = some g' ∧ g.SameValues g'
        ∧ g'.frontier = g.frontier ∧ ∃ f ∈ s'.faults, g'.park = .fault f.id ∧ f.kind = 1 ∧ f.cause = c))
  ∧ (∀ s t q h sa x ha bytes, bytes.length = 128 →
    (State.direct s t.ctx t.die (QHeader.slotVa h h.write) .write).1 = .ok (sa, false) → queueAllowed s t.ctx q = some x →
    let s3 := (s.directWrite t.ctx t.die (h.slotVa h.write) bytes).2
    queueAllowed s3 t.ctx q = some x → (s3.direct t.ctx t.die x.header .write).1 = .ok (ha, false) →
    ∃ s', s.lnchAll t [(q, h, h.write, bytes)] = (.ok (), s')
      ∧ (∀ i, i < 8 → s'.byte (ha + i) = BitVec.ofNat 8 ((h.write + 1) / 256 ^ i))
      ∧ (∀ i, i < 128 → (sa + i < ha ∨ ha + 8 ≤ sa + i) → s'.byte (sa + i) = bytes.getD i 0)
      ∧ ∀ a, (a < sa ∨ sa + 128 ≤ a) → (a < ha ∨ ha + 8 ≤ a) → s'.byte a = s.byte a)
  ∧ (∀ (o : LnchOp) s t g l, Issuing s t g → s.fenceBusy g.acquires = false → (g.reg o.d.toNat).shape = .general → l ∈ (g.active o.g s.cur.lanes).lanes →
    ((∀ k ∈ (g.active o.g s.cur.lanes).lanes, packetAt t (g.elem o.a.toNat k) = true) →
      queueAllowed s t.ctx (g.src32 o.q l).toNat = none → Raises (.lnch o) s t g { cause := 0xA, info := 4, va := 0 })
    ∧ (packetAt t (g.elem o.a.toNat l) = false →
        (∀ k ∈ (g.active o.g s.cur.lanes).lanes, packetAt t (g.elem o.a.toNat k) = false →
          (g.elem o.a.toNat l).toNat ≤ (g.elem o.a.toNat k).toNat) →
        Raises (.lnch o) s t g { cause := 9, info := 1, va := (g.elem o.a.toNat l).setWidth 64 }))

/-! ### The matrix stream -/

namespace Sys2Proof.Machine

/-- A stream word has left its team as `t'` and its stream as `m'`; every other team is as before, every byte of memory too, and every
field of the state but the cores. -/
structure OwnStream (s s' : State) (t t' : Team) (m' : Stream) : Prop where
  state : s' = { s with teams := s'.teams, cores := s'.cores }
  others : ∀ tid, tid ≠ t.id → s'.team? tid = s.team? tid
  team : s'.team? t.id = some t'
  stream : t'.stream = some m'

/-- The register that a sequencer word writes, its value, and the next word's address (R279). -/
def seqWord (m : Stream) : Instr → Option (Nat × Word × DWord)
  | .mset d imm => some (d.toNat, imm.setWidth 32, m.pc + 8)
  | .msetHi d imm => some (d.toNat, imm ++ (m.reg d.toNat).extractLsb' 0 20, m.pc + 8)
  | .minc d a b => some (d.toNat, m.reg a.toNat + (match b with | .reg r => m.reg r.toNat | .imm10 i => i.signExtend 32
                                                                 | .imm32 i => i | .imm64 i => i.setWidth 32), m.pc + 8)
  | .mloop d off => some (d.toNat, m.reg d.toNat - 1, if m.reg d.toNat = 1 then m.pc + 8 else m.pc + 8 * off.signExtend 64)
  | _ => none

/-- The stream has gone on to its next word. -/
def Stream.next (m : Stream) : Stream := { m with pc := m.pc + 8, park := .none }

/-- `off` is an operand's place in the scratchpad: a multiple of `al`, at least `lo`, with `n` bytes in the slice (R282 to R285). -/
def Team.spans (t : Team) (off al lo n : Nat) : Prop := off % al = 0 ∧ lo ≤ off ∧ off + n ≤ t.spadEnd

/-- The row spec `w` names `n` rows from row `r` of a tile (R283). -/
def RowSpec (w : Word) (n r : Nat) : Prop := w.toNat = n + r * 2 ^ 16 ∧ 1 ≤ n ∧ n ≤ 64 ∧ r + n ≤ 64

/-- The element of row `r`, column `c` that MSTR forms from activation row `i` (R137, R138, R283). -/
def mstrValue (t : Team) (o : MstrOp) (w : Weights) (ma ms i r c : Nat) : Word :=
  let z := 64 * elemSize o.ty
  let row := t.spadRead (ma + z * i) z
  let old := t.tileWord o.d.toNat r c
  if o.ty = .s8x4 then
    (if o.zc then 0 else old) + BitVec.ofInt 32 ((List.range 64).foldl (fun (a : Int) k =>
      a + (if o.na = o.nb then 1 else -1) * (s8At row (w.side.getD k 0).toNat * s8At w.tile (64 * k + c))) 0)
  else BitVec.ofNat 32 (roundNE .f32 (accumulate (if o.zc then .zero else .decode .f32 old.toNat)
    (((actRow o w.side row (t.spadRead (ms + 2 * i) 2)).zip (weightCol o w c)).map fun x => (Num.mul x.1 x.2).1)))

/-- The word ends its stream and leaves its trap, at its own address, to be delivered where a lane is left (R291, R260). -/
def StreamTraps (i : Instr) (s : State) (t : Team) (m : Stream) (cause : Nat) (info : Word) : Prop :=
  t.anyLive = true → m.ended = false → ∃ s' t' m', exec i s = .next s' ∧ OwnStream s s' t t' m'
    ∧ m' = { m with ended := true, weights := none, park := .none, owesReplay := false }
    ∧ t' = { t with stream := some m', engTraps := t.engTraps ++ [{ cause := cause, info := info, va := m.pc }] }

end Sys2Proof.Machine

/-- R277 to R291, R256, R137, R138: the twelve words of a matrix stream, and its NOP. A sequencer word writes its one register; MBAR
arrives on its barrier and waits; MWLD latches the 64 × 64 weights; MSTR forms its rows of one tile, and where the array holds another
stream's weights first calls for the replay of its own (R275); MCFG latches the control word;
MEPI writes its rows to the scratchpad; MEND ends the stream. A trap ends the stream. -/
def Obligations.StreamWords : Prop :=
  (∀ i s t m r v pc, AtWord s t m → seqWord m i = some (r, v, pc) → ∃ s' m', exec i s = .next s'
    ∧ OwnStream s s' t { t with stream := some m' } m' ∧ s'.cores = s.cores ∧ m' = { m with m := m'.m, pc := pc, park := .none }
    ∧ m'.reg r = v ∧ ∀ q, q ≠ r → m'.reg q = m.reg q)
  ∧ (∀ gd s t m, AtWord s t m → ∃ s', exec (.nop gd) s = .next s' ∧ OwnStream s s' t { t with stream := some m.next } m.next
    ∧ s'.cores = s.cores)
  ∧ (∀ s t m, AtWord s t m → ∃ s' m', exec .mend s = .next s' ∧ OwnStream s s' t { t with stream := some m' } m'
    ∧ s'.cores = s.cores ∧ m' = { m with ended := true, weights := none, park := .none })
  ∧ (∀ (i : Instr) (b : SF) (c : BitVec 10) (wait : Bool) s t m, (i, b, c, wait) ∈ (match i with
      | .mbarArrive b c => [(i, b, c, false)] | .mbarArriveWait b c => [(i, b, c, true)] | _ => []) →
    AtWord s t m → let w := t.bar b.toNat
    1 ≤ c.toNat → c.toNat ≤ 255 →
    (barCount w = 0 ∨ barCount w = c.toNat →
      ∃ s' t' m', exec i s = .next s' ∧ OwnStream s s' t t' m'
        ∧ m' = { m.next with park := if wait = true ∧ (afterArrival w c.toNat).2 = false then .bar b.toNat (barGen w) else .none }
        ∧ t' = { t with stream := some m', bars := t'.bars, engPhases := t'.engPhases, groups := t'.groups }
        ∧ t'.bar b.toNat = (afterArrival w c.toNat).1 ∧ (∀ j, j ≠ b.toNat → t'.bar j = t.bar j)
        ∧ ∀ g ∈ t.groups, ((afterArrival w c.toNat).2 = true → ∀ x, g.park = .bar b.toNat x → x ≠ barGen (t'.bar b.toNat) →
            { g with park := .none } ∈ t'.groups) ∧ ((∀ x, g.park ≠ .bar b.toNat x) → g ∈ t'.groups))
    ∧ (barCount w ≠ 0 → barCount w ≠ c.toNat → b.toNat < 16 →
      StreamTraps i s t m 8 (BitVec.ofNat 32 (b.toNat + c.toNat * 2 ^ 8 + barCount w * 2 ^ 16))))
  ∧ (∀ b a s t m, AtWord s t m → ∃ s' m', exec (.mbarWait b a) s = .next s' ∧ OwnStream s s' t { t with stream := some m' } m'
    ∧ m' = { m.next with park := if barGen (t.bar b.toNat) = m.reg a.toNat then .bar b.toNat (m.reg a.toNat) else .none })
  ∧ (∀ ty a b s t m, AtWord s t m → let ma := m.reg a.toNat
    let mb := m.reg b.toNat
    (t.spans ma.toNat 128 128 (tileBytes ty) → t.spans mb.toNat 64 128 (sideBytes ty) → t.weightsPresent ty ma mb = true →
      let perm := (t.spadRead mb.toNat 64).map fun x => x.toNat
      (perm.Perm (List.range 64) → ∃ s' m', exec (.mwld ty a b) s = .next s' ∧ OwnStream s s' t { t with stream := some m' } m'
        ∧ m' = { m.next with weights := some ⟨ty, ma, mb, t.spadRead ma.toNat (tileBytes ty), t.spadRead mb.toNat (sideBytes ty)⟩ }
        ∧ (s'.core t.die t.core).array = some t.id)
      ∧ (¬ perm.Perm (List.range 64) → StreamTraps (.mwld ty a b) s t m 1 9))
    ∧ (¬ (t.spans ma.toNat 128 128 (tileBytes ty) ∧ t.spans mb.toNat 64 128 (sideBytes ty)) →
        StreamTraps (.mwld ty a b) s t m 9 1))
  ∧ (∀ (o : MstrOp) s t m w n r0, AtWord s t m → m.weights = some w → RowSpec (m.reg o.b.toNat) n r0 → o.d.toNat < t.acc →
    (w.ty = .s8x4 ↔ o.ty = .s8x4) → let ma := (m.reg o.a.toNat).toNat
    let ms := (m.reg (o.a.toNat + 1)).toNat
    let z := 64 * elemSize o.ty
    t.spans ma 64 128 (z * n) → (o.asc = true → t.spans ms 64 128 (2 * n)) →
    ((s.core t.die t.core).array ≠ some t.id → ∃ s' m', exec (.mstr o) s = .next s'
      ∧ OwnStream s s' t { t with stream := some m' } m' ∧ s'.cores = s.cores ∧ m' = { m with owesReplay := true })
    ∧ ((s.core t.die t.core).array = some t.id →
    t.present ma (z * n) = true → (o.asc = true → t.present ms (2 * n) = true) →
    (o.ebe = true → barCount (t.bar o.k.toNat) ≠ 0 ∨ barHeld (t.bar o.k.toNat) ≠ 255) →
    ∃ s' t' m', exec (.mstr o) s = .next s' ∧ OwnStream s s' t t' m' ∧ m' = m.next
      ∧ t' = { t with stream := some m', tiles := t'.tiles, bars := t'.bars, engPhases := t'.engPhases, groups := t'.groups }
      ∧ (∀ i c, i < n → c < 64 → t'.tileWord o.d.toNat (r0 + i) c = mstrValue t o w ma ms i (r0 + i) c)
      ∧ (∀ k r c, k < 16 → r < 64 → c < 64 → k ≠ o.d.toNat ∨ r < r0 ∨ r0 + n ≤ r → t'.tileWord k r c = t.tileWord k r c)
      ∧ (o.ebe = false → t'.bars = t.bars ∧ t'.groups = t.groups)
      ∧ (o.ebe = true → some (t'.bar o.k.toNat) = (barEngine (t.bar o.k.toNat)).map fun x => x.1)))
  ∧ (∀ (o : MstrOp) s t m, AtWord s t m →
    ((∀ n r, ¬ RowSpec (m.reg o.b.toNat) n r) → t.acc > o.d.toNat → m.weights = none → StreamTraps (.mstr o) s t m 1 9)
    ∧ (∀ n r, RowSpec (m.reg o.b.toNat) n r → t.acc ≤ o.d.toNat → m.weights = none → StreamTraps (.mstr o) s t m 1 11)
    ∧ (∀ n r w, RowSpec (m.reg o.b.toNat) n r → o.d.toNat < t.acc → m.weights = some w → ¬ (w.ty = .s8x4 ↔ o.ty = .s8x4) →
        StreamTraps (.mstr o) s t m 1 8))
  ∧ (∀ a s t m, AtWord s t m → let ma := (m.reg a.toNat).toNat
    let w := leNat (t.spadRead ma 8)
    (t.spans ma 16 128 16 → t.present ma 16 = true →
      (badControl w = false → ∃ s' m', exec (.mcfg a) s = .next s' ∧ OwnStream s s' t { t with stream := some m' } m'
        ∧ s'.cores = s.cores
        ∧ m' = { m.next with ctl := BitVec.ofNat 64 w, seed := BitVec.ofNat 64 (leNat (t.spadRead (ma + 8) 8)) })
      ∧ (badControl w = true → StreamTraps (.mcfg a) s t m 1 7))
    ∧ (¬ t.spans ma 16 128 16 → StreamTraps (.mcfg a) s t m 9 1))
  ∧ (∀ d a b s32in s t m n r0, AtWord s t m → RowSpec (m.reg b.toNat) n r0 → d.toNat < t.acc → let ma := (m.reg a.toNat).toNat
    let ctl := m.ctl.toNat
    let z := (cfmtOf (bits ctl 7 2)).width / 8
    t.spans ma 64 0 (64 * z * n) → (∀ p ∈ vecParts ctl, bits ctl 10 22 + p.1 + p.2 ≤ t.spadEnd) →
    (128 ≤ ma → (∀ p ∈ vecParts ctl, t.present (bits ctl 10 22 + p.1) p.2 = true) →
      ∃ s' t', exec (.mepi d a b s32in) s = .next s' ∧ OwnStream s s' t t' m.next ∧ s'.cores = s.cores
        ∧ t' = { t with stream := some m.next, scratch := t'.scratch }
        ∧ (∀ i c, i < n → c < 64 →
            t'.spadRead (ma + 64 * z * i + z * c) z = leBytes z (mepiElem t m d.toNat (r0 + i) c s32in (m.reg (a.toNat + 1))))
        ∧ ∀ off, off < ma ∨ ma + 64 * z * n ≤ off → t'.spadByte off = t.spadByte off)
    ∧ (ma < 128 → StreamTraps (.mepi d a b s32in) s t m 0xA 5))

/-! ### Coverage, tile output, textures -/

namespace Sys2Proof.Machine

/-- The instructions that push on `q2`: their guard, the word that names a path's sequence number (PATHB), and their entries (R295,
R433, R443, R463). -/
def covPush (g : Group) (m : Mask) : Instr → Option (Guard × Word × List CovCmd)
  | .pathb o => let l := m.lowest.getD 0
    some (o.g, g.elem o.a.toNat l, [.pathb o.eo o.clip (g.elem o.a.toNat l) (g.elem o.b.toNat l)])
  | .pathe gd => some (gd, 0, [.pathe])
  | .clipp gd => some (gd, 0, [.clipp])
  | .clipx gd => some (gd, 0, [.clipx])
  | .segl o => some (o.g, 0, m.lanes.map fun l => .line ([0, 1, 2, 3].map fun i => coordOf (g.elem (o.a.toNat + i) l)))
  | .segq o => some (o.g, 0, m.lanes.map fun l => .quad ([0, 1, 2, 3, 4, 5].map fun i => coordOf (g.elem (o.a.toNat + i) l)))
  | .qpush o => if o.q = 2 ∧ ∀ l ∈ m.lanes, (g.elem o.a.toNat l).toNat ≤ 1 then
      some (o.g, 0, m.lanes.map (fun l => if g.elem o.a.toNat l = 0
        then .line ([1, 2, 3, 4].map fun i => coordOf (g.elem (o.a.toNat + i) l))
        else .quad ([1, 2, 3, 4, 5, 6].map fun i => coordOf (g.elem (o.a.toNat + i) l)))) else none
  | _ => none

/-- The trap of a path command that its team's path state does not allow (R294, R296). -/
def covError (c : Cov) (seq : Word) : Instr → Option Trap
  | .pathb _ => if c.pathOpen = true ∨ seq = 0xFFFFFFFF ∨ (∃ x, c.last = some x ∧ seq.toNat ≤ x.toNat)
      then some { cause := 0xE, info := seq, va := 0 } else none
  | .clipx _ => if c.pathOpen = true ∨ c.depth = 0 then some { cause := 0xE, info := 0xFFFFFFFF, va := 0 } else none
  | .clipp _ => if c.pathOpen = false then some { cause := 0xE, info := 0xFFFFFFFF, va := 0 }
      else if 8 ≤ c.depth then some { cause := 0xF, info := 8, va := 0 } else none
  | _ => if c.pathOpen = false then some { cause := 0xE, info := 0xFFFFFFFF, va := 0 } else none

/-- The path state after a command that it allows (R296). -/
def covAfter (c : Cov) (seq : Word) : Instr → Cov
  | .pathb _ => { c with pathOpen := true, last := some seq }
  | .pathe _ => { c with pathOpen := false }
  | .clipp _ => { c with pathOpen := false, depth := c.depth + 1 }
  | .clipx _ => { c with depth := c.depth - 1 }
  | _ => c

/-- The guard of an instruction of the chapter that needs a bound tile (R294). -/
def needsTile : Instr → Option Guard
  | .pathb o => some o.g
  | .pathe gd | .clipp gd | .clipx gd | .tilef gd => some gd
  | .segl o | .segq o => some o.g
  | .spanp o => some o.g
  | .blndOver o | .blndSrc o | .blndAdd o | .blndDrop o => some o.g
  | _ => none

/-- The operation of a BLND (R310). -/
def blndOf : Instr → Option (BlendOp × BlndOp)
  | .blndOver o => some (.over, o)
  | .blndSrc o => some (.src, o)
  | .blndAdd o => some (.add, o)
  | .blndDrop o => some (.drop, o)
  | _ => none

/-- Nothing is outstanding that a texture read, a relaxed load of scope `.team`, comes after: no ATOM of the group (R359), no load of such
a scope and none homed on the issuing die (R183, R330). -/
structure State.ReadsTextures (s : State) (t : Team) (g : Group) : Prop where
  pending : ∀ p ∈ g.pending, p.left ≠ 0 → p.kind ≠ .atom ∧ (p.kind = .load → 2 ≤ p.scope)
  home : ∀ b ∈ s.accesses, b.kind = .load → b.tid = t.id → b.grp = g.num → s.homedOn t.die b.line = false

/-- The framebuffer descriptor that TILEB or TILEF goes by: the one that the bundle read at its issue, or, where it has not, the one
that it reads now (R320). -/
def FbAtIssue (s s1 : State) (t : Team) (g : Group) (desc : DWord) (tile : Word) (fb : FrameBuf) : Prop :=
  (g.fbRead = some fb ∧ s1 = s) ∨ (g.fbRead = none ∧ s.readFb t desc tile = (.ok fb, s1))

/-- The instruction has left the group at its place, waiting for `w`. -/
def Group.Waits (g g' : Group) (w : Wait) : Prop := g.SameValues g' ∧ g'.frontier = g.frontier ∧ g'.park = .retry w

end Sys2Proof.Machine

/-- R294 to R297, R375, R433, R434, R443, R463: PATHB, PATHE, SEGL, SEGQ, CLIPP, CLIPX and QPUSH of `q2` on a team with a bound tile
append their entries to `q2` and move the path state, or park where `q2` lacks room for all; what the path state forbids raises
SEQ_ORDER or CLIP_DEPTH and pushes nothing, and so does any of them, SPANP, BLND and TILEF without a bound tile; with no active lane each only goes on, SPANP without a window, the
model's choice (log 79). R308 to R310, R369,
R469: SPANP pops its lanes' entries with their tickets; BLND retires the tickets that its lanes name, each once, with their colours. -/
def Obligations.PathsAndSpans : Prop :=
  (∀ i gd seq cmds s t g, Issuing s t g → covPush g (g.active gd s.cur.lanes) i = some (gd, seq, cmds) →
    g.active gd s.cur.lanes ≠ 0 → t.cov.bound.isSome = true →
    (t.cov.acc = true ∨ s.accsUsed t.die t.core < 4 → covError t.cov seq i = none →
      (t.cov.q2.length + cmds.length ≤ 128 → ∃ s' t' g', exec i s = .next s' ∧ SameMemory s s' ∧ s'.team? t.id = some t'
        ∧ t'.group? g.num = some g' ∧ g.WentOn g' s.cur ∧ g.SameValues g'
        ∧ t'.cov = { covAfter t.cov seq i with acc := true, q2 := t.cov.q2 ++ cmds })
      ∧ (128 < t.cov.q2.length + cmds.length → ∃ s' t' g', exec i s = .next s' ∧ SameMemory s s' ∧ s'.team? t.id = some t'
        ∧ t'.group? g.num = some g' ∧ g.Waits g' (.queue 2) ∧ t'.cov = { t.cov with acc := true }))
    ∧ (t.cov.acc = true → ∀ tr, covError t.cov seq i = some tr → Raises i s t g tr)
    ∧ (t.cov.acc = false → 4 ≤ s.accsUsed t.die t.core →
        ∃ s' g', exec i s = .next s' ∧ OwnGroup s s' t g g' ∧ g.Waits g' .accumulator))
  ∧ (∀ i gd s t g, needsTile i = some gd → Issuing s t g →
    (g.active gd s.cur.lanes = 0 → ∃ s' g', exec i s = .next s' ∧ OwnGroup s s' t g g' ∧ g.WentOn g' s.cur ∧ g.SameValues g')
    ∧ (g.active gd s.cur.lanes ≠ 0 → t.cov.bound = none → (∀ d ∈ i.uses.rd, (g.reg d).shape = .general) →
      Raises i s t g { cause := 0xE, info := 0xFFFFFFFF, va := 0 }))
  ∧ (∀ (o : SpanpOp) s t g, Issuing s t g → let m := g.active o.g s.cur.lanes
    let regs := [o.d.toNat, o.d.toNat + 1, o.d.toNat + 2]
    let place := fun l => (m.lanes.filter fun k => k < l).length
    let span := fun (w : Word × Word) => w.1.getLsbD 30 = false
    m ≠ 0 → t.cov.bound.isSome = true → t.cov.acc = true → poolFor g regs .general = [] →
    (t.cov.q3 = [] ∨ (128 ≤ t.cov.outstanding ∧ ∀ w ∈ t.cov.q3.head?, span w) →
      ∃ s' g', exec (.spanp o) s = .next s' ∧ OwnGroup s s' t g g' ∧ g.Waits g' (.queue 3))
    ∧ (t.cov.q3 ≠ [] → t.cov.outstanding + m.lanes.length ≤ 128 → ∃ s' t' g' p, exec (.spanp o) s = .next s' ∧ SameMemory s s'
        ∧ s'.team? t.id = some t' ∧ t'.group? g.num = some g' ∧ g'.frontier = (g.advance s.cur).frontier
        ∧ (∀ r l, l < 32 → g'.elem r l = g.elem r l) ∧ g'.pending = (g.tickWindows s.cur.lanes).pending ++ [p]
        ∧ p.isReady = true ∧ p.active = m ∧ p.regs = regs ∧ p.uniform = false
        ∧ (∀ q, q ∈ p.preds ↔ q = o.p.toNat ∧ q ≠ 7)
        ∧ t'.cov.q3 = t.cov.q3.drop m.lanes.length
        ∧ (∀ l, l < 32 → m.has l = true →
            (∀ e, t.cov.q3[place l]? = some e → p.word 0 l = e.1 ∧ p.word 1 l = e.2
              ∧ p.word 2 l = t.cov.popped + BitVec.ofNat 32 (place l) ∧ (p.pvals.has l = true ↔ span e)
              ∧ (span e → ⟨t.cov.popped + BitVec.ofNat 32 (place l), e.1, e.2, none, []⟩ ∈ t'.cov.tickets))
            ∧ (t.cov.q3.length ≤ place l → p.word 0 l = 0 ∧ p.word 1 l = 0 ∧ p.word 2 l = 0xFFFFFFFF ∧ p.pvals.has l = false))))
  ∧ (∀ i op o s t g, blndOf i = some (op, o) → Issuing s t g → let m := g.active o.g s.cur.lanes
    let names := m.lanes.map fun l => g.elem o.a.toNat l
    m ≠ 0 → t.cov.bound.isSome = true → t.cov.acc = true →
    (names.Nodup → (∀ n ∈ names, ∃ k ∈ t.cov.tickets, k.num = n ∧ k.op = none) →
      ∃ s' t' g', exec i s = .next s' ∧ SameMemory s s' ∧ s'.team? t.id = some t' ∧ t'.group? g.num = some g' ∧ g.WentOn g' s.cur
        ∧ g.SameValues g' ∧ t'.cov = { t.cov with tickets := t.cov.tickets.map (fun k =>
            match m.lanes.find? (fun l => g.elem o.a.toNat l == k.num) with
            | some l => { k with op := some op, colour := [0, 1, 2, 3].map fun c => g.elem (o.b.toNat + c) l }
            | none => k) })
    ∧ (¬ (names.Nodup ∧ ∀ n ∈ names, ∃ k ∈ t.cov.tickets, k.num = n ∧ k.op = none) →
        Raises i s t g { cause := 0xE, info := 0xFFFFFFFF, va := 0 }))

/-- R293, R318 to R320, R478, R479: TILEB of a tile that no team owns, with an accumulator free, binds it to its team, clears the path
state, makes the 16 lines of the colour buffer absent and goes on; a tile that another team owns, or a core without a free accumulator,
parks it, without an accumulator no longer as a waiter of the tile (R479); a second tile and a misplaced buffer raise their traps. R312
to R314, R480: TILEF waits until all is drained and present, then finishes the tile and releases it, in one turn or, where the turn says
so, write by write (R323), and of a tile whose fill has died only releases it, its lines present again (R479), the commits that can
still land having landed; a replayable
fault of a write parks it, and a fatal outcome writes the signature entry with VALID = 0, releases the tile and is owed; that the read
of the entry ends TILEF in the same way is the model's choice (log 69). Both go by the descriptor that they read at their issue
(R320). R165, R323: a block is written whole with its mode byte, and one that cannot be read raises MEMFMT. -/
def Obligations.TileOutput : Prop :=
  (∀ (i : Instr) (load : Bool) (o : TilebOp) (s : State) (t : Team) g l, (i, load, o) ∈ (match i with
      | .tilebClear o => [(i, false, o)] | .tilebLoad o => [(i, true, o)] | _ => []) →
    Issuing s t g → s.fenceBusy g.acquires = false → (g.active o.g s.cur.lanes).lowest = some l → let desc := g.pairElem o.a.toNat l
    let tile := g.elem o.b.toNat l
    let coff := o.coff.toNat
    (t.cov.bound = none → t.spans coff 128 128 2048 → ∀ s1 s2 fb sa bld, FbAtIssue s s1 t g desc tile fb →
      s1.direct t.ctx t.die (fb.sigVa tile) .read = (.ok (sa, bld), s2) →
      (s2.tileOwner sa = none → s2.accsUsed t.die t.core < 4 → ∃ s' t' g' b, exec i s = .next s' ∧ s'.team? t.id = some t'
        ∧ t'.group? g.num = some g' ∧ g.WentOn g' s.cur ∧ g.SameValues g' ∧ t'.cov = { bound := some b, acc := true } ∧ s'.NoLines t
        ∧ b.coff = coff ∧ b.tile = tile ∧ b.desc = desc ∧ b.fb = fb ∧ b.sigSa = sa ∧ b.load = load ∧ b.dead = false
        ∧ b.fill = List.range 16 ∧ s'.tileOwner sa = some t.id
        ∧ (∀ x, t'.linePresent x = if coff ≤ x ∧ x < coff + 2048 then false else t.linePresent x)
        ∧ (∀ k, s2.freeIndex t.ctx = some k → g.tileWait = none → ∃ e ∈ s'.own, b.own = some e.id ∧ e.ctx = t.ctx ∧ e.index = k
            ∧ e.kind = 3 ∧ e.state = .running ∧ e.owner = .team t.id ∧ e.waiters = 0 ∧ e.olid = t.lid))
      ∧ (∀ u, s2.tileOwner sa = some u →
          ∃ s' g', exec i s = .next s' ∧ s'.group? t.id g.num = some g' ∧ g.Waits g' (.tile (s2.tileEntry t.ctx u sa)))
      ∧ (s2.tileOwner sa = none → 4 ≤ s2.accsUsed t.die t.core →
          ∃ s' g', exec i s = .next s' ∧ (g.tileWait = none → SameMemory s s') ∧ s'.group? t.id g.num = some g' ∧ g.Waits g' .accumulator
            ∧ ∀ e x y, g.tileWait = some e → s2.entry? e = some x → (∀ h ∈ t.groups, h.num ≠ g.num → e ∉ h.waitEntries) →
              s'.entry? e = some y → y.waiters = x.waiters - 1))
    ∧ (t.cov.bound.isSome = true → Raises i s t g { cause := 0xE, info := 0xFFFFFFFF, va := 0 })
    ∧ (t.cov.bound = none → ¬ t.spans coff 128 128 2048 → Raises i s t g { cause := 9, info := 1, va := BitVec.ofNat 64 coff }))
  ∧ (∀ gd s s1 t g b fb, Issuing s t g → g.active gd s.cur.lanes ≠ 0 → t.cov.bound = some b → t.cov.acc = true →
    (t.cov.pathOpen = true → g.fbRead = none → Raises (.tilef gd) s t g { cause := 0xE, info := 0xFFFFFFFF, va := 0 })
    ∧ (t.cov.pathOpen = false ∨ g.fbRead ≠ none → s.fenceBusy g.acquires = false → s.ownWrites t g = false → FbAtIssue s s1 t g b.desc b.tile fb →
      (b.ending = none → s1.tileDrained t b = false ∨ (b.dead = false ∧ t.present b.coff 2048 = false) →
        ∃ s' g', exec (.tilef gd) s = .next s' ∧ SameMemory s s' ∧ s'.group? t.id g.num = some g' ∧ g.Waits g' .lines)
      ∧ (b.ending = none → s1.tileDrained t b = true → b.dead = true →
        ∃ s' t' g', exec (.tilef gd) s = .next s' ∧ s'.team? t.id = some t' ∧ t'.group? g.num = some g' ∧ g.WentOn g' s.cur
          ∧ g.SameValues g' ∧ t'.cov = {} ∧ (∀ x, (x, t.id) ∈ s'.tileOwners → x ≠ b.sigSa) ∧ (b.own = none → SameMemory s s')
          ∧ ∀ k, k < 16 → SMap.get 0 t.absent (b.coff / 128 + k) = b.fillId + 1 → t'.linePresent (128 * (b.coff / 128 + k)) = true)
      ∧ (b.ending = none → s1.tileDrained t b = true → b.dead = false → t.present b.coff 2048 = true → ∀ s2 r,
        s1.finishTile t fb b s.cur.only = (r, s2) →
        (r = .ok true → ∃ s' t' g', exec (.tilef gd) s = .next s' ∧ s'.team? t.id = some t' ∧ t'.group? g.num = some g'
          ∧ g.WentOn g' s.cur ∧ g.SameValues g' ∧ t'.cov = {} ∧ (∀ x, (x, t.id) ∈ s'.tileOwners → x ≠ b.sigSa)
          ∧ (b.own = none → SameMemory s2 s'))
        ∧ (r = .ok false → ∃ s' g', exec (.tilef gd) s = .next s' ∧ SameMemory s2 s' ∧ s'.group? t.id g.num = some g'
          ∧ g.SameValues g' ∧ g'.frontier = g.frontier ∧ g'.park = .none)
        ∧ (∀ c va, r = .fault c va → ∃ s' g', exec (.tilef gd) s = .next s' ∧ SameMemory s2 s' ∧ s'.group? t.id g.num = some g'
          ∧ g.SameValues g' ∧ g'.frontier = g.frontier ∧ ∃ f ∈ s'.faults, g'.park = .fault f.id ∧ f.kind = 7 ∧ f.cause = c))
      ∧ (∀ s2 tr, (b.ending = some tr ∧ s2 = s1) ∨ (b.ending = none ∧ s1.tileDrained t b = true ∧ b.dead = false
            ∧ t.present b.coff 2048 = true ∧ s1.finishTile t fb b s.cur.only = (.trap tr, s2)) →
        (∃ x, (s2.writeSig t fb b.tile (b.crc.getD (crc64 (t.pixels b))) false).1 = x ∧ (x = .ok () ∨ ∃ y, x = .trap y)) →
        ∃ s' t' g', exec (.tilef gd) s = .next s' ∧ s'.team? t.id = some t' ∧ t'.group? g.num = some g'
          ∧ g'.frontier = (g.advance s.cur).frontier ∧ g.SameValues g' ∧ t'.cov = {}
          ∧ g'.owed = g.owed ++ [{ trap := tr, lanes := s.cur.lanes, handler := s.cur.handler }])))
  ∧ (∀ (s : State) t b, s.tileDrained t b = true ↔ t.cov.pathOpen = false ∧ t.cov.q2 = [] ∧ t.cov.staging = [] ∧ t.cov.q3 = []
      ∧ (b.dead = false → t.cov.tickets = [] ∧ b.fill = [])
      ∧ (b.dead = true → (∀ k ∈ t.cov.tickets, k.op ≠ none) ∧ (t.cov.tickets = [] ∨ s.commitStuck t b = true)))
  ∧ (∀ (s s1 : State) t fb b lim l, b.crc = none → s.directRead t.ctx t.die (fb.sigVa b.tile) 16 = (.ok l, s1) →
    leNat (l.take 8) = (crc64 (t.pixels b)).toNat → (leNat (l.drop 8)).testBit 0 = true →
    s.finishTile t fb b lim = (.ok true, s1) ∧ SameMemory s s1)
  ∧ (∀ (s : State) compress sa raw, raw.length = 256 →
    (∃ s', s.writeBlock false compress sa raw = .ok s'
      ∧ ∀ x, s'.byte x = if sa ≤ x ∧ x < sa + 256 then raw.getD (x - sa) 0 else s.byte x)
    ∧ (∀ c, s.blockBytes sa = .error c → s.writeBlock true compress sa raw = .error c)
    ∧ (∀ old, s.blockBytes sa = .ok old → let md := s.mdAddr sa + blockOf sa
      ¬ (sa ≤ md ∧ md < sa + 256) → ∀ p, (if compress then bldEncode raw else none) = p →
      ∃ s', s.writeBlock true compress sa raw = .ok s' ∧ s'.bldMode sa = (if p = none then 0 else 2)
        ∧ ∀ x, x ≠ md → s'.byte x = if sa ≤ x ∧ x < sa + (p.getD raw).length then (p.getD raw).getD (x - sa) 0 else s.byte x))

/-- R325 to R330, R475, R476, R110: TEX and TLD whose descriptors and texels read leave their samples pending in the four registers,
general, at the lanes' places; a lane of TEX has the value its filter makes of its texels, a lane of TLD its one texel; TEXQ writes the
size of the level and LEVELS at once. They wait for their group's pending ATOMs, loads of scope `.team` and below, and loads homed on the
issuing die (R183, R330, R359). A descriptor address that is not a multiple of 64 raises ALIGN. -/
def Obligations.Textures : Prop :=
  (∀ (i : Instr) (o : TexOp) (ok : Tex → Bool) (plan : Group → Nat → Tex → Plan) (s s1 s2 : State) (t : Team) g ds vs,
    (i = .tex o ∧ (∀ x, ok x = decide (x.filt ≠ 3)) ∧ (∀ g l x, plan g l x = x.plan fun k => .decode .f32 (g.elem (o.b.toNat + k) l).toNat)
      ∨ i = .texAniso o ∧ (∀ x, ok x = decide (x.filt = 3))
          ∧ (∀ g l x, plan g l x = x.plan fun k => .decode .f32 (g.elem (o.b.toNat + k) l).toNat)
      ∨ i = .tld o ∧ (∀ x, ok x = true) ∧ ∀ g l x, let c := fun k => (g.elem (o.b.toNat + k) l).toInt
          plan g l x = { sites := [x.loadSite (c 0) (c 1) (c 2) (c 3)], combine := fun ts => ts.getD 0 [0, 0, 0, 0] }) →
    Issuing s t g → g.fences = [] → s.ReadsTextures t g → let m := g.active o.g s.cur.lanes
    let regs := [o.d.toNat, o.d.toNat + 1, o.d.toNat + 2, o.d.toNat + 3]
    poolFor g regs .general = [] → (∀ l ∈ m.lanes, (g.pairElem o.a.toNat l).toNat % 64 = 0 ∧ canonical (g.pairElem o.a.toNat l) = true) →
    s.texDescs t g o.a ok m.lanes = (.ok ds, s1) → (∀ d ∈ ds, d.2.isSome = true) → s1.texSamples t (plan g) ds = (.ok vs, s2) →
    ∃ s' g' p, exec i s = .next s' ∧ SameMemory s s' ∧ s'.group? t.id g.num = some g'
      ∧ g'.frontier = (g.advance s.cur).frontier ∧ (∀ r l, l < 32 → g'.elem r l = g.elem r l)
      ∧ g'.pending = (g.tickWindows s.cur.lanes).pending ++ [p] ∧ p.isReady = true ∧ p.active = m ∧ p.regs = regs ∧ p.uniform = false
      ∧ p.preds = [] ∧ p.flags = []
      ∧ ∀ l ∈ m.lanes, ∀ k, k < 4 → p.word k l = match vs.find? (fun x => x.1 == l) with
          | some x => BitVec.ofNat 32 (x.2.getD k 0)
          | none => 0)
  ∧ (∀ (s s1 : State) t plan l x ts, s.texels t x (Plan.sites (plan l x)) = (.ok ts, s1) →
    s.texSamples t plan [(l, some x)] = (.ok [(l, (plan l x).combine ts)], s1) ∧ ts.length = (plan l x).sites.length)
  ∧ (∀ (o : TexqOp) (s s1 : State) (t : Team) g ds, Issuing s t g → g.fences = [] → s.ReadsTextures t g → let m := g.active o.g s.cur.lanes
    let regs := [o.d.toNat, o.d.toNat + 1, o.d.toNat + 2, o.d.toNat + 3]
    poolFor g regs .general = [] → (∀ l ∈ m.lanes, (g.pairElem o.a.toNat l).toNat % 64 = 0 ∧ canonical (g.pairElem o.a.toNat l) = true) →
    s.texDescs t g o.a (fun _ => true) m.lanes = (.ok ds, s1) → (∀ d ∈ ds, d.2.isSome = true) →
    ∃ s' g', exec (.texq o) s = .next s' ∧ SameMemory s s' ∧ s'.group? t.id g.num = some g' ∧ g.WentOn g' s.cur
      ∧ g.Kept g' regs [] false
      ∧ ∀ l x, l < 32 → m.has l = true → (l, some x) ∈ ds → let n := (g.elem o.b.toNat l).toNat
          (∀ k, k < 4 → regs.getD k 0 < 640 → g'.elem (regs.getD k 0) l
            = BitVec.ofNat 32 (([x.w n, x.h n, x.d n, x.levels].map fun v => if n < x.levels then v else 0).getD k 0)))
  ∧ (∀ (i : Instr) (gd : Guard) (a : VR) (d : Nat) s t g l, (i, gd, a, d) ∈ (match i with
      | .tex o => [(i, o.g, o.a, o.d.toNat)] | .texAniso o => [(i, o.g, o.a, o.d.toNat)] | .tld o => [(i, o.g, o.a, o.d.toNat)]
      | .texq o => [(i, o.g, o.a, o.d.toNat)] | _ => []) →
    Issuing s t g → g.fences = [] →
    (¬ s.ReadsTextures t g → exec i s = .next (s.stayFor t g g.pendIds))
    ∧ (s.ReadsTextures t g → (∀ k, k < 4 → (g.reg (d + k)).shape = .general) → l ∈ (g.active gd s.cur.lanes).lanes →
      (g.pairElem a.toNat l).toNat % 64 ≠ 0 →
      (∀ k ∈ (g.active gd s.cur.lanes).lanes, (g.pairElem a.toNat k).toNat % 64 ≠ 0 →
        (g.pairElem a.toNat l).toNat ≤ (g.pairElem a.toNat k).toNat) →
      Raises i s t g { cause := 9, info := 0, va := g.pairElem a.toNat l }))

/-! ### Cold operation -/

namespace Sys2Proof.Machine

/-- Die `d` has become `x`, and nothing else of the package has changed. -/
structure OnlyDie (s s' : State) (d : Nat) (x : Die) : Prop where
  state : s' = { s with dies := s'.dies }
  die : s'.die d = x
  others : ∀ k, k ≠ d → s'.die k = s.die k
  count : s'.dies.length = s.dies.length

/-- The band after a reading in 1/16 K: every boundary has its rising and its falling value (R336). -/
def bandRule (old reading : Nat) : Nat :=
  if (if old < 3 then 4000 ≤ reading else 3968 < reading) then 3
  else if (if old < 2 then 1760 ≤ reading else 1728 < reading) then 2
  else if (if old < 1 then 1408 ≤ reading else 1376 < reading) then 1 else 0

/-- The thermal state after a sample that finds the band `b` (R338); `transit`: WARMUP has reached TRANSIT. -/
def thermalRule (x : Thermal) (b : Nat) (transit : Bool) : Thermal :=
  match x with
  | .cooldown => if b ≤ 1 then .coldIdle else .cooldown
  | .run => if b = 0 then .run else if b = 1 then .retreat else .park
  | .retreat => if b ≤ 1 then .retreat else .park
  | .park => if b ≤ 1 then .coldIdle else if b = 3 then .warmup else .park
  | .warmup => if b ≤ 1 ∧ transit = true then .coldIdle else .warmup
  | .warmIdle => if b = 2 then .cooldown else .warmIdle
  | x => x

/-- The band clock of a die's core array in MHz (R6, R336); in DRAIN that of the timing set in use, none in self-refresh (log 52). -/
def bandClockRule (x : Die) : Nat :=
  match x.thermal with
  | .run => 1500
  | .retreat => 1200
  | .warmIdle => 500
  | .drain => if x.selfRefresh = true then 0 else if x.tset = 0 then 1500 else if x.tset = 1 then 1200 else 500
  | _ => 0

/-- The timing set, the refresh and the clock of a die that has just come into its state (R336, R338, R339), or into its band in DRAIN:
the band clock, less what current limits and the package cap have taken of it (R6).
That they are in force in the sample's own step, and follow the band in DRAIN, is the model's choice (log 52). -/
def Die.timed (x : Die) : Prop :=
  (∀ i, x.islands.head? = some i → i.mhz = bandClockRule x) ∧ match x.thermal with
  | .run => x.tset = 0 ∧ x.refresh = false ∧ x.selfRefresh = false
  | .retreat => x.tset = 1 ∧ x.refresh = true ∧ x.selfRefresh = false
  | .warmIdle => x.tset = 2 ∧ x.refresh = true ∧ x.selfRefresh = false
  | .park | .cooldown | .warmup => x.refresh = false ∧ x.selfRefresh = true
  | .coldIdle => x.training = true
  | .drain => x.refresh = decide (x.band = 1 ∨ x.band = 3) ∧ x.selfRefresh = decide (x.band = 2)
      ∧ (x.band ≠ 2 → x.tset = if x.band = 3 then 2 else x.band)
  | _ => True

/-- No powered die is in WARM, where the package cap holds (R336, R344). -/
def State.uncapped (s : State) : Prop := ∀ d ∈ s.dies, d.powered = true → d.band ≠ 3

/-- A die with the clock of its core array lowered by `k` steps of 100 MHz. -/
def Die.steppedBy (x : Die) (k : Nat) : Die :=
  { x with islands := match x.islands with
      | i :: r => { i with lowered := i.lowered + 100 * k } :: r
      | [] => [] }

/-- Every die but `d` is as before, but that the cap in WARM may have lowered the clocks of the core arrays together, by the same number of
steps of 100 MHz; that it is kept so is the model's choice (log 98). -/
def OthersButCap (s s' : State) (d : Nat) : Prop :=
  ∃ k, (∀ j, j < s.dies.length → j ≠ d → s'.die j = (s.die j).steppedBy k) ∧ (s'.uncapped → k = 0)

/-- The package keeps its cap of 400 W while a die is in WARM (R344), or lowering the clocks of the core arrays does not help any more. -/
def State.CapHeld (s : State) : Prop :=
  s.underCap = true ∨ ∀ d ∈ s.dies, ∀ i, d.islands.head? = some i → 1800 ≤ i.lowered

/-- Patrol runs in COLD (R343), wherever its regime has stopped refresh (R336, R338, R339). -/
def Die.patrolled (d : Die) : Prop :=
  (d.thermal = .run ∨ d.thermal = .drain) ∧ d.band = 0 ∧ d.refresh = false ∧ d.selfRefresh = false

end Sys2Proof.Machine

/-- R336 to R340, R343, R346: a sample's highest reading sets band and temperature and moves the die's state by band; at 330 K the die
goes OFF and the trip is logged; a deterministic team found on a die that comes into RETREAT is posted. The end of a timing stall, 60 s
in COLD, the cooling-rate window, the end of training, drain and warm-up requests and their ends, the patrol of a row and the loss of
power do to the die what their rules say. A die that comes into WARM, or out of a state with its clock stopped, keeps the package cap of
400 W. THE MODEL'S CHOICE: the three stalled controllers `[0, 1, 2]`, timing set, refresh and clock in force in the sample's own step
(`Die.timed`), and a die in DRAIN that takes the regime of its band, patrol among it (log 52); the cap kept by lowering the core arrays
together, in steps of 100 MHz, at these events (`OthersButCap`, `State.CapHeld`, log 98); and what is left after a loss of power, of which
R338 says only that the die goes to OFF: memory that reads 0 as at power-on (log 3, a DESIGN CHOICE), cores as at reset and the contexts
with work there ended (log 54). -/
def Obligations.ThermalStates : Prop :=
  (∀ (s : State) die readings reading, die < 8 → s.dies.length = 8 → reading ∈ readings → (∀ r ∈ readings, r ≤ reading) →
    let d := s.die die
    let b := bandRule d.band reading
    (d.thermal ≠ .off → 5280 ≤ reading → ∃ s', exec (.sensorSample die readings) s = .next s' ∧ (s'.die die).thermal = .off
      ∧ (s'.die die).powered = false ∧ (s'.die die).band = b ∧ (s'.die die).tsens = readings ∧ LogEvent.trip die ∈ s'.log)
    ∧ (d.thermal ≠ .off → reading < 5280 → ∃ s', exec (.sensorSample die readings) s = .next s'
      ∧ (s'.die die).band = b ∧ (s'.die die).temp = reading ∧ (s'.die die).tsens = readings
      ∧ (d.thermal ≠ .drain → (s'.die die).thermal = thermalRule d.thermal b d.reachedTransit)
      ∧ (d.thermal = .drain → b ≠ 2 → (s'.die die).thermal = .drain)
      ∧ ((s'.die die).thermal ≠ d.thermal ∨ (d.thermal = .drain ∧ b ≠ d.band) → (s'.die die).timed)
      ∧ (reading < 1120 → LogEvent.excursion die ∈ s'.log)
      ∧ ((s'.die die).thermal = .retreat → d.thermal ≠ .retreat →
          (∃ t ∈ s'.teams, t.die = die ∧ t.det = true ∧ t.place.resident = true) → LogEvent.retreatDet die ∈ s'.log)
      ∧ (b = 3 → d.band ≠ 3 → s'.CapHeld)
      ∧ (b ≠ 2 ∨ d.band = 2 → SameMemory s s' ∧ s'.teams = s.teams ∧ OthersButCap s s' die)))
  ∧ (∀ (s : State) die, exec (.sensorSample die []) s = .next s)
  ∧ (∀ (s : State) die c, die < s.dies.length → s.staleAreas = [] → ∃ s', exec (.timingStallEnd die c) s = .next s'
    ∧ OnlyDie s s' die { s.die die with stalled := (s.die die).stalled.filter fun x => x ≠ c })
  ∧ (∀ (s : State) die, die < s.dies.length → let d := s.die die
    (∀ c, d.thermal = .retreat → d.coldSince = some c → c + 60000000000 ≤ s.gtime →
      ∃ s', exec (.retreatTimerExpiry die) s = .next s' ∧ SameMemory s s' ∧ (s'.die die).thermal = .run ∧ (s'.die die).timed
        ∧ (s'.die die).stalled = [0, 1, 2] ∧ s'.CapHeld ∧ OthersButCap s s' die)
    ∧ ((∀ c, d.thermal = .retreat → d.coldSince = some c → s.gtime < c + 60000000000) →
        exec (.retreatTimerExpiry die) s = .next s))
  ∧ (∀ (s : State) die t0 temp0, die < s.dies.length → let d := s.die die
    d.window = some (t0, temp0) → t0 + 60000000000 ≤ s.gtime →
    let fast := (d.thermal = .cooldown ∧ d.temp + 160 < temp0) ∨ (d.thermal = .warmup ∧ temp0 + 160 < d.temp)
    ∃ s', exec (.coolingRateWindow die) s = .next s' ∧ (s'.die die).window = some (s.gtime, d.temp)
      ∧ ((s'.die die).excursion = true ↔ d.excursion = true ∨ fast) ∧ (fast → s'.log = s.log ++ [.excursion die])
      ∧ (¬ fast → s'.log = s.log) ∧ s' = { s with dies := s'.dies, log := s'.log })
  ∧ (∀ (s : State) die x, die < s.dies.length → let d := s.die die
    d.training = true → (d.thermal, d.band, x) ∈ [(Thermal.coldIdle, 0, Thermal.run), (.coldIdle, 1, .retreat), (.cooldown, 3, .warmIdle),
      (.warmup, 3, .warmIdle)] →
    ∃ s', exec (.phyTrainingComplete die) s = .next s' ∧ SameMemory s s' ∧ (s'.die die).thermal = x ∧ (s'.die die).timed
      ∧ (s'.die die).training = false ∧ (s'.die die).excursion = false ∧ s'.CapHeld ∧ OthersButCap s s' die)
  ∧ (∀ (s : State) die, die < s.dies.length → (s.die die).thermal = .run ∨ (s.die die).thermal = .retreat →
    ∃ s', exec (.drainRequest die) s = .next s' ∧ s' = { s with dies := s'.dies } ∧ (s'.die die).drainSince = s.gtime
      ∧ ((∃ t ∈ s.teams, t.die = die) → (s'.die die).thermal = .drain)
      ∧ ((∀ t ∈ s.teams, t.die ≠ die) → (s'.die die).thermal = .warmup ∧ (s'.die die).timed))
  ∧ (∀ (s : State) die, die < s.dies.length → (s.die die).thermal = .drain →
    (s.gtime < (s.die die).drainSince + (s.die die).drainTimeout → exec (.drainTimeout die) s = .next s)
    ∧ ((s.die die).drainSince + (s.die die).drainTimeout ≤ s.gtime →
      ∃ s', exec (.drainTimeout die) s = .next s' ∧ (s'.die die).thermal = .warmup ∧ (s'.die die).timed))
  ∧ (∀ (s : State) die, die < s.dies.length → (s.die die).thermal = .park →
    ∃ s', exec (.warmupRequest die) s = .next s' ∧ s' = { s with dies := s'.dies } ∧ (s'.die die).thermal = .warmup
      ∧ (s'.die die).timed ∧ (s'.die die).band = (s.die die).band ∧ ∀ k, k ≠ die → s'.die k = s.die k)
  ∧ (∀ (s : State) die, die < s.dies.length → (s.die die).thermal = .warmup → (s.die die).reachedTransit = false →
    (s.die die).band ≤ 1 →
    ∃ s', exec (.warmupCancel die) s = .next s' ∧ s' = { s with dies := s'.dies } ∧ (s'.die die).thermal = .coldIdle
      ∧ (s'.die die).training = true ∧ (s'.die die).band = (s.die die).band ∧ ∀ k, k ≠ die → s'.die k = s.die k)
  ∧ (∀ (s : State) die c, die < s.dies.length → let d := s.die die
    ∃ s' x, exec (.patrolRow die c) s = .next s' ∧ OnlyDie s s' die x
      ∧ (d.patrolled → x = { d with patrolRow := d.patrolRow + 1, softErrors := d.softErrors + c.toNat }) ∧ (¬ d.patrolled → x = d))
  ∧ (∀ (s : State) die, die < 8 → s.dies.length = 8 → (s.die die).thermal ≠ .off →
    ∃ s', exec (.powerLoss die) s = .next s' ∧ (s'.die die).thermal = .off ∧ (s'.die die).powered = false
      ∧ (∀ k, k < 96 → s'.core die k = CoreSt.reset) ∧ (∀ a, s.onDieMem die a = true → s'.byte a = 0)
      ∧ ((∀ c ∈ s.contexts, s.worksOn die c.num = false) → ∀ a, s.onDieMem die a = false → s'.byte a = s.byte a))

/-! ### Clocks, firmware, host, links, ends of contexts -/

namespace Sys2Proof.Machine

/-- The ceiling of an island's clock (R336, R344, R345): for the core array the band clock, or the lease clock under a lease. That the
band clock goes by the thermal state is the model's choice (log 53). -/
def ceilingRule (s : State) (d island mhz : Nat) : Nat :=
  if island ≠ 0 then mhz else (s.leaseClock d).getD (bandClockRule (s.die d))

/-- The clock of island `k` of a die in MHz (R6, R344 to R346): what it has been given, less what the hardware has taken from it. The core
array is given the lease clock under a lease, the band clock with a deterministic team, and else what firmware or the band has given it,
never above the band clock. -/
def rateRule (s : State) (d k : Nat) (i : Island) : Nat :=
  (if k ≠ 0 then i.mhz else match s.leaseClock d with
    | some c => c
    | none =>
      if ∃ t ∈ s.teams, t.die = d ∧ t.place.resident = true ∧ t.det = true then bandClockRule (s.die d)
      else min i.mhz (bandClockRule (s.die d))) - i.lowered

/-- Island `k` of a die has become `y`; or nothing has changed, which only the 400 W cap brings about (R344). -/
def IslandSet (s s' : State) (d k : Nat) (y : Island) : Prop :=
  s'.underCap = true ∧ OnlyDie s s' d { s.die d with islands := (s.die d).islands.set k y } ∨ s' = s ∧ ¬ s.uncapped

/-- The contexts `l` have ended, and no team of another (R272): their teams, entries and leases are gone, their launches complete, and
the ends are logged with their cause. -/
structure Ended (s s' : State) (l : List Nat) (cause : EndCause) : Prop where
  teams : ∀ t ∈ s'.teams, t.ctx ∉ l
  stay : ∀ t ∈ s.teams, t.ctx ∉ l → ∃ t' ∈ s'.teams, t'.id = t.id
  own : ∀ e ∈ s'.own, e.ctx ∉ l
  leases : ∀ x ∈ s'.leases, x.ctx ∉ l
  launches : ∀ i x, s'.launch? i = some x → x.ctx ∈ l → x.done.isSome = true
  logged : ∀ c ∈ l, LogEvent.contextEnded c cause ∈ s'.log

/-- What a write of firmware leaves of one piece of the package (R2, R7, R149, R159, R217, R226, R238, R259, R338, R344, R350). That a
clock above its ceiling is not set is the model's choice (log 57). -/
def fwRule (s s' : State) : FwReg → Prop
  | .contextEntry c root hva p => c < 64 → ∃ x, s'.context? c = some x ∧ x.root = root ∧ x.hva = BitVec.ofNat 64 hva ∧ x.partition = p
  | .contextOwnership c obase ocap => ∀ x, s.context? c = some x →
      s'.context? c = some { x with obase := BitVec.ofNat 64 obase, ocap := ocap, areaFailed := false }
  | .partitionDies p dies => let l := dies.filter fun d => (s.die d).configured && decide (d < 8)
      (p < 8 → l ≠ [] → ∃ x, s'.partition? p = some x ∧ x.dies = l) ∧ (8 ≤ p ∨ l = [] → s' = s)
  | .queueEntry p q c h => q < 64 → (∀ x ∈ s.queues, x.partition ≠ p ∨ x.num ≠ q) →
      s'.queues = s.queues ++ [{ partition := p, num := q, ctx := c, header := BitVec.ofNat 64 h }]
  | .queueClear p q => ∀ x, x ∈ s'.queues ↔ x ∈ s.queues ∧ ¬ (x.partition = p ∧ x.num = q)
  | .urgency p u => u < 2 ^ 32 → (∀ l ∈ s.launches, l.partition ≠ p ∨ l.cls ≠ 0) →
      s'.partitions = s.partitions.map fun x => if x.num = p then { x with urgency := u } else x
  | .epoch d u => (s'.die d).epoch = if 100000 ≤ u ∧ u ≤ 100000000 then u else (s.die d).epoch
  | .drainTimeout d u => (s'.die d).drainTimeout = u
  | .islandClock d i mhz => ∀ x, (s.die d).islands[i]? = some x →
      IslandSet s s' d i (if mhz ≤ ceilingRule s d i mhz then { x with mhz := mhz, lowered := 0 } else x)
  | .islandVoltage d i mv => ∀ x, (s.die d).islands[i]? = some x → IslandSet s s' d i { x with mv := mv }
  | .islandLimit d i limit => ∀ x, (s.die d).islands[i]? = some x → (s'.die d).islands[i]? = some { x with limit := limit }
  | .hostWindow base size => s'.hostWindows = s.hostWindows ++ [(base, size)]
  | .hostWindowsClear => s'.hostWindows = []
  | .metadataBase d base => (s'.die d).mdbase = base
  | .pte addr v => (∀ i, i < 8 → s'.byte (s.local addr + i) = BitVec.ofNat 8 (v.toNat / 256 ^ i))
      ∧ ∀ a, a < s.local addr ∨ s.local addr + 8 ≤ a → s'.byte a = s.byte a

/-- The die that a write of firmware names, where it names one. -/
def fwDie : FwReg → Option Nat
  | .epoch d _ | .drainTimeout d _ | .islandClock d _ _ | .islandLimit d _ _ | .islandVoltage d _ _ | .metadataBase d _ => some d
  | _ => none

/-- The home slices perform the accesses numbered `ids`, one after the other. -/
def homeSteps (s : State) : List Nat → Result
  | [] => .next s
  | i :: r => match exec (.homeSliceAccess i) s with
    | .next t => homeSteps t r
    | o => o

end Sys2Proof.Machine

/-- R344 to R346, R290, R159, R352, R353: the clock at which a core array runs, by leases, current limit and band; a current limit steps
the running clock of an island down by 100 MHz and only firmware raises it, within its ceiling and the 400 W cap; an idle vector pipe
falls to retention; leases are granted in 50 MHz steps outside deterministic mode, expire and return with a re-homing; MCAD is written;
an epoch halves the hotness counters; ports go down and up; a package joins the domain. THE MODEL'S CHOICE: the band clock by thermal
state (log 53), which instructions are a pipe's vector instructions (log 102), and that a raise above the ceiling, or not above the
present clock, is ignored (log 57). -/
def Obligations.ClocksAndLinks : Prop :=
  (∀ (s : State) d i r, (s.die d).islands = i :: r →
    s.clockOf d = rateRule s d 0 i
    ∧ (s.leaseClock d = none → s.clockOf d ≤ bandClockRule (s.die d))
    ∧ ∀ c, s.leaseClock d = some c → (s.die d).thermal = .run
      ∧ (∃ l ∈ s.leases, l.die = d ∧ l.clock = c ∧ l.left ≠ 0)
      ∧ ∀ t ∈ s.teams, t.die = d → t.place.resident = true → t.det = false
        ∧ ∃ l ∈ s.leases, l.ctx = t.ctx ∧ l.die = d ∧ l.left ≠ 0 ∧ c ≤ l.clock)
  ∧ (∀ (s : State) die k i, die < s.dies.length → (s.die die).islands[k]? = some i →
    (∃ s', exec (.currentLimitStep die k) s = .next s' ∧ s' = { s with dies := s'.dies, log := s.log ++ [.currentLimit die k] }
      ∧ (∃ j, s'.die die = { s.die die with islands := (s.die die).islands.set k j } ∧ j = { i with lowered := j.lowered }
        ∧ rateRule s' die k j = rateRule s die k i - 100)
      ∧ ∀ j, j ≠ die → s'.die j = s.die j)
    ∧ (∀ mhz, i.lowered ≠ 0 → rateRule s die k i < mhz → mhz ≤ ceilingRule s die k mhz →
      ∃ s' j, exec (.clockRaiseCommand die k mhz) s = .next s'
        ∧ (OnlyDie s s' die { s.die die with islands := (s.die die).islands.set k j } ∧ rateRule s' die k j = mhz
          ∧ j = { i with mhz := j.mhz, lowered := j.lowered } ∧ s'.underCap = true ∨ s' = s ∧ ¬ s.uncapped))
    ∧ (∀ mhz, i.lowered = 0 ∨ ceilingRule s die k mhz < mhz ∨ mhz ≤ rateRule s die k i →
      ∃ s', exec (.clockRaiseCommand die k mhz) s = .next s' ∧ OnlyDie s s' die (s.die die)))
  ∧ (∀ (s : State) die core slot, core < 96 → slot < (s.core die core).retention.length → slot < 4 →
    ∃ s', exec (.pipeRetention die core slot) s = .next s' ∧ s' = { s with cores := s'.cores }
      ∧ (s'.core die core).retention[slot]? = if (s.core die core).lastVec.getD slot 0 - 1 + 256 ≤ (s.die die).cycles then some true
          else (s.core die core).retention[slot]?)
  ∧ (∀ (s : State) c die clock ticks, ∃ s', exec (.boostLeaseGrant c die clock ticks) s = .next s'
    ∧ s' = { s with leases := s'.leases }
    ∧ ((∃ k, k < 6 ∧ clock = 1550 + 50 * k) → (∀ l ∈ s.launches, l.ctx = c → l.det = true → l.done ≠ none) →
        (s.context? c).isSome = true → die < 8 → ticks ≠ 0 → ⟨c, die, clock, ticks⟩ ∈ s'.leases
        ∧ ∀ x ∈ s'.leases, x ∈ s.leases ∨ x = ⟨c, die, clock, ticks⟩))
  ∧ (∀ (s : State) c die, ∃ s', exec (.leaseExpiry c die) s = .next s' ∧ s' = { s with leases := s'.leases }
    ∧ ∀ x, x ∈ s'.leases ↔ x ∈ s.leases ∧ ¬ (x.ctx = c ∧ x.die = die ∧ x.left = 0))
  ∧ (∀ (s : State) c p x, s.context? c = some x → (s.partition? p).isSome = true → ∃ s', exec (.contextRehome c p) s = .next s'
    ∧ s' = { s with contexts := s'.contexts, leases := s'.leases } ∧ s'.context? c = some { x with partition := p }
    ∧ ∀ y, y ∈ s'.leases ↔ y ∈ s.leases ∧ y.ctx ≠ c)
  ∧ (∀ (s : State) die core idle, die < 8 → core < 96 → ∃ s', exec (.mcadWrite die core idle) s = .next s'
    ∧ s' = { s with cores := s'.cores } ∧ s'.core die core = { s.core die core with mcad := idle }
    ∧ ∀ d k, k < 96 → (d, k) ≠ (die, core) → s'.core d k = s.core d k)
  ∧ (∀ (s : State) die, die < s.dies.length → let d := s.die die
    ∃ s' x, exec (.epochBoundary die) s = .next s' ∧ OnlyDie s s' die x
      ∧ (s.gtime < d.epochFrom + d.epoch → x = d)
      ∧ (d.epochFrom + d.epoch ≤ s.gtime → x = { d with
          epochFrom := d.epochFrom + d.epoch
          hotness := (d.hotness.map fun (y : Nat × BitVec 8) => (y.1, BitVec.ofNat 8 (y.2.toNat / 2))).filter fun y => y.2 != 0 }))
  ∧ (∀ (i : Instr) (die port : Nat) (b : Bool) (s : State), (i, die, port, b) ∈ (match i with
      | .larsaPortDown d p => [(i, d, p, false)] | .larsaPortUp d p => [(i, d, p, true)] | _ => []) → die < s.dies.length →
    ∃ s', exec i s = .next s' ∧ OnlyDie s s' die { s.die die with ports := (s.die die).ports.set port b })
  ∧ (∀ (s : State) p, ∃ s', exec (.larsaPackageJoin p) s = .next s' ∧ s' = { s with joined := s'.joined }
    ∧ (p < 576 → p ≠ s.package → p ∈ s'.joined) ∧ ∀ q, q ≠ p → (q ∈ s'.joined ↔ q ∈ s.joined))

/-- R7, R217, R238, R271, R272, R342, R347 to R351: what firmware writes; the ends of contexts, by firmware or by an uncorrectable error;
held accesses released, in the order in which they were made, with the host port's, the area copies and the completion records; boot of
an accepted image and only of one; the attestation report; and host writes and reads, line by line at the home slices, which reach the
exposed windows alone. THE MODEL'S CHOICE: the accesses that a failed die-to-die link loses are those whose request's route counts it
(`State.usesLink`, log 75), and a host-link error ends the contexts that its event names (log 54); partitions, contexts and queues beyond
their numbers are not written (log 65); a clock above its ceiling is not set (log 57); the boot state goes by the rising boundaries with
the clock and the timing set in force (log 52); and the host port's accesses are performed in the order in which it received them, line
by line, the answer with the last (log 55). -/
def Obligations.FirmwareAndHost : Prop :=
  (∀ r (s : State), (∀ d, fwDie r = some d → d < s.dies.length) → ∃ s', exec (.firmwareRegisterWrite r) s = .next s' ∧ fwRule s s' r
    ∧ ((∀ a v, r ≠ .pte a v) → (∀ p u, r = .urgency p u → ∀ l ∈ s.launches, l.partition ≠ p ∨ l.cls ≠ 0) → SameMemory s s'
        ∧ s'.teams = s.teams))
  ∧ (∀ (s : State) c x, s.context? c = some x → ∃ s', exec (.firmwareContextEnd c) s = .next s' ∧ Ended s s' [c] .firmware)
  ∧ (∀ (s : State) site, ∃ s' l, exec (.uncorrectableError site) s = .next s' ∧ Ended s s' l .error ∧ match site with
    | .dramRead c => l = [c]
    | .patrolRow d row => l = [] ∧ (d < s.dies.length → OnlyDie s s' d { s.die d with badRows := (s.die d).badRows ++ [row] })
    | .soft d => l = [] ∧ (d < s.dies.length → OnlyDie s s' d { s.die d with softErrors := (s.die d).softErrors + 1 })
    | .hostLink cs => ∀ c, c ∈ l ↔ c ∈ cs ∧ (s.context? c).isSome = true
    | .coreSlice tid | .cageSlice tid => ∀ c, c ∈ l ↔ ∃ t, s.team? tid = some t ∧ t.ctx = c
    | .link a b => ∀ c, c ∈ l ↔ ∃ x ∈ s.accesses, x.ctx = c ∧ s.usesLink a b x = true
    | .larsaLink d p => ∀ c, c ∈ l ↔ ∃ x ∈ s.accesses, x.ctx = c ∧ s.usesPort d p x = true
    | .dieTables d => ∀ c, c ∈ l ↔ ∃ x ∈ s.contexts, x.num = c ∧ ∃ p ∈ s.partitions, p.num = x.partition ∧ d ∈ p.dies)
  ∧ (∀ (s : State) die, let waiting := s.accesses.filter fun a => s.homedOn die a.line || (a.die == die && saPackage (a.line * 128) != s.package)
    (∃ u t, homeSteps s ((waiting.map fun a => a.id) ++ [0]) = .next u ∧ exec (.heldAccessRelease die) s = .next t
      ∧ t = u.freshenAreas.retryRecords ∧ (u.staleAreas = [] → (∀ l ∈ u.launches, l.done = none) → t = u))
    ∧ (waiting = [] → s.hostOps = [] → s.staleAreas = [] → (∀ l ∈ s.launches, l.done = none) →
        exec (.heldAccessRelease die) s = .next s))
  ∧ (∀ (s : State) i, s.dies.length = 8 →
    let ok := Config.sha3 i.key = Config.bootKeyHash ∧ Config.mldsaVerify i.key (Config.sha3 i.payload) i.signature = true
    ∃ s', exec (.powerOnBoot i) s = .next s' ∧ (¬ ok → s' = s)
    ∧ (ok → s.booted = false → SameMemory s s' ∧ s'.booted = true
        ∧ s'.payload = i.payload ∧ s'.package = i.packageNumber % 576 ∧ s'.gtime = 0 ∧ s'.dies.length = 8
        ∧ ∀ d, d < 8 → let x := s'.die d
            let temp := i.temps.getD d 0
            x.identity = Config.pufIdentity d ∧ (x.configured = true ↔ Config.pufIdentity d ∈ Config.recordIdentities i.payload)
            ∧ (x.configured = false → x.thermal = .off ∧ LogEvent.unconfigured d ∈ s'.log)
            ∧ (x.configured = true → x.thermal = if 5280 ≤ temp then .off else if 4000 ≤ temp then .warmIdle
                else if 1760 ≤ temp then .cooldown else .coldIdle)
            ∧ (temp < 1120 → x.excursion = true ∧ LogEvent.excursion d ∈ s'.log)
            ∧ x.timed))
  ∧ (∀ (s : State) nonce, s.booted = true → ∃ s' b r, exec (.attestationRequest nonce) s = .next s'
    ∧ s' = { s with hostReply := .report r } ∧ r.take b.length = b ∧ r.drop b.length = fitBytes 4627 (Config.mldsaSign b)
    ∧ b.length = 0xCB8 ∧ leNat (b.take 4) = 1 ∧ leNat ((b.drop 4).take 2) = s.package % 65536 ∧ b[7]? = some 0
    ∧ (b.drop 8).take 64 = fitBytes 64 (Config.sha3 s.payload)
    ∧ (∀ d, d < 8 → (b.drop (0x48 + 64 * d)).take 64 = if (s.die d).configured = true
        then fitBytes 64 (Config.sha3 (Config.configRecord s.payload (s.die d).identity)) else List.replicate 64 0) ∧ (b.drop 0x248).take 64 = fitBytes 64 nonce
    ∧ leNat ((b.drop 0x288).take 8) = s.gtime % 2 ^ 64 ∧ (∀ d, d < 8 → leNat ((b.drop (0x290 + d)).take 1) = (s.die d).band % 256)
    ∧ (b.drop 0x298).take 2592 = fitBytes 2592 Config.attestationKey)
  ∧ (∀ (s : State) addr l, (∃ w ∈ s.hostWindows, w.1 ≤ addr ∧ addr + l.length ≤ w.1 + w.2) → addr + l.length ≤ memEnd →
    (s.hostOps = [] → addr % 128 + l.length ≤ 128 → s.held 0 (s.local addr) = false →
      ∃ s', exec (.hostWrite addr l) s = .next s' ∧ s'.hostReply = .done ∧ s'.hostOps = []
        ∧ (∀ i, i < l.length → s'.byte (s.local addr + i) = l.getD i 0)
        ∧ ∀ a, a < s.local addr ∨ s.local addr + l.length ≤ a → s'.byte a = s.byte a)
    ∧ (s.hostOps = [] → exec (.hostWrite addr l) s = exec (.homeSliceAccess 0) { s with hostOps := [.write addr l] })
    ∧ (s.hostOps ≠ [] → exec (.hostWrite addr l) s = .next { s with hostOps := s.hostOps ++ [.write addr l] }))
  ∧ (∀ (s : State) addr n, (∃ w ∈ s.hostWindows, w.1 ≤ addr ∧ addr + n ≤ w.1 + w.2) → addr + n ≤ memEnd →
    (s.hostOps = [] → addr % 128 + n ≤ 128 → s.held 0 (s.local addr) = false →
      ∃ s', exec (.hostRead addr n) s = .next s' ∧ SameMemory s s' ∧ s'.teams = s.teams ∧ s'.hostOps = []
        ∧ s'.hostReply = .data ((List.range n).map fun i => s.byte (s.local addr + i)))
    ∧ (s.hostOps = [] → exec (.hostRead addr n) s = exec (.homeSliceAccess 0) { s with hostOps := [.read addr n []] })
    ∧ (s.hostOps ≠ [] → exec (.hostRead addr n) s = .next { s with hostOps := s.hostOps ++ [.read addr n []] }))
  ∧ (∀ (s : State), s.hostOps = [] → exec (.homeSliceAccess 0) s = .next s)
  ∧ (∀ (s : State) a l rest, s.hostOps = .write a l :: rest → let k := min l.length (128 - a % 128)
    (s.held 0 (s.local a) = true → exec (.homeSliceAccess 0) s = .next s)
    ∧ (s.held 0 (s.local a) = false → ∃ s', exec (.homeSliceAccess 0) s = .next s'
      ∧ (∀ i, i < k → s'.byte (s.local a + i) = l.getD i 0)
      ∧ (∀ b, b < s.local a ∨ s.local a + k ≤ b → s'.byte b = s.byte b)
      ∧ (l.length = k → s'.hostOps = rest ∧ s'.hostReply = .done)
      ∧ (k < l.length → s'.hostOps = .write (a + k) (l.drop k) :: rest ∧ s'.hostReply = s.hostReply)))
  ∧ (∀ (s : State) a n got rest, s.hostOps = .read a n got :: rest → let k := min n (128 - a % 128)
    let read := got ++ (List.range k).map fun i => s.byte (s.local a + i)
    (s.held 0 (s.local a) = true → exec (.homeSliceAccess 0) s = .next s)
    ∧ (s.held 0 (s.local a) = false → ∃ s', exec (.homeSliceAccess 0) s = .next s' ∧ SameMemory s s' ∧ s'.teams = s.teams
      ∧ (n = k → s'.hostOps = rest ∧ s'.hostReply = .data read)
      ∧ (k < n → s'.hostOps = .read (a + k) (n - k) read :: rest ∧ s'.hostReply = s.hostReply)))
  ∧ (∀ (i : Instr) (addr n : Nat) (s : State), (i, addr, n) ∈ (match i with
      | .hostWrite a l => [(i, a, l.length)] | .hostRead a n => [(i, a, n)] | _ => []) →
    (∀ w ∈ s.hostWindows, addr < w.1 ∨ w.1 + w.2 < addr + n) → exec i s = .next { s with hostReply := .unsupported })

/-! ### Faults, invalidations, migrations -/

namespace Sys2Proof.Machine

/-- Where a resolved entry held its requester, what the requester has become (R156, R157): a group is at its instruction again. -/
def replayRule (s s' : State) (id : Nat) : FaultReq → Prop
  | .insn t n | .fetch t n | .handler t n | .tex t n | .tileWrite t n => SameMemory s s' ∧ ∀ g, s.group? t n = some g →
      s'.group? t n = some (if g.park = .fault id then { g with park := .none } else g)
  | .prologue t => ∀ x, s.team? t = some x → s'.team? t = some { x with prologueFault := none }
  | .streamFetch t => ∀ x, s.team? t = some x → s'.team? t = some { x with stream := x.stream.map fun m => { m with park := .none } }
  | .drift t c => ∀ x, s.team? t = some x → s'.team? t = some { x with cmds := x.cmds.map fun y =>
      if y.id = c then { y with faults := y.faults.filter fun z => z ≠ id } else y }
  | .queue p q | .table p q _ => ∀ x, s.queue? p q = some x → s'.queue? p q = some { x with fault := none }
  | .gone | .tileFill _ => s' = { s with faults := s'.faults }
  | _ => True

/-- The same where firmware denies the entry: the group is to take XLATE_FATAL with code 5 at its instruction, and the engines' and
front ends' rules say the rest (R114, R156, R171, R177, R490). -/
def denyRule (s s' : State) (f : FaultEntry) : Prop :=
  let tr : Trap := { cause := 0xB, info := 5, va := (f.va.extractLsb' 0 57).signExtend 64 }
  match f.req with
  | .insn t n | .fetch t n => SameMemory s s' ∧ ∀ g e, s.group? t n = some g → g.park = .fault f.id → g.head? = some e →
      s'.group? t n = some { g with
        park := .none
        deny := some { trap := tr, pc := e.pc, handler := e.handler, fetch := decide (f.req = .fetch t n) } }
  | .handler t n => ∀ g, s.group? t n = some g → g.park = .fault f.id → s'.group? t n = some { g with park := .none, hvaDenied := true }
  | .drift t c => ∀ x, s.team? t = some x → x.anyLive = true →
      s'.team? t = some { x with cmds := x.cmds.filter fun y => y.id ≠ c, engTraps := x.engTraps ++ [tr] }
  | .prologue t => ∀ x, s.team? t = some x → s'.team? t = some
      { x with place := .running, begun := true, gated := true, engTraps := x.engTraps ++ [tr], prologueFault := none }
  | .streamFetch t => ∀ x m, s.team? t = some x → x.stream = some m →
      (m.ended = true → s' = { s with faults := s'.faults })
      ∧ (m.ended = false → x.anyLive = true → s'.team? t = some { x with
          stream := some { m with ended := true, weights := none, park := .none, owesReplay := false }
          engTraps := x.engTraps ++ [{ tr with va := m.pc }] })
  | .tileFill t => ∀ x b, s.team? t = some x → x.cov.bound = some b → ∃ y, s'.team? t = some y
      ∧ y.cov = { x.cov with bound := some { b with dead := true } }
  | .queue p q => ∀ x, s.queue? p q = some x → s'.queue? p q = some { x with fault := none, disabled := true } ∧ s'.log = s.log ++ [.queueDisabled p q]
  | .table p q r => ∀ x, s.queue? p q = some x → s'.queue? p q = some { x with fault := none, denied := x.denied ++ [r] }
  | .ownArea c _ => ∀ x, s.context? c = some x → s'.context? c = some { x with areaFailed := true }
      ∧ s'.log = s.log ++ [.areaUnwritten c]
  | .completion l => ∀ x, s.launch? l = some x → s'.launch? l = none ∧ s'.log = s.log ++ [.completionUnwritten x.ctx]
  | .gone => s' = { s with faults := s'.faults }
  | _ => True

end Sys2Proof.Machine

/-- R114, R154, R156, R157, R160, R171, R177, R490: a slot of a die's fault buffer goes to the first requester that waits for one; replay
and denial take the entry out of the buffer and do to its requester what its rule says; an ordered invalidation takes the covered
translations out of every TLB and walk cache; a migration notes its run, and its commit copies the page and writes the new run, or does
nothing where the run has changed. THE MODEL'S CHOICE (log 31): the commit copies the whole page in its own step, and an abandoned
migration changes nothing. -/
def Obligations.FaultsAndPages : Prop :=
  (∀ (s : State) die, 4096 ≤ s.faultSlotsUsed die ∨ (∀ f ∈ s.faults, f.die = die → f.slot = true) →
    exec (.faultSlotGrant die) s = .next s)
  ∧ (∀ (s : State) die l f r, s.faultSlotsUsed die < 4096 → s.faults = l ++ f :: r → f.die = die → f.slot = false →
    (∀ x ∈ l, x.die = die → x.slot = true) →
    exec (.faultSlotGrant die) s = .next { s with faults := l ++ { f with slot := true } :: r })
  ∧ (∀ (s : State) id f, s.faults.find? (fun x => x.id == id) = some f → f.slot = true → id < s.nextId →
    (∃ s', exec (.faultReplay id) s = .next s' ∧ (∀ x ∈ s'.faults, x.id ≠ id) ∧ replayRule s s' id f.req)
    ∧ (∃ s', exec (.faultDeny id) s = .next s' ∧ (∀ x ∈ s'.faults, x.id ≠ id) ∧ denyRule s s' f))
  ∧ (∀ (s : State) ctx va size, let ranges := [(va % 2 ^ 57, size)]
    exec (.orderedInvalidation ctx va size) s = .next { s with
      tlb := s.tlb.filter fun e => !(e.hit ctx ranges), nextId := s.nextId + 1
      oldPtes := s.oldPtes.map fun o => { o with done := o.done ++ [(ctx, va % 2 ^ 57, size)] }
      invals := s.invals ++ [{ id := s.nextId, ctx := ctx, ranges := ranges, barrier := s.nextId, purpose := .firmware }] })
  ∧ (∀ (s : State) ctx va shadow e pa n, s.walk ctx va = .page e → s.leafRun ctx va = some (pa, n) → let d := dieOfPhys (saPhys e.sa)
    saPackage e.sa = s.package → shadow % e.size = 0 → frameOk shadow e.size false = true ∨ frameOk shadow e.size true = true →
    (s.migrations.filter fun m => m.die == d).length < 8 → (∀ m ∈ s.migrations, m.pteAddr ≠ pa) →
    ∃ s' m, exec (.migratePage ctx va shadow) s = .next s' ∧ s' = { s with nextId := s.nextId + 1, migrations := s.migrations ++ [m] }
      ∧ m.die = d ∧ m.ctx = ctx ∧ m.va = e.va ∧ m.size = e.size ∧ m.pteAddr = pa ∧ m.run = s.readRun pa n ∧ m.shadow = shadow)
  ∧ (∀ (s : State) id m, s.migrations.find? (fun x => x.id == id) = some m → let old := m.oldSa
    (∀ a ∈ s.accesses, a.line < old / 128 ∨ (old + m.size) / 128 ≤ a.line) →
    (s.readRun m.pteAddr m.run.length ≠ m.run →
      exec (.migrationCommit id) s = .next { s with migrations := s.migrations.filter fun x => x.id != id })
    ∧ (s.readRun m.pteAddr m.run.length = m.run → ∃ s', exec (.migrationCommit id) s = .next s'
      ∧ (∀ x ∈ s'.migrations, x.id ≠ id) ∧ s'.readRun m.pteAddr m.run.length = m.run.map (fun e => newLeaf e (s.local m.shadow))
      ∧ (∀ e ∈ s'.tlb, e.hit m.ctx [(m.va, m.size)] = false)
      ∧ ∀ a, a < s.local m.pteAddr ∨ s.local m.pteAddr + 8 * m.run.length ≤ a →
          s'.byte a = (s.copyPage ((m.run.headD 0).toNat.testBit 6) old (s.local m.shadow) m.size).byte a))

/-! ### Launches, placing, records, teams -/

namespace Sys2Proof.Machine

/-- A queue that the front end takes packets from (R217, R218, R220, R338). -/
def State.takes (s : State) (p : Nat) (q : Queue) : Prop :=
  q.disabled = false ∧ q.fault = none ∧ s.accepted p < 1024 ∧ s.readsQueues p = true ∧ ∀ l ∈ s.launches, l.done = none

/-- The new team `t` of cluster `k` of launch `l` at position `p` on core `c` (R52, R56, R60, R63, R78): every lane of its groups stands
at the code's first instruction with priority 255. -/
def Placed (l : Launch) (die k p c : Nat) (x : Spot) (t : Team) : Prop :=
  t.launch = l.id ∧ t.ctx = l.ctx ∧ t.lid = l.lid ∧ t.die = die ∧ t.core = c ∧ t.slot = x.slot ∧ t.base = x.base ∧ t.unit = x.unit
    ∧ t.index = k * (l.cw * l.ch) + p ∧ t.reg = l.reg ∧ t.scr = l.scr ∧ t.acc = l.acc ∧ t.windows = l.windows
    ∧ t.place = (if l.xfCount = 0 then .running else .prologue)
    ∧ t.groups = (List.range l.ngroups).map fun n =>
        { num := n, rows := l.rows, frontier := [{ pc := l.code, prio := 255, lanes := 0xFFFFFFFF }] }

/-- An unstarted cluster of launch `l` on the die, or a closed batch of its graph below its node's CAP, with the tick from which it counts
(R220, R224, R233). -/
def Unstarted (s : State) (die : Nat) (l : Launch) (x : Cand × Nat) : Prop :=
  l.done = none ∧ (
    (x = (.launch l.id, l.acceptedAt) ∧ s.launchLeft l die = true ∧ s.serialOk l = true ∧ ∀ y ∈ l.promoted, y.1 ≠ die)
    ∨ ∃ g b n, l.graph = some g ∧ b ∈ g.batches ∧ b.die = die ∧ b.closedAt = some x.2 ∧ g.nodes[b.node]? = some n
      ∧ (n.cap = 0 ∨ s.nodeTeams l.id b.node < n.cap) ∧ x.1 = .batch l.id b.id)

/-- The part of the order of R224 that its own keys give: class, then the two keys. -/
def inKeyOrder (l : List Listed) : Prop := l.Pairwise fun x y =>
  x.cls < y.cls ∨ x.cls = y.cls ∧ (x.k1 < y.k1 ∨ x.k1 = y.k1 ∧ x.k2 ≤ y.k2)

/-- The candidates of class `cls` taken from each queue in turn, queue `turn` first (R224): those of one queue in the order from which they
count, numbered from 0 by the first key; the second key is the queue's place in the turn. -/
structure TurnOrder (s : State) (die cls turn : Nat) (l : List Listed) : Prop where
  order : inKeyOrder l
  range : ∀ x ∈ l, x.cls = cls ∧ x.k2 < 64
  queue : ∀ i, i < 64 → ∃ w : List (Cand × Nat), w.Pairwise (fun a b => a.2 ≤ b.2)
    ∧ (∀ y, y ∈ w ↔ ∃ k ∈ s.launches, k.cls = cls ∧ k.queue = (turn + i) % 64 ∧ Unstarted s die k y)
    ∧ (l.filter fun x => x.k2 == i) = w.zipIdx.map fun y => { cand := y.1.1, cls := cls, k1 := y.2, k2 := i }

/-- GTIME has reached DEADLINE - U of the saffron launch of an unplaced candidate (R226). -/
def UrgentNow (s : State) : Cand → Prop
  | .team _ => False
  | .launch l | .batch l _ => ∃ x, s.launch? l = some x ∧ x.cls = 0
      ∧ x.deadline ≤ s.gtime + ((s.partition? x.partition).map fun p => p.urgency).getD 0

/-- The candidates that the die's front end considers, in order (R224): ready swapped teams and promoted owners by class and tick, saffron
ones by DEADLINE and queue, clove and then anise ones from each queue in turn; of these, those that are not held; an urgent one first
(R227). -/
structure CandidateOrder (s : State) (die : Nat) : Prop where
  parts : ∃ ready saffron clove anise : List Listed,
    let l := (ready ++ saffron ++ clove ++ anise).filter fun x => s.mayPlace die x.cand
    s.candidates die = (l.filter fun x => s.isUrgent x.cand) ++ l.filter (fun x => !(s.isUrgent x.cand))
    ∧ inKeyOrder ready ∧ inKeyOrder saffron
    ∧ (∀ x, x ∈ ready ↔
        (∃ t ∈ s.teams, t.die = die ∧ s.clusterReady t = true ∧ (∀ u ∈ s.peers t, t.id ≤ u.id)
          ∧ x = ⟨.team t.id, t.eff, ((s.peers t).map fun u => u.readyAt.getD 0).foldl max 0, 0⟩)
        ∨ ∃ k ∈ s.launches, k.done = none ∧ s.launchLeft k die = true ∧ s.serialOk k = true
          ∧ ∃ tick, (die, tick) ∈ k.promoted ∧ x = ⟨.launch k.id, k.cls, tick, 0⟩)
    ∧ (∀ x, x ∈ saffron ↔ ∃ k ∈ s.launches, k.cls = 0 ∧ ∃ y, Unstarted s die k y ∧ x = ⟨y.1, 0, k.deadline, k.queue⟩)
    ∧ TurnOrder s die 1 (s.die die).turnClove clove ∧ TurnOrder s die 2 (s.die die).turnAnise anise
  urgent : ∀ c, s.isUrgent c = true ↔ UrgentNow s c
  considered : (s.considered die).Sublist (s.candidates die) ∧ ∀ x, x ∈ s.considered die ↔ x ∈ s.candidates die
    ∧ ∀ b ∈ s.candidates die, b.cand ∈ (s.die die).blocking → x.cand = b.cand ∨ x.cls < b.cls

/-- A swapped owner has been promoted with its whole cluster (R61, R244): those of it that are in the cage and not halted are ready, and no
other team is touched. -/
structure PromotedWith (s s' : State) (u : Team) : Prop where
  cluster : ∀ p ∈ s.peers u, s.team? p.id = some p → s'.team? p.id = some
    (if p.place = .caged false ∧ p.halted = false ∧ p.readyAt = none then { p with readyAt := some s.gtime } else p)
  others : ∀ k, (∀ p ∈ s.peers u, p.id ≠ k) → s'.team? k = s.team? k

/-- A candidate that has been skipped for 1,000,000 ticks and whose class no other one blocks (R224). -/
def StarvedNow (s : State) (die : Nat) (x : Listed) : Prop :=
  (∃ y ∈ (s.die die).skipped, y.1 = x.cand ∧ y.2 + 1000000 ≤ s.gtime)
    ∧ ∀ b ∈ s.candidates die, b.cand ∈ (s.die die).blocking → x.cls < b.cls

end Sys2Proof.Machine

/-- R56, R60, R63, R171, R217 to R224, R226, R233, R236, R249, R276: a doorbell is seen; a valid packet without tables and without a graph
is accepted as its launch, an invalid one refused, and READ passes it; the order of the candidates, the first that fits being placed; a prologue that ends
lets its team begin, and one that stops keeps what it has written; an urgent candidate's victims, anise before clove and the most recently
placed first, are stopped; starved candidates block their classes; a commit reaches its node's forming batch, which its timer and
backpressure close. THE MODEL'S CHOICE: which die's front end reads the queues (`frontDie`, log 72); the order within one queue's turn by
the tick of acceptance or closing, a promoted launch counted with the ready teams instead, a SERIAL launch that waits for its queue, and
one starved blocker a class (`Unstarted`, `TurnOrder`, `StarvedNow`, log 46); batches of one tick in list order (log 95); and a ready
cluster that waits for the event of its last member (`State.clusterReady`, log 70). -/
def Obligations.LaunchesAndPlacing : Prop :=
  (∀ (s : State) p n q l, s.queue? p n = some q → q.disabled = false → s.peek q.ctx q.header 64 = some l →
    ∃ s', exec (.launchDoorbell p n) s = .next s' ∧ s' = { s.peeked q.ctx q.header 64 with queues := s'.queues }
      ∧ SameMemory s s' ∧ s'.teams = s.teams ∧ s'.queue? p n = some { q with doorbell := decide ((parseHeader l).read < (parseHeader l).write) })
  ∧ (∀ (s s1 s2 s3 : State) p n q l b, s.queue? p n = some q → s.takes p q → let h := parseHeader l
    let die := s.frontDie p
    let w := leNat b
    let x := parsePacket s2.nextId q.partition q.num h.read q.ctx s2.gtime w
    s.feRead q.ctx die q.header 2 64 = (.ok l, s1) → h.bad = false → h.cls ≠ 3 → h.read < h.write →
    h.write - h.read ≤ 2 ^ h.log2n → s1.feRead q.ctx die (h.slotVa h.read) 2 128 = (.ok b, s2) →
    bits w 569 8 = 0 → x.xfCount = 0 → bits w 320 64 = 0 →
    s2.fresh.2.feWrite q.ctx die (q.header + 8) 2 (leBytes 8 (h.read + 1)) = (.ok (), s3) →
    (s2.fresh.2.packetErrs q h w x = [] →
      ∃ s', exec (.packetTake p n) s = .next s' ∧ s'.launches = s3.launches ++ [x] ∧ s'.mem = s3.mem ∧ s'.teams = s3.teams
        ∧ (∀ y ∈ s'.leases, x.det = true → y.ctx ≠ x.ctx))
    ∧ (∀ code, code ∈ s2.fresh.2.packetErrs q h w x → (∀ c ∈ s2.fresh.2.packetErrs q h w x, code ≤ c) → x.compaddr = 0 →
        (∀ y ∈ s3.launches, y.id ≠ s2.nextId) →
      ∃ s', exec (.packetTake p n) s = .next s' ∧ s'.launches = s3.launches ∧ s'.mem = s3.mem ∧ s'.teams = s3.teams))
  ∧ (∀ (s : State) die, CandidateOrder s die)
  ∧ (∀ (s : State) die core lid l j spots skipped, (∀ x ∈ s.launches, x.graph = none) →
    s.firstFit die (s.considered die) [] = some (.launch lid, skipped) → s.job (.launch lid) = some j →
    s.fitAt die j core = some spots → s.launch? lid = some l → let k := l.next.getD die 0
    ∃ s' l', exec (.clusterPlace die core) s = .next s' ∧ s'.launch? lid = some l' ∧ l'.next = l.next.set die (k + 1)
      ∧ l'.started = true ∧ ∀ y ∈ spots, ∃ t ∈ s'.teams, Placed l die k y.1 y.2.1 y.2.2 t)
  ∧ (∀ (s : State) die core, (∀ x ∈ s.launches, x.graph = none) → s.firstFit die (s.considered die) [] = none →
    ∃ s', exec (.clusterPlace die core) s = .next s' ∧ s' = { s with dies := s'.dies } ∧ ∀ d, d ≠ die → s'.die d = s.die d)
  ∧ (∀ (s s1 : State) tid t t', s.team? tid = some t → t.place = .prologue → t.prologueFault = none →
    s.prologue t = (.ok (), t', s1) → s1.team? tid = some t → t'.id = tid →
    ∃ s', exec (.prologueComplete tid) s = .next s' ∧ SameMemory s1 s' ∧ s'.team? tid = some { t' with
      place := .running, begun := true, gated := false, prologueFault := none
      stream := if t'.mstream = 0 then none else some { pc := t'.mstream } })
  ∧ (∀ (s s1 : State) tid t t', s.team? tid = some t → t.place = .prologue → t.prologueFault = none → s1.team? tid = some t → t'.id = tid →
    (∀ tr, s.prologue t = (.trap tr, t', s1) → ∃ s', exec (.prologueComplete tid) s = .next s' ∧ SameMemory s1 s'
      ∧ s'.team? tid = some { t' with place := .running, begun := true, gated := true, engTraps := t'.engTraps ++ [tr], prologueFault := none })
    ∧ (∀ c va, s.prologue t = (.fault c va, t', s1) → ∃ s' f, exec (.prologueComplete tid) s = .next s' ∧ SameMemory s1 s'
      ∧ s'.team? tid = some { t with scratch := t'.scratch, prologueFault := some f.id }
      ∧ f ∈ s'.faults ∧ f.req = .prologue tid ∧ f.cause = c ∧ f.va.toNat = va.toNat % 2 ^ 57))
  ∧ (∀ (s : State) die lid l, s.launch? lid = some l →
    (¬ UrgentNow s (.launch lid) ∨ l.done ≠ none ∨ (∀ t ∈ s.teams, t.die ≠ die) → exec (.urgencyReached die lid) s = .next s)
    ∧ (∀ v ∈ s.evictFor die l, ∃ t ∈ s.teams, t.id = v ∧ t.die = die ∧ t.eff ≠ 0)
    ∧ (∀ v t, s.evictFor die l = [v] → s.team? v = some t → t.cw * t.ch = 1 → t.place = .running →
      ∃ s' t', exec (.urgencyReached die lid) s = .next s' ∧ s'.team? v = some t' ∧ t'.place.left = true
        ∧ (∀ sp, t'.place = .caged sp → t'.halted = false → t'.readyAt.isSome = true)))
  ∧ (∀ (s : State) die core, (s.evictable die core).Pairwise fun a b => 3 - a.eff < 3 - b.eff
    ∨ 3 - a.eff = 3 - b.eff ∧ s.gtime - a.placedAt ≤ s.gtime - b.placedAt)
  ∧ (∀ (s : State) die j vs tr core ws, s.leastVictims die j = some vs → core < 96 → s.rectVictims die j tr core = some ws →
    vs.length ≤ ws.length)
  ∧ (∀ (s : State) die, die < s.dies.length → let d := s.die die
    ∃ s' x, exec (.skipTimeout die) s = .next s' ∧ OnlyDie s s' die x ∧ x = { d with blocking := x.blocking }
      ∧ ∀ c, c ∈ x.blocking ↔ (c ∈ d.blocking ∧ ∃ y ∈ s.candidates die, y.cand = c)
          ∨ ∃ l y r, s.candidates die = l ++ y :: r ∧ (∀ z ∈ l, ¬ StarvedNow s die z) ∧ StarvedNow s die y ∧ y.cand = c)
  ∧ (∀ (s : State) tid t node va r gr n, s.team? tid = some t → t.place.resident = true → t.q4 = (node, va) :: r →
    s.graph? t.launch = some gr → gr.nodes[node]? = some n →
    ∃ s' t' gr' b, exec (.recordCommitArrive tid) s = .next s' ∧ SameMemory s s' ∧ s'.team? tid = some t' ∧ t' = { t with q4 := r }
      ∧ s'.graph? t.launch = some gr' ∧ b ∈ gr'.batches ∧ b.die = t.die ∧ b.node = node
      ∧ b.recs = (match gr.batches.find? (fun y => y.die == t.die && y.node == node && y.closedAt.isNone) with
          | some y => y.recs ++ [va]
          | none => [va])
      ∧ b.closedAt = if n.count ≤ b.recs.length then some s.gtime else none)
  ∧ (∀ (s : State) die lid gr node n b, s.graph? lid = some gr → gr.nodes[node]? = some n →
    gr.batches.find? (fun y => y.die == die && y.node == node && y.closedAt.isNone) = some b →
    ∃ s' gr', exec (.batchTimerExpiry die lid node) s = .next s' ∧ s' = { s with launches := s'.launches } ∧ s'.graph? lid = some gr'
      ∧ (n.timer ≠ 0 → b.first + n.timer ≤ s.gtime → { b with closedAt := some s.gtime } ∈ gr'.batches)
      ∧ (n.timer = 0 ∨ s.gtime < b.first + n.timer → gr' = gr))
  ∧ (∀ (s : State) die lid gr, s.graph? lid = some gr → let mine := gr.batches.filter fun b => b.die == die
    ∃ s' gr', exec (.backpressureClose die lid) s = .next s' ∧ s' = { s with launches := s'.launches } ∧ s'.graph? lid = some gr'
      ∧ (∀ b, s.recaParked lid = true → (∀ x ∈ mine, x.closedAt = none) → oldestBatch mine = some b → { b with closedAt := some s.gtime } ∈ gr'.batches)
      ∧ (s.recaParked lid = false ∨ (∃ x ∈ mine, x.closedAt.isSome = true) → gr' = gr))

/-- R18, R57, R77, R223, R242, R244, R246, R249, R250, R264, R268, R269: a team whose groups, stream and commands are over, a write-back
that waits for its permit being cancelled, retires, and with the last one its launch; the forward-progress swap stops the longest parked
cluster of a core that has not issued for 65,536 cycles, unless an eviction or a relief of its teams is due; relief promotes an owner on
another die or that of a caged waiter, runs one on the waiter's core at one depth more, and swaps a parked owner for its ready waiter; a
drained team goes to the cage, or to its spill where the cage is full; a ready one comes back; a halted team is released; firmware ends a
caged one. THE MODEL'S CHOICE: the candidate that a forward-progress swap waits for, and the parked relieving team swapped out for its
ready waiter (`Team.after`, log 44); which teams count as waiting to be placed on the core (log 93); an event of the cycle taken before a
swap is decided (log 89); the count of the cage by save records (log 86), and a spilled record that stays spilled (log 90). -/
def Obligations.TeamsComeAndGo : Prop :=
  (∀ (s : State) tid t, s.team? tid = some t →
    let waits := fun c : DriftCmd => c.permit && !c.permitted && !c.finished
    let cancels := fun c : DriftCmd => waits c && decide ((barGen (t.bar c.pbar)).toNat ≤ c.enqGen.toNat)
    (t.place.resident = true → t.place ≠ .prologue → t.allEnded = true → (∀ g ∈ t.groups, g.fifo = []) →
        (∀ r ∈ s.remotes, r.tid ≠ tid ∧ r.target ≠ tid) → (∀ c ∈ t.cmds, cancels c = true) →
      ∃ s', exec (.teamRetire tid) s = .next s' ∧ (∀ u ∈ s'.teams, u.id ≠ tid) ∧ (∀ k e, s'.entry? k = some e → e.owner = .team tid → e.state.open_ = false)
        ∧ (∀ u ∈ s.teams, u.id ≠ tid → ∃ u' ∈ s'.teams, u'.id = u.id)
        ∧ (∀ l, s.launch? t.launch = some l → l.graph = none → l.done = none → l.compaddr = 0 →
            (∀ d, d < 8 → s.launchLeft l d = false) → (∀ u ∈ s.teams, u.launch = t.launch → u.id = tid) → s'.launch? t.launch = none))
    ∧ (t.place.resident = true → t.place ≠ .prologue → t.allEnded = true → (∀ g ∈ t.groups, g.fifo = []) →
        (∀ r ∈ s.remotes, r.tid ≠ tid ∧ r.target ≠ tid) → (∀ c ∈ t.cmds, c.finished = false) → (∃ c ∈ t.cmds, cancels c = false) →
      ∃ s', exec (.teamRetire tid) s = .next s' ∧ SameMemory s s'
        ∧ s'.team? tid = some { t with
            cmds := (t.cmds.filter fun c => !(cancels c)).map fun c => if waits c = true then { c with permitted := true } else c })
    ∧ (t.place.resident = false ∨ t.place = .prologue ∨ t.allEnded = false ∨ (∃ g ∈ t.groups, g.fifo ≠ [])
        ∨ (∃ r ∈ s.remotes, r.tid = tid ∨ r.target = tid) → exec (.teamRetire tid) s = .next s))
  ∧ (∀ (s : State) die core c0, (s.core die core).countFrom = some c0 →
    ((s.die die).cycles < c0 + 65536 → exec (.forwardProgressSwap die core) s = .next s)
    ∧ (∀ t r, c0 + 65536 ≤ (s.die die).cycles → s.candidates die ≠ [] → sortBy s.swapKey (s.swappable die core) = t :: r →
        (∀ u ∈ s.peers t, s.team? u.id = some u) → let ids := (s.peers t).map fun u => u.id
        (s.evictionDue die ids = true ∨ (∃ u ∈ s.peers t, s.reliefSwaps u = true) → exec (.forwardProgressSwap die core) s = .next s)
        ∧ (s.evictionDue die ids = false → (∀ u ∈ s.peers t, s.reliefSwaps u = false) →
          ∃ s', exec (.forwardProgressSwap die core) s = .next s' ∧ ∀ u ∈ s.peers t, ∃ u', s'.team? u.id = some u'
            ∧ u'.place.left = true ∧ u'.after = s.fitsWithout die core 3 ids)))
  ∧ (∀ (s : State) tid w spill, s.team? tid = some w → w.place = .caged spill →
    (s.waitsOn w = none → exec (.relief tid) s = .next s)
    ∧ ∀ grp e x uid u, s.waitsOn w = some (.entry grp e) → s.entry? e = some x → x.ctx = w.ctx → x.owner = .team uid → s.team? uid = some u →
        u.place = .caged false → u.halted = false → ∃ s', exec (.relief tid) s = .next s' ∧ SameMemory s s' ∧ PromotedWith s s' u)
  ∧ (∀ (s : State) tid w v, s.team? tid = some w → w.place = .running → s.evictionDue w.die [tid] = false → w.cw * w.ch = 1 →
    s.allParked w = true → s.besideWaiter w = some v → ∃ s' w', exec (.relief tid) s = .next s' ∧ s'.team? tid = some w'
      ∧ w'.place.left = true ∧ w'.after = some (.team v.id))
  ∧ (∀ (s : State) tid w, s.team? tid = some w → w.place = .running → s.evictionDue w.die [tid] = true → exec (.relief tid) s = .next s)
  ∧ (∀ (s : State) tid w, s.team? tid = some w → w.place = .running → s.evictionDue w.die [tid] = false →
    (s.allParked w = true → w.cw * w.ch = 1 → s.besideWaiter w = none) →
    (s.waiter w = none → exec (.relief tid) s = .next s)
    ∧ (∀ grp e x uid u, s.waiter w = some (.entry grp e) → s.entry? e = some x → x.ctx = w.ctx → x.owner = .team uid →
        s.team? uid = some u → u.place = .caged false → u.halted = false → u.ctx = w.ctx →
        (u.die ≠ w.die → ∃ s', exec (.relief tid) s = .next s' ∧ SameMemory s s' ∧ PromotedWith s s' u)
        ∧ (u.die = w.die → w.cw * w.ch ≠ 1 ∨ u.cw * u.ch ≠ 1 ∨ 4 ≤ w.depth → exec (.relief tid) s = .next s)
        ∧ (∀ s1 spot, u.die = w.die → w.cw * w.ch = 1 → u.cw * u.ch = 1 → w.depth < 4 → (s.die w.die).places true = true →
            s.roomFor w u.units u.ngroups = true → (s.markRelief w e).swapWaiter w e = some s1 →
            s1.fit w.die w.core u.units u.ngroups [] = some spot → s1.team? uid = some u → uid ≠ tid →
            ∃ s' u' w', exec (.relief tid) s = .next s' ∧ s'.team? uid = some u' ∧ u'.place = (if u.begun then .running else .prologue)
              ∧ u'.core = w.core ∧ u'.slot = spot.slot ∧ u'.unit = spot.unit ∧ u'.depth = w.depth + 1 ∧ u'.relieves = some e
              ∧ u'.eff = min u.eff w.eff ∧ s'.team? tid = some w' ∧ w'.place = .caged false ∧ w'.reliever = some uid)))
  ∧ (∀ (s : State) tid t ready since, s.team? tid = some t → t.place = .draining ready since →
    (t.cmds ≠ [] → s.gtime < since + 2000 → exec (.driftDrainExpiry tid) s = .next s)
    ∧ (∀ t1, t.cmds = [] ∨ since + 2000 ≤ s.gtime → let s1 := s.settleRounds tid (s.settleFuel t)
        s1.team? tid = some t1 → t1.place = t.place → s1.quiet t1 = true →
        ∃ s' t', exec (.driftDrainExpiry tid) s = .next s' ∧ s'.team? tid = some t' ∧ t'.place = .caged t1.saving
          ∧ t'.overflow = s1.cageFull t1 ∧ (t1.halted = true → t'.readyAt = none) ∧ (t1.halted = false → ready = true → t'.readyAt.isSome = true)
          ∧ (∀ f ∈ s'.faults, f.req.ofTeam tid = false)))
  ∧ (∀ (s : State) tid t core j spot skipped, s.team? tid = some t → t.cw * t.ch = 1 →
    s.firstFit t.die (s.considered t.die) [] = some (.team tid, skipped) → s.job (.team tid) = some j →
    ∀ c, s.fitAt t.die j core = some [(t.pos, c, spot)] →
    ∃ s' t', exec (.teamResume tid core) s = .next s' ∧ s'.team? tid = some t' ∧ t'.place = (if t.begun then .running else .prologue)
      ∧ t'.core = c ∧ t'.slot = spot.slot ∧ t'.base = spot.base ∧ t'.unit = spot.unit ∧ t'.readyAt = none ∧ t'.placedAt = s.gtime
      ∧ t'.code = t.code ∧ t'.index = t.index)
  ∧ (∀ (s : State) tid t, s.team? tid = some t → ∃ s', exec (.haltRelease tid) s = .next s' ∧ SameMemory s s'
    ∧ (∀ k, k ≠ tid → s'.team? k = s.team? k)
    ∧ s'.team? tid = some (if t.halted then { t with halted := false, readyAt := if t.place.left then some s.gtime else t.readyAt } else t))
  ∧ (∀ (s : State) tid t spill, s.team? tid = some t → t.place = .caged spill →
    ∃ s', exec (.cagedTeamEnd tid) s = .next s' ∧ (∀ u ∈ s'.teams, u.id ≠ tid)
      ∧ (∀ u ∈ s.teams, u.id ≠ tid → ∃ u' ∈ s'.teams, u'.id = u.id) ∧ ∀ k e, s'.entry? k = some e → e.owner = .team tid → e.state.open_ = false)

/-! ### Engines and the traps they leave -/

namespace Sys2Proof.Machine

/-- Command `c` of team `t` is on its way in the team's engine (R175). -/
def State.drives (s : State) (t : Team) (c : DriftCmd) : Prop := s.drift? c.id = some (t, c) ∧ s.team? t.id = some t

/-- Outside this one command, a team's commands `l` are as before, but that those enqueued before it have started (R175). -/
def otherCmds (l : List DriftCmd) (t' : Team) (c : DriftCmd) : Prop :=
  ∀ x, x.id ≠ c.id → (x ∈ t'.cmds ↔ ∃ y ∈ l, x = if y.id < c.id then { y with started := true } else y)

/-- The commands of a team before an arrival. Where its groups and stream have ended no phase grants a permit any more: a write-back that
waits for one has it if its phase is over, and is cancelled if not (R57, R174). -/
def settledCmds (t : Team) : List DriftCmd :=
  let waits := fun c : DriftCmd => c.permit && !c.permitted && !c.finished
  if t.allEnded = true then
    (t.cmds.filter fun c => !(waits c) || decide (c.enqGen.toNat < (barGen (t.bar c.pbar)).toNat)).map fun c =>
      if waits c = true then { c with permitted := true } else c
  else t.cmds

/-- The group has taken the trap that `owed` and `eng` describe, delivered at the head entry `e` to `lanes` (R255, R259, R260). -/
def Delivered (s1 s' : State) (t : Team) (g : Group) (e : Entry) (lanes : Mask) (tr : Trap) (owed eng : Bool) (code : DWord) : Prop :=
  ∃ g', s'.group? t.id g.num = some g' ∧ SameMemory s1 s' ∧ g'.park = .none
    ∧ g'.slot = some { cause := causeWord tr.cause 0 owed eng, info := tr.info, pc := e.pc, va := tr.va, prio := e.prio, lanes := lanes }
    ∧ g'.frontier = placeEntry { pc := code, prio := 255, lanes := lanes, handler := true } (removeLanes g.landAll.frontier lanes)

end Sys2Proof.Machine

/-- R57, R91, R174, R175, R177, R256: a permit is taken when its barrier has moved on, and a write-back of an ended team whose barrier has
not is cancelled; a line of a load is filled with its converted elements and present; a write-back's element is written and a block made raw, each by itself; a command whose
work is done, a load only with all its lines present, arrives once, pushes its TAG and is complete, and one whose access is fatal ends
and leaves its trap. R275, R293, R305 to R310, R321: weights that are owed are replayed; the coverage unit scans, stages and commits; a
tile's line is filled. R114, R260, R332: owed and engine traps are delivered, though not to a group whose TILEF has begun to write. THE
MODEL'S CHOICE: the units of a command in ascending order, each visible by itself (log 34). -/
def Obligations.EnginesAndTheirTraps : Prop :=
  (∀ (s : State) t c, s.drives t c → c.permit = true → c.permitted = false → c.finished = false →
    (c.enqGen.toNat < (barGen (t.bar c.pbar)).toNat → ∃ s' t', exec (.driftPermit c.id) s = .next s' ∧ SameMemory s s'
      ∧ s'.team? t.id = some t' ∧ t' = { t with cmds := t'.cmds } ∧ otherCmds t.cmds t' c
      ∧ t'.cmds.find? (fun x => x.id == c.id) = some { c with permitted := true, started := true })
    ∧ ((barGen (t.bar c.pbar)).toNat ≤ c.enqGen.toNat → exec (.driftPermit c.id) s = .next s))
  ∧ (∀ (s s1 : State) t c u pos line l, s.drives t c → c.kind = 0 → (pos, line) ∈ c.left → c.faults = [] →
    s.clusterPeer t pos = some u → s.team? u.id = some u → s.earlierFill u.id c.id line = false → let sz := formatSize c.sfmt
    let lo := max c.soff (line * 128)
    let hi := min (c.soff + c.runBytes) (line * 128 + 128)
    let e0 := (lo - c.soff) / sz
    128 ≤ lo → s.driftReads t c ((List.range ((hi - 1 - c.soff) / sz - e0 + 1)).map (e0 + ·)) = (.ok l, s1) →
    ∃ s' u', exec (.lineFill c.id pos line) s = .next s' ∧ SameMemory s s' ∧ s'.team? u.id = some u'
      ∧ u'.spadRead lo (hi - lo) = (l.drop (lo - c.soff - e0 * sz)).take (hi - lo)
      ∧ (∀ x, x < lo ∨ hi ≤ x → lo < hi → u'.spadByte x = u.spadByte x)
      ∧ (SMap.get 0 u.absent line = c.id + 1 → u'.linePresent (128 * line) = true)
      ∧ ∃ t', s'.team? t.id = some t' ∧ ∀ x ∈ t'.cmds, x.id = c.id → x.left = c.left.filter fun y => y ≠ (pos, line))
  ∧ (∀ (s s1 : State) t c pos i, s.drives t c → c.kind ∈ [1, 2, 3] → c.finished = false → c.faults = [] → i ∉ c.did → i < c.units →
    s.team? t.id = some t → s1.team? t.id = some t →
    (c.kind ≠ 2 → (c.permit = true → c.permitted = true) → (∀ l ∈ runLines c.soff c.runBytes, SMap.get 0 t.absent l = 0) →
        (∀ x ∈ t.cmds, x.id < c.id → x.stillWrites (va57 (c.elemVa i)) (formatSize c.gfmt) = false) →
        s.engineWrite t (c.elemVa i) (leBytes (formatSize c.gfmt) (widenElem c.sfmt c.gfmt
          (leNat (t.spadRead (c.soff + i * formatSize c.sfmt) (formatSize c.sfmt))))) = (.ok (), s1) →
      ∃ s' t', exec (.lineFill c.id pos i) s = .next s' ∧ SameMemory s1 s' ∧ s'.team? t.id = some t' ∧ otherCmds t.cmds t' c
        ∧ ∀ x ∈ t'.cmds, x.id = c.id → x.did = c.did ++ [i])
    ∧ (∀ sa, c.kind = 2 → s.direct t.ctx t.die (c.gaddr + BitVec.ofNat 64 (256 * i)) .write = (.ok (sa, true), s1) →
        ∀ s2, (s1.servedVia t.ctx true sa).decompress sa = .ok s2 → s2.team? t.id = some t →
      ∃ s' t', exec (.lineFill c.id pos i) s = .next s' ∧ SameMemory s2 s' ∧ s'.team? t.id = some t' ∧ otherCmds t.cmds t' c
        ∧ ∀ x ∈ t'.cmds, x.id = c.id → x.did = c.did ++ [i]))
  ∧ (∀ (s : State) t c, s.drives t c → c.finished = false → c.faults = [] → c.kind = 0 → (c.left ≠ [] ∨ s.laterOwes t c = true) →
    exec (.driftCommandComplete c.id) s = .next s)
  ∧ (∀ (s s1 : State) t c done, s.drives t c → c.finished = false → s.driftWork t c = (done, .ok (), s1) → let arrived := barEngine (t.bar c.abar)
    (c.arrive = true → arrived.isSome = true) → (c.complete = true → t.q1.length < 16) →
    ∃ s' t', exec (.driftCommandComplete c.id) s = .next s' ∧ SameMemory s1 s' ∧ s'.team? t.id = some t' ∧ (∀ x ∈ t'.cmds, x.id ≠ c.id)
      ∧ otherCmds (settledCmds t) t' c ∧ t'.q1 = t.q1 ++ (if c.complete then [c.tag] else [])
      ∧ some (t'.bar c.abar) = (if c.arrive then arrived.map fun w => w.1 else some (t.bar c.abar)))
  ∧ (∀ (s : State) t c w b, s.drives t c → c.finished = true → c.owesArrival = true → barEngine (t.bar c.abar) = some (w, b) →
    (c.owesTag = true → t.q1.length < 16) →
    ∃ s' t', exec (.engineArrivalRetry c.id) s = .next s' ∧ SameMemory s s' ∧ s'.team? t.id = some t' ∧ (∀ x ∈ t'.cmds, x.id ≠ c.id)
      ∧ t'.bar c.abar = w ∧ t'.q1 = t.q1 ++ if c.owesTag then [c.tag] else [])
  ∧ (∀ (s s1 : State) t c tr, s.drives t c → c.finished = false → c.faults = [] → t.anyLive = true →
    (c.kind ≠ 0 → (s.driftWork t c).2 = (.trap tr, s1)) →
    (c.kind = 0 → s.driftReads t c (List.range (c.rows * c.elems)) = (.trap tr, s1)) →
    ∃ s' t', exec (.driftCommandFault c.id) s = .next s' ∧ SameMemory s1 s' ∧ s'.team? t.id = some t'
      ∧ t'.cmds = t.cmds.filter (fun x => x.id != c.id) ∧ t'.engTraps = t.engTraps ++ [tr] ∧ t'.q1 = t.q1 ∧ t'.bars = t.bars)
  ∧ (∀ (s : State) tid t m w, s.team? tid = some t → t.stream = some m → m.weights = some w → m.ended = false → t.place = .running →
    (m.owesReplay = false ∨ t.weightsPresent w.ty w.tileOff w.sideOff = false → exec (.mwldReplay tid) s = .next s)
    ∧ (m.owesReplay = true → t.weightsPresent w.ty w.tileOff w.sideOff = true →
      let perm := ((t.spadRead w.sideOff.toNat 64).map fun x => x.toNat).Perm (List.range 64)
      (perm → ∃ s', exec (.mwldReplay tid) s = .next s' ∧ SameMemory s s' ∧ (s'.core t.die t.core).array = some tid
        ∧ s'.team? tid = some { t with stream := some { m with
            owesReplay := false
            weights := some { w with
              tile := t.spadRead w.tileOff.toNat (tileBytes w.ty), side := t.spadRead w.sideOff.toNat (sideBytes w.ty) } } })
      ∧ (¬ perm → t.anyLive = true → ∃ s', exec (.mwldReplay tid) s = .next s' ∧ SameMemory s s'
        ∧ s'.team? tid = some { t with
            stream := some { m with ended := true, weights := none, park := .none, owesReplay := false }
            engTraps := t.engTraps ++ [{ illegalTrap .operand with va := m.pc }] })))
  ∧ (∀ (s : State) tid t b, s.team? tid = some t → t.place.resident = true → t.cov.bound = some b → t.cov.acc = true → let c := t.cov
    let top := if c.uClip then c.layers.getLast? else none
    (∀ cov, (c.q2 = [.pathe] ∧ c.staging = [] ∧ cov = { c with
          q2 := [], cells := [], staging := stageEntries (scan c.cells c.uEo top) c.uSeq c.uPaint })
        ∨ (c.q2 = [.clipp] ∧ cov = { c with q2 := [], cells := [], layers := c.layers ++ [scan c.cells c.uEo top] })
        ∨ (c.q2 = [.clipx] ∧ cov = { c with q2 := [], layers := c.layers.dropLast })
        ∨ (∃ x r, c.q2 = .pathe :: r ∧ c.staging = x ∧ x ≠ [] ∧ cov = c) →
      ∃ s', exec (.pathScan tid) s = .next s' ∧ SameMemory s s' ∧ s'.team? tid = some { t with cov := cov })
    ∧ (∀ e r, c.staging = e :: r → c.q3.length < 128 → ∃ s', exec (.stagingMove tid) s = .next s' ∧ SameMemory s s'
        ∧ s'.team? tid = some { t with cov := { c with staging := r, q3 := c.q3 ++ [e] } })
    ∧ (∀ k r, c.tickets = k :: r → k.op = some .drop → ∃ s', exec (.spanCommit tid) s = .next s' ∧ SameMemory s s'
        ∧ s'.team? tid = some { t with cov := { c with tickets := r } })
    ∧ (∀ k r op, c.tickets = k :: r → k.op = some op → op ≠ .drop → 128 ≤ b.coff → let f := fun i n => bits k.word.toNat i n
        let px := fun x => b.coff + 8 * (16 * f 8 4 + x)
        t.linePresent (b.coff + 128 * f 8 4) = true → ∃ s' t', exec (.spanCommit tid) s = .next s' ∧ SameMemory s s'
          ∧ s'.team? tid = some t' ∧ t' = { t with cov := { c with tickets := r }, scratch := t'.scratch }
          ∧ (∀ x, f 0 4 ≤ x → x ≤ f 4 4 → t'.spadRead (px x) 8 = blendPixel op (f 12 17) k.colour (t.spadRead (px x) 8))
          ∧ ∀ a, a < px (f 0 4) ∨ px (f 4 4) + 8 ≤ a → f 0 4 ≤ f 4 4 → t'.spadByte a = t.spadByte a)
    ∧ (∀ line s1 bytes, line ∈ b.fill → b.dead = false → (∀ f ∈ s.faults, f.req ≠ .tileFill tid) → (∀ u ∈ s.teams, u.cmds = []) →
        128 ≤ b.coff → s.fillRow t b line = (.ok bytes, s1) → ∃ s' t', exec (.tileFillLine tid line) s = .next s' ∧ SameMemory s s'
          ∧ s'.team? tid = some t' ∧ t'.spadRead (b.coff + 128 * line) bytes.length = bytes
          ∧ t'.cov = { c with bound := some { b with fill := b.fill.filter fun x => x ≠ line } }
          ∧ (SMap.get 0 t.absent (b.coff / 128 + line) = b.fillId + 1 → SMap.get 0 t'.absent (b.coff / 128 + line) = 0)))
  ∧ (∀ (s s1 : State) t g e code, s.team? t.id = some t → t.group? g.num = some g → t.place = .running → g.head? = some e →
    (t.midTile g = true → (g.park = .none → exec (.deferredTrapDelivery t.id g.num) s = .next s)
      ∧ (t.lowestLive = some g → exec (.engineTrapDelivery t.id) s = .next s))
    ∧ (t.midTile g = false → CanTrap s t g code s1 → (∀ o, g.park = .none → g.owedAt e = some o → o.handler = false → ∃ s', exec (.deferredTrapDelivery t.id g.num) s = .next s'
      ∧ Delivered s1 s' t g e (o.lanes &&& e.lanes) o.trap true false code)
    ∧ (∀ tr rest, t.engTraps = tr :: rest → t.lowestLive = some g → g.park.tookEffect = false → e.handler = false →
        ∃ s' t', exec (.engineTrapDelivery t.id) s = .next s' ∧ Delivered s1 s' t g e e.lanes tr false true code
          ∧ s'.team? t.id = some t' ∧ t'.engTraps = rest)))
end

