-- ==== Sys2Proof/Laws/Map.lean ====
section
/-! SUPPORT. Laws of the sparse map and of memory: a read after a write, and the canonical form kept by every write. -/

namespace Sys2Proof

namespace SMap

variable {α : Type} {d : α}

@[simp] theorem get_nil (a : Nat) : get d [] a = d := rfl

theorem get_erase (m : SMap α) (a b : Nat) : get d (erase m a) b = if b = a then d else get d m b := by
  induction m with
  | nil => simp [erase]
  | cons x r ih =>
    obtain ⟨k, v⟩ := x
    simp only [erase] at ih
    by_cases h : k = a
    · subst h
      simp only [erase, List.filter_cons, bne_self_eq_false, Bool.false_eq_true, if_false, ih, get]
      by_cases e : b = k <;> simp [e]
    · have h' : (k != a) = true := by simpa using h
      simp only [erase, List.filter_cons, h', if_true, get, ih]
      by_cases e : b = k
      · subst e; simp [h]
      · simp [e]

theorem get_insert (m : SMap α) (a b : Nat) (v : α) (h : ∀ x ∈ m, x.1 ≠ a) :
    get d (SMap.insert m a v) b = if b = a then v else get d m b := by
  induction m with
  | nil => simp [SMap.insert, get]
  | cons x r ih =>
    obtain ⟨k, w⟩ := x
    have hk : k ≠ a := h (k, w) (by simp)
    simp only [SMap.insert]
    by_cases e : a < k
    · rw [if_pos e]; simp only [get]
    · rw [if_neg e]
      simp only [get, ih fun x hx => h x (by simp [hx])]
      by_cases e2 : b = k
      · subst e2; simp [hk]
      · simp [e2]

/-- A read after a write. -/
theorem get_set [DecidableEq α] (m : SMap α) (a b : Nat) (v : α) :
    get d (set d m a v) b = if b = a then v else get d m b := by
  unfold set
  by_cases e : v = d
  · rw [if_pos e, get_erase, e]
  · rw [if_neg e, get_insert _ _ _ _ (by simp [erase]), get_erase]
    by_cases e2 : b = a <;> simp [e2]

theorem get_set_self [DecidableEq α] (m : SMap α) (a : Nat) (v : α) : get d (set d m a v) a = v := by simp [get_set]

theorem get_set_ne [DecidableEq α] {m : SMap α} {a b : Nat} {v : α} (h : b ≠ a) : get d (set d m a v) b = get d m b := by
  simp [get_set, h]

variable [DecidableEq α]

theorem wfFrom_mono {lo hi : Nat} {m : SMap α} (h : lo ≤ hi) (w : wfFrom d hi m = true) : wfFrom d lo m = true := by
  cases m with
  | nil => rfl
  | cons x r =>
    obtain ⟨k, v⟩ := x
    simp only [wfFrom, Bool.and_eq_true, decide_eq_true_eq] at w ⊢
    exact ⟨⟨by omega, w.1.2⟩, w.2⟩

theorem wfFrom_erase {lo a : Nat} {m : SMap α} (w : wfFrom d lo m = true) : wfFrom d lo (erase m a) = true := by
  induction m generalizing lo with
  | nil => rfl
  | cons x r ih =>
    obtain ⟨k, v⟩ := x
    simp only [wfFrom, Bool.and_eq_true, decide_eq_true_eq] at w
    have hr := ih w.2
    simp only [erase] at hr ⊢
    simp only [List.filter_cons]
    split
    · simp only [wfFrom, Bool.and_eq_true, decide_eq_true_eq]
      exact ⟨w.1, hr⟩
    · exact wfFrom_mono (by omega) hr

theorem wfFrom_insert {lo a : Nat} {v : α} {m : SMap α} (w : wfFrom d lo m = true) (h : lo ≤ a) (hv : v ≠ d)
    (ha : ∀ x ∈ m, x.1 ≠ a) : wfFrom d lo (SMap.insert m a v) = true := by
  induction m generalizing lo with
  | nil => simp [SMap.insert, wfFrom, h, hv]
  | cons x r ih =>
    obtain ⟨k, u⟩ := x
    have hk : k ≠ a := ha (k, u) (by simp)
    simp only [wfFrom, Bool.and_eq_true, decide_eq_true_eq] at w
    obtain ⟨⟨w1, w2⟩, w3⟩ := w
    simp only [SMap.insert]
    by_cases e : a < k
    · rw [if_pos e]
      simp only [wfFrom, Bool.and_eq_true, decide_eq_true_eq]
      exact ⟨⟨h, hv⟩, ⟨by omega, w2⟩, w3⟩
    · rw [if_neg e]
      simp only [wfFrom, Bool.and_eq_true, decide_eq_true_eq]
      exact ⟨⟨w1, w2⟩, ih w3 (by omega) fun x hx => ha x (by simp [hx])⟩

/-- Writing keeps the canonical form. -/
theorem wf_set {m : SMap α} {a : Nat} {v : α} (w : wf d m = true) : wf d (set d m a v) = true := by
  unfold set
  by_cases e : v = d
  · rw [if_pos e]; exact wfFrom_erase w
  · rw [if_neg e]; exact wfFrom_insert (wfFrom_erase w) (Nat.zero_le a) e (by simp [erase])

/-- A canonical map that reads as the default everywhere is empty. -/
theorem wf_nil : wf d ([] : SMap α) = true := rfl

end SMap

namespace Machine

@[simp] theorem length_readBytes (m : SMap Byte) (a n : Nat) : (readBytes m a n).length = n := by
  simp [readBytes]

/-- Every write of memory bytes keeps the canonical form. -/
theorem wf_writeBytes {m : SMap Byte} (l : List Byte) (a : Nat) (w : SMap.wf 0#8 m = true) :
    SMap.wf 0#8 (writeBytes m a l) = true := by
  induction l generalizing m a with
  | nil => exact w
  | cons b r ih => exact ih (a + 1) (SMap.wf_set w)

/-- A byte after a write of several. -/
theorem get_writeBytes (m : SMap Byte) (l : List Byte) (a b : Nat) :
    SMap.get 0#8 (writeBytes m a l) b = if a ≤ b ∧ b < a + l.length then l.getD (b - a) 0 else SMap.get 0#8 m b := by
  induction l generalizing m a with
  | nil => simp [writeBytes]
  | cons x r ih =>
    simp only [writeBytes]
    rw [ih, SMap.get_set]
    by_cases h1 : b = a
    · subst h1; simp
    · simp only [h1, if_false, List.length_cons]
      by_cases h2 : a + 1 ≤ b ∧ b < a + 1 + r.length
      · rw [if_pos h2, if_pos (by omega)]
        obtain ⟨k, hk⟩ : ∃ k, b - a = k + 1 := ⟨b - a - 1, by omega⟩
        rw [hk, List.getD_cons_succ, show b - (a + 1) = k by omega]
      · rw [if_neg h2, if_neg (by omega)]

/-- A byte of memory after a write. -/
theorem State.byte_setBytes (s : State) (l : List Byte) (a b : Nat) :
    (s.setBytes a l).byte b = if a ≤ b ∧ b < a + l.length then l.getD (b - a) 0 else s.byte b :=
  get_writeBytes s.mem l a b

/-- Bytes read back as written. -/
theorem readBytes_writeBytes (m : SMap Byte) (l : List Byte) (a : Nat) : readBytes (writeBytes m a l) a l.length = l := by
  apply List.ext_getElem
  · simp
  · intro i h1 h2
    simp only [readBytes, List.getElem_map, List.getElem_range]
    rw [get_writeBytes, if_pos (by omega)]
    simp [h2]

theorem State.mem_setBytes (s : State) (a : Nat) (l : List Byte) : (s.setBytes a l).mem = writeBytes s.mem a l := rfl

/-- Reset memory lists nothing. -/
theorem State.reset_mem : State.reset.mem = [] := rfl

end Machine

end Sys2Proof
end

