-- ==== Sys2Proof/Laws/Memory.lean ====
section
/-! SUPPORT. Every operation that writes memory keeps its canonical form, and the memory after reset has it. -/

namespace Sys2Proof

/-- Taking entries away keeps the form. -/
theorem SMap.wfFrom_filter {α : Type} [DecidableEq α] {d : α} (p : Nat × α → Bool) {lo : Nat} {m : SMap α} (w : wfFrom d lo m = true) :
    wfFrom d lo (m.filter p) = true := by
  induction m generalizing lo with
  | nil => exact w
  | cons x r ih =>
    obtain ⟨k, v⟩ := x
    simp only [wfFrom, Bool.and_eq_true, decide_eq_true_eq, ne_eq] at w
    obtain ⟨⟨h1, h2⟩, h3⟩ := w
    by_cases h : p (k, v) = true
    · rw [List.filter_cons_of_pos h]
      simp [wfFrom, h1, h2, ih h3]
    · rw [List.filter_cons_of_neg h]
      exact wfFrom_mono (by omega) (ih h3)

namespace Machine

theorem reset_memory_wf : Memory.wf State.reset.mem = true := rfl

theorem Memory.wf_filter {m : SMap Byte} (p : Nat × Byte → Bool) (w : Memory.wf m = true) : Memory.wf (m.filter p) = true :=
  SMap.wfFrom_filter p w

theorem State.setBytes_wf {s : State} (a : Nat) (l : List Byte) (w : Memory.wf s.mem = true) : Memory.wf (s.setBytes a l).mem = true :=
  wf_writeBytes l a w

theorem State.setBldMode_wf {s : State} (sa m : Nat) (w : Memory.wf s.mem = true) : Memory.wf (s.setBldMode sa m).mem = true :=
  State.setBytes_wf _ _ w

@[simp] theorem State.mem_wakeLine (s : State) (line : Nat) : (s.wakeLine line).mem = s.mem := by
  unfold State.wakeLine; split <;> rfl

theorem State.mem_setDie (s : State) (d : Nat) (x : Die) : (s.setDie d x).mem = s.mem := rfl

@[simp] theorem State.mem_served (s : State) (sa : Nat) : (s.served sa).mem = s.mem := by
  unfold State.served; split
  · rfl
  · simp only [State.mem_setDie]

theorem State.mem_wakeLines (l : List Nat) (s : State) : (l.foldl State.wakeLine s).mem = s.mem := by
  induction l generalizing s with
  | nil => rfl
  | cons x r ih => rw [List.foldl_cons, ih, State.mem_wakeLine]

/-- A write that wakes the watchers of what it changes (R179). -/
theorem State.putBytes_wf {s : State} (a : Nat) (l : List Byte) (w : Memory.wf s.mem = true) : Memory.wf (s.putBytes a l).mem = true := by
  rw [State.putBytes, State.mem_wakeLines]; exact State.setBytes_wf a l w

@[simp] theorem State.mem_keepOld (s : State) (a : Nat) (l : List Byte) : (s.keepOld a l).mem = s.mem := rfl

/-- Any agent's write (R154, R179). -/
theorem State.alter_wf {s : State} (a : Nat) (l : List Byte) (w : Memory.wf s.mem = true) : Memory.wf (s.alter a l).mem = true :=
  State.putBytes_wf (s := s.keepOld a l) a l w

/-- A decompression in place (R168). -/
theorem State.decompress_wf {s t : State} {sa : Nat} (h : s.decompress sa = .ok t) (w : Memory.wf s.mem = true) : Memory.wf t.mem = true := by
  unfold State.decompress at h
  split at h
  · cases h; exact w
  · split at h
    · cases h; exact State.setBldMode_wf _ _ (State.setBytes_wf _ _ w)
    · cases h

/-- A write at a home slice. -/
theorem State.writeVia_wf {s t : State} {bld : Bool} {sa : Nat} {l : List Byte} (h : s.writeVia bld sa l = .ok t)
    (w : Memory.wf s.mem = true) : Memory.wf t.mem = true := by
  unfold State.writeVia at h
  split at h
  · cases h
  · rename_i s1 e
    have w1 : Memory.wf s1.mem = true := by
      cases bld
      · cases e; exact w
      · exact State.decompress_wf e w
    cases h
    exact State.alter_wf _ _ w1

/-- A tile's block with its mode byte (R323). -/
theorem State.writeBlock_wf {s t : State} {bld compress : Bool} {sa : Nat} {raw : List Byte} (h : s.writeBlock bld compress sa raw = .ok t)
    (w : Memory.wf s.mem = true) : Memory.wf t.mem = true := by
  unfold State.writeBlock at h
  split at h
  · split at h
    · exact State.writeVia_wf h (State.writeVia_wf ‹_› w)
    · cases h
  · split at h
    · cases h
    · cases h
      dsimp only
      have wake (x : State) (b : Bool) (n : Nat) (v : Memory.wf x.mem = true) : Memory.wf (if b then x.wakeLine n else x).mem = true := by
        cases b
        · exact v
        · rw [if_pos rfl, State.mem_wakeLine]; exact v
      apply wake
      apply wake
      split
      · exact State.setBldMode_wf _ _ (State.setBytes_wf (s := s.keepOld _ _) _ _ w)
      · exact State.setBldMode_wf _ _ (State.setBytes_wf (s := s.keepOld _ _) _ _ w)

theorem State.writeRun_wf {s : State} (pa : Nat) (l : List (BitVec 64)) (w : Memory.wf s.mem = true) : Memory.wf (s.writeRun pa l).mem = true :=
  State.putBytes_wf _ _ w

theorem State.copyBlock_wf {s : State} (b : Bool) (src dst : Nat) (w : Memory.wf s.mem = true) : Memory.wf (s.copyBlock b src dst).mem = true := by
  unfold State.copyBlock
  split
  · split
    · exact State.setBldMode_wf _ _ (State.putBytes_wf _ _ w)
    · exact w
  · exact State.setBldMode_wf _ _ (State.putBytes_wf _ _ w)

@[simp] theorem State.mem_copyServed (s : State) (src dst : Nat) : (s.copyServed src dst).mem = s.mem := by
  simp [State.copyServed]

/-- A migration's copy of its page (R162, R163). -/
theorem State.copyPage_wf {s : State} (bld : Bool) (src dst size : Nat) (w : Memory.wf s.mem = true) :
    Memory.wf (s.copyPage bld src dst size).mem = true := by
  have blocks (n : Nat) : Memory.wf (s.copyBlocks (bld && size < 65536) src dst n).mem = true := by
    induction n with
    | zero => exact w
    | succ n ih => rw [State.copyBlocks, State.mem_copyServed]; exact State.copyBlock_wf _ _ _ ih
  unfold State.copyPage
  generalize size / 65536 = n
  induction n with
  | zero => exact blocks _
  | succ n ih => exact State.setBytes_wf _ _ ih

/-- A table entry that the driver or the firmware writes (R150, R154). -/
theorem State.writePte_wf {s : State} (pa v : Nat) (w : Memory.wf s.mem = true) : Memory.wf (s.writePte pa v).mem = true := by
  have put (b : Bool) (x : State) (a a' : Nat) (l : List Byte) (v : Memory.wf x.mem = true) :
      Memory.wf (((if b then x else s).putBytes a l).served a').mem = true := by
    rw [State.mem_served]
    cases b
    · exact State.putBytes_wf a l w
    · exact State.putBytes_wf a l v
  exact put _ { s with oldPtes := { pa := pa, value := s.pte pa } :: s.oldPtes } _ _ _ w

/-- Bytes of one line written for the host (R350). -/
theorem State.hostPut_wf {s : State} (sa : Nat) (l : List Byte) (w : Memory.wf s.mem = true) :
    Memory.wf (s.hostPut sa l).mem = true := by
  rw [State.hostPut, State.mem_served]
  exact State.alter_wf _ _ w

theorem State.mem_setHost (s : State) (l : List HostOp) (r : HostReply) :
    ({ s with hostOps := l, hostReply := r } : State).mem = s.mem := rfl

theorem State.mem_setHostOps (s : State) (l : List HostOp) : ({ s with hostOps := l } : State).mem = s.mem := rfl

/-- The host port's next line (R350). -/
theorem hostAccess_wf {s : State} (w : Memory.wf s.mem = true) : Memory.wf (hostAccess s).mem = true := by
  unfold hostAccess
  split
  · exact w
  · split
    · exact w
    · rename_i a l rest _ _
      have h := State.hostPut_wf (s.local a) (l.take (firstPart a l.length)) w
      dsimp only
      split
      · rw [State.mem_setHost]; exact h
      · rw [State.mem_setHostOps]; exact h
  · split
    · exact w
    · rename_i a n _ rest _ _
      have h : Memory.wf (s.served (s.local a)).mem = true := by rw [State.mem_served]; exact w
      dsimp only
      split
      · rw [State.mem_setHost]; exact h
      · rw [State.mem_setHostOps]; exact h

end Machine

end Sys2Proof
end

