-- ==== Sys2Proof/Laws/Access.lean ====
section
/-! SUPPORT. One law per shared operation of the memory path: what a translation, a direct read, a direct write and a fault entry can
change. -/

namespace Sys2Proof.Machine

/-- A served access changes the counters of its home die alone (R158). -/
theorem State.served_spec (s : State) (sa : Nat) : ∃ dies, s.served sa = { s with dies := dies } := by
  unfold State.served
  split
  · exact ⟨_, rfl⟩
  · exact ⟨_, rfl⟩

/-- A read that a home slice serves may besides doom the reader's context (R158, R271). -/
theorem State.servedRead_spec (s : State) (ctx sa : Nat) :
    ∃ dies doomed, s.servedRead ctx sa = { s with dies := dies, doomed := doomed } := by
  obtain ⟨dies, h⟩ := s.served_spec sa
  unfold State.servedRead
  rw [h]
  dsimp only
  split <;> exact ⟨_, _, rfl⟩

/-- Several reads. -/
theorem State.servedReads_spec (ctx : Nat) (l : List Nat) (s : State) :
    ∃ dies doomed, l.foldl (fun (s : State) sa => s.servedRead ctx sa) s = { s with dies := dies, doomed := doomed } := by
  induction l generalizing s with
  | nil => exact ⟨_, _, rfl⟩
  | cons a r ih =>
    obtain ⟨d1, m1, h1⟩ := s.servedRead_spec ctx a
    obtain ⟨d2, m2, h2⟩ := ih (s.servedRead ctx a)
    exact ⟨d2, m2, by rw [List.foldl_cons, h2, h1]⟩

/-- The tables that a walk reads (R158, R271). -/
theorem State.servedWalk_spec (s : State) (ctx va : Nat) :
    ∃ dies doomed, s.servedWalk ctx va = { s with dies := dies, doomed := doomed } := by
  unfold State.servedWalk
  split
  · exact ⟨_, _, rfl⟩
  · exact State.servedReads_spec _ _ s

/-- What an access reads beside its line (R158). -/
theorem State.servedMode_spec (s : State) (ctx : Nat) (bld : Bool) (sa : Nat) :
    ∃ dies doomed, s.servedMode ctx bld sa = { s with dies := dies, doomed := doomed } := by
  obtain ⟨d1, m1, h1⟩ := s.servedRead_spec ctx (s.mdAddr sa + blockOf sa)
  obtain ⟨d2, m2, h2⟩ := (s.servedRead ctx (s.mdAddr sa + blockOf sa)).servedRead_spec ctx (s.mdAddr sa + 256)
  unfold State.servedMode
  split
  · exact ⟨_, _, rfl⟩
  · dsimp only
    split
    · exact ⟨d2, m2, by rw [h2, h1]⟩
    · exact ⟨d1, m1, h1⟩

theorem State.servedVia_spec (s : State) (ctx : Nat) (bld : Bool) (sa : Nat) :
    ∃ dies doomed, s.servedVia ctx bld sa = { s with dies := dies, doomed := doomed } := by
  obtain ⟨d1, m1, h1⟩ := s.servedMode_spec ctx bld sa
  obtain ⟨d2, m2, h2⟩ := (s.servedMode ctx bld sa).servedRead_spec ctx sa
  exact ⟨d2, m2, by rw [State.servedVia, h2, h1]⟩

theorem State.servedWrite_spec (s : State) (ctx : Nat) (bld : Bool) (sa : Nat) :
    ∃ dies doomed, s.servedWrite ctx bld sa = { s with dies := dies, doomed := doomed } := by
  obtain ⟨d1, m1, h1⟩ := s.servedMode_spec ctx bld sa
  obtain ⟨d2, h2⟩ := (s.servedMode ctx bld sa).served_spec sa
  exact ⟨d2, m1, by rw [State.servedWrite, h2, h1]⟩

/-- A walk changes counters and doomed contexts, and uses up free choices where it could have seen old entries (R154). -/
theorem State.walked_spec (s : State) (ctx va : Nat) :
    ∃ free dies doomed, s.walked ctx va = { s with free := free, dies := dies, doomed := doomed } := by
  obtain ⟨d, m, h⟩ := s.servedWalk_spec ctx va
  unfold State.walked
  rw [h]
  dsimp only
  split <;> exact ⟨_, _, _, rfl⟩

/-- A translation changes the cached entries, the counter of free choices, and what its walk's reads change, alone (R149 to R154). -/
theorem State.translate_spec (s : State) (ctx : Nat) (va : DWord) (acc : AccType) :
    ∃ tlb free dies doomed, (s.translate ctx va acc).2 = { s with tlb := tlb, free := free, dies := dies, doomed := doomed } := by
  obtain ⟨fr, d, m, hw⟩ := s.walked_spec ctx (va57 va)
  obtain ⟨d', m', hs⟩ := s.servedWalk_spec ctx (va57 va)
  unfold State.translate
  simp only [hw, hs]
  split
  · exact ⟨_, _, _, _, rfl⟩
  · split
    · split
      · exact ⟨_, _, _, _, rfl⟩
      · split <;> exact ⟨_, _, _, _, rfl⟩
    · split
      · exact ⟨_, _, _, _, rfl⟩
      · split <;> exact ⟨_, _, _, _, rfl⟩

/-- So does the translation of several lanes. -/
theorem State.xlateAll_spec (ctx : Nat) (acc : AccType) (l : List LaneAddr) (s : State) :
    ∃ tlb free dies doomed, (s.xlateAll ctx acc l).2 = { s with tlb := tlb, free := free, dies := dies, doomed := doomed } := by
  induction l generalizing s with
  | nil => exact ⟨_, _, _, _, rfl⟩
  | cons p r ih =>
    obtain ⟨t1, f1, d1, m1, h1⟩ := s.translate_spec ctx p.va acc
    obtain ⟨t2, f2, d2, m2, h2⟩ := ih (s.translate ctx p.va acc).2
    have e : (s.xlateAll ctx acc (p :: r)).2 = ((s.translate ctx p.va acc).2.xlateAll ctx acc r).2 := by
      simp only [State.xlateAll]; split <;> rfl
    exact ⟨t2, f2, d2, m2, by rw [e, h2, h1]⟩

theorem State.direct_spec (s : State) (ctx die : Nat) (va : DWord) (acc : AccType) :
    ∃ tlb free dies doomed, (s.direct ctx die va acc).2 = { s with tlb := tlb, free := free, dies := dies, doomed := doomed } := by
  obtain ⟨tlb, free, dies, doomed, h⟩ := s.translate_spec ctx va acc
  refine ⟨tlb, free, dies, doomed, ?_⟩
  unfold State.direct
  split <;> simp_all

/-- A direct read changes translations, counters and the doomed contexts alone. -/
theorem State.directReadAt_spec (s : State) (ctx die : Nat) (va : DWord) (n : Nat) :
    ∃ tlb free dies doomed, (s.directReadAt ctx die va n).2 = { s with tlb := tlb, free := free, dies := dies, doomed := doomed } := by
  obtain ⟨tlb, free, dies, doomed, h⟩ := s.direct_spec ctx die va .read
  unfold State.directReadAt
  split <;> rename_i e <;> rw [e] at h <;> subst h
  · rename_i sa bld
    obtain ⟨d, m, hd⟩ := State.servedVia_spec { s with tlb := tlb, free := free, dies := dies, doomed := doomed } ctx bld sa
    split <;> exact ⟨tlb, free, d, m, by rw [hd]⟩
  all_goals exact ⟨tlb, free, dies, doomed, rfl⟩

theorem State.directRead_spec (s : State) (ctx die : Nat) (va : DWord) (n : Nat) :
    ∃ tlb free dies doomed, (s.directRead ctx die va n).2 = { s with tlb := tlb, free := free, dies := dies, doomed := doomed } :=
  s.directReadAt_spec ctx die va n

theorem State.directRead_mem (s : State) (ctx die : Nat) (va : DWord) (n : Nat) : (s.directRead ctx die va n).2.mem = s.mem := by
  obtain ⟨_, _, _, _, h⟩ := s.directRead_spec ctx die va n
  rw [h]

/-- A direct write keeps the canonical form of memory. -/
theorem State.directWrite_wf {s : State} (ctx die : Nat) (va : DWord) (l : List Byte) (w : Memory.wf s.mem = true) :
    Memory.wf (s.directWrite ctx die va l).2.mem = true := by
  obtain ⟨tlb, free, dies, doomed, h⟩ := s.direct_spec ctx die va .write
  show Memory.wf (s.directWriteAt ctx die va l).2.mem = true
  unfold State.directWriteAt
  split <;> rename_i e <;> rw [e] at h <;> subst h
  · rename_i sa bld
    obtain ⟨d, m, hd⟩ := State.servedWrite_spec { s with tlb := tlb, free := free, dies := dies, doomed := doomed } ctx bld sa
    rw [hd]
    split
    · rename_i h'
      exact State.writeVia_wf h' w
    · exact w
  all_goals exact w

/-- A fault entry enters the buffer behind the others under a fresh id (R155, R156). -/
theorem State.addFault_spec (s : State) (die core ctx agent kind cause : Nat) (va : DWord) (req : FaultReq) :
    ∃ f : FaultEntry, (s.addFault die core ctx agent kind cause va req) = (s.nextId, { s with nextId := s.nextId + 1, faults := s.faults ++ [f] })
      ∧ f.id = s.nextId ∧ f.die = die ∧ f.ctx = ctx ∧ f.cause = cause ∧ f.req = req := ⟨_, rfl, rfl, rfl, rfl, rfl, rfl⟩

end Sys2Proof.Machine
end

