-- ==== Sys2Proof/Laws/Fetch.lean ====
section
/-! SUPPORT. What a fetch can change and what it can see (R96, R99). -/

namespace Sys2Proof.Machine

/-- A block of code that the core does not hold comes whole from its home slice, or waits (R96, R342). -/
theorem State.newCode_spec (s : State) (t : Team) (sa : Nat) (now : List Byte) :
    ∃ dies doomed cores, (s.newCode t sa now).2 = { s with dies := dies, doomed := doomed, cores := cores } := by
  obtain ⟨dies, doomed, h⟩ := s.servedRead_spec t.ctx sa
  unfold State.newCode
  split
  · exact ⟨_, _, _, rfl⟩
  · rw [h]; exact ⟨_, _, _, rfl⟩

/-- Seeing a block of code changes the counter of free choices, the cores' blocks and what the home slice counts alone. -/
theorem State.codeBlock_spec (s : State) (t : Team) (sa : Nat) (now : List Byte) :
    ∃ free dies doomed cores,
      (s.codeBlock t sa now).2 = { s with free := free, dies := dies, doomed := doomed, cores := cores } := by
  unfold State.codeBlock
  split
  · obtain ⟨dies, doomed, cores, h⟩ := s.newCode_spec t sa now
    exact ⟨_, dies, doomed, cores, h⟩
  · split
    · exact ⟨_, _, _, _, rfl⟩
    · dsimp only
      split
      · exact ⟨_, _, _, _, rfl⟩
      · obtain ⟨dies, doomed, cores, h⟩ := State.newCode_spec { s with free := s.free + 1 } t sa now
        exact ⟨_, dies, doomed, cores, h⟩

/-- What a home slice gives is the block as it stands. -/
theorem State.newCode_now {s : State} {t : Team} {sa : Nat} {now b : List Byte} (h : (s.newCode t sa now).1 = some b) : b = now := by
  unfold State.newCode at h
  split at h
  · cases h
  · exact (Option.some.inj h).symm

/-- R99: a fetch sees a block as it stands in memory, or as the core last fetched it for the context. -/
theorem State.codeBlock_old_or_new (s : State) (t : Team) (sa : Nat) (now b : List Byte) (h : (s.codeBlock t sa now).1 = some b) :
    b = now ∨ ∃ x ∈ (s.core t.die t.core).code, x.ctx = t.ctx ∧ x.block = sa / 32 ∧ b = x.bytes := by
  unfold State.codeBlock at h
  split at h
  · exact .inl (State.newCode_now h)
  · rename_i old hb
    split at h
    · exact .inl (Option.some.inj h).symm
    · dsimp only at h
      split at h
      · have k := List.find?_some hb
        simp at k
        exact .inr ⟨old, List.mem_of_find?_eq_some hb, k.1, k.2, (Option.some.inj h).symm⟩
      · exact .inl (State.newCode_now h)

/-- A fetch changes cached translations, the counter of free choices, the cores' blocks and what the home slice counts alone. -/
theorem State.fetch_spec (s : State) (t : Team) (pc : DWord) (n : Nat) :
    ∃ tlb free dies doomed cores,
      (s.fetch t pc n).2 = { s with tlb := tlb, free := free, dies := dies, doomed := doomed, cores := cores } := by
  obtain ⟨tlb, free, dies0, doomed0, h⟩ := s.translate_spec t.ctx pc .fetch
  unfold State.fetch
  split <;> rename_i e <;> rw [e] at h <;> dsimp only at h <;> subst h
  · rename_i sa _
    split
    · rename_i b _
      obtain ⟨fr, dies, doomed, cores, hc⟩ :=
        State.codeBlock_spec { s with tlb := tlb, free := free, dies := dies0, doomed := doomed0 } t sa b
      split <;> rename_i hb <;> rw [hb] at hc <;> exact ⟨tlb, fr, dies, doomed, cores, hc⟩
    · split <;> exact ⟨_, _, _, _, _, rfl⟩
  all_goals exact ⟨_, _, _, _, _, rfl⟩

end Sys2Proof.Machine
end

