-- ==== Sys2Proof/Laws/State.lean ====
section
/-! SUPPORT. The field laws of the state's named updates: an update leaves every field but its own as it was. -/

namespace Sys2Proof.Machine

/-! ### setTeam -/

@[simp] theorem State.setTeam_mem (s : State) (t : Team)  : (s.setTeam t).mem = s.mem := rfl
@[simp] theorem State.setTeam_package (s : State) (t : Team)  : (s.setTeam t).package = s.package := rfl
@[simp] theorem State.setTeam_booted (s : State) (t : Team)  : (s.setTeam t).booted = s.booted := rfl
@[simp] theorem State.setTeam_payload (s : State) (t : Team)  : (s.setTeam t).payload = s.payload := rfl
@[simp] theorem State.setTeam_gtime (s : State) (t : Team)  : (s.setTeam t).gtime = s.gtime := rfl
@[simp] theorem State.setTeam_dies (s : State) (t : Team)  : (s.setTeam t).dies = s.dies := rfl
@[simp] theorem State.setTeam_cores (s : State) (t : Team)  : (s.setTeam t).cores = s.cores := rfl
@[simp] theorem State.setTeam_contexts (s : State) (t : Team)  : (s.setTeam t).contexts = s.contexts := rfl
@[simp] theorem State.setTeam_partitions (s : State) (t : Team)  : (s.setTeam t).partitions = s.partitions := rfl
@[simp] theorem State.setTeam_queues (s : State) (t : Team)  : (s.setTeam t).queues = s.queues := rfl
@[simp] theorem State.setTeam_launches (s : State) (t : Team)  : (s.setTeam t).launches = s.launches := rfl
@[simp] theorem State.setTeam_own (s : State) (t : Team)  : (s.setTeam t).own = s.own := rfl
@[simp] theorem State.setTeam_staleAreas (s : State) (t : Team)  : (s.setTeam t).staleAreas = s.staleAreas := rfl
@[simp] theorem State.setTeam_tileOwners (s : State) (t : Team)  : (s.setTeam t).tileOwners = s.tileOwners := rfl
@[simp] theorem State.setTeam_accesses (s : State) (t : Team)  : (s.setTeam t).accesses = s.accesses := rfl
@[simp] theorem State.setTeam_remotes (s : State) (t : Team)  : (s.setTeam t).remotes = s.remotes := rfl
@[simp] theorem State.setTeam_faults (s : State) (t : Team)  : (s.setTeam t).faults = s.faults := rfl
@[simp] theorem State.setTeam_tlb (s : State) (t : Team)  : (s.setTeam t).tlb = s.tlb := rfl
@[simp] theorem State.setTeam_oldPtes (s : State) (t : Team)  : (s.setTeam t).oldPtes = s.oldPtes := rfl
@[simp] theorem State.setTeam_invals (s : State) (t : Team)  : (s.setTeam t).invals = s.invals := rfl
@[simp] theorem State.setTeam_migrations (s : State) (t : Team)  : (s.setTeam t).migrations = s.migrations := rfl
@[simp] theorem State.setTeam_watches (s : State) (t : Team)  : (s.setTeam t).watches = s.watches := rfl
@[simp] theorem State.setTeam_leases (s : State) (t : Team)  : (s.setTeam t).leases = s.leases := rfl
@[simp] theorem State.setTeam_joined (s : State) (t : Team)  : (s.setTeam t).joined = s.joined := rfl
@[simp] theorem State.setTeam_hostWindows (s : State) (t : Team)  : (s.setTeam t).hostWindows = s.hostWindows := rfl
@[simp] theorem State.setTeam_hostOps (s : State) (t : Team)  : (s.setTeam t).hostOps = s.hostOps := rfl
@[simp] theorem State.setTeam_hostReply (s : State) (t : Team)  : (s.setTeam t).hostReply = s.hostReply := rfl
@[simp] theorem State.setTeam_log (s : State) (t : Team)  : (s.setTeam t).log = s.log := rfl
@[simp] theorem State.setTeam_doomed (s : State) (t : Team)  : (s.setTeam t).doomed = s.doomed := rfl
@[simp] theorem State.setTeam_nextId (s : State) (t : Team)  : (s.setTeam t).nextId = s.nextId := rfl
@[simp] theorem State.setTeam_free (s : State) (t : Team)  : (s.setTeam t).free = s.free := rfl
@[simp] theorem State.setTeam_cur (s : State) (t : Team)  : (s.setTeam t).cur = s.cur := rfl
@[simp] theorem State.setTeam_agenda (s : State) (t : Team)  : (s.setTeam t).agenda = s.agenda := rfl
@[simp] theorem State.setTeam_turn (s : State) (t : Team)  : (s.setTeam t).turn = s.turn := rfl

/-! ### onTeam -/

@[simp] theorem State.onTeam_mem (s : State) (tid : Nat) (f : Team → Team)  : (s.onTeam tid f).mem = s.mem := rfl
@[simp] theorem State.onTeam_package (s : State) (tid : Nat) (f : Team → Team)  : (s.onTeam tid f).package = s.package := rfl
@[simp] theorem State.onTeam_booted (s : State) (tid : Nat) (f : Team → Team)  : (s.onTeam tid f).booted = s.booted := rfl
@[simp] theorem State.onTeam_payload (s : State) (tid : Nat) (f : Team → Team)  : (s.onTeam tid f).payload = s.payload := rfl
@[simp] theorem State.onTeam_gtime (s : State) (tid : Nat) (f : Team → Team)  : (s.onTeam tid f).gtime = s.gtime := rfl
@[simp] theorem State.onTeam_dies (s : State) (tid : Nat) (f : Team → Team)  : (s.onTeam tid f).dies = s.dies := rfl
@[simp] theorem State.onTeam_cores (s : State) (tid : Nat) (f : Team → Team)  : (s.onTeam tid f).cores = s.cores := rfl
@[simp] theorem State.onTeam_contexts (s : State) (tid : Nat) (f : Team → Team)  : (s.onTeam tid f).contexts = s.contexts := rfl
@[simp] theorem State.onTeam_partitions (s : State) (tid : Nat) (f : Team → Team)  : (s.onTeam tid f).partitions = s.partitions := rfl
@[simp] theorem State.onTeam_queues (s : State) (tid : Nat) (f : Team → Team)  : (s.onTeam tid f).queues = s.queues := rfl
@[simp] theorem State.onTeam_launches (s : State) (tid : Nat) (f : Team → Team)  : (s.onTeam tid f).launches = s.launches := rfl
@[simp] theorem State.onTeam_own (s : State) (tid : Nat) (f : Team → Team)  : (s.onTeam tid f).own = s.own := rfl
@[simp] theorem State.onTeam_staleAreas (s : State) (tid : Nat) (f : Team → Team)  : (s.onTeam tid f).staleAreas = s.staleAreas := rfl
@[simp] theorem State.onTeam_tileOwners (s : State) (tid : Nat) (f : Team → Team)  : (s.onTeam tid f).tileOwners = s.tileOwners := rfl
@[simp] theorem State.onTeam_accesses (s : State) (tid : Nat) (f : Team → Team)  : (s.onTeam tid f).accesses = s.accesses := rfl
@[simp] theorem State.onTeam_remotes (s : State) (tid : Nat) (f : Team → Team)  : (s.onTeam tid f).remotes = s.remotes := rfl
@[simp] theorem State.onTeam_faults (s : State) (tid : Nat) (f : Team → Team)  : (s.onTeam tid f).faults = s.faults := rfl
@[simp] theorem State.onTeam_tlb (s : State) (tid : Nat) (f : Team → Team)  : (s.onTeam tid f).tlb = s.tlb := rfl
@[simp] theorem State.onTeam_oldPtes (s : State) (tid : Nat) (f : Team → Team)  : (s.onTeam tid f).oldPtes = s.oldPtes := rfl
@[simp] theorem State.onTeam_invals (s : State) (tid : Nat) (f : Team → Team)  : (s.onTeam tid f).invals = s.invals := rfl
@[simp] theorem State.onTeam_migrations (s : State) (tid : Nat) (f : Team → Team)  : (s.onTeam tid f).migrations = s.migrations := rfl
@[simp] theorem State.onTeam_watches (s : State) (tid : Nat) (f : Team → Team)  : (s.onTeam tid f).watches = s.watches := rfl
@[simp] theorem State.onTeam_leases (s : State) (tid : Nat) (f : Team → Team)  : (s.onTeam tid f).leases = s.leases := rfl
@[simp] theorem State.onTeam_joined (s : State) (tid : Nat) (f : Team → Team)  : (s.onTeam tid f).joined = s.joined := rfl
@[simp] theorem State.onTeam_hostWindows (s : State) (tid : Nat) (f : Team → Team)  : (s.onTeam tid f).hostWindows = s.hostWindows := rfl
@[simp] theorem State.onTeam_hostOps (s : State) (tid : Nat) (f : Team → Team)  : (s.onTeam tid f).hostOps = s.hostOps := rfl
@[simp] theorem State.onTeam_hostReply (s : State) (tid : Nat) (f : Team → Team)  : (s.onTeam tid f).hostReply = s.hostReply := rfl
@[simp] theorem State.onTeam_log (s : State) (tid : Nat) (f : Team → Team)  : (s.onTeam tid f).log = s.log := rfl
@[simp] theorem State.onTeam_doomed (s : State) (tid : Nat) (f : Team → Team)  : (s.onTeam tid f).doomed = s.doomed := rfl
@[simp] theorem State.onTeam_nextId (s : State) (tid : Nat) (f : Team → Team)  : (s.onTeam tid f).nextId = s.nextId := rfl
@[simp] theorem State.onTeam_free (s : State) (tid : Nat) (f : Team → Team)  : (s.onTeam tid f).free = s.free := rfl
@[simp] theorem State.onTeam_cur (s : State) (tid : Nat) (f : Team → Team)  : (s.onTeam tid f).cur = s.cur := rfl
@[simp] theorem State.onTeam_agenda (s : State) (tid : Nat) (f : Team → Team)  : (s.onTeam tid f).agenda = s.agenda := rfl
@[simp] theorem State.onTeam_turn (s : State) (tid : Nat) (f : Team → Team)  : (s.onTeam tid f).turn = s.turn := rfl

/-! ### onGroup -/

@[simp] theorem State.onGroup_mem (s : State) (tid n : Nat) (f : Group → Group)  : (s.onGroup tid n f).mem = s.mem := rfl
@[simp] theorem State.onGroup_package (s : State) (tid n : Nat) (f : Group → Group)  : (s.onGroup tid n f).package = s.package := rfl
@[simp] theorem State.onGroup_booted (s : State) (tid n : Nat) (f : Group → Group)  : (s.onGroup tid n f).booted = s.booted := rfl
@[simp] theorem State.onGroup_payload (s : State) (tid n : Nat) (f : Group → Group)  : (s.onGroup tid n f).payload = s.payload := rfl
@[simp] theorem State.onGroup_gtime (s : State) (tid n : Nat) (f : Group → Group)  : (s.onGroup tid n f).gtime = s.gtime := rfl
@[simp] theorem State.onGroup_dies (s : State) (tid n : Nat) (f : Group → Group)  : (s.onGroup tid n f).dies = s.dies := rfl
@[simp] theorem State.onGroup_cores (s : State) (tid n : Nat) (f : Group → Group)  : (s.onGroup tid n f).cores = s.cores := rfl
@[simp] theorem State.onGroup_contexts (s : State) (tid n : Nat) (f : Group → Group)  : (s.onGroup tid n f).contexts = s.contexts := rfl
@[simp] theorem State.onGroup_partitions (s : State) (tid n : Nat) (f : Group → Group)  : (s.onGroup tid n f).partitions = s.partitions := rfl
@[simp] theorem State.onGroup_queues (s : State) (tid n : Nat) (f : Group → Group)  : (s.onGroup tid n f).queues = s.queues := rfl
@[simp] theorem State.onGroup_launches (s : State) (tid n : Nat) (f : Group → Group)  : (s.onGroup tid n f).launches = s.launches := rfl
@[simp] theorem State.onGroup_own (s : State) (tid n : Nat) (f : Group → Group)  : (s.onGroup tid n f).own = s.own := rfl
@[simp] theorem State.onGroup_staleAreas (s : State) (tid n : Nat) (f : Group → Group)  : (s.onGroup tid n f).staleAreas = s.staleAreas := rfl
@[simp] theorem State.onGroup_tileOwners (s : State) (tid n : Nat) (f : Group → Group)  : (s.onGroup tid n f).tileOwners = s.tileOwners := rfl
@[simp] theorem State.onGroup_accesses (s : State) (tid n : Nat) (f : Group → Group)  : (s.onGroup tid n f).accesses = s.accesses := rfl
@[simp] theorem State.onGroup_remotes (s : State) (tid n : Nat) (f : Group → Group)  : (s.onGroup tid n f).remotes = s.remotes := rfl
@[simp] theorem State.onGroup_faults (s : State) (tid n : Nat) (f : Group → Group)  : (s.onGroup tid n f).faults = s.faults := rfl
@[simp] theorem State.onGroup_tlb (s : State) (tid n : Nat) (f : Group → Group)  : (s.onGroup tid n f).tlb = s.tlb := rfl
@[simp] theorem State.onGroup_oldPtes (s : State) (tid n : Nat) (f : Group → Group)  : (s.onGroup tid n f).oldPtes = s.oldPtes := rfl
@[simp] theorem State.onGroup_invals (s : State) (tid n : Nat) (f : Group → Group)  : (s.onGroup tid n f).invals = s.invals := rfl
@[simp] theorem State.onGroup_migrations (s : State) (tid n : Nat) (f : Group → Group)  : (s.onGroup tid n f).migrations = s.migrations := rfl
@[simp] theorem State.onGroup_watches (s : State) (tid n : Nat) (f : Group → Group)  : (s.onGroup tid n f).watches = s.watches := rfl
@[simp] theorem State.onGroup_leases (s : State) (tid n : Nat) (f : Group → Group)  : (s.onGroup tid n f).leases = s.leases := rfl
@[simp] theorem State.onGroup_joined (s : State) (tid n : Nat) (f : Group → Group)  : (s.onGroup tid n f).joined = s.joined := rfl
@[simp] theorem State.onGroup_hostWindows (s : State) (tid n : Nat) (f : Group → Group)  : (s.onGroup tid n f).hostWindows = s.hostWindows := rfl
@[simp] theorem State.onGroup_hostOps (s : State) (tid n : Nat) (f : Group → Group)  : (s.onGroup tid n f).hostOps = s.hostOps := rfl
@[simp] theorem State.onGroup_hostReply (s : State) (tid n : Nat) (f : Group → Group)  : (s.onGroup tid n f).hostReply = s.hostReply := rfl
@[simp] theorem State.onGroup_log (s : State) (tid n : Nat) (f : Group → Group)  : (s.onGroup tid n f).log = s.log := rfl
@[simp] theorem State.onGroup_doomed (s : State) (tid n : Nat) (f : Group → Group)  : (s.onGroup tid n f).doomed = s.doomed := rfl
@[simp] theorem State.onGroup_nextId (s : State) (tid n : Nat) (f : Group → Group)  : (s.onGroup tid n f).nextId = s.nextId := rfl
@[simp] theorem State.onGroup_free (s : State) (tid n : Nat) (f : Group → Group)  : (s.onGroup tid n f).free = s.free := rfl
@[simp] theorem State.onGroup_cur (s : State) (tid n : Nat) (f : Group → Group)  : (s.onGroup tid n f).cur = s.cur := rfl
@[simp] theorem State.onGroup_agenda (s : State) (tid n : Nat) (f : Group → Group)  : (s.onGroup tid n f).agenda = s.agenda := rfl
@[simp] theorem State.onGroup_turn (s : State) (tid n : Nat) (f : Group → Group)  : (s.onGroup tid n f).turn = s.turn := rfl

/-! ### dropTeam -/

@[simp] theorem State.dropTeam_mem (s : State) (tid : Nat)  : (s.dropTeam tid).mem = s.mem := rfl
@[simp] theorem State.dropTeam_package (s : State) (tid : Nat)  : (s.dropTeam tid).package = s.package := rfl
@[simp] theorem State.dropTeam_booted (s : State) (tid : Nat)  : (s.dropTeam tid).booted = s.booted := rfl
@[simp] theorem State.dropTeam_payload (s : State) (tid : Nat)  : (s.dropTeam tid).payload = s.payload := rfl
@[simp] theorem State.dropTeam_gtime (s : State) (tid : Nat)  : (s.dropTeam tid).gtime = s.gtime := rfl
@[simp] theorem State.dropTeam_dies (s : State) (tid : Nat)  : (s.dropTeam tid).dies = s.dies := rfl
@[simp] theorem State.dropTeam_cores (s : State) (tid : Nat)  : (s.dropTeam tid).cores = s.cores := rfl
@[simp] theorem State.dropTeam_contexts (s : State) (tid : Nat)  : (s.dropTeam tid).contexts = s.contexts := rfl
@[simp] theorem State.dropTeam_partitions (s : State) (tid : Nat)  : (s.dropTeam tid).partitions = s.partitions := rfl
@[simp] theorem State.dropTeam_queues (s : State) (tid : Nat)  : (s.dropTeam tid).queues = s.queues := rfl
@[simp] theorem State.dropTeam_launches (s : State) (tid : Nat)  : (s.dropTeam tid).launches = s.launches := rfl
@[simp] theorem State.dropTeam_own (s : State) (tid : Nat)  : (s.dropTeam tid).own = s.own := rfl
@[simp] theorem State.dropTeam_staleAreas (s : State) (tid : Nat)  : (s.dropTeam tid).staleAreas = s.staleAreas := rfl
@[simp] theorem State.dropTeam_tileOwners (s : State) (tid : Nat)  : (s.dropTeam tid).tileOwners = s.tileOwners := rfl
@[simp] theorem State.dropTeam_accesses (s : State) (tid : Nat)  : (s.dropTeam tid).accesses = s.accesses := rfl
@[simp] theorem State.dropTeam_remotes (s : State) (tid : Nat)  : (s.dropTeam tid).remotes = s.remotes := rfl
@[simp] theorem State.dropTeam_faults (s : State) (tid : Nat)  : (s.dropTeam tid).faults = s.faults := rfl
@[simp] theorem State.dropTeam_tlb (s : State) (tid : Nat)  : (s.dropTeam tid).tlb = s.tlb := rfl
@[simp] theorem State.dropTeam_oldPtes (s : State) (tid : Nat)  : (s.dropTeam tid).oldPtes = s.oldPtes := rfl
@[simp] theorem State.dropTeam_invals (s : State) (tid : Nat)  : (s.dropTeam tid).invals = s.invals := rfl
@[simp] theorem State.dropTeam_migrations (s : State) (tid : Nat)  : (s.dropTeam tid).migrations = s.migrations := rfl
@[simp] theorem State.dropTeam_watches (s : State) (tid : Nat)  : (s.dropTeam tid).watches = s.watches := rfl
@[simp] theorem State.dropTeam_leases (s : State) (tid : Nat)  : (s.dropTeam tid).leases = s.leases := rfl
@[simp] theorem State.dropTeam_joined (s : State) (tid : Nat)  : (s.dropTeam tid).joined = s.joined := rfl
@[simp] theorem State.dropTeam_hostWindows (s : State) (tid : Nat)  : (s.dropTeam tid).hostWindows = s.hostWindows := rfl
@[simp] theorem State.dropTeam_hostOps (s : State) (tid : Nat)  : (s.dropTeam tid).hostOps = s.hostOps := rfl
@[simp] theorem State.dropTeam_hostReply (s : State) (tid : Nat)  : (s.dropTeam tid).hostReply = s.hostReply := rfl
@[simp] theorem State.dropTeam_log (s : State) (tid : Nat)  : (s.dropTeam tid).log = s.log := rfl
@[simp] theorem State.dropTeam_doomed (s : State) (tid : Nat)  : (s.dropTeam tid).doomed = s.doomed := rfl
@[simp] theorem State.dropTeam_nextId (s : State) (tid : Nat)  : (s.dropTeam tid).nextId = s.nextId := rfl
@[simp] theorem State.dropTeam_free (s : State) (tid : Nat)  : (s.dropTeam tid).free = s.free := rfl
@[simp] theorem State.dropTeam_cur (s : State) (tid : Nat)  : (s.dropTeam tid).cur = s.cur := rfl
@[simp] theorem State.dropTeam_agenda (s : State) (tid : Nat)  : (s.dropTeam tid).agenda = s.agenda := rfl
@[simp] theorem State.dropTeam_turn (s : State) (tid : Nat)  : (s.dropTeam tid).turn = s.turn := rfl

/-! ### put -/

@[simp] theorem State.put_mem (s : State) (t : Team) (g : Group)  : (s.put t g).mem = s.mem := rfl
@[simp] theorem State.put_package (s : State) (t : Team) (g : Group)  : (s.put t g).package = s.package := rfl
@[simp] theorem State.put_booted (s : State) (t : Team) (g : Group)  : (s.put t g).booted = s.booted := rfl
@[simp] theorem State.put_payload (s : State) (t : Team) (g : Group)  : (s.put t g).payload = s.payload := rfl
@[simp] theorem State.put_gtime (s : State) (t : Team) (g : Group)  : (s.put t g).gtime = s.gtime := rfl
@[simp] theorem State.put_dies (s : State) (t : Team) (g : Group)  : (s.put t g).dies = s.dies := rfl
@[simp] theorem State.put_cores (s : State) (t : Team) (g : Group)  : (s.put t g).cores = s.cores := rfl
@[simp] theorem State.put_contexts (s : State) (t : Team) (g : Group)  : (s.put t g).contexts = s.contexts := rfl
@[simp] theorem State.put_partitions (s : State) (t : Team) (g : Group)  : (s.put t g).partitions = s.partitions := rfl
@[simp] theorem State.put_queues (s : State) (t : Team) (g : Group)  : (s.put t g).queues = s.queues := rfl
@[simp] theorem State.put_launches (s : State) (t : Team) (g : Group)  : (s.put t g).launches = s.launches := rfl
@[simp] theorem State.put_own (s : State) (t : Team) (g : Group)  : (s.put t g).own = s.own := rfl
@[simp] theorem State.put_staleAreas (s : State) (t : Team) (g : Group)  : (s.put t g).staleAreas = s.staleAreas := rfl
@[simp] theorem State.put_tileOwners (s : State) (t : Team) (g : Group)  : (s.put t g).tileOwners = s.tileOwners := rfl
@[simp] theorem State.put_accesses (s : State) (t : Team) (g : Group)  : (s.put t g).accesses = s.accesses := rfl
@[simp] theorem State.put_remotes (s : State) (t : Team) (g : Group)  : (s.put t g).remotes = s.remotes := rfl
@[simp] theorem State.put_faults (s : State) (t : Team) (g : Group)  : (s.put t g).faults = s.faults := rfl
@[simp] theorem State.put_tlb (s : State) (t : Team) (g : Group)  : (s.put t g).tlb = s.tlb := rfl
@[simp] theorem State.put_oldPtes (s : State) (t : Team) (g : Group)  : (s.put t g).oldPtes = s.oldPtes := rfl
@[simp] theorem State.put_invals (s : State) (t : Team) (g : Group)  : (s.put t g).invals = s.invals := rfl
@[simp] theorem State.put_migrations (s : State) (t : Team) (g : Group)  : (s.put t g).migrations = s.migrations := rfl
@[simp] theorem State.put_watches (s : State) (t : Team) (g : Group)  : (s.put t g).watches = s.watches := rfl
@[simp] theorem State.put_leases (s : State) (t : Team) (g : Group)  : (s.put t g).leases = s.leases := rfl
@[simp] theorem State.put_joined (s : State) (t : Team) (g : Group)  : (s.put t g).joined = s.joined := rfl
@[simp] theorem State.put_hostWindows (s : State) (t : Team) (g : Group)  : (s.put t g).hostWindows = s.hostWindows := rfl
@[simp] theorem State.put_hostOps (s : State) (t : Team) (g : Group)  : (s.put t g).hostOps = s.hostOps := rfl
@[simp] theorem State.put_hostReply (s : State) (t : Team) (g : Group)  : (s.put t g).hostReply = s.hostReply := rfl
@[simp] theorem State.put_log (s : State) (t : Team) (g : Group)  : (s.put t g).log = s.log := rfl
@[simp] theorem State.put_doomed (s : State) (t : Team) (g : Group)  : (s.put t g).doomed = s.doomed := rfl
@[simp] theorem State.put_nextId (s : State) (t : Team) (g : Group)  : (s.put t g).nextId = s.nextId := rfl
@[simp] theorem State.put_free (s : State) (t : Team) (g : Group)  : (s.put t g).free = s.free := rfl
@[simp] theorem State.put_cur (s : State) (t : Team) (g : Group)  : (s.put t g).cur = s.cur := rfl
@[simp] theorem State.put_agenda (s : State) (t : Team) (g : Group)  : (s.put t g).agenda = s.agenda := rfl
@[simp] theorem State.put_turn (s : State) (t : Team) (g : Group)  : (s.put t g).turn = s.turn := rfl

/-! ### block -/

@[simp] theorem State.block_mem (s : State) (t : Team) (g : Group) (w : Wait)  : (s.block t g w).mem = s.mem := rfl
@[simp] theorem State.block_package (s : State) (t : Team) (g : Group) (w : Wait)  : (s.block t g w).package = s.package := rfl
@[simp] theorem State.block_booted (s : State) (t : Team) (g : Group) (w : Wait)  : (s.block t g w).booted = s.booted := rfl
@[simp] theorem State.block_payload (s : State) (t : Team) (g : Group) (w : Wait)  : (s.block t g w).payload = s.payload := rfl
@[simp] theorem State.block_gtime (s : State) (t : Team) (g : Group) (w : Wait)  : (s.block t g w).gtime = s.gtime := rfl
@[simp] theorem State.block_dies (s : State) (t : Team) (g : Group) (w : Wait)  : (s.block t g w).dies = s.dies := rfl
@[simp] theorem State.block_cores (s : State) (t : Team) (g : Group) (w : Wait)  : (s.block t g w).cores = s.cores := rfl
@[simp] theorem State.block_contexts (s : State) (t : Team) (g : Group) (w : Wait)  : (s.block t g w).contexts = s.contexts := rfl
@[simp] theorem State.block_partitions (s : State) (t : Team) (g : Group) (w : Wait)  : (s.block t g w).partitions = s.partitions := rfl
@[simp] theorem State.block_queues (s : State) (t : Team) (g : Group) (w : Wait)  : (s.block t g w).queues = s.queues := rfl
@[simp] theorem State.block_launches (s : State) (t : Team) (g : Group) (w : Wait)  : (s.block t g w).launches = s.launches := rfl
@[simp] theorem State.block_own (s : State) (t : Team) (g : Group) (w : Wait)  : (s.block t g w).own = s.own := rfl
@[simp] theorem State.block_staleAreas (s : State) (t : Team) (g : Group) (w : Wait)  : (s.block t g w).staleAreas = s.staleAreas := rfl
@[simp] theorem State.block_tileOwners (s : State) (t : Team) (g : Group) (w : Wait)  : (s.block t g w).tileOwners = s.tileOwners := rfl
@[simp] theorem State.block_accesses (s : State) (t : Team) (g : Group) (w : Wait)  : (s.block t g w).accesses = s.accesses := rfl
@[simp] theorem State.block_remotes (s : State) (t : Team) (g : Group) (w : Wait)  : (s.block t g w).remotes = s.remotes := rfl
@[simp] theorem State.block_faults (s : State) (t : Team) (g : Group) (w : Wait)  : (s.block t g w).faults = s.faults := rfl
@[simp] theorem State.block_tlb (s : State) (t : Team) (g : Group) (w : Wait)  : (s.block t g w).tlb = s.tlb := rfl
@[simp] theorem State.block_oldPtes (s : State) (t : Team) (g : Group) (w : Wait)  : (s.block t g w).oldPtes = s.oldPtes := rfl
@[simp] theorem State.block_invals (s : State) (t : Team) (g : Group) (w : Wait)  : (s.block t g w).invals = s.invals := rfl
@[simp] theorem State.block_migrations (s : State) (t : Team) (g : Group) (w : Wait)  : (s.block t g w).migrations = s.migrations := rfl
@[simp] theorem State.block_watches (s : State) (t : Team) (g : Group) (w : Wait)  : (s.block t g w).watches = s.watches := rfl
@[simp] theorem State.block_leases (s : State) (t : Team) (g : Group) (w : Wait)  : (s.block t g w).leases = s.leases := rfl
@[simp] theorem State.block_joined (s : State) (t : Team) (g : Group) (w : Wait)  : (s.block t g w).joined = s.joined := rfl
@[simp] theorem State.block_hostWindows (s : State) (t : Team) (g : Group) (w : Wait)  : (s.block t g w).hostWindows = s.hostWindows := rfl
@[simp] theorem State.block_hostOps (s : State) (t : Team) (g : Group) (w : Wait)  : (s.block t g w).hostOps = s.hostOps := rfl
@[simp] theorem State.block_hostReply (s : State) (t : Team) (g : Group) (w : Wait)  : (s.block t g w).hostReply = s.hostReply := rfl
@[simp] theorem State.block_log (s : State) (t : Team) (g : Group) (w : Wait)  : (s.block t g w).log = s.log := rfl
@[simp] theorem State.block_doomed (s : State) (t : Team) (g : Group) (w : Wait)  : (s.block t g w).doomed = s.doomed := rfl
@[simp] theorem State.block_nextId (s : State) (t : Team) (g : Group) (w : Wait)  : (s.block t g w).nextId = s.nextId := rfl
@[simp] theorem State.block_free (s : State) (t : Team) (g : Group) (w : Wait)  : (s.block t g w).free = s.free := rfl
@[simp] theorem State.block_cur (s : State) (t : Team) (g : Group) (w : Wait)  : (s.block t g w).cur = s.cur := rfl
@[simp] theorem State.block_agenda (s : State) (t : Team) (g : Group) (w : Wait)  : (s.block t g w).agenda = s.agenda := rfl
@[simp] theorem State.block_turn (s : State) (t : Team) (g : Group) (w : Wait)  : (s.block t g w).turn = s.turn := rfl

/-! ### done -/

@[simp] theorem State.done_mem (s : State) (t : Team) (g : Group)  : (s.done t g).mem = s.mem := rfl
@[simp] theorem State.done_package (s : State) (t : Team) (g : Group)  : (s.done t g).package = s.package := rfl
@[simp] theorem State.done_booted (s : State) (t : Team) (g : Group)  : (s.done t g).booted = s.booted := rfl
@[simp] theorem State.done_payload (s : State) (t : Team) (g : Group)  : (s.done t g).payload = s.payload := rfl
@[simp] theorem State.done_gtime (s : State) (t : Team) (g : Group)  : (s.done t g).gtime = s.gtime := rfl
@[simp] theorem State.done_dies (s : State) (t : Team) (g : Group)  : (s.done t g).dies = s.dies := rfl
@[simp] theorem State.done_cores (s : State) (t : Team) (g : Group)  : (s.done t g).cores = s.cores := rfl
@[simp] theorem State.done_contexts (s : State) (t : Team) (g : Group)  : (s.done t g).contexts = s.contexts := rfl
@[simp] theorem State.done_partitions (s : State) (t : Team) (g : Group)  : (s.done t g).partitions = s.partitions := rfl
@[simp] theorem State.done_queues (s : State) (t : Team) (g : Group)  : (s.done t g).queues = s.queues := rfl
@[simp] theorem State.done_launches (s : State) (t : Team) (g : Group)  : (s.done t g).launches = s.launches := rfl
@[simp] theorem State.done_own (s : State) (t : Team) (g : Group)  : (s.done t g).own = s.own := rfl
@[simp] theorem State.done_staleAreas (s : State) (t : Team) (g : Group)  : (s.done t g).staleAreas = s.staleAreas := rfl
@[simp] theorem State.done_tileOwners (s : State) (t : Team) (g : Group)  : (s.done t g).tileOwners = s.tileOwners := rfl
@[simp] theorem State.done_accesses (s : State) (t : Team) (g : Group)  : (s.done t g).accesses = s.accesses := rfl
@[simp] theorem State.done_remotes (s : State) (t : Team) (g : Group)  : (s.done t g).remotes = s.remotes := rfl
@[simp] theorem State.done_faults (s : State) (t : Team) (g : Group)  : (s.done t g).faults = s.faults := rfl
@[simp] theorem State.done_tlb (s : State) (t : Team) (g : Group)  : (s.done t g).tlb = s.tlb := rfl
@[simp] theorem State.done_oldPtes (s : State) (t : Team) (g : Group)  : (s.done t g).oldPtes = s.oldPtes := rfl
@[simp] theorem State.done_invals (s : State) (t : Team) (g : Group)  : (s.done t g).invals = s.invals := rfl
@[simp] theorem State.done_migrations (s : State) (t : Team) (g : Group)  : (s.done t g).migrations = s.migrations := rfl
@[simp] theorem State.done_watches (s : State) (t : Team) (g : Group)  : (s.done t g).watches = s.watches := rfl
@[simp] theorem State.done_leases (s : State) (t : Team) (g : Group)  : (s.done t g).leases = s.leases := rfl
@[simp] theorem State.done_joined (s : State) (t : Team) (g : Group)  : (s.done t g).joined = s.joined := rfl
@[simp] theorem State.done_hostWindows (s : State) (t : Team) (g : Group)  : (s.done t g).hostWindows = s.hostWindows := rfl
@[simp] theorem State.done_hostOps (s : State) (t : Team) (g : Group)  : (s.done t g).hostOps = s.hostOps := rfl
@[simp] theorem State.done_hostReply (s : State) (t : Team) (g : Group)  : (s.done t g).hostReply = s.hostReply := rfl
@[simp] theorem State.done_log (s : State) (t : Team) (g : Group)  : (s.done t g).log = s.log := rfl
@[simp] theorem State.done_doomed (s : State) (t : Team) (g : Group)  : (s.done t g).doomed = s.doomed := rfl
@[simp] theorem State.done_nextId (s : State) (t : Team) (g : Group)  : (s.done t g).nextId = s.nextId := rfl
@[simp] theorem State.done_free (s : State) (t : Team) (g : Group)  : (s.done t g).free = s.free := rfl
@[simp] theorem State.done_cur (s : State) (t : Team) (g : Group)  : (s.done t g).cur = s.cur := rfl
@[simp] theorem State.done_agenda (s : State) (t : Team) (g : Group)  : (s.done t g).agenda = s.agenda := rfl
@[simp] theorem State.done_turn (s : State) (t : Team) (g : Group)  : (s.done t g).turn = s.turn := rfl

/-! ### doneTeam -/

@[simp] theorem State.doneTeam_mem (s : State) (t : Team) (g : Group)  : (s.doneTeam t g).mem = s.mem := rfl
@[simp] theorem State.doneTeam_package (s : State) (t : Team) (g : Group)  : (s.doneTeam t g).package = s.package := rfl
@[simp] theorem State.doneTeam_booted (s : State) (t : Team) (g : Group)  : (s.doneTeam t g).booted = s.booted := rfl
@[simp] theorem State.doneTeam_payload (s : State) (t : Team) (g : Group)  : (s.doneTeam t g).payload = s.payload := rfl
@[simp] theorem State.doneTeam_gtime (s : State) (t : Team) (g : Group)  : (s.doneTeam t g).gtime = s.gtime := rfl
@[simp] theorem State.doneTeam_dies (s : State) (t : Team) (g : Group)  : (s.doneTeam t g).dies = s.dies := rfl
@[simp] theorem State.doneTeam_cores (s : State) (t : Team) (g : Group)  : (s.doneTeam t g).cores = s.cores := rfl
@[simp] theorem State.doneTeam_contexts (s : State) (t : Team) (g : Group)  : (s.doneTeam t g).contexts = s.contexts := rfl
@[simp] theorem State.doneTeam_partitions (s : State) (t : Team) (g : Group)  : (s.doneTeam t g).partitions = s.partitions := rfl
@[simp] theorem State.doneTeam_queues (s : State) (t : Team) (g : Group)  : (s.doneTeam t g).queues = s.queues := rfl
@[simp] theorem State.doneTeam_launches (s : State) (t : Team) (g : Group)  : (s.doneTeam t g).launches = s.launches := rfl
@[simp] theorem State.doneTeam_own (s : State) (t : Team) (g : Group)  : (s.doneTeam t g).own = s.own := rfl
@[simp] theorem State.doneTeam_staleAreas (s : State) (t : Team) (g : Group)  : (s.doneTeam t g).staleAreas = s.staleAreas := rfl
@[simp] theorem State.doneTeam_tileOwners (s : State) (t : Team) (g : Group)  : (s.doneTeam t g).tileOwners = s.tileOwners := rfl
@[simp] theorem State.doneTeam_accesses (s : State) (t : Team) (g : Group)  : (s.doneTeam t g).accesses = s.accesses := rfl
@[simp] theorem State.doneTeam_remotes (s : State) (t : Team) (g : Group)  : (s.doneTeam t g).remotes = s.remotes := rfl
@[simp] theorem State.doneTeam_faults (s : State) (t : Team) (g : Group)  : (s.doneTeam t g).faults = s.faults := rfl
@[simp] theorem State.doneTeam_tlb (s : State) (t : Team) (g : Group)  : (s.doneTeam t g).tlb = s.tlb := rfl
@[simp] theorem State.doneTeam_oldPtes (s : State) (t : Team) (g : Group)  : (s.doneTeam t g).oldPtes = s.oldPtes := rfl
@[simp] theorem State.doneTeam_invals (s : State) (t : Team) (g : Group)  : (s.doneTeam t g).invals = s.invals := rfl
@[simp] theorem State.doneTeam_migrations (s : State) (t : Team) (g : Group)  : (s.doneTeam t g).migrations = s.migrations := rfl
@[simp] theorem State.doneTeam_watches (s : State) (t : Team) (g : Group)  : (s.doneTeam t g).watches = s.watches := rfl
@[simp] theorem State.doneTeam_leases (s : State) (t : Team) (g : Group)  : (s.doneTeam t g).leases = s.leases := rfl
@[simp] theorem State.doneTeam_joined (s : State) (t : Team) (g : Group)  : (s.doneTeam t g).joined = s.joined := rfl
@[simp] theorem State.doneTeam_hostWindows (s : State) (t : Team) (g : Group)  : (s.doneTeam t g).hostWindows = s.hostWindows := rfl
@[simp] theorem State.doneTeam_hostOps (s : State) (t : Team) (g : Group)  : (s.doneTeam t g).hostOps = s.hostOps := rfl
@[simp] theorem State.doneTeam_hostReply (s : State) (t : Team) (g : Group)  : (s.doneTeam t g).hostReply = s.hostReply := rfl
@[simp] theorem State.doneTeam_log (s : State) (t : Team) (g : Group)  : (s.doneTeam t g).log = s.log := rfl
@[simp] theorem State.doneTeam_doomed (s : State) (t : Team) (g : Group)  : (s.doneTeam t g).doomed = s.doomed := rfl
@[simp] theorem State.doneTeam_nextId (s : State) (t : Team) (g : Group)  : (s.doneTeam t g).nextId = s.nextId := rfl
@[simp] theorem State.doneTeam_free (s : State) (t : Team) (g : Group)  : (s.doneTeam t g).free = s.free := rfl
@[simp] theorem State.doneTeam_cur (s : State) (t : Team) (g : Group)  : (s.doneTeam t g).cur = s.cur := rfl
@[simp] theorem State.doneTeam_agenda (s : State) (t : Team) (g : Group)  : (s.doneTeam t g).agenda = s.agenda := rfl
@[simp] theorem State.doneTeam_turn (s : State) (t : Team) (g : Group)  : (s.doneTeam t g).turn = s.turn := rfl

/-! ### setDie -/

@[simp] theorem State.setDie_mem (s : State) (d : Nat) (x : Die)  : (s.setDie d x).mem = s.mem := rfl
@[simp] theorem State.setDie_package (s : State) (d : Nat) (x : Die)  : (s.setDie d x).package = s.package := rfl
@[simp] theorem State.setDie_booted (s : State) (d : Nat) (x : Die)  : (s.setDie d x).booted = s.booted := rfl
@[simp] theorem State.setDie_payload (s : State) (d : Nat) (x : Die)  : (s.setDie d x).payload = s.payload := rfl
@[simp] theorem State.setDie_gtime (s : State) (d : Nat) (x : Die)  : (s.setDie d x).gtime = s.gtime := rfl
@[simp] theorem State.setDie_cores (s : State) (d : Nat) (x : Die)  : (s.setDie d x).cores = s.cores := rfl
@[simp] theorem State.setDie_contexts (s : State) (d : Nat) (x : Die)  : (s.setDie d x).contexts = s.contexts := rfl
@[simp] theorem State.setDie_partitions (s : State) (d : Nat) (x : Die)  : (s.setDie d x).partitions = s.partitions := rfl
@[simp] theorem State.setDie_queues (s : State) (d : Nat) (x : Die)  : (s.setDie d x).queues = s.queues := rfl
@[simp] theorem State.setDie_launches (s : State) (d : Nat) (x : Die)  : (s.setDie d x).launches = s.launches := rfl
@[simp] theorem State.setDie_teams (s : State) (d : Nat) (x : Die)  : (s.setDie d x).teams = s.teams := rfl
@[simp] theorem State.setDie_own (s : State) (d : Nat) (x : Die)  : (s.setDie d x).own = s.own := rfl
@[simp] theorem State.setDie_staleAreas (s : State) (d : Nat) (x : Die)  : (s.setDie d x).staleAreas = s.staleAreas := rfl
@[simp] theorem State.setDie_tileOwners (s : State) (d : Nat) (x : Die)  : (s.setDie d x).tileOwners = s.tileOwners := rfl
@[simp] theorem State.setDie_accesses (s : State) (d : Nat) (x : Die)  : (s.setDie d x).accesses = s.accesses := rfl
@[simp] theorem State.setDie_remotes (s : State) (d : Nat) (x : Die)  : (s.setDie d x).remotes = s.remotes := rfl
@[simp] theorem State.setDie_faults (s : State) (d : Nat) (x : Die)  : (s.setDie d x).faults = s.faults := rfl
@[simp] theorem State.setDie_tlb (s : State) (d : Nat) (x : Die)  : (s.setDie d x).tlb = s.tlb := rfl
@[simp] theorem State.setDie_oldPtes (s : State) (d : Nat) (x : Die)  : (s.setDie d x).oldPtes = s.oldPtes := rfl
@[simp] theorem State.setDie_invals (s : State) (d : Nat) (x : Die)  : (s.setDie d x).invals = s.invals := rfl
@[simp] theorem State.setDie_migrations (s : State) (d : Nat) (x : Die)  : (s.setDie d x).migrations = s.migrations := rfl
@[simp] theorem State.setDie_watches (s : State) (d : Nat) (x : Die)  : (s.setDie d x).watches = s.watches := rfl
@[simp] theorem State.setDie_leases (s : State) (d : Nat) (x : Die)  : (s.setDie d x).leases = s.leases := rfl
@[simp] theorem State.setDie_joined (s : State) (d : Nat) (x : Die)  : (s.setDie d x).joined = s.joined := rfl
@[simp] theorem State.setDie_hostWindows (s : State) (d : Nat) (x : Die)  : (s.setDie d x).hostWindows = s.hostWindows := rfl
@[simp] theorem State.setDie_hostOps (s : State) (d : Nat) (x : Die)  : (s.setDie d x).hostOps = s.hostOps := rfl
@[simp] theorem State.setDie_hostReply (s : State) (d : Nat) (x : Die)  : (s.setDie d x).hostReply = s.hostReply := rfl
@[simp] theorem State.setDie_log (s : State) (d : Nat) (x : Die)  : (s.setDie d x).log = s.log := rfl
@[simp] theorem State.setDie_doomed (s : State) (d : Nat) (x : Die)  : (s.setDie d x).doomed = s.doomed := rfl
@[simp] theorem State.setDie_nextId (s : State) (d : Nat) (x : Die)  : (s.setDie d x).nextId = s.nextId := rfl
@[simp] theorem State.setDie_free (s : State) (d : Nat) (x : Die)  : (s.setDie d x).free = s.free := rfl
@[simp] theorem State.setDie_cur (s : State) (d : Nat) (x : Die)  : (s.setDie d x).cur = s.cur := rfl
@[simp] theorem State.setDie_agenda (s : State) (d : Nat) (x : Die)  : (s.setDie d x).agenda = s.agenda := rfl
@[simp] theorem State.setDie_turn (s : State) (d : Nat) (x : Die)  : (s.setDie d x).turn = s.turn := rfl

/-! ### onDie -/

@[simp] theorem State.onDie_mem (s : State) (d : Nat) (f : Die → Die)  : (s.onDie d f).mem = s.mem := rfl
@[simp] theorem State.onDie_package (s : State) (d : Nat) (f : Die → Die)  : (s.onDie d f).package = s.package := rfl
@[simp] theorem State.onDie_booted (s : State) (d : Nat) (f : Die → Die)  : (s.onDie d f).booted = s.booted := rfl
@[simp] theorem State.onDie_payload (s : State) (d : Nat) (f : Die → Die)  : (s.onDie d f).payload = s.payload := rfl
@[simp] theorem State.onDie_gtime (s : State) (d : Nat) (f : Die → Die)  : (s.onDie d f).gtime = s.gtime := rfl
@[simp] theorem State.onDie_cores (s : State) (d : Nat) (f : Die → Die)  : (s.onDie d f).cores = s.cores := rfl
@[simp] theorem State.onDie_contexts (s : State) (d : Nat) (f : Die → Die)  : (s.onDie d f).contexts = s.contexts := rfl
@[simp] theorem State.onDie_partitions (s : State) (d : Nat) (f : Die → Die)  : (s.onDie d f).partitions = s.partitions := rfl
@[simp] theorem State.onDie_queues (s : State) (d : Nat) (f : Die → Die)  : (s.onDie d f).queues = s.queues := rfl
@[simp] theorem State.onDie_launches (s : State) (d : Nat) (f : Die → Die)  : (s.onDie d f).launches = s.launches := rfl
@[simp] theorem State.onDie_teams (s : State) (d : Nat) (f : Die → Die)  : (s.onDie d f).teams = s.teams := rfl
@[simp] theorem State.onDie_own (s : State) (d : Nat) (f : Die → Die)  : (s.onDie d f).own = s.own := rfl
@[simp] theorem State.onDie_staleAreas (s : State) (d : Nat) (f : Die → Die)  : (s.onDie d f).staleAreas = s.staleAreas := rfl
@[simp] theorem State.onDie_tileOwners (s : State) (d : Nat) (f : Die → Die)  : (s.onDie d f).tileOwners = s.tileOwners := rfl
@[simp] theorem State.onDie_accesses (s : State) (d : Nat) (f : Die → Die)  : (s.onDie d f).accesses = s.accesses := rfl
@[simp] theorem State.onDie_remotes (s : State) (d : Nat) (f : Die → Die)  : (s.onDie d f).remotes = s.remotes := rfl
@[simp] theorem State.onDie_faults (s : State) (d : Nat) (f : Die → Die)  : (s.onDie d f).faults = s.faults := rfl
@[simp] theorem State.onDie_tlb (s : State) (d : Nat) (f : Die → Die)  : (s.onDie d f).tlb = s.tlb := rfl
@[simp] theorem State.onDie_oldPtes (s : State) (d : Nat) (f : Die → Die)  : (s.onDie d f).oldPtes = s.oldPtes := rfl
@[simp] theorem State.onDie_invals (s : State) (d : Nat) (f : Die → Die)  : (s.onDie d f).invals = s.invals := rfl
@[simp] theorem State.onDie_migrations (s : State) (d : Nat) (f : Die → Die)  : (s.onDie d f).migrations = s.migrations := rfl
@[simp] theorem State.onDie_watches (s : State) (d : Nat) (f : Die → Die)  : (s.onDie d f).watches = s.watches := rfl
@[simp] theorem State.onDie_leases (s : State) (d : Nat) (f : Die → Die)  : (s.onDie d f).leases = s.leases := rfl
@[simp] theorem State.onDie_joined (s : State) (d : Nat) (f : Die → Die)  : (s.onDie d f).joined = s.joined := rfl
@[simp] theorem State.onDie_hostWindows (s : State) (d : Nat) (f : Die → Die)  : (s.onDie d f).hostWindows = s.hostWindows := rfl
@[simp] theorem State.onDie_hostOps (s : State) (d : Nat) (f : Die → Die)  : (s.onDie d f).hostOps = s.hostOps := rfl
@[simp] theorem State.onDie_hostReply (s : State) (d : Nat) (f : Die → Die)  : (s.onDie d f).hostReply = s.hostReply := rfl
@[simp] theorem State.onDie_log (s : State) (d : Nat) (f : Die → Die)  : (s.onDie d f).log = s.log := rfl
@[simp] theorem State.onDie_doomed (s : State) (d : Nat) (f : Die → Die)  : (s.onDie d f).doomed = s.doomed := rfl
@[simp] theorem State.onDie_nextId (s : State) (d : Nat) (f : Die → Die)  : (s.onDie d f).nextId = s.nextId := rfl
@[simp] theorem State.onDie_free (s : State) (d : Nat) (f : Die → Die)  : (s.onDie d f).free = s.free := rfl
@[simp] theorem State.onDie_cur (s : State) (d : Nat) (f : Die → Die)  : (s.onDie d f).cur = s.cur := rfl
@[simp] theorem State.onDie_agenda (s : State) (d : Nat) (f : Die → Die)  : (s.onDie d f).agenda = s.agenda := rfl
@[simp] theorem State.onDie_turn (s : State) (d : Nat) (f : Die → Die)  : (s.onDie d f).turn = s.turn := rfl

/-! ### setCore -/

@[simp] theorem State.setCore_mem (s : State) (d k : Nat) (c : CoreSt)  : (s.setCore d k c).mem = s.mem := rfl
@[simp] theorem State.setCore_package (s : State) (d k : Nat) (c : CoreSt)  : (s.setCore d k c).package = s.package := rfl
@[simp] theorem State.setCore_booted (s : State) (d k : Nat) (c : CoreSt)  : (s.setCore d k c).booted = s.booted := rfl
@[simp] theorem State.setCore_payload (s : State) (d k : Nat) (c : CoreSt)  : (s.setCore d k c).payload = s.payload := rfl
@[simp] theorem State.setCore_gtime (s : State) (d k : Nat) (c : CoreSt)  : (s.setCore d k c).gtime = s.gtime := rfl
@[simp] theorem State.setCore_dies (s : State) (d k : Nat) (c : CoreSt)  : (s.setCore d k c).dies = s.dies := rfl
@[simp] theorem State.setCore_contexts (s : State) (d k : Nat) (c : CoreSt)  : (s.setCore d k c).contexts = s.contexts := rfl
@[simp] theorem State.setCore_partitions (s : State) (d k : Nat) (c : CoreSt)  : (s.setCore d k c).partitions = s.partitions := rfl
@[simp] theorem State.setCore_queues (s : State) (d k : Nat) (c : CoreSt)  : (s.setCore d k c).queues = s.queues := rfl
@[simp] theorem State.setCore_launches (s : State) (d k : Nat) (c : CoreSt)  : (s.setCore d k c).launches = s.launches := rfl
@[simp] theorem State.setCore_teams (s : State) (d k : Nat) (c : CoreSt)  : (s.setCore d k c).teams = s.teams := rfl
@[simp] theorem State.setCore_own (s : State) (d k : Nat) (c : CoreSt)  : (s.setCore d k c).own = s.own := rfl
@[simp] theorem State.setCore_staleAreas (s : State) (d k : Nat) (c : CoreSt)  : (s.setCore d k c).staleAreas = s.staleAreas := rfl
@[simp] theorem State.setCore_tileOwners (s : State) (d k : Nat) (c : CoreSt)  : (s.setCore d k c).tileOwners = s.tileOwners := rfl
@[simp] theorem State.setCore_accesses (s : State) (d k : Nat) (c : CoreSt)  : (s.setCore d k c).accesses = s.accesses := rfl
@[simp] theorem State.setCore_remotes (s : State) (d k : Nat) (c : CoreSt)  : (s.setCore d k c).remotes = s.remotes := rfl
@[simp] theorem State.setCore_faults (s : State) (d k : Nat) (c : CoreSt)  : (s.setCore d k c).faults = s.faults := rfl
@[simp] theorem State.setCore_tlb (s : State) (d k : Nat) (c : CoreSt)  : (s.setCore d k c).tlb = s.tlb := rfl
@[simp] theorem State.setCore_oldPtes (s : State) (d k : Nat) (c : CoreSt)  : (s.setCore d k c).oldPtes = s.oldPtes := rfl
@[simp] theorem State.setCore_invals (s : State) (d k : Nat) (c : CoreSt)  : (s.setCore d k c).invals = s.invals := rfl
@[simp] theorem State.setCore_migrations (s : State) (d k : Nat) (c : CoreSt)  : (s.setCore d k c).migrations = s.migrations := rfl
@[simp] theorem State.setCore_watches (s : State) (d k : Nat) (c : CoreSt)  : (s.setCore d k c).watches = s.watches := rfl
@[simp] theorem State.setCore_leases (s : State) (d k : Nat) (c : CoreSt)  : (s.setCore d k c).leases = s.leases := rfl
@[simp] theorem State.setCore_joined (s : State) (d k : Nat) (c : CoreSt)  : (s.setCore d k c).joined = s.joined := rfl
@[simp] theorem State.setCore_hostWindows (s : State) (d k : Nat) (c : CoreSt)  : (s.setCore d k c).hostWindows = s.hostWindows := rfl
@[simp] theorem State.setCore_hostOps (s : State) (d k : Nat) (c : CoreSt)  : (s.setCore d k c).hostOps = s.hostOps := rfl
@[simp] theorem State.setCore_hostReply (s : State) (d k : Nat) (c : CoreSt)  : (s.setCore d k c).hostReply = s.hostReply := rfl
@[simp] theorem State.setCore_log (s : State) (d k : Nat) (c : CoreSt)  : (s.setCore d k c).log = s.log := rfl
@[simp] theorem State.setCore_doomed (s : State) (d k : Nat) (c : CoreSt)  : (s.setCore d k c).doomed = s.doomed := rfl
@[simp] theorem State.setCore_nextId (s : State) (d k : Nat) (c : CoreSt)  : (s.setCore d k c).nextId = s.nextId := rfl
@[simp] theorem State.setCore_free (s : State) (d k : Nat) (c : CoreSt)  : (s.setCore d k c).free = s.free := rfl
@[simp] theorem State.setCore_cur (s : State) (d k : Nat) (c : CoreSt)  : (s.setCore d k c).cur = s.cur := rfl
@[simp] theorem State.setCore_agenda (s : State) (d k : Nat) (c : CoreSt)  : (s.setCore d k c).agenda = s.agenda := rfl
@[simp] theorem State.setCore_turn (s : State) (d k : Nat) (c : CoreSt)  : (s.setCore d k c).turn = s.turn := rfl

/-! ### onCore -/

@[simp] theorem State.onCore_mem (s : State) (d k : Nat) (f : CoreSt → CoreSt)  : (s.onCore d k f).mem = s.mem := rfl
@[simp] theorem State.onCore_package (s : State) (d k : Nat) (f : CoreSt → CoreSt)  : (s.onCore d k f).package = s.package := rfl
@[simp] theorem State.onCore_booted (s : State) (d k : Nat) (f : CoreSt → CoreSt)  : (s.onCore d k f).booted = s.booted := rfl
@[simp] theorem State.onCore_payload (s : State) (d k : Nat) (f : CoreSt → CoreSt)  : (s.onCore d k f).payload = s.payload := rfl
@[simp] theorem State.onCore_gtime (s : State) (d k : Nat) (f : CoreSt → CoreSt)  : (s.onCore d k f).gtime = s.gtime := rfl
@[simp] theorem State.onCore_dies (s : State) (d k : Nat) (f : CoreSt → CoreSt)  : (s.onCore d k f).dies = s.dies := rfl
@[simp] theorem State.onCore_contexts (s : State) (d k : Nat) (f : CoreSt → CoreSt)  : (s.onCore d k f).contexts = s.contexts := rfl
@[simp] theorem State.onCore_partitions (s : State) (d k : Nat) (f : CoreSt → CoreSt)  : (s.onCore d k f).partitions = s.partitions := rfl
@[simp] theorem State.onCore_queues (s : State) (d k : Nat) (f : CoreSt → CoreSt)  : (s.onCore d k f).queues = s.queues := rfl
@[simp] theorem State.onCore_launches (s : State) (d k : Nat) (f : CoreSt → CoreSt)  : (s.onCore d k f).launches = s.launches := rfl
@[simp] theorem State.onCore_teams (s : State) (d k : Nat) (f : CoreSt → CoreSt)  : (s.onCore d k f).teams = s.teams := rfl
@[simp] theorem State.onCore_own (s : State) (d k : Nat) (f : CoreSt → CoreSt)  : (s.onCore d k f).own = s.own := rfl
@[simp] theorem State.onCore_staleAreas (s : State) (d k : Nat) (f : CoreSt → CoreSt)  : (s.onCore d k f).staleAreas = s.staleAreas := rfl
@[simp] theorem State.onCore_tileOwners (s : State) (d k : Nat) (f : CoreSt → CoreSt)  : (s.onCore d k f).tileOwners = s.tileOwners := rfl
@[simp] theorem State.onCore_accesses (s : State) (d k : Nat) (f : CoreSt → CoreSt)  : (s.onCore d k f).accesses = s.accesses := rfl
@[simp] theorem State.onCore_remotes (s : State) (d k : Nat) (f : CoreSt → CoreSt)  : (s.onCore d k f).remotes = s.remotes := rfl
@[simp] theorem State.onCore_faults (s : State) (d k : Nat) (f : CoreSt → CoreSt)  : (s.onCore d k f).faults = s.faults := rfl
@[simp] theorem State.onCore_tlb (s : State) (d k : Nat) (f : CoreSt → CoreSt)  : (s.onCore d k f).tlb = s.tlb := rfl
@[simp] theorem State.onCore_oldPtes (s : State) (d k : Nat) (f : CoreSt → CoreSt)  : (s.onCore d k f).oldPtes = s.oldPtes := rfl
@[simp] theorem State.onCore_invals (s : State) (d k : Nat) (f : CoreSt → CoreSt)  : (s.onCore d k f).invals = s.invals := rfl
@[simp] theorem State.onCore_migrations (s : State) (d k : Nat) (f : CoreSt → CoreSt)  : (s.onCore d k f).migrations = s.migrations := rfl
@[simp] theorem State.onCore_watches (s : State) (d k : Nat) (f : CoreSt → CoreSt)  : (s.onCore d k f).watches = s.watches := rfl
@[simp] theorem State.onCore_leases (s : State) (d k : Nat) (f : CoreSt → CoreSt)  : (s.onCore d k f).leases = s.leases := rfl
@[simp] theorem State.onCore_joined (s : State) (d k : Nat) (f : CoreSt → CoreSt)  : (s.onCore d k f).joined = s.joined := rfl
@[simp] theorem State.onCore_hostWindows (s : State) (d k : Nat) (f : CoreSt → CoreSt)  : (s.onCore d k f).hostWindows = s.hostWindows := rfl
@[simp] theorem State.onCore_hostOps (s : State) (d k : Nat) (f : CoreSt → CoreSt)  : (s.onCore d k f).hostOps = s.hostOps := rfl
@[simp] theorem State.onCore_hostReply (s : State) (d k : Nat) (f : CoreSt → CoreSt)  : (s.onCore d k f).hostReply = s.hostReply := rfl
@[simp] theorem State.onCore_log (s : State) (d k : Nat) (f : CoreSt → CoreSt)  : (s.onCore d k f).log = s.log := rfl
@[simp] theorem State.onCore_doomed (s : State) (d k : Nat) (f : CoreSt → CoreSt)  : (s.onCore d k f).doomed = s.doomed := rfl
@[simp] theorem State.onCore_nextId (s : State) (d k : Nat) (f : CoreSt → CoreSt)  : (s.onCore d k f).nextId = s.nextId := rfl
@[simp] theorem State.onCore_free (s : State) (d k : Nat) (f : CoreSt → CoreSt)  : (s.onCore d k f).free = s.free := rfl
@[simp] theorem State.onCore_cur (s : State) (d k : Nat) (f : CoreSt → CoreSt)  : (s.onCore d k f).cur = s.cur := rfl
@[simp] theorem State.onCore_agenda (s : State) (d k : Nat) (f : CoreSt → CoreSt)  : (s.onCore d k f).agenda = s.agenda := rfl
@[simp] theorem State.onCore_turn (s : State) (d k : Nat) (f : CoreSt → CoreSt)  : (s.onCore d k f).turn = s.turn := rfl

/-! ### dropL1 -/

@[simp] theorem State.dropL1_mem (s : State) (d k c : Nat)  : (s.dropL1 d k c).mem = s.mem := rfl
@[simp] theorem State.dropL1_package (s : State) (d k c : Nat)  : (s.dropL1 d k c).package = s.package := rfl
@[simp] theorem State.dropL1_booted (s : State) (d k c : Nat)  : (s.dropL1 d k c).booted = s.booted := rfl
@[simp] theorem State.dropL1_payload (s : State) (d k c : Nat)  : (s.dropL1 d k c).payload = s.payload := rfl
@[simp] theorem State.dropL1_gtime (s : State) (d k c : Nat)  : (s.dropL1 d k c).gtime = s.gtime := rfl
@[simp] theorem State.dropL1_dies (s : State) (d k c : Nat)  : (s.dropL1 d k c).dies = s.dies := rfl
@[simp] theorem State.dropL1_contexts (s : State) (d k c : Nat)  : (s.dropL1 d k c).contexts = s.contexts := rfl
@[simp] theorem State.dropL1_partitions (s : State) (d k c : Nat)  : (s.dropL1 d k c).partitions = s.partitions := rfl
@[simp] theorem State.dropL1_queues (s : State) (d k c : Nat)  : (s.dropL1 d k c).queues = s.queues := rfl
@[simp] theorem State.dropL1_launches (s : State) (d k c : Nat)  : (s.dropL1 d k c).launches = s.launches := rfl
@[simp] theorem State.dropL1_teams (s : State) (d k c : Nat)  : (s.dropL1 d k c).teams = s.teams := rfl
@[simp] theorem State.dropL1_own (s : State) (d k c : Nat)  : (s.dropL1 d k c).own = s.own := rfl
@[simp] theorem State.dropL1_staleAreas (s : State) (d k c : Nat)  : (s.dropL1 d k c).staleAreas = s.staleAreas := rfl
@[simp] theorem State.dropL1_tileOwners (s : State) (d k c : Nat)  : (s.dropL1 d k c).tileOwners = s.tileOwners := rfl
@[simp] theorem State.dropL1_accesses (s : State) (d k c : Nat)  : (s.dropL1 d k c).accesses = s.accesses := rfl
@[simp] theorem State.dropL1_remotes (s : State) (d k c : Nat)  : (s.dropL1 d k c).remotes = s.remotes := rfl
@[simp] theorem State.dropL1_faults (s : State) (d k c : Nat)  : (s.dropL1 d k c).faults = s.faults := rfl
@[simp] theorem State.dropL1_tlb (s : State) (d k c : Nat)  : (s.dropL1 d k c).tlb = s.tlb := rfl
@[simp] theorem State.dropL1_oldPtes (s : State) (d k c : Nat)  : (s.dropL1 d k c).oldPtes = s.oldPtes := rfl
@[simp] theorem State.dropL1_invals (s : State) (d k c : Nat)  : (s.dropL1 d k c).invals = s.invals := rfl
@[simp] theorem State.dropL1_migrations (s : State) (d k c : Nat)  : (s.dropL1 d k c).migrations = s.migrations := rfl
@[simp] theorem State.dropL1_watches (s : State) (d k c : Nat)  : (s.dropL1 d k c).watches = s.watches := rfl
@[simp] theorem State.dropL1_leases (s : State) (d k c : Nat)  : (s.dropL1 d k c).leases = s.leases := rfl
@[simp] theorem State.dropL1_joined (s : State) (d k c : Nat)  : (s.dropL1 d k c).joined = s.joined := rfl
@[simp] theorem State.dropL1_hostWindows (s : State) (d k c : Nat)  : (s.dropL1 d k c).hostWindows = s.hostWindows := rfl
@[simp] theorem State.dropL1_hostOps (s : State) (d k c : Nat)  : (s.dropL1 d k c).hostOps = s.hostOps := rfl
@[simp] theorem State.dropL1_hostReply (s : State) (d k c : Nat)  : (s.dropL1 d k c).hostReply = s.hostReply := rfl
@[simp] theorem State.dropL1_log (s : State) (d k c : Nat)  : (s.dropL1 d k c).log = s.log := rfl
@[simp] theorem State.dropL1_doomed (s : State) (d k c : Nat)  : (s.dropL1 d k c).doomed = s.doomed := rfl
@[simp] theorem State.dropL1_nextId (s : State) (d k c : Nat)  : (s.dropL1 d k c).nextId = s.nextId := rfl
@[simp] theorem State.dropL1_free (s : State) (d k c : Nat)  : (s.dropL1 d k c).free = s.free := rfl
@[simp] theorem State.dropL1_cur (s : State) (d k c : Nat)  : (s.dropL1 d k c).cur = s.cur := rfl
@[simp] theorem State.dropL1_agenda (s : State) (d k c : Nat)  : (s.dropL1 d k c).agenda = s.agenda := rfl
@[simp] theorem State.dropL1_turn (s : State) (d k c : Nat)  : (s.dropL1 d k c).turn = s.turn := rfl

/-! ### dropCode -/

@[simp] theorem State.dropCode_mem (s : State) (d k c : Nat)  : (s.dropCode d k c).mem = s.mem := rfl
@[simp] theorem State.dropCode_package (s : State) (d k c : Nat)  : (s.dropCode d k c).package = s.package := rfl
@[simp] theorem State.dropCode_booted (s : State) (d k c : Nat)  : (s.dropCode d k c).booted = s.booted := rfl
@[simp] theorem State.dropCode_payload (s : State) (d k c : Nat)  : (s.dropCode d k c).payload = s.payload := rfl
@[simp] theorem State.dropCode_gtime (s : State) (d k c : Nat)  : (s.dropCode d k c).gtime = s.gtime := rfl
@[simp] theorem State.dropCode_dies (s : State) (d k c : Nat)  : (s.dropCode d k c).dies = s.dies := rfl
@[simp] theorem State.dropCode_contexts (s : State) (d k c : Nat)  : (s.dropCode d k c).contexts = s.contexts := rfl
@[simp] theorem State.dropCode_partitions (s : State) (d k c : Nat)  : (s.dropCode d k c).partitions = s.partitions := rfl
@[simp] theorem State.dropCode_queues (s : State) (d k c : Nat)  : (s.dropCode d k c).queues = s.queues := rfl
@[simp] theorem State.dropCode_launches (s : State) (d k c : Nat)  : (s.dropCode d k c).launches = s.launches := rfl
@[simp] theorem State.dropCode_teams (s : State) (d k c : Nat)  : (s.dropCode d k c).teams = s.teams := rfl
@[simp] theorem State.dropCode_own (s : State) (d k c : Nat)  : (s.dropCode d k c).own = s.own := rfl
@[simp] theorem State.dropCode_staleAreas (s : State) (d k c : Nat)  : (s.dropCode d k c).staleAreas = s.staleAreas := rfl
@[simp] theorem State.dropCode_tileOwners (s : State) (d k c : Nat)  : (s.dropCode d k c).tileOwners = s.tileOwners := rfl
@[simp] theorem State.dropCode_accesses (s : State) (d k c : Nat)  : (s.dropCode d k c).accesses = s.accesses := rfl
@[simp] theorem State.dropCode_remotes (s : State) (d k c : Nat)  : (s.dropCode d k c).remotes = s.remotes := rfl
@[simp] theorem State.dropCode_faults (s : State) (d k c : Nat)  : (s.dropCode d k c).faults = s.faults := rfl
@[simp] theorem State.dropCode_tlb (s : State) (d k c : Nat)  : (s.dropCode d k c).tlb = s.tlb := rfl
@[simp] theorem State.dropCode_oldPtes (s : State) (d k c : Nat)  : (s.dropCode d k c).oldPtes = s.oldPtes := rfl
@[simp] theorem State.dropCode_invals (s : State) (d k c : Nat)  : (s.dropCode d k c).invals = s.invals := rfl
@[simp] theorem State.dropCode_migrations (s : State) (d k c : Nat)  : (s.dropCode d k c).migrations = s.migrations := rfl
@[simp] theorem State.dropCode_watches (s : State) (d k c : Nat)  : (s.dropCode d k c).watches = s.watches := rfl
@[simp] theorem State.dropCode_leases (s : State) (d k c : Nat)  : (s.dropCode d k c).leases = s.leases := rfl
@[simp] theorem State.dropCode_joined (s : State) (d k c : Nat)  : (s.dropCode d k c).joined = s.joined := rfl
@[simp] theorem State.dropCode_hostWindows (s : State) (d k c : Nat)  : (s.dropCode d k c).hostWindows = s.hostWindows := rfl
@[simp] theorem State.dropCode_hostOps (s : State) (d k c : Nat)  : (s.dropCode d k c).hostOps = s.hostOps := rfl
@[simp] theorem State.dropCode_hostReply (s : State) (d k c : Nat)  : (s.dropCode d k c).hostReply = s.hostReply := rfl
@[simp] theorem State.dropCode_log (s : State) (d k c : Nat)  : (s.dropCode d k c).log = s.log := rfl
@[simp] theorem State.dropCode_doomed (s : State) (d k c : Nat)  : (s.dropCode d k c).doomed = s.doomed := rfl
@[simp] theorem State.dropCode_nextId (s : State) (d k c : Nat)  : (s.dropCode d k c).nextId = s.nextId := rfl
@[simp] theorem State.dropCode_free (s : State) (d k c : Nat)  : (s.dropCode d k c).free = s.free := rfl
@[simp] theorem State.dropCode_cur (s : State) (d k c : Nat)  : (s.dropCode d k c).cur = s.cur := rfl
@[simp] theorem State.dropCode_agenda (s : State) (d k c : Nat)  : (s.dropCode d k c).agenda = s.agenda := rfl
@[simp] theorem State.dropCode_turn (s : State) (d k c : Nat)  : (s.dropCode d k c).turn = s.turn := rfl

/-! ### keepCode -/

@[simp] theorem State.keepCode_mem (s : State) (d k : Nat) (b : CodeBlock)  : (s.keepCode d k b).mem = s.mem := rfl
@[simp] theorem State.keepCode_package (s : State) (d k : Nat) (b : CodeBlock)  : (s.keepCode d k b).package = s.package := rfl
@[simp] theorem State.keepCode_booted (s : State) (d k : Nat) (b : CodeBlock)  : (s.keepCode d k b).booted = s.booted := rfl
@[simp] theorem State.keepCode_payload (s : State) (d k : Nat) (b : CodeBlock)  : (s.keepCode d k b).payload = s.payload := rfl
@[simp] theorem State.keepCode_gtime (s : State) (d k : Nat) (b : CodeBlock)  : (s.keepCode d k b).gtime = s.gtime := rfl
@[simp] theorem State.keepCode_dies (s : State) (d k : Nat) (b : CodeBlock)  : (s.keepCode d k b).dies = s.dies := rfl
@[simp] theorem State.keepCode_contexts (s : State) (d k : Nat) (b : CodeBlock)  : (s.keepCode d k b).contexts = s.contexts := rfl
@[simp] theorem State.keepCode_partitions (s : State) (d k : Nat) (b : CodeBlock)  : (s.keepCode d k b).partitions = s.partitions := rfl
@[simp] theorem State.keepCode_queues (s : State) (d k : Nat) (b : CodeBlock)  : (s.keepCode d k b).queues = s.queues := rfl
@[simp] theorem State.keepCode_launches (s : State) (d k : Nat) (b : CodeBlock)  : (s.keepCode d k b).launches = s.launches := rfl
@[simp] theorem State.keepCode_teams (s : State) (d k : Nat) (b : CodeBlock)  : (s.keepCode d k b).teams = s.teams := rfl
@[simp] theorem State.keepCode_own (s : State) (d k : Nat) (b : CodeBlock)  : (s.keepCode d k b).own = s.own := rfl
@[simp] theorem State.keepCode_staleAreas (s : State) (d k : Nat) (b : CodeBlock)  : (s.keepCode d k b).staleAreas = s.staleAreas := rfl
@[simp] theorem State.keepCode_tileOwners (s : State) (d k : Nat) (b : CodeBlock)  : (s.keepCode d k b).tileOwners = s.tileOwners := rfl
@[simp] theorem State.keepCode_accesses (s : State) (d k : Nat) (b : CodeBlock)  : (s.keepCode d k b).accesses = s.accesses := rfl
@[simp] theorem State.keepCode_remotes (s : State) (d k : Nat) (b : CodeBlock)  : (s.keepCode d k b).remotes = s.remotes := rfl
@[simp] theorem State.keepCode_faults (s : State) (d k : Nat) (b : CodeBlock)  : (s.keepCode d k b).faults = s.faults := rfl
@[simp] theorem State.keepCode_tlb (s : State) (d k : Nat) (b : CodeBlock)  : (s.keepCode d k b).tlb = s.tlb := rfl
@[simp] theorem State.keepCode_oldPtes (s : State) (d k : Nat) (b : CodeBlock)  : (s.keepCode d k b).oldPtes = s.oldPtes := rfl
@[simp] theorem State.keepCode_invals (s : State) (d k : Nat) (b : CodeBlock)  : (s.keepCode d k b).invals = s.invals := rfl
@[simp] theorem State.keepCode_migrations (s : State) (d k : Nat) (b : CodeBlock)  : (s.keepCode d k b).migrations = s.migrations := rfl
@[simp] theorem State.keepCode_watches (s : State) (d k : Nat) (b : CodeBlock)  : (s.keepCode d k b).watches = s.watches := rfl
@[simp] theorem State.keepCode_leases (s : State) (d k : Nat) (b : CodeBlock)  : (s.keepCode d k b).leases = s.leases := rfl
@[simp] theorem State.keepCode_joined (s : State) (d k : Nat) (b : CodeBlock)  : (s.keepCode d k b).joined = s.joined := rfl
@[simp] theorem State.keepCode_hostWindows (s : State) (d k : Nat) (b : CodeBlock)  : (s.keepCode d k b).hostWindows = s.hostWindows := rfl
@[simp] theorem State.keepCode_hostOps (s : State) (d k : Nat) (b : CodeBlock)  : (s.keepCode d k b).hostOps = s.hostOps := rfl
@[simp] theorem State.keepCode_hostReply (s : State) (d k : Nat) (b : CodeBlock)  : (s.keepCode d k b).hostReply = s.hostReply := rfl
@[simp] theorem State.keepCode_log (s : State) (d k : Nat) (b : CodeBlock)  : (s.keepCode d k b).log = s.log := rfl
@[simp] theorem State.keepCode_doomed (s : State) (d k : Nat) (b : CodeBlock)  : (s.keepCode d k b).doomed = s.doomed := rfl
@[simp] theorem State.keepCode_nextId (s : State) (d k : Nat) (b : CodeBlock)  : (s.keepCode d k b).nextId = s.nextId := rfl
@[simp] theorem State.keepCode_free (s : State) (d k : Nat) (b : CodeBlock)  : (s.keepCode d k b).free = s.free := rfl
@[simp] theorem State.keepCode_cur (s : State) (d k : Nat) (b : CodeBlock)  : (s.keepCode d k b).cur = s.cur := rfl
@[simp] theorem State.keepCode_agenda (s : State) (d k : Nat) (b : CodeBlock)  : (s.keepCode d k b).agenda = s.agenda := rfl
@[simp] theorem State.keepCode_turn (s : State) (d k : Nat) (b : CodeBlock)  : (s.keepCode d k b).turn = s.turn := rfl

/-! ### fillL1 -/

@[simp] theorem State.fillL1_mem (s : State) (d k c l : Nat) (z : Bool) (b : List Byte)  : (s.fillL1 d k c l z b).mem = s.mem := rfl
@[simp] theorem State.fillL1_package (s : State) (d k c l : Nat) (z : Bool) (b : List Byte)  : (s.fillL1 d k c l z b).package = s.package := rfl
@[simp] theorem State.fillL1_booted (s : State) (d k c l : Nat) (z : Bool) (b : List Byte)  : (s.fillL1 d k c l z b).booted = s.booted := rfl
@[simp] theorem State.fillL1_payload (s : State) (d k c l : Nat) (z : Bool) (b : List Byte)  : (s.fillL1 d k c l z b).payload = s.payload := rfl
@[simp] theorem State.fillL1_gtime (s : State) (d k c l : Nat) (z : Bool) (b : List Byte)  : (s.fillL1 d k c l z b).gtime = s.gtime := rfl
@[simp] theorem State.fillL1_dies (s : State) (d k c l : Nat) (z : Bool) (b : List Byte)  : (s.fillL1 d k c l z b).dies = s.dies := rfl
@[simp] theorem State.fillL1_contexts (s : State) (d k c l : Nat) (z : Bool) (b : List Byte)  : (s.fillL1 d k c l z b).contexts = s.contexts := rfl
@[simp] theorem State.fillL1_partitions (s : State) (d k c l : Nat) (z : Bool) (b : List Byte)  : (s.fillL1 d k c l z b).partitions = s.partitions := rfl
@[simp] theorem State.fillL1_queues (s : State) (d k c l : Nat) (z : Bool) (b : List Byte)  : (s.fillL1 d k c l z b).queues = s.queues := rfl
@[simp] theorem State.fillL1_launches (s : State) (d k c l : Nat) (z : Bool) (b : List Byte)  : (s.fillL1 d k c l z b).launches = s.launches := rfl
@[simp] theorem State.fillL1_teams (s : State) (d k c l : Nat) (z : Bool) (b : List Byte)  : (s.fillL1 d k c l z b).teams = s.teams := rfl
@[simp] theorem State.fillL1_own (s : State) (d k c l : Nat) (z : Bool) (b : List Byte)  : (s.fillL1 d k c l z b).own = s.own := rfl
@[simp] theorem State.fillL1_staleAreas (s : State) (d k c l : Nat) (z : Bool) (b : List Byte)  : (s.fillL1 d k c l z b).staleAreas = s.staleAreas := rfl
@[simp] theorem State.fillL1_tileOwners (s : State) (d k c l : Nat) (z : Bool) (b : List Byte)  : (s.fillL1 d k c l z b).tileOwners = s.tileOwners := rfl
@[simp] theorem State.fillL1_accesses (s : State) (d k c l : Nat) (z : Bool) (b : List Byte)  : (s.fillL1 d k c l z b).accesses = s.accesses := rfl
@[simp] theorem State.fillL1_remotes (s : State) (d k c l : Nat) (z : Bool) (b : List Byte)  : (s.fillL1 d k c l z b).remotes = s.remotes := rfl
@[simp] theorem State.fillL1_faults (s : State) (d k c l : Nat) (z : Bool) (b : List Byte)  : (s.fillL1 d k c l z b).faults = s.faults := rfl
@[simp] theorem State.fillL1_tlb (s : State) (d k c l : Nat) (z : Bool) (b : List Byte)  : (s.fillL1 d k c l z b).tlb = s.tlb := rfl
@[simp] theorem State.fillL1_oldPtes (s : State) (d k c l : Nat) (z : Bool) (b : List Byte)  : (s.fillL1 d k c l z b).oldPtes = s.oldPtes := rfl
@[simp] theorem State.fillL1_invals (s : State) (d k c l : Nat) (z : Bool) (b : List Byte)  : (s.fillL1 d k c l z b).invals = s.invals := rfl
@[simp] theorem State.fillL1_migrations (s : State) (d k c l : Nat) (z : Bool) (b : List Byte)  : (s.fillL1 d k c l z b).migrations = s.migrations := rfl
@[simp] theorem State.fillL1_watches (s : State) (d k c l : Nat) (z : Bool) (b : List Byte)  : (s.fillL1 d k c l z b).watches = s.watches := rfl
@[simp] theorem State.fillL1_leases (s : State) (d k c l : Nat) (z : Bool) (b : List Byte)  : (s.fillL1 d k c l z b).leases = s.leases := rfl
@[simp] theorem State.fillL1_joined (s : State) (d k c l : Nat) (z : Bool) (b : List Byte)  : (s.fillL1 d k c l z b).joined = s.joined := rfl
@[simp] theorem State.fillL1_hostWindows (s : State) (d k c l : Nat) (z : Bool) (b : List Byte)  : (s.fillL1 d k c l z b).hostWindows = s.hostWindows := rfl
@[simp] theorem State.fillL1_hostOps (s : State) (d k c l : Nat) (z : Bool) (b : List Byte)  : (s.fillL1 d k c l z b).hostOps = s.hostOps := rfl
@[simp] theorem State.fillL1_hostReply (s : State) (d k c l : Nat) (z : Bool) (b : List Byte)  : (s.fillL1 d k c l z b).hostReply = s.hostReply := rfl
@[simp] theorem State.fillL1_log (s : State) (d k c l : Nat) (z : Bool) (b : List Byte)  : (s.fillL1 d k c l z b).log = s.log := rfl
@[simp] theorem State.fillL1_doomed (s : State) (d k c l : Nat) (z : Bool) (b : List Byte)  : (s.fillL1 d k c l z b).doomed = s.doomed := rfl
@[simp] theorem State.fillL1_nextId (s : State) (d k c l : Nat) (z : Bool) (b : List Byte)  : (s.fillL1 d k c l z b).nextId = s.nextId := rfl
@[simp] theorem State.fillL1_free (s : State) (d k c l : Nat) (z : Bool) (b : List Byte)  : (s.fillL1 d k c l z b).free = s.free := rfl
@[simp] theorem State.fillL1_cur (s : State) (d k c l : Nat) (z : Bool) (b : List Byte)  : (s.fillL1 d k c l z b).cur = s.cur := rfl
@[simp] theorem State.fillL1_agenda (s : State) (d k c l : Nat) (z : Bool) (b : List Byte)  : (s.fillL1 d k c l z b).agenda = s.agenda := rfl
@[simp] theorem State.fillL1_turn (s : State) (d k c l : Nat) (z : Bool) (b : List Byte)  : (s.fillL1 d k c l z b).turn = s.turn := rfl

/-! ### onContext -/

@[simp] theorem State.onContext_mem (s : State) (c : Nat) (f : Context → Context)  : (s.onContext c f).mem = s.mem := rfl
@[simp] theorem State.onContext_package (s : State) (c : Nat) (f : Context → Context)  : (s.onContext c f).package = s.package := rfl
@[simp] theorem State.onContext_booted (s : State) (c : Nat) (f : Context → Context)  : (s.onContext c f).booted = s.booted := rfl
@[simp] theorem State.onContext_payload (s : State) (c : Nat) (f : Context → Context)  : (s.onContext c f).payload = s.payload := rfl
@[simp] theorem State.onContext_gtime (s : State) (c : Nat) (f : Context → Context)  : (s.onContext c f).gtime = s.gtime := rfl
@[simp] theorem State.onContext_dies (s : State) (c : Nat) (f : Context → Context)  : (s.onContext c f).dies = s.dies := rfl
@[simp] theorem State.onContext_cores (s : State) (c : Nat) (f : Context → Context)  : (s.onContext c f).cores = s.cores := rfl
@[simp] theorem State.onContext_partitions (s : State) (c : Nat) (f : Context → Context)  : (s.onContext c f).partitions = s.partitions := rfl
@[simp] theorem State.onContext_queues (s : State) (c : Nat) (f : Context → Context)  : (s.onContext c f).queues = s.queues := rfl
@[simp] theorem State.onContext_launches (s : State) (c : Nat) (f : Context → Context)  : (s.onContext c f).launches = s.launches := rfl
@[simp] theorem State.onContext_teams (s : State) (c : Nat) (f : Context → Context)  : (s.onContext c f).teams = s.teams := rfl
@[simp] theorem State.onContext_own (s : State) (c : Nat) (f : Context → Context)  : (s.onContext c f).own = s.own := rfl
@[simp] theorem State.onContext_staleAreas (s : State) (c : Nat) (f : Context → Context)  : (s.onContext c f).staleAreas = s.staleAreas := rfl
@[simp] theorem State.onContext_tileOwners (s : State) (c : Nat) (f : Context → Context)  : (s.onContext c f).tileOwners = s.tileOwners := rfl
@[simp] theorem State.onContext_accesses (s : State) (c : Nat) (f : Context → Context)  : (s.onContext c f).accesses = s.accesses := rfl
@[simp] theorem State.onContext_remotes (s : State) (c : Nat) (f : Context → Context)  : (s.onContext c f).remotes = s.remotes := rfl
@[simp] theorem State.onContext_faults (s : State) (c : Nat) (f : Context → Context)  : (s.onContext c f).faults = s.faults := rfl
@[simp] theorem State.onContext_tlb (s : State) (c : Nat) (f : Context → Context)  : (s.onContext c f).tlb = s.tlb := rfl
@[simp] theorem State.onContext_oldPtes (s : State) (c : Nat) (f : Context → Context)  : (s.onContext c f).oldPtes = s.oldPtes := rfl
@[simp] theorem State.onContext_invals (s : State) (c : Nat) (f : Context → Context)  : (s.onContext c f).invals = s.invals := rfl
@[simp] theorem State.onContext_migrations (s : State) (c : Nat) (f : Context → Context)  : (s.onContext c f).migrations = s.migrations := rfl
@[simp] theorem State.onContext_watches (s : State) (c : Nat) (f : Context → Context)  : (s.onContext c f).watches = s.watches := rfl
@[simp] theorem State.onContext_leases (s : State) (c : Nat) (f : Context → Context)  : (s.onContext c f).leases = s.leases := rfl
@[simp] theorem State.onContext_joined (s : State) (c : Nat) (f : Context → Context)  : (s.onContext c f).joined = s.joined := rfl
@[simp] theorem State.onContext_hostWindows (s : State) (c : Nat) (f : Context → Context)  : (s.onContext c f).hostWindows = s.hostWindows := rfl
@[simp] theorem State.onContext_hostOps (s : State) (c : Nat) (f : Context → Context)  : (s.onContext c f).hostOps = s.hostOps := rfl
@[simp] theorem State.onContext_hostReply (s : State) (c : Nat) (f : Context → Context)  : (s.onContext c f).hostReply = s.hostReply := rfl
@[simp] theorem State.onContext_log (s : State) (c : Nat) (f : Context → Context)  : (s.onContext c f).log = s.log := rfl
@[simp] theorem State.onContext_doomed (s : State) (c : Nat) (f : Context → Context)  : (s.onContext c f).doomed = s.doomed := rfl
@[simp] theorem State.onContext_nextId (s : State) (c : Nat) (f : Context → Context)  : (s.onContext c f).nextId = s.nextId := rfl
@[simp] theorem State.onContext_free (s : State) (c : Nat) (f : Context → Context)  : (s.onContext c f).free = s.free := rfl
@[simp] theorem State.onContext_cur (s : State) (c : Nat) (f : Context → Context)  : (s.onContext c f).cur = s.cur := rfl
@[simp] theorem State.onContext_agenda (s : State) (c : Nat) (f : Context → Context)  : (s.onContext c f).agenda = s.agenda := rfl
@[simp] theorem State.onContext_turn (s : State) (c : Nat) (f : Context → Context)  : (s.onContext c f).turn = s.turn := rfl

/-! ### onLaunch -/

@[simp] theorem State.onLaunch_mem (s : State) (l : Nat) (f : Launch → Launch)  : (s.onLaunch l f).mem = s.mem := rfl
@[simp] theorem State.onLaunch_package (s : State) (l : Nat) (f : Launch → Launch)  : (s.onLaunch l f).package = s.package := rfl
@[simp] theorem State.onLaunch_booted (s : State) (l : Nat) (f : Launch → Launch)  : (s.onLaunch l f).booted = s.booted := rfl
@[simp] theorem State.onLaunch_payload (s : State) (l : Nat) (f : Launch → Launch)  : (s.onLaunch l f).payload = s.payload := rfl
@[simp] theorem State.onLaunch_gtime (s : State) (l : Nat) (f : Launch → Launch)  : (s.onLaunch l f).gtime = s.gtime := rfl
@[simp] theorem State.onLaunch_dies (s : State) (l : Nat) (f : Launch → Launch)  : (s.onLaunch l f).dies = s.dies := rfl
@[simp] theorem State.onLaunch_cores (s : State) (l : Nat) (f : Launch → Launch)  : (s.onLaunch l f).cores = s.cores := rfl
@[simp] theorem State.onLaunch_contexts (s : State) (l : Nat) (f : Launch → Launch)  : (s.onLaunch l f).contexts = s.contexts := rfl
@[simp] theorem State.onLaunch_partitions (s : State) (l : Nat) (f : Launch → Launch)  : (s.onLaunch l f).partitions = s.partitions := rfl
@[simp] theorem State.onLaunch_queues (s : State) (l : Nat) (f : Launch → Launch)  : (s.onLaunch l f).queues = s.queues := rfl
@[simp] theorem State.onLaunch_teams (s : State) (l : Nat) (f : Launch → Launch)  : (s.onLaunch l f).teams = s.teams := rfl
@[simp] theorem State.onLaunch_own (s : State) (l : Nat) (f : Launch → Launch)  : (s.onLaunch l f).own = s.own := rfl
@[simp] theorem State.onLaunch_staleAreas (s : State) (l : Nat) (f : Launch → Launch)  : (s.onLaunch l f).staleAreas = s.staleAreas := rfl
@[simp] theorem State.onLaunch_tileOwners (s : State) (l : Nat) (f : Launch → Launch)  : (s.onLaunch l f).tileOwners = s.tileOwners := rfl
@[simp] theorem State.onLaunch_accesses (s : State) (l : Nat) (f : Launch → Launch)  : (s.onLaunch l f).accesses = s.accesses := rfl
@[simp] theorem State.onLaunch_remotes (s : State) (l : Nat) (f : Launch → Launch)  : (s.onLaunch l f).remotes = s.remotes := rfl
@[simp] theorem State.onLaunch_faults (s : State) (l : Nat) (f : Launch → Launch)  : (s.onLaunch l f).faults = s.faults := rfl
@[simp] theorem State.onLaunch_tlb (s : State) (l : Nat) (f : Launch → Launch)  : (s.onLaunch l f).tlb = s.tlb := rfl
@[simp] theorem State.onLaunch_oldPtes (s : State) (l : Nat) (f : Launch → Launch)  : (s.onLaunch l f).oldPtes = s.oldPtes := rfl
@[simp] theorem State.onLaunch_invals (s : State) (l : Nat) (f : Launch → Launch)  : (s.onLaunch l f).invals = s.invals := rfl
@[simp] theorem State.onLaunch_migrations (s : State) (l : Nat) (f : Launch → Launch)  : (s.onLaunch l f).migrations = s.migrations := rfl
@[simp] theorem State.onLaunch_watches (s : State) (l : Nat) (f : Launch → Launch)  : (s.onLaunch l f).watches = s.watches := rfl
@[simp] theorem State.onLaunch_leases (s : State) (l : Nat) (f : Launch → Launch)  : (s.onLaunch l f).leases = s.leases := rfl
@[simp] theorem State.onLaunch_joined (s : State) (l : Nat) (f : Launch → Launch)  : (s.onLaunch l f).joined = s.joined := rfl
@[simp] theorem State.onLaunch_hostWindows (s : State) (l : Nat) (f : Launch → Launch)  : (s.onLaunch l f).hostWindows = s.hostWindows := rfl
@[simp] theorem State.onLaunch_hostOps (s : State) (l : Nat) (f : Launch → Launch)  : (s.onLaunch l f).hostOps = s.hostOps := rfl
@[simp] theorem State.onLaunch_hostReply (s : State) (l : Nat) (f : Launch → Launch)  : (s.onLaunch l f).hostReply = s.hostReply := rfl
@[simp] theorem State.onLaunch_log (s : State) (l : Nat) (f : Launch → Launch)  : (s.onLaunch l f).log = s.log := rfl
@[simp] theorem State.onLaunch_doomed (s : State) (l : Nat) (f : Launch → Launch)  : (s.onLaunch l f).doomed = s.doomed := rfl
@[simp] theorem State.onLaunch_nextId (s : State) (l : Nat) (f : Launch → Launch)  : (s.onLaunch l f).nextId = s.nextId := rfl
@[simp] theorem State.onLaunch_free (s : State) (l : Nat) (f : Launch → Launch)  : (s.onLaunch l f).free = s.free := rfl
@[simp] theorem State.onLaunch_cur (s : State) (l : Nat) (f : Launch → Launch)  : (s.onLaunch l f).cur = s.cur := rfl
@[simp] theorem State.onLaunch_agenda (s : State) (l : Nat) (f : Launch → Launch)  : (s.onLaunch l f).agenda = s.agenda := rfl
@[simp] theorem State.onLaunch_turn (s : State) (l : Nat) (f : Launch → Launch)  : (s.onLaunch l f).turn = s.turn := rfl

/-! ### onEntry -/

@[simp] theorem State.onEntry_mem (s : State) (e : Nat) (f : OwnEntry → OwnEntry)  : (s.onEntry e f).mem = s.mem := rfl
@[simp] theorem State.onEntry_package (s : State) (e : Nat) (f : OwnEntry → OwnEntry)  : (s.onEntry e f).package = s.package := rfl
@[simp] theorem State.onEntry_booted (s : State) (e : Nat) (f : OwnEntry → OwnEntry)  : (s.onEntry e f).booted = s.booted := rfl
@[simp] theorem State.onEntry_payload (s : State) (e : Nat) (f : OwnEntry → OwnEntry)  : (s.onEntry e f).payload = s.payload := rfl
@[simp] theorem State.onEntry_gtime (s : State) (e : Nat) (f : OwnEntry → OwnEntry)  : (s.onEntry e f).gtime = s.gtime := rfl
@[simp] theorem State.onEntry_dies (s : State) (e : Nat) (f : OwnEntry → OwnEntry)  : (s.onEntry e f).dies = s.dies := rfl
@[simp] theorem State.onEntry_cores (s : State) (e : Nat) (f : OwnEntry → OwnEntry)  : (s.onEntry e f).cores = s.cores := rfl
@[simp] theorem State.onEntry_contexts (s : State) (e : Nat) (f : OwnEntry → OwnEntry)  : (s.onEntry e f).contexts = s.contexts := rfl
@[simp] theorem State.onEntry_partitions (s : State) (e : Nat) (f : OwnEntry → OwnEntry)  : (s.onEntry e f).partitions = s.partitions := rfl
@[simp] theorem State.onEntry_queues (s : State) (e : Nat) (f : OwnEntry → OwnEntry)  : (s.onEntry e f).queues = s.queues := rfl
@[simp] theorem State.onEntry_launches (s : State) (e : Nat) (f : OwnEntry → OwnEntry)  : (s.onEntry e f).launches = s.launches := rfl
@[simp] theorem State.onEntry_teams (s : State) (e : Nat) (f : OwnEntry → OwnEntry)  : (s.onEntry e f).teams = s.teams := rfl
@[simp] theorem State.onEntry_staleAreas (s : State) (e : Nat) (f : OwnEntry → OwnEntry)  : (s.onEntry e f).staleAreas = s.staleAreas := rfl
@[simp] theorem State.onEntry_tileOwners (s : State) (e : Nat) (f : OwnEntry → OwnEntry)  : (s.onEntry e f).tileOwners = s.tileOwners := rfl
@[simp] theorem State.onEntry_accesses (s : State) (e : Nat) (f : OwnEntry → OwnEntry)  : (s.onEntry e f).accesses = s.accesses := rfl
@[simp] theorem State.onEntry_remotes (s : State) (e : Nat) (f : OwnEntry → OwnEntry)  : (s.onEntry e f).remotes = s.remotes := rfl
@[simp] theorem State.onEntry_faults (s : State) (e : Nat) (f : OwnEntry → OwnEntry)  : (s.onEntry e f).faults = s.faults := rfl
@[simp] theorem State.onEntry_tlb (s : State) (e : Nat) (f : OwnEntry → OwnEntry)  : (s.onEntry e f).tlb = s.tlb := rfl
@[simp] theorem State.onEntry_oldPtes (s : State) (e : Nat) (f : OwnEntry → OwnEntry)  : (s.onEntry e f).oldPtes = s.oldPtes := rfl
@[simp] theorem State.onEntry_invals (s : State) (e : Nat) (f : OwnEntry → OwnEntry)  : (s.onEntry e f).invals = s.invals := rfl
@[simp] theorem State.onEntry_migrations (s : State) (e : Nat) (f : OwnEntry → OwnEntry)  : (s.onEntry e f).migrations = s.migrations := rfl
@[simp] theorem State.onEntry_watches (s : State) (e : Nat) (f : OwnEntry → OwnEntry)  : (s.onEntry e f).watches = s.watches := rfl
@[simp] theorem State.onEntry_leases (s : State) (e : Nat) (f : OwnEntry → OwnEntry)  : (s.onEntry e f).leases = s.leases := rfl
@[simp] theorem State.onEntry_joined (s : State) (e : Nat) (f : OwnEntry → OwnEntry)  : (s.onEntry e f).joined = s.joined := rfl
@[simp] theorem State.onEntry_hostWindows (s : State) (e : Nat) (f : OwnEntry → OwnEntry)  : (s.onEntry e f).hostWindows = s.hostWindows := rfl
@[simp] theorem State.onEntry_hostOps (s : State) (e : Nat) (f : OwnEntry → OwnEntry)  : (s.onEntry e f).hostOps = s.hostOps := rfl
@[simp] theorem State.onEntry_hostReply (s : State) (e : Nat) (f : OwnEntry → OwnEntry)  : (s.onEntry e f).hostReply = s.hostReply := rfl
@[simp] theorem State.onEntry_log (s : State) (e : Nat) (f : OwnEntry → OwnEntry)  : (s.onEntry e f).log = s.log := rfl
@[simp] theorem State.onEntry_doomed (s : State) (e : Nat) (f : OwnEntry → OwnEntry)  : (s.onEntry e f).doomed = s.doomed := rfl
@[simp] theorem State.onEntry_nextId (s : State) (e : Nat) (f : OwnEntry → OwnEntry)  : (s.onEntry e f).nextId = s.nextId := rfl
@[simp] theorem State.onEntry_free (s : State) (e : Nat) (f : OwnEntry → OwnEntry)  : (s.onEntry e f).free = s.free := rfl
@[simp] theorem State.onEntry_cur (s : State) (e : Nat) (f : OwnEntry → OwnEntry)  : (s.onEntry e f).cur = s.cur := rfl
@[simp] theorem State.onEntry_agenda (s : State) (e : Nat) (f : OwnEntry → OwnEntry)  : (s.onEntry e f).agenda = s.agenda := rfl
@[simp] theorem State.onEntry_turn (s : State) (e : Nat) (f : OwnEntry → OwnEntry)  : (s.onEntry e f).turn = s.turn := rfl

/-! ### addLog -/

@[simp] theorem State.addLog_mem (s : State) (e : LogEvent)  : (s.addLog e).mem = s.mem := rfl
@[simp] theorem State.addLog_package (s : State) (e : LogEvent)  : (s.addLog e).package = s.package := rfl
@[simp] theorem State.addLog_booted (s : State) (e : LogEvent)  : (s.addLog e).booted = s.booted := rfl
@[simp] theorem State.addLog_payload (s : State) (e : LogEvent)  : (s.addLog e).payload = s.payload := rfl
@[simp] theorem State.addLog_gtime (s : State) (e : LogEvent)  : (s.addLog e).gtime = s.gtime := rfl
@[simp] theorem State.addLog_dies (s : State) (e : LogEvent)  : (s.addLog e).dies = s.dies := rfl
@[simp] theorem State.addLog_cores (s : State) (e : LogEvent)  : (s.addLog e).cores = s.cores := rfl
@[simp] theorem State.addLog_contexts (s : State) (e : LogEvent)  : (s.addLog e).contexts = s.contexts := rfl
@[simp] theorem State.addLog_partitions (s : State) (e : LogEvent)  : (s.addLog e).partitions = s.partitions := rfl
@[simp] theorem State.addLog_queues (s : State) (e : LogEvent)  : (s.addLog e).queues = s.queues := rfl
@[simp] theorem State.addLog_launches (s : State) (e : LogEvent)  : (s.addLog e).launches = s.launches := rfl
@[simp] theorem State.addLog_teams (s : State) (e : LogEvent)  : (s.addLog e).teams = s.teams := rfl
@[simp] theorem State.addLog_own (s : State) (e : LogEvent)  : (s.addLog e).own = s.own := rfl
@[simp] theorem State.addLog_staleAreas (s : State) (e : LogEvent)  : (s.addLog e).staleAreas = s.staleAreas := rfl
@[simp] theorem State.addLog_tileOwners (s : State) (e : LogEvent)  : (s.addLog e).tileOwners = s.tileOwners := rfl
@[simp] theorem State.addLog_accesses (s : State) (e : LogEvent)  : (s.addLog e).accesses = s.accesses := rfl
@[simp] theorem State.addLog_remotes (s : State) (e : LogEvent)  : (s.addLog e).remotes = s.remotes := rfl
@[simp] theorem State.addLog_faults (s : State) (e : LogEvent)  : (s.addLog e).faults = s.faults := rfl
@[simp] theorem State.addLog_tlb (s : State) (e : LogEvent)  : (s.addLog e).tlb = s.tlb := rfl
@[simp] theorem State.addLog_oldPtes (s : State) (e : LogEvent)  : (s.addLog e).oldPtes = s.oldPtes := rfl
@[simp] theorem State.addLog_invals (s : State) (e : LogEvent)  : (s.addLog e).invals = s.invals := rfl
@[simp] theorem State.addLog_migrations (s : State) (e : LogEvent)  : (s.addLog e).migrations = s.migrations := rfl
@[simp] theorem State.addLog_watches (s : State) (e : LogEvent)  : (s.addLog e).watches = s.watches := rfl
@[simp] theorem State.addLog_leases (s : State) (e : LogEvent)  : (s.addLog e).leases = s.leases := rfl
@[simp] theorem State.addLog_joined (s : State) (e : LogEvent)  : (s.addLog e).joined = s.joined := rfl
@[simp] theorem State.addLog_hostWindows (s : State) (e : LogEvent)  : (s.addLog e).hostWindows = s.hostWindows := rfl
@[simp] theorem State.addLog_hostOps (s : State) (e : LogEvent)  : (s.addLog e).hostOps = s.hostOps := rfl
@[simp] theorem State.addLog_hostReply (s : State) (e : LogEvent)  : (s.addLog e).hostReply = s.hostReply := rfl
@[simp] theorem State.addLog_doomed (s : State) (e : LogEvent)  : (s.addLog e).doomed = s.doomed := rfl
@[simp] theorem State.addLog_nextId (s : State) (e : LogEvent)  : (s.addLog e).nextId = s.nextId := rfl
@[simp] theorem State.addLog_free (s : State) (e : LogEvent)  : (s.addLog e).free = s.free := rfl
@[simp] theorem State.addLog_cur (s : State) (e : LogEvent)  : (s.addLog e).cur = s.cur := rfl
@[simp] theorem State.addLog_agenda (s : State) (e : LogEvent)  : (s.addLog e).agenda = s.agenda := rfl
@[simp] theorem State.addLog_turn (s : State) (e : LogEvent)  : (s.addLog e).turn = s.turn := rfl

/-! ### setBytes -/

@[simp] theorem State.setBytes_package (s : State) (a : Nat) (l : List Byte)  : (s.setBytes a l).package = s.package := rfl
@[simp] theorem State.setBytes_booted (s : State) (a : Nat) (l : List Byte)  : (s.setBytes a l).booted = s.booted := rfl
@[simp] theorem State.setBytes_payload (s : State) (a : Nat) (l : List Byte)  : (s.setBytes a l).payload = s.payload := rfl
@[simp] theorem State.setBytes_gtime (s : State) (a : Nat) (l : List Byte)  : (s.setBytes a l).gtime = s.gtime := rfl
@[simp] theorem State.setBytes_dies (s : State) (a : Nat) (l : List Byte)  : (s.setBytes a l).dies = s.dies := rfl
@[simp] theorem State.setBytes_cores (s : State) (a : Nat) (l : List Byte)  : (s.setBytes a l).cores = s.cores := rfl
@[simp] theorem State.setBytes_contexts (s : State) (a : Nat) (l : List Byte)  : (s.setBytes a l).contexts = s.contexts := rfl
@[simp] theorem State.setBytes_partitions (s : State) (a : Nat) (l : List Byte)  : (s.setBytes a l).partitions = s.partitions := rfl
@[simp] theorem State.setBytes_queues (s : State) (a : Nat) (l : List Byte)  : (s.setBytes a l).queues = s.queues := rfl
@[simp] theorem State.setBytes_launches (s : State) (a : Nat) (l : List Byte)  : (s.setBytes a l).launches = s.launches := rfl
@[simp] theorem State.setBytes_teams (s : State) (a : Nat) (l : List Byte)  : (s.setBytes a l).teams = s.teams := rfl
@[simp] theorem State.setBytes_own (s : State) (a : Nat) (l : List Byte)  : (s.setBytes a l).own = s.own := rfl
@[simp] theorem State.setBytes_staleAreas (s : State) (a : Nat) (l : List Byte)  : (s.setBytes a l).staleAreas = s.staleAreas := rfl
@[simp] theorem State.setBytes_tileOwners (s : State) (a : Nat) (l : List Byte)  : (s.setBytes a l).tileOwners = s.tileOwners := rfl
@[simp] theorem State.setBytes_accesses (s : State) (a : Nat) (l : List Byte)  : (s.setBytes a l).accesses = s.accesses := rfl
@[simp] theorem State.setBytes_remotes (s : State) (a : Nat) (l : List Byte)  : (s.setBytes a l).remotes = s.remotes := rfl
@[simp] theorem State.setBytes_faults (s : State) (a : Nat) (l : List Byte)  : (s.setBytes a l).faults = s.faults := rfl
@[simp] theorem State.setBytes_tlb (s : State) (a : Nat) (l : List Byte)  : (s.setBytes a l).tlb = s.tlb := rfl
@[simp] theorem State.setBytes_oldPtes (s : State) (a : Nat) (l : List Byte)  : (s.setBytes a l).oldPtes = s.oldPtes := rfl
@[simp] theorem State.setBytes_invals (s : State) (a : Nat) (l : List Byte)  : (s.setBytes a l).invals = s.invals := rfl
@[simp] theorem State.setBytes_migrations (s : State) (a : Nat) (l : List Byte)  : (s.setBytes a l).migrations = s.migrations := rfl
@[simp] theorem State.setBytes_watches (s : State) (a : Nat) (l : List Byte)  : (s.setBytes a l).watches = s.watches := rfl
@[simp] theorem State.setBytes_leases (s : State) (a : Nat) (l : List Byte)  : (s.setBytes a l).leases = s.leases := rfl
@[simp] theorem State.setBytes_joined (s : State) (a : Nat) (l : List Byte)  : (s.setBytes a l).joined = s.joined := rfl
@[simp] theorem State.setBytes_hostWindows (s : State) (a : Nat) (l : List Byte)  : (s.setBytes a l).hostWindows = s.hostWindows := rfl
@[simp] theorem State.setBytes_hostOps (s : State) (a : Nat) (l : List Byte)  : (s.setBytes a l).hostOps = s.hostOps := rfl
@[simp] theorem State.setBytes_hostReply (s : State) (a : Nat) (l : List Byte)  : (s.setBytes a l).hostReply = s.hostReply := rfl
@[simp] theorem State.setBytes_log (s : State) (a : Nat) (l : List Byte)  : (s.setBytes a l).log = s.log := rfl
@[simp] theorem State.setBytes_doomed (s : State) (a : Nat) (l : List Byte)  : (s.setBytes a l).doomed = s.doomed := rfl
@[simp] theorem State.setBytes_nextId (s : State) (a : Nat) (l : List Byte)  : (s.setBytes a l).nextId = s.nextId := rfl
@[simp] theorem State.setBytes_free (s : State) (a : Nat) (l : List Byte)  : (s.setBytes a l).free = s.free := rfl
@[simp] theorem State.setBytes_cur (s : State) (a : Nat) (l : List Byte)  : (s.setBytes a l).cur = s.cur := rfl
@[simp] theorem State.setBytes_agenda (s : State) (a : Nat) (l : List Byte)  : (s.setBytes a l).agenda = s.agenda := rfl
@[simp] theorem State.setBytes_turn (s : State) (a : Nat) (l : List Byte)  : (s.setBytes a l).turn = s.turn := rfl

/-! ### fresh -/

@[simp] theorem State.fresh_mem (s : State)  : (s.fresh.2).mem = s.mem := rfl
@[simp] theorem State.fresh_package (s : State)  : (s.fresh.2).package = s.package := rfl
@[simp] theorem State.fresh_booted (s : State)  : (s.fresh.2).booted = s.booted := rfl
@[simp] theorem State.fresh_payload (s : State)  : (s.fresh.2).payload = s.payload := rfl
@[simp] theorem State.fresh_gtime (s : State)  : (s.fresh.2).gtime = s.gtime := rfl
@[simp] theorem State.fresh_dies (s : State)  : (s.fresh.2).dies = s.dies := rfl
@[simp] theorem State.fresh_cores (s : State)  : (s.fresh.2).cores = s.cores := rfl
@[simp] theorem State.fresh_contexts (s : State)  : (s.fresh.2).contexts = s.contexts := rfl
@[simp] theorem State.fresh_partitions (s : State)  : (s.fresh.2).partitions = s.partitions := rfl
@[simp] theorem State.fresh_queues (s : State)  : (s.fresh.2).queues = s.queues := rfl
@[simp] theorem State.fresh_launches (s : State)  : (s.fresh.2).launches = s.launches := rfl
@[simp] theorem State.fresh_teams (s : State)  : (s.fresh.2).teams = s.teams := rfl
@[simp] theorem State.fresh_own (s : State)  : (s.fresh.2).own = s.own := rfl
@[simp] theorem State.fresh_staleAreas (s : State)  : (s.fresh.2).staleAreas = s.staleAreas := rfl
@[simp] theorem State.fresh_tileOwners (s : State)  : (s.fresh.2).tileOwners = s.tileOwners := rfl
@[simp] theorem State.fresh_accesses (s : State)  : (s.fresh.2).accesses = s.accesses := rfl
@[simp] theorem State.fresh_remotes (s : State)  : (s.fresh.2).remotes = s.remotes := rfl
@[simp] theorem State.fresh_faults (s : State)  : (s.fresh.2).faults = s.faults := rfl
@[simp] theorem State.fresh_tlb (s : State)  : (s.fresh.2).tlb = s.tlb := rfl
@[simp] theorem State.fresh_oldPtes (s : State)  : (s.fresh.2).oldPtes = s.oldPtes := rfl
@[simp] theorem State.fresh_invals (s : State)  : (s.fresh.2).invals = s.invals := rfl
@[simp] theorem State.fresh_migrations (s : State)  : (s.fresh.2).migrations = s.migrations := rfl
@[simp] theorem State.fresh_watches (s : State)  : (s.fresh.2).watches = s.watches := rfl
@[simp] theorem State.fresh_leases (s : State)  : (s.fresh.2).leases = s.leases := rfl
@[simp] theorem State.fresh_joined (s : State)  : (s.fresh.2).joined = s.joined := rfl
@[simp] theorem State.fresh_hostWindows (s : State)  : (s.fresh.2).hostWindows = s.hostWindows := rfl
@[simp] theorem State.fresh_hostOps (s : State)  : (s.fresh.2).hostOps = s.hostOps := rfl
@[simp] theorem State.fresh_hostReply (s : State)  : (s.fresh.2).hostReply = s.hostReply := rfl
@[simp] theorem State.fresh_log (s : State)  : (s.fresh.2).log = s.log := rfl
@[simp] theorem State.fresh_doomed (s : State)  : (s.fresh.2).doomed = s.doomed := rfl
@[simp] theorem State.fresh_free (s : State)  : (s.fresh.2).free = s.free := rfl
@[simp] theorem State.fresh_cur (s : State)  : (s.fresh.2).cur = s.cur := rfl
@[simp] theorem State.fresh_agenda (s : State)  : (s.fresh.2).agenda = s.agenda := rfl
@[simp] theorem State.fresh_turn (s : State)  : (s.fresh.2).turn = s.turn := rfl

/-! ### setBldMode -/

@[simp] theorem State.setBldMode_package (s : State) (sa m : Nat)  : (s.setBldMode sa m).package = s.package := rfl
@[simp] theorem State.setBldMode_booted (s : State) (sa m : Nat)  : (s.setBldMode sa m).booted = s.booted := rfl
@[simp] theorem State.setBldMode_payload (s : State) (sa m : Nat)  : (s.setBldMode sa m).payload = s.payload := rfl
@[simp] theorem State.setBldMode_gtime (s : State) (sa m : Nat)  : (s.setBldMode sa m).gtime = s.gtime := rfl
@[simp] theorem State.setBldMode_dies (s : State) (sa m : Nat)  : (s.setBldMode sa m).dies = s.dies := rfl
@[simp] theorem State.setBldMode_cores (s : State) (sa m : Nat)  : (s.setBldMode sa m).cores = s.cores := rfl
@[simp] theorem State.setBldMode_contexts (s : State) (sa m : Nat)  : (s.setBldMode sa m).contexts = s.contexts := rfl
@[simp] theorem State.setBldMode_partitions (s : State) (sa m : Nat)  : (s.setBldMode sa m).partitions = s.partitions := rfl
@[simp] theorem State.setBldMode_queues (s : State) (sa m : Nat)  : (s.setBldMode sa m).queues = s.queues := rfl
@[simp] theorem State.setBldMode_launches (s : State) (sa m : Nat)  : (s.setBldMode sa m).launches = s.launches := rfl
@[simp] theorem State.setBldMode_teams (s : State) (sa m : Nat)  : (s.setBldMode sa m).teams = s.teams := rfl
@[simp] theorem State.setBldMode_own (s : State) (sa m : Nat)  : (s.setBldMode sa m).own = s.own := rfl
@[simp] theorem State.setBldMode_staleAreas (s : State) (sa m : Nat)  : (s.setBldMode sa m).staleAreas = s.staleAreas := rfl
@[simp] theorem State.setBldMode_tileOwners (s : State) (sa m : Nat)  : (s.setBldMode sa m).tileOwners = s.tileOwners := rfl
@[simp] theorem State.setBldMode_accesses (s : State) (sa m : Nat)  : (s.setBldMode sa m).accesses = s.accesses := rfl
@[simp] theorem State.setBldMode_remotes (s : State) (sa m : Nat)  : (s.setBldMode sa m).remotes = s.remotes := rfl
@[simp] theorem State.setBldMode_faults (s : State) (sa m : Nat)  : (s.setBldMode sa m).faults = s.faults := rfl
@[simp] theorem State.setBldMode_tlb (s : State) (sa m : Nat)  : (s.setBldMode sa m).tlb = s.tlb := rfl
@[simp] theorem State.setBldMode_oldPtes (s : State) (sa m : Nat)  : (s.setBldMode sa m).oldPtes = s.oldPtes := rfl
@[simp] theorem State.setBldMode_invals (s : State) (sa m : Nat)  : (s.setBldMode sa m).invals = s.invals := rfl
@[simp] theorem State.setBldMode_migrations (s : State) (sa m : Nat)  : (s.setBldMode sa m).migrations = s.migrations := rfl
@[simp] theorem State.setBldMode_watches (s : State) (sa m : Nat)  : (s.setBldMode sa m).watches = s.watches := rfl
@[simp] theorem State.setBldMode_leases (s : State) (sa m : Nat)  : (s.setBldMode sa m).leases = s.leases := rfl
@[simp] theorem State.setBldMode_joined (s : State) (sa m : Nat)  : (s.setBldMode sa m).joined = s.joined := rfl
@[simp] theorem State.setBldMode_hostWindows (s : State) (sa m : Nat)  : (s.setBldMode sa m).hostWindows = s.hostWindows := rfl
@[simp] theorem State.setBldMode_hostOps (s : State) (sa m : Nat)  : (s.setBldMode sa m).hostOps = s.hostOps := rfl
@[simp] theorem State.setBldMode_hostReply (s : State) (sa m : Nat)  : (s.setBldMode sa m).hostReply = s.hostReply := rfl
@[simp] theorem State.setBldMode_log (s : State) (sa m : Nat)  : (s.setBldMode sa m).log = s.log := rfl
@[simp] theorem State.setBldMode_doomed (s : State) (sa m : Nat)  : (s.setBldMode sa m).doomed = s.doomed := rfl
@[simp] theorem State.setBldMode_nextId (s : State) (sa m : Nat)  : (s.setBldMode sa m).nextId = s.nextId := rfl
@[simp] theorem State.setBldMode_free (s : State) (sa m : Nat)  : (s.setBldMode sa m).free = s.free := rfl
@[simp] theorem State.setBldMode_cur (s : State) (sa m : Nat)  : (s.setBldMode sa m).cur = s.cur := rfl
@[simp] theorem State.setBldMode_agenda (s : State) (sa m : Nat)  : (s.setBldMode sa m).agenda = s.agenda := rfl
@[simp] theorem State.setBldMode_turn (s : State) (sa m : Nat)  : (s.setBldMode sa m).turn = s.turn := rfl

/-! ### unwatch -/

@[simp] theorem State.unwatch_mem (s : State) (tid n : Nat)  : (s.unwatch tid n).mem = s.mem := rfl
@[simp] theorem State.unwatch_package (s : State) (tid n : Nat)  : (s.unwatch tid n).package = s.package := rfl
@[simp] theorem State.unwatch_booted (s : State) (tid n : Nat)  : (s.unwatch tid n).booted = s.booted := rfl
@[simp] theorem State.unwatch_payload (s : State) (tid n : Nat)  : (s.unwatch tid n).payload = s.payload := rfl
@[simp] theorem State.unwatch_gtime (s : State) (tid n : Nat)  : (s.unwatch tid n).gtime = s.gtime := rfl
@[simp] theorem State.unwatch_dies (s : State) (tid n : Nat)  : (s.unwatch tid n).dies = s.dies := rfl
@[simp] theorem State.unwatch_cores (s : State) (tid n : Nat)  : (s.unwatch tid n).cores = s.cores := rfl
@[simp] theorem State.unwatch_contexts (s : State) (tid n : Nat)  : (s.unwatch tid n).contexts = s.contexts := rfl
@[simp] theorem State.unwatch_partitions (s : State) (tid n : Nat)  : (s.unwatch tid n).partitions = s.partitions := rfl
@[simp] theorem State.unwatch_queues (s : State) (tid n : Nat)  : (s.unwatch tid n).queues = s.queues := rfl
@[simp] theorem State.unwatch_launches (s : State) (tid n : Nat)  : (s.unwatch tid n).launches = s.launches := rfl
@[simp] theorem State.unwatch_teams (s : State) (tid n : Nat)  : (s.unwatch tid n).teams = s.teams := rfl
@[simp] theorem State.unwatch_own (s : State) (tid n : Nat)  : (s.unwatch tid n).own = s.own := rfl
@[simp] theorem State.unwatch_staleAreas (s : State) (tid n : Nat)  : (s.unwatch tid n).staleAreas = s.staleAreas := rfl
@[simp] theorem State.unwatch_tileOwners (s : State) (tid n : Nat)  : (s.unwatch tid n).tileOwners = s.tileOwners := rfl
@[simp] theorem State.unwatch_accesses (s : State) (tid n : Nat)  : (s.unwatch tid n).accesses = s.accesses := rfl
@[simp] theorem State.unwatch_remotes (s : State) (tid n : Nat)  : (s.unwatch tid n).remotes = s.remotes := rfl
@[simp] theorem State.unwatch_faults (s : State) (tid n : Nat)  : (s.unwatch tid n).faults = s.faults := rfl
@[simp] theorem State.unwatch_tlb (s : State) (tid n : Nat)  : (s.unwatch tid n).tlb = s.tlb := rfl
@[simp] theorem State.unwatch_oldPtes (s : State) (tid n : Nat)  : (s.unwatch tid n).oldPtes = s.oldPtes := rfl
@[simp] theorem State.unwatch_invals (s : State) (tid n : Nat)  : (s.unwatch tid n).invals = s.invals := rfl
@[simp] theorem State.unwatch_migrations (s : State) (tid n : Nat)  : (s.unwatch tid n).migrations = s.migrations := rfl
@[simp] theorem State.unwatch_leases (s : State) (tid n : Nat)  : (s.unwatch tid n).leases = s.leases := rfl
@[simp] theorem State.unwatch_joined (s : State) (tid n : Nat)  : (s.unwatch tid n).joined = s.joined := rfl
@[simp] theorem State.unwatch_hostWindows (s : State) (tid n : Nat)  : (s.unwatch tid n).hostWindows = s.hostWindows := rfl
@[simp] theorem State.unwatch_hostOps (s : State) (tid n : Nat)  : (s.unwatch tid n).hostOps = s.hostOps := rfl
@[simp] theorem State.unwatch_hostReply (s : State) (tid n : Nat)  : (s.unwatch tid n).hostReply = s.hostReply := rfl
@[simp] theorem State.unwatch_log (s : State) (tid n : Nat)  : (s.unwatch tid n).log = s.log := rfl
@[simp] theorem State.unwatch_doomed (s : State) (tid n : Nat)  : (s.unwatch tid n).doomed = s.doomed := rfl
@[simp] theorem State.unwatch_nextId (s : State) (tid n : Nat)  : (s.unwatch tid n).nextId = s.nextId := rfl
@[simp] theorem State.unwatch_free (s : State) (tid n : Nat)  : (s.unwatch tid n).free = s.free := rfl
@[simp] theorem State.unwatch_cur (s : State) (tid n : Nat)  : (s.unwatch tid n).cur = s.cur := rfl
@[simp] theorem State.unwatch_agenda (s : State) (tid n : Nat)  : (s.unwatch tid n).agenda = s.agenda := rfl
@[simp] theorem State.unwatch_turn (s : State) (tid n : Nat)  : (s.unwatch tid n).turn = s.turn := rfl

/-! ### dropFault -/

@[simp] theorem State.dropFault_mem (s : State) (i : Nat)  : (s.dropFault i).mem = s.mem := rfl
@[simp] theorem State.dropFault_package (s : State) (i : Nat)  : (s.dropFault i).package = s.package := rfl
@[simp] theorem State.dropFault_booted (s : State) (i : Nat)  : (s.dropFault i).booted = s.booted := rfl
@[simp] theorem State.dropFault_payload (s : State) (i : Nat)  : (s.dropFault i).payload = s.payload := rfl
@[simp] theorem State.dropFault_gtime (s : State) (i : Nat)  : (s.dropFault i).gtime = s.gtime := rfl
@[simp] theorem State.dropFault_dies (s : State) (i : Nat)  : (s.dropFault i).dies = s.dies := rfl
@[simp] theorem State.dropFault_cores (s : State) (i : Nat)  : (s.dropFault i).cores = s.cores := rfl
@[simp] theorem State.dropFault_contexts (s : State) (i : Nat)  : (s.dropFault i).contexts = s.contexts := rfl
@[simp] theorem State.dropFault_partitions (s : State) (i : Nat)  : (s.dropFault i).partitions = s.partitions := rfl
@[simp] theorem State.dropFault_queues (s : State) (i : Nat)  : (s.dropFault i).queues = s.queues := rfl
@[simp] theorem State.dropFault_launches (s : State) (i : Nat)  : (s.dropFault i).launches = s.launches := rfl
@[simp] theorem State.dropFault_teams (s : State) (i : Nat)  : (s.dropFault i).teams = s.teams := rfl
@[simp] theorem State.dropFault_own (s : State) (i : Nat)  : (s.dropFault i).own = s.own := rfl
@[simp] theorem State.dropFault_staleAreas (s : State) (i : Nat)  : (s.dropFault i).staleAreas = s.staleAreas := rfl
@[simp] theorem State.dropFault_tileOwners (s : State) (i : Nat)  : (s.dropFault i).tileOwners = s.tileOwners := rfl
@[simp] theorem State.dropFault_accesses (s : State) (i : Nat)  : (s.dropFault i).accesses = s.accesses := rfl
@[simp] theorem State.dropFault_remotes (s : State) (i : Nat)  : (s.dropFault i).remotes = s.remotes := rfl
@[simp] theorem State.dropFault_tlb (s : State) (i : Nat)  : (s.dropFault i).tlb = s.tlb := rfl
@[simp] theorem State.dropFault_oldPtes (s : State) (i : Nat)  : (s.dropFault i).oldPtes = s.oldPtes := rfl
@[simp] theorem State.dropFault_invals (s : State) (i : Nat)  : (s.dropFault i).invals = s.invals := rfl
@[simp] theorem State.dropFault_migrations (s : State) (i : Nat)  : (s.dropFault i).migrations = s.migrations := rfl
@[simp] theorem State.dropFault_watches (s : State) (i : Nat)  : (s.dropFault i).watches = s.watches := rfl
@[simp] theorem State.dropFault_leases (s : State) (i : Nat)  : (s.dropFault i).leases = s.leases := rfl
@[simp] theorem State.dropFault_joined (s : State) (i : Nat)  : (s.dropFault i).joined = s.joined := rfl
@[simp] theorem State.dropFault_hostWindows (s : State) (i : Nat)  : (s.dropFault i).hostWindows = s.hostWindows := rfl
@[simp] theorem State.dropFault_hostOps (s : State) (i : Nat)  : (s.dropFault i).hostOps = s.hostOps := rfl
@[simp] theorem State.dropFault_hostReply (s : State) (i : Nat)  : (s.dropFault i).hostReply = s.hostReply := rfl
@[simp] theorem State.dropFault_log (s : State) (i : Nat)  : (s.dropFault i).log = s.log := rfl
@[simp] theorem State.dropFault_doomed (s : State) (i : Nat)  : (s.dropFault i).doomed = s.doomed := rfl
@[simp] theorem State.dropFault_nextId (s : State) (i : Nat)  : (s.dropFault i).nextId = s.nextId := rfl
@[simp] theorem State.dropFault_free (s : State) (i : Nat)  : (s.dropFault i).free = s.free := rfl
@[simp] theorem State.dropFault_cur (s : State) (i : Nat)  : (s.dropFault i).cur = s.cur := rfl
@[simp] theorem State.dropFault_agenda (s : State) (i : Nat)  : (s.dropFault i).agenda = s.agenda := rfl
@[simp] theorem State.dropFault_turn (s : State) (i : Nat)  : (s.dropFault i).turn = s.turn := rfl

/-! ### Team.setGroup -/

@[simp] theorem Team.setGroup_id (t : Team) (g : Group) : (t.setGroup g).id = t.id := rfl
@[simp] theorem Team.setGroup_launch (t : Team) (g : Group) : (t.setGroup g).launch = t.launch := rfl
@[simp] theorem Team.setGroup_ctx (t : Team) (g : Group) : (t.setGroup g).ctx = t.ctx := rfl
@[simp] theorem Team.setGroup_cls (t : Team) (g : Group) : (t.setGroup g).cls = t.cls := rfl
@[simp] theorem Team.setGroup_lid (t : Team) (g : Group) : (t.setGroup g).lid = t.lid := rfl
@[simp] theorem Team.setGroup_det (t : Team) (g : Group) : (t.setGroup g).det = t.det := rfl
@[simp] theorem Team.setGroup_node (t : Team) (g : Group) : (t.setGroup g).node = t.node := rfl
@[simp] theorem Team.setGroup_batch (t : Team) (g : Group) : (t.setGroup g).batch = t.batch := rfl
@[simp] theorem Team.setGroup_batchSlots (t : Team) (g : Group) : (t.setGroup g).batchSlots = t.batchSlots := rfl
@[simp] theorem Team.setGroup_die (t : Team) (g : Group) : (t.setGroup g).die = t.die := rfl
@[simp] theorem Team.setGroup_core (t : Team) (g : Group) : (t.setGroup g).core = t.core := rfl
@[simp] theorem Team.setGroup_slot (t : Team) (g : Group) : (t.setGroup g).slot = t.slot := rfl
@[simp] theorem Team.setGroup_base (t : Team) (g : Group) : (t.setGroup g).base = t.base := rfl
@[simp] theorem Team.setGroup_unit (t : Team) (g : Group) : (t.setGroup g).unit = t.unit := rfl
@[simp] theorem Team.setGroup_reg (t : Team) (g : Group) : (t.setGroup g).reg = t.reg := rfl
@[simp] theorem Team.setGroup_scr (t : Team) (g : Group) : (t.setGroup g).scr = t.scr := rfl
@[simp] theorem Team.setGroup_acc (t : Team) (g : Group) : (t.setGroup g).acc = t.acc := rfl
@[simp] theorem Team.setGroup_index (t : Team) (g : Group) : (t.setGroup g).index = t.index := rfl
@[simp] theorem Team.setGroup_x (t : Team) (g : Group) : (t.setGroup g).x = t.x := rfl
@[simp] theorem Team.setGroup_y (t : Team) (g : Group) : (t.setGroup g).y = t.y := rfl
@[simp] theorem Team.setGroup_z (t : Team) (g : Group) : (t.setGroup g).z = t.z := rfl
@[simp] theorem Team.setGroup_cluster (t : Team) (g : Group) : (t.setGroup g).cluster = t.cluster := rfl
@[simp] theorem Team.setGroup_cx (t : Team) (g : Group) : (t.setGroup g).cx = t.cx := rfl
@[simp] theorem Team.setGroup_cy (t : Team) (g : Group) : (t.setGroup g).cy = t.cy := rfl
@[simp] theorem Team.setGroup_cw (t : Team) (g : Group) : (t.setGroup g).cw = t.cw := rfl
@[simp] theorem Team.setGroup_ch (t : Team) (g : Group) : (t.setGroup g).ch = t.ch := rfl
@[simp] theorem Team.setGroup_code (t : Team) (g : Group) : (t.setGroup g).code = t.code := rfl
@[simp] theorem Team.setGroup_live (t : Team) (g : Group) : (t.setGroup g).live = t.live := rfl
@[simp] theorem Team.setGroup_mstream (t : Team) (g : Group) : (t.setGroup g).mstream = t.mstream := rfl
@[simp] theorem Team.setGroup_rows (t : Team) (g : Group) : (t.setGroup g).rows = t.rows := rfl
@[simp] theorem Team.setGroup_ngroups (t : Team) (g : Group) : (t.setGroup g).ngroups = t.ngroups := rfl
@[simp] theorem Team.setGroup_windows (t : Team) (g : Group) : (t.setGroup g).windows = t.windows := rfl
@[simp] theorem Team.setGroup_xfCount (t : Team) (g : Group) : (t.setGroup g).xfCount = t.xfCount := rfl
@[simp] theorem Team.setGroup_xfAddr (t : Team) (g : Group) : (t.setGroup g).xfAddr = t.xfAddr := rfl
@[simp] theorem Team.setGroup_stream (t : Team) (g : Group) : (t.setGroup g).stream = t.stream := rfl
@[simp] theorem Team.setGroup_scratch (t : Team) (g : Group) : (t.setGroup g).scratch = t.scratch := rfl
@[simp] theorem Team.setGroup_absent (t : Team) (g : Group) : (t.setGroup g).absent = t.absent := rfl
@[simp] theorem Team.setGroup_bars (t : Team) (g : Group) : (t.setGroup g).bars = t.bars := rfl
@[simp] theorem Team.setGroup_engPhases (t : Team) (g : Group) : (t.setGroup g).engPhases = t.engPhases := rfl
@[simp] theorem Team.setGroup_cmds (t : Team) (g : Group) : (t.setGroup g).cmds = t.cmds := rfl
@[simp] theorem Team.setGroup_q1 (t : Team) (g : Group) : (t.setGroup g).q1 = t.q1 := rfl
@[simp] theorem Team.setGroup_q4 (t : Team) (g : Group) : (t.setGroup g).q4 = t.q4 := rfl
@[simp] theorem Team.setGroup_q6 (t : Team) (g : Group) : (t.setGroup g).q6 = t.q6 := rfl
@[simp] theorem Team.setGroup_q7 (t : Team) (g : Group) : (t.setGroup g).q7 = t.q7 := rfl
@[simp] theorem Team.setGroup_tiles (t : Team) (g : Group) : (t.setGroup g).tiles = t.tiles := rfl
@[simp] theorem Team.setGroup_cov (t : Team) (g : Group) : (t.setGroup g).cov = t.cov := rfl
@[simp] theorem Team.setGroup_place (t : Team) (g : Group) : (t.setGroup g).place = t.place := rfl
@[simp] theorem Team.setGroup_halted (t : Team) (g : Group) : (t.setGroup g).halted = t.halted := rfl
@[simp] theorem Team.setGroup_saving (t : Team) (g : Group) : (t.setGroup g).saving = t.saving := rfl
@[simp] theorem Team.setGroup_overflow (t : Team) (g : Group) : (t.setGroup g).overflow = t.overflow := rfl
@[simp] theorem Team.setGroup_readyAt (t : Team) (g : Group) : (t.setGroup g).readyAt = t.readyAt := rfl
@[simp] theorem Team.setGroup_placedAt (t : Team) (g : Group) : (t.setGroup g).placedAt = t.placedAt := rfl
@[simp] theorem Team.setGroup_depth (t : Team) (g : Group) : (t.setGroup g).depth = t.depth := rfl
@[simp] theorem Team.setGroup_relieves (t : Team) (g : Group) : (t.setGroup g).relieves = t.relieves := rfl
@[simp] theorem Team.setGroup_byRelief (t : Team) (g : Group) : (t.setGroup g).byRelief = t.byRelief := rfl
@[simp] theorem Team.setGroup_relievedBy (t : Team) (g : Group) : (t.setGroup g).relievedBy = t.relievedBy := rfl
@[simp] theorem Team.setGroup_reliever (t : Team) (g : Group) : (t.setGroup g).reliever = t.reliever := rfl
@[simp] theorem Team.setGroup_eff (t : Team) (g : Group) : (t.setGroup g).eff = t.eff := rfl
@[simp] theorem Team.setGroup_after (t : Team) (g : Group) : (t.setGroup g).after = t.after := rfl
@[simp] theorem Team.setGroup_gated (t : Team) (g : Group) : (t.setGroup g).gated = t.gated := rfl
@[simp] theorem Team.setGroup_begun (t : Team) (g : Group) : (t.setGroup g).begun = t.begun := rfl
@[simp] theorem Team.setGroup_engTraps (t : Team) (g : Group) : (t.setGroup g).engTraps = t.engTraps := rfl
@[simp] theorem Team.setGroup_eventAt (t : Team) (g : Group) : (t.setGroup g).eventAt = t.eventAt := rfl
@[simp] theorem Team.setGroup_prologueFault (t : Team) (g : Group) : (t.setGroup g).prologueFault = t.prologueFault := rfl

/-! ### Team.setBar -/

@[simp] theorem Team.setBar_id (t : Team) (k : Nat) (w : DWord) : (t.setBar k w).id = t.id := rfl
@[simp] theorem Team.setBar_launch (t : Team) (k : Nat) (w : DWord) : (t.setBar k w).launch = t.launch := rfl
@[simp] theorem Team.setBar_ctx (t : Team) (k : Nat) (w : DWord) : (t.setBar k w).ctx = t.ctx := rfl
@[simp] theorem Team.setBar_cls (t : Team) (k : Nat) (w : DWord) : (t.setBar k w).cls = t.cls := rfl
@[simp] theorem Team.setBar_lid (t : Team) (k : Nat) (w : DWord) : (t.setBar k w).lid = t.lid := rfl
@[simp] theorem Team.setBar_det (t : Team) (k : Nat) (w : DWord) : (t.setBar k w).det = t.det := rfl
@[simp] theorem Team.setBar_node (t : Team) (k : Nat) (w : DWord) : (t.setBar k w).node = t.node := rfl
@[simp] theorem Team.setBar_batch (t : Team) (k : Nat) (w : DWord) : (t.setBar k w).batch = t.batch := rfl
@[simp] theorem Team.setBar_batchSlots (t : Team) (k : Nat) (w : DWord) : (t.setBar k w).batchSlots = t.batchSlots := rfl
@[simp] theorem Team.setBar_die (t : Team) (k : Nat) (w : DWord) : (t.setBar k w).die = t.die := rfl
@[simp] theorem Team.setBar_core (t : Team) (k : Nat) (w : DWord) : (t.setBar k w).core = t.core := rfl
@[simp] theorem Team.setBar_slot (t : Team) (k : Nat) (w : DWord) : (t.setBar k w).slot = t.slot := rfl
@[simp] theorem Team.setBar_base (t : Team) (k : Nat) (w : DWord) : (t.setBar k w).base = t.base := rfl
@[simp] theorem Team.setBar_unit (t : Team) (k : Nat) (w : DWord) : (t.setBar k w).unit = t.unit := rfl
@[simp] theorem Team.setBar_reg (t : Team) (k : Nat) (w : DWord) : (t.setBar k w).reg = t.reg := rfl
@[simp] theorem Team.setBar_scr (t : Team) (k : Nat) (w : DWord) : (t.setBar k w).scr = t.scr := rfl
@[simp] theorem Team.setBar_acc (t : Team) (k : Nat) (w : DWord) : (t.setBar k w).acc = t.acc := rfl
@[simp] theorem Team.setBar_index (t : Team) (k : Nat) (w : DWord) : (t.setBar k w).index = t.index := rfl
@[simp] theorem Team.setBar_x (t : Team) (k : Nat) (w : DWord) : (t.setBar k w).x = t.x := rfl
@[simp] theorem Team.setBar_y (t : Team) (k : Nat) (w : DWord) : (t.setBar k w).y = t.y := rfl
@[simp] theorem Team.setBar_z (t : Team) (k : Nat) (w : DWord) : (t.setBar k w).z = t.z := rfl
@[simp] theorem Team.setBar_cluster (t : Team) (k : Nat) (w : DWord) : (t.setBar k w).cluster = t.cluster := rfl
@[simp] theorem Team.setBar_cx (t : Team) (k : Nat) (w : DWord) : (t.setBar k w).cx = t.cx := rfl
@[simp] theorem Team.setBar_cy (t : Team) (k : Nat) (w : DWord) : (t.setBar k w).cy = t.cy := rfl
@[simp] theorem Team.setBar_cw (t : Team) (k : Nat) (w : DWord) : (t.setBar k w).cw = t.cw := rfl
@[simp] theorem Team.setBar_ch (t : Team) (k : Nat) (w : DWord) : (t.setBar k w).ch = t.ch := rfl
@[simp] theorem Team.setBar_code (t : Team) (k : Nat) (w : DWord) : (t.setBar k w).code = t.code := rfl
@[simp] theorem Team.setBar_live (t : Team) (k : Nat) (w : DWord) : (t.setBar k w).live = t.live := rfl
@[simp] theorem Team.setBar_mstream (t : Team) (k : Nat) (w : DWord) : (t.setBar k w).mstream = t.mstream := rfl
@[simp] theorem Team.setBar_rows (t : Team) (k : Nat) (w : DWord) : (t.setBar k w).rows = t.rows := rfl
@[simp] theorem Team.setBar_ngroups (t : Team) (k : Nat) (w : DWord) : (t.setBar k w).ngroups = t.ngroups := rfl
@[simp] theorem Team.setBar_windows (t : Team) (k : Nat) (w : DWord) : (t.setBar k w).windows = t.windows := rfl
@[simp] theorem Team.setBar_xfCount (t : Team) (k : Nat) (w : DWord) : (t.setBar k w).xfCount = t.xfCount := rfl
@[simp] theorem Team.setBar_xfAddr (t : Team) (k : Nat) (w : DWord) : (t.setBar k w).xfAddr = t.xfAddr := rfl
@[simp] theorem Team.setBar_groups (t : Team) (k : Nat) (w : DWord) : (t.setBar k w).groups = t.groups := rfl
@[simp] theorem Team.setBar_stream (t : Team) (k : Nat) (w : DWord) : (t.setBar k w).stream = t.stream := rfl
@[simp] theorem Team.setBar_scratch (t : Team) (k : Nat) (w : DWord) : (t.setBar k w).scratch = t.scratch := rfl
@[simp] theorem Team.setBar_absent (t : Team) (k : Nat) (w : DWord) : (t.setBar k w).absent = t.absent := rfl
@[simp] theorem Team.setBar_engPhases (t : Team) (k : Nat) (w : DWord) : (t.setBar k w).engPhases = t.engPhases := rfl
@[simp] theorem Team.setBar_cmds (t : Team) (k : Nat) (w : DWord) : (t.setBar k w).cmds = t.cmds := rfl
@[simp] theorem Team.setBar_q1 (t : Team) (k : Nat) (w : DWord) : (t.setBar k w).q1 = t.q1 := rfl
@[simp] theorem Team.setBar_q4 (t : Team) (k : Nat) (w : DWord) : (t.setBar k w).q4 = t.q4 := rfl
@[simp] theorem Team.setBar_q6 (t : Team) (k : Nat) (w : DWord) : (t.setBar k w).q6 = t.q6 := rfl
@[simp] theorem Team.setBar_q7 (t : Team) (k : Nat) (w : DWord) : (t.setBar k w).q7 = t.q7 := rfl
@[simp] theorem Team.setBar_tiles (t : Team) (k : Nat) (w : DWord) : (t.setBar k w).tiles = t.tiles := rfl
@[simp] theorem Team.setBar_cov (t : Team) (k : Nat) (w : DWord) : (t.setBar k w).cov = t.cov := rfl
@[simp] theorem Team.setBar_place (t : Team) (k : Nat) (w : DWord) : (t.setBar k w).place = t.place := rfl
@[simp] theorem Team.setBar_halted (t : Team) (k : Nat) (w : DWord) : (t.setBar k w).halted = t.halted := rfl
@[simp] theorem Team.setBar_saving (t : Team) (k : Nat) (w : DWord) : (t.setBar k w).saving = t.saving := rfl
@[simp] theorem Team.setBar_overflow (t : Team) (k : Nat) (w : DWord) : (t.setBar k w).overflow = t.overflow := rfl
@[simp] theorem Team.setBar_readyAt (t : Team) (k : Nat) (w : DWord) : (t.setBar k w).readyAt = t.readyAt := rfl
@[simp] theorem Team.setBar_placedAt (t : Team) (k : Nat) (w : DWord) : (t.setBar k w).placedAt = t.placedAt := rfl
@[simp] theorem Team.setBar_depth (t : Team) (k : Nat) (w : DWord) : (t.setBar k w).depth = t.depth := rfl
@[simp] theorem Team.setBar_relieves (t : Team) (k : Nat) (w : DWord) : (t.setBar k w).relieves = t.relieves := rfl
@[simp] theorem Team.setBar_byRelief (t : Team) (k : Nat) (w : DWord) : (t.setBar k w).byRelief = t.byRelief := rfl
@[simp] theorem Team.setBar_relievedBy (t : Team) (k : Nat) (w : DWord) : (t.setBar k w).relievedBy = t.relievedBy := rfl
@[simp] theorem Team.setBar_reliever (t : Team) (k : Nat) (w : DWord) : (t.setBar k w).reliever = t.reliever := rfl
@[simp] theorem Team.setBar_eff (t : Team) (k : Nat) (w : DWord) : (t.setBar k w).eff = t.eff := rfl
@[simp] theorem Team.setBar_after (t : Team) (k : Nat) (w : DWord) : (t.setBar k w).after = t.after := rfl
@[simp] theorem Team.setBar_gated (t : Team) (k : Nat) (w : DWord) : (t.setBar k w).gated = t.gated := rfl
@[simp] theorem Team.setBar_begun (t : Team) (k : Nat) (w : DWord) : (t.setBar k w).begun = t.begun := rfl
@[simp] theorem Team.setBar_engTraps (t : Team) (k : Nat) (w : DWord) : (t.setBar k w).engTraps = t.engTraps := rfl
@[simp] theorem Team.setBar_eventAt (t : Team) (k : Nat) (w : DWord) : (t.setBar k w).eventAt = t.eventAt := rfl
@[simp] theorem Team.setBar_prologueFault (t : Team) (k : Nat) (w : DWord) : (t.setBar k w).prologueFault = t.prologueFault := rfl

/-! ### Team.spadWrite -/

@[simp] theorem Team.spadWrite_id (t : Team) (a : Nat) (l : List Byte) : (t.spadWrite a l).id = t.id := rfl
@[simp] theorem Team.spadWrite_launch (t : Team) (a : Nat) (l : List Byte) : (t.spadWrite a l).launch = t.launch := rfl
@[simp] theorem Team.spadWrite_ctx (t : Team) (a : Nat) (l : List Byte) : (t.spadWrite a l).ctx = t.ctx := rfl
@[simp] theorem Team.spadWrite_cls (t : Team) (a : Nat) (l : List Byte) : (t.spadWrite a l).cls = t.cls := rfl
@[simp] theorem Team.spadWrite_lid (t : Team) (a : Nat) (l : List Byte) : (t.spadWrite a l).lid = t.lid := rfl
@[simp] theorem Team.spadWrite_det (t : Team) (a : Nat) (l : List Byte) : (t.spadWrite a l).det = t.det := rfl
@[simp] theorem Team.spadWrite_node (t : Team) (a : Nat) (l : List Byte) : (t.spadWrite a l).node = t.node := rfl
@[simp] theorem Team.spadWrite_batch (t : Team) (a : Nat) (l : List Byte) : (t.spadWrite a l).batch = t.batch := rfl
@[simp] theorem Team.spadWrite_batchSlots (t : Team) (a : Nat) (l : List Byte) : (t.spadWrite a l).batchSlots = t.batchSlots := rfl
@[simp] theorem Team.spadWrite_die (t : Team) (a : Nat) (l : List Byte) : (t.spadWrite a l).die = t.die := rfl
@[simp] theorem Team.spadWrite_core (t : Team) (a : Nat) (l : List Byte) : (t.spadWrite a l).core = t.core := rfl
@[simp] theorem Team.spadWrite_slot (t : Team) (a : Nat) (l : List Byte) : (t.spadWrite a l).slot = t.slot := rfl
@[simp] theorem Team.spadWrite_base (t : Team) (a : Nat) (l : List Byte) : (t.spadWrite a l).base = t.base := rfl
@[simp] theorem Team.spadWrite_unit (t : Team) (a : Nat) (l : List Byte) : (t.spadWrite a l).unit = t.unit := rfl
@[simp] theorem Team.spadWrite_reg (t : Team) (a : Nat) (l : List Byte) : (t.spadWrite a l).reg = t.reg := rfl
@[simp] theorem Team.spadWrite_scr (t : Team) (a : Nat) (l : List Byte) : (t.spadWrite a l).scr = t.scr := rfl
@[simp] theorem Team.spadWrite_acc (t : Team) (a : Nat) (l : List Byte) : (t.spadWrite a l).acc = t.acc := rfl
@[simp] theorem Team.spadWrite_index (t : Team) (a : Nat) (l : List Byte) : (t.spadWrite a l).index = t.index := rfl
@[simp] theorem Team.spadWrite_x (t : Team) (a : Nat) (l : List Byte) : (t.spadWrite a l).x = t.x := rfl
@[simp] theorem Team.spadWrite_y (t : Team) (a : Nat) (l : List Byte) : (t.spadWrite a l).y = t.y := rfl
@[simp] theorem Team.spadWrite_z (t : Team) (a : Nat) (l : List Byte) : (t.spadWrite a l).z = t.z := rfl
@[simp] theorem Team.spadWrite_cluster (t : Team) (a : Nat) (l : List Byte) : (t.spadWrite a l).cluster = t.cluster := rfl
@[simp] theorem Team.spadWrite_cx (t : Team) (a : Nat) (l : List Byte) : (t.spadWrite a l).cx = t.cx := rfl
@[simp] theorem Team.spadWrite_cy (t : Team) (a : Nat) (l : List Byte) : (t.spadWrite a l).cy = t.cy := rfl
@[simp] theorem Team.spadWrite_cw (t : Team) (a : Nat) (l : List Byte) : (t.spadWrite a l).cw = t.cw := rfl
@[simp] theorem Team.spadWrite_ch (t : Team) (a : Nat) (l : List Byte) : (t.spadWrite a l).ch = t.ch := rfl
@[simp] theorem Team.spadWrite_code (t : Team) (a : Nat) (l : List Byte) : (t.spadWrite a l).code = t.code := rfl
@[simp] theorem Team.spadWrite_live (t : Team) (a : Nat) (l : List Byte) : (t.spadWrite a l).live = t.live := rfl
@[simp] theorem Team.spadWrite_mstream (t : Team) (a : Nat) (l : List Byte) : (t.spadWrite a l).mstream = t.mstream := rfl
@[simp] theorem Team.spadWrite_rows (t : Team) (a : Nat) (l : List Byte) : (t.spadWrite a l).rows = t.rows := rfl
@[simp] theorem Team.spadWrite_ngroups (t : Team) (a : Nat) (l : List Byte) : (t.spadWrite a l).ngroups = t.ngroups := rfl
@[simp] theorem Team.spadWrite_windows (t : Team) (a : Nat) (l : List Byte) : (t.spadWrite a l).windows = t.windows := rfl
@[simp] theorem Team.spadWrite_xfCount (t : Team) (a : Nat) (l : List Byte) : (t.spadWrite a l).xfCount = t.xfCount := rfl
@[simp] theorem Team.spadWrite_xfAddr (t : Team) (a : Nat) (l : List Byte) : (t.spadWrite a l).xfAddr = t.xfAddr := rfl
@[simp] theorem Team.spadWrite_groups (t : Team) (a : Nat) (l : List Byte) : (t.spadWrite a l).groups = t.groups := rfl
@[simp] theorem Team.spadWrite_stream (t : Team) (a : Nat) (l : List Byte) : (t.spadWrite a l).stream = t.stream := rfl
@[simp] theorem Team.spadWrite_absent (t : Team) (a : Nat) (l : List Byte) : (t.spadWrite a l).absent = t.absent := rfl
@[simp] theorem Team.spadWrite_bars (t : Team) (a : Nat) (l : List Byte) : (t.spadWrite a l).bars = t.bars := rfl
@[simp] theorem Team.spadWrite_engPhases (t : Team) (a : Nat) (l : List Byte) : (t.spadWrite a l).engPhases = t.engPhases := rfl
@[simp] theorem Team.spadWrite_cmds (t : Team) (a : Nat) (l : List Byte) : (t.spadWrite a l).cmds = t.cmds := rfl
@[simp] theorem Team.spadWrite_q1 (t : Team) (a : Nat) (l : List Byte) : (t.spadWrite a l).q1 = t.q1 := rfl
@[simp] theorem Team.spadWrite_q4 (t : Team) (a : Nat) (l : List Byte) : (t.spadWrite a l).q4 = t.q4 := rfl
@[simp] theorem Team.spadWrite_q6 (t : Team) (a : Nat) (l : List Byte) : (t.spadWrite a l).q6 = t.q6 := rfl
@[simp] theorem Team.spadWrite_q7 (t : Team) (a : Nat) (l : List Byte) : (t.spadWrite a l).q7 = t.q7 := rfl
@[simp] theorem Team.spadWrite_tiles (t : Team) (a : Nat) (l : List Byte) : (t.spadWrite a l).tiles = t.tiles := rfl
@[simp] theorem Team.spadWrite_cov (t : Team) (a : Nat) (l : List Byte) : (t.spadWrite a l).cov = t.cov := rfl
@[simp] theorem Team.spadWrite_place (t : Team) (a : Nat) (l : List Byte) : (t.spadWrite a l).place = t.place := rfl
@[simp] theorem Team.spadWrite_halted (t : Team) (a : Nat) (l : List Byte) : (t.spadWrite a l).halted = t.halted := rfl
@[simp] theorem Team.spadWrite_saving (t : Team) (a : Nat) (l : List Byte) : (t.spadWrite a l).saving = t.saving := rfl
@[simp] theorem Team.spadWrite_overflow (t : Team) (a : Nat) (l : List Byte) : (t.spadWrite a l).overflow = t.overflow := rfl
@[simp] theorem Team.spadWrite_readyAt (t : Team) (a : Nat) (l : List Byte) : (t.spadWrite a l).readyAt = t.readyAt := rfl
@[simp] theorem Team.spadWrite_placedAt (t : Team) (a : Nat) (l : List Byte) : (t.spadWrite a l).placedAt = t.placedAt := rfl
@[simp] theorem Team.spadWrite_depth (t : Team) (a : Nat) (l : List Byte) : (t.spadWrite a l).depth = t.depth := rfl
@[simp] theorem Team.spadWrite_relieves (t : Team) (a : Nat) (l : List Byte) : (t.spadWrite a l).relieves = t.relieves := rfl
@[simp] theorem Team.spadWrite_byRelief (t : Team) (a : Nat) (l : List Byte) : (t.spadWrite a l).byRelief = t.byRelief := rfl
@[simp] theorem Team.spadWrite_relievedBy (t : Team) (a : Nat) (l : List Byte) : (t.spadWrite a l).relievedBy = t.relievedBy := rfl
@[simp] theorem Team.spadWrite_reliever (t : Team) (a : Nat) (l : List Byte) : (t.spadWrite a l).reliever = t.reliever := rfl
@[simp] theorem Team.spadWrite_eff (t : Team) (a : Nat) (l : List Byte) : (t.spadWrite a l).eff = t.eff := rfl
@[simp] theorem Team.spadWrite_after (t : Team) (a : Nat) (l : List Byte) : (t.spadWrite a l).after = t.after := rfl
@[simp] theorem Team.spadWrite_gated (t : Team) (a : Nat) (l : List Byte) : (t.spadWrite a l).gated = t.gated := rfl
@[simp] theorem Team.spadWrite_begun (t : Team) (a : Nat) (l : List Byte) : (t.spadWrite a l).begun = t.begun := rfl
@[simp] theorem Team.spadWrite_engTraps (t : Team) (a : Nat) (l : List Byte) : (t.spadWrite a l).engTraps = t.engTraps := rfl
@[simp] theorem Team.spadWrite_eventAt (t : Team) (a : Nat) (l : List Byte) : (t.spadWrite a l).eventAt = t.eventAt := rfl
@[simp] theorem Team.spadWrite_prologueFault (t : Team) (a : Nat) (l : List Byte) : (t.spadWrite a l).prologueFault = t.prologueFault := rfl

/-! ### Group.setReg -/

@[simp] theorem Group.setReg_num (g : Group) (r : Nat) (v : VReg) : (g.setReg r v).num = g.num := rfl
@[simp] theorem Group.setReg_rows (g : Group) (r : Nat) (v : VReg) : (g.setReg r v).rows = g.rows := rfl
@[simp] theorem Group.setReg_preds (g : Group) (r : Nat) (v : VReg) : (g.setReg r v).preds = g.preds := rfl
@[simp] theorem Group.setReg_frontier (g : Group) (r : Nat) (v : VReg) : (g.setReg r v).frontier = g.frontier := rfl
@[simp] theorem Group.setReg_links (g : Group) (r : Nat) (v : VReg) : (g.setReg r v).links = g.links := rfl
@[simp] theorem Group.setReg_fpflags (g : Group) (r : Nat) (v : VReg) : (g.setReg r v).fpflags = g.fpflags := rfl
@[simp] theorem Group.setReg_paramoob (g : Group) (r : Nat) (v : VReg) : (g.setReg r v).paramoob = g.paramoob := rfl
@[simp] theorem Group.setReg_seed (g : Group) (r : Nat) (v : VReg) : (g.setReg r v).seed = g.seed := rfl
@[simp] theorem Group.setReg_lpart (g : Group) (r : Nat) (v : VReg) : (g.setReg r v).lpart = g.lpart := rfl
@[simp] theorem Group.setReg_slot (g : Group) (r : Nat) (v : VReg) : (g.setReg r v).slot = g.slot := rfl
@[simp] theorem Group.setReg_pending (g : Group) (r : Nat) (v : VReg) : (g.setReg r v).pending = g.pending := rfl
@[simp] theorem Group.setReg_fifo (g : Group) (r : Nat) (v : VReg) : (g.setReg r v).fifo = g.fifo := rfl
@[simp] theorem Group.setReg_park (g : Group) (r : Nat) (v : VReg) : (g.setReg r v).park = g.park := rfl
@[simp] theorem Group.setReg_parkedSince (g : Group) (r : Nat) (v : VReg) : (g.setReg r v).parkedSince = g.parkedSince := rfl
@[simp] theorem Group.setReg_due (g : Group) (r : Nat) (v : VReg) : (g.setReg r v).due = g.due := rfl
@[simp] theorem Group.setReg_owed (g : Group) (r : Nat) (v : VReg) : (g.setReg r v).owed = g.owed := rfl
@[simp] theorem Group.setReg_fences (g : Group) (r : Nat) (v : VReg) : (g.setReg r v).fences = g.fences := rfl
@[simp] theorem Group.setReg_publSeen (g : Group) (r : Nat) (v : VReg) : (g.setReg r v).publSeen = g.publSeen := rfl
@[simp] theorem Group.setReg_fbRead (g : Group) (r : Nat) (v : VReg) : (g.setReg r v).fbRead = g.fbRead := rfl
@[simp] theorem Group.setReg_deny (g : Group) (r : Nat) (v : VReg) : (g.setReg r v).deny = g.deny := rfl
@[simp] theorem Group.setReg_hvaDenied (g : Group) (r : Nat) (v : VReg) : (g.setReg r v).hvaDenied = g.hvaDenied := rfl
@[simp] theorem Group.setReg_liveSaved (g : Group) (r : Nat) (v : VReg) : (g.setReg r v).liveSaved = g.liveSaved := rfl

/-! ### Group.writeReg -/

@[simp] theorem Group.writeReg_num (g : Group) (m : Mask) (w : RegWrite) : (g.writeReg m w).num = g.num := rfl
@[simp] theorem Group.writeReg_rows (g : Group) (m : Mask) (w : RegWrite) : (g.writeReg m w).rows = g.rows := rfl
@[simp] theorem Group.writeReg_preds (g : Group) (m : Mask) (w : RegWrite) : (g.writeReg m w).preds = g.preds := rfl
@[simp] theorem Group.writeReg_frontier (g : Group) (m : Mask) (w : RegWrite) : (g.writeReg m w).frontier = g.frontier := rfl
@[simp] theorem Group.writeReg_links (g : Group) (m : Mask) (w : RegWrite) : (g.writeReg m w).links = g.links := rfl
@[simp] theorem Group.writeReg_fpflags (g : Group) (m : Mask) (w : RegWrite) : (g.writeReg m w).fpflags = g.fpflags := rfl
@[simp] theorem Group.writeReg_paramoob (g : Group) (m : Mask) (w : RegWrite) : (g.writeReg m w).paramoob = g.paramoob := rfl
@[simp] theorem Group.writeReg_seed (g : Group) (m : Mask) (w : RegWrite) : (g.writeReg m w).seed = g.seed := rfl
@[simp] theorem Group.writeReg_lpart (g : Group) (m : Mask) (w : RegWrite) : (g.writeReg m w).lpart = g.lpart := rfl
@[simp] theorem Group.writeReg_slot (g : Group) (m : Mask) (w : RegWrite) : (g.writeReg m w).slot = g.slot := rfl
@[simp] theorem Group.writeReg_pending (g : Group) (m : Mask) (w : RegWrite) : (g.writeReg m w).pending = g.pending := rfl
@[simp] theorem Group.writeReg_fifo (g : Group) (m : Mask) (w : RegWrite) : (g.writeReg m w).fifo = g.fifo := rfl
@[simp] theorem Group.writeReg_park (g : Group) (m : Mask) (w : RegWrite) : (g.writeReg m w).park = g.park := rfl
@[simp] theorem Group.writeReg_parkedSince (g : Group) (m : Mask) (w : RegWrite) : (g.writeReg m w).parkedSince = g.parkedSince := rfl
@[simp] theorem Group.writeReg_due (g : Group) (m : Mask) (w : RegWrite) : (g.writeReg m w).due = g.due := rfl
@[simp] theorem Group.writeReg_owed (g : Group) (m : Mask) (w : RegWrite) : (g.writeReg m w).owed = g.owed := rfl
@[simp] theorem Group.writeReg_fences (g : Group) (m : Mask) (w : RegWrite) : (g.writeReg m w).fences = g.fences := rfl
@[simp] theorem Group.writeReg_publSeen (g : Group) (m : Mask) (w : RegWrite) : (g.writeReg m w).publSeen = g.publSeen := rfl
@[simp] theorem Group.writeReg_fbRead (g : Group) (m : Mask) (w : RegWrite) : (g.writeReg m w).fbRead = g.fbRead := rfl
@[simp] theorem Group.writeReg_deny (g : Group) (m : Mask) (w : RegWrite) : (g.writeReg m w).deny = g.deny := rfl
@[simp] theorem Group.writeReg_hvaDenied (g : Group) (m : Mask) (w : RegWrite) : (g.writeReg m w).hvaDenied = g.hvaDenied := rfl
@[simp] theorem Group.writeReg_liveSaved (g : Group) (m : Mask) (w : RegWrite) : (g.writeReg m w).liveSaved = g.liveSaved := rfl

/-! ### Group.setLinks -/

@[simp] theorem Group.setLinks_num (g : Group) (l : Nat) (x : List Link) : (g.setLinks l x).num = g.num := rfl
@[simp] theorem Group.setLinks_rows (g : Group) (l : Nat) (x : List Link) : (g.setLinks l x).rows = g.rows := rfl
@[simp] theorem Group.setLinks_regs (g : Group) (l : Nat) (x : List Link) : (g.setLinks l x).regs = g.regs := rfl
@[simp] theorem Group.setLinks_preds (g : Group) (l : Nat) (x : List Link) : (g.setLinks l x).preds = g.preds := rfl
@[simp] theorem Group.setLinks_frontier (g : Group) (l : Nat) (x : List Link) : (g.setLinks l x).frontier = g.frontier := rfl
@[simp] theorem Group.setLinks_fpflags (g : Group) (l : Nat) (x : List Link) : (g.setLinks l x).fpflags = g.fpflags := rfl
@[simp] theorem Group.setLinks_paramoob (g : Group) (l : Nat) (x : List Link) : (g.setLinks l x).paramoob = g.paramoob := rfl
@[simp] theorem Group.setLinks_seed (g : Group) (l : Nat) (x : List Link) : (g.setLinks l x).seed = g.seed := rfl
@[simp] theorem Group.setLinks_lpart (g : Group) (l : Nat) (x : List Link) : (g.setLinks l x).lpart = g.lpart := rfl
@[simp] theorem Group.setLinks_slot (g : Group) (l : Nat) (x : List Link) : (g.setLinks l x).slot = g.slot := rfl
@[simp] theorem Group.setLinks_pending (g : Group) (l : Nat) (x : List Link) : (g.setLinks l x).pending = g.pending := rfl
@[simp] theorem Group.setLinks_fifo (g : Group) (l : Nat) (x : List Link) : (g.setLinks l x).fifo = g.fifo := rfl
@[simp] theorem Group.setLinks_park (g : Group) (l : Nat) (x : List Link) : (g.setLinks l x).park = g.park := rfl
@[simp] theorem Group.setLinks_parkedSince (g : Group) (l : Nat) (x : List Link) : (g.setLinks l x).parkedSince = g.parkedSince := rfl
@[simp] theorem Group.setLinks_due (g : Group) (l : Nat) (x : List Link) : (g.setLinks l x).due = g.due := rfl
@[simp] theorem Group.setLinks_owed (g : Group) (l : Nat) (x : List Link) : (g.setLinks l x).owed = g.owed := rfl
@[simp] theorem Group.setLinks_fences (g : Group) (l : Nat) (x : List Link) : (g.setLinks l x).fences = g.fences := rfl
@[simp] theorem Group.setLinks_publSeen (g : Group) (l : Nat) (x : List Link) : (g.setLinks l x).publSeen = g.publSeen := rfl
@[simp] theorem Group.setLinks_fbRead (g : Group) (l : Nat) (x : List Link) : (g.setLinks l x).fbRead = g.fbRead := rfl
@[simp] theorem Group.setLinks_deny (g : Group) (l : Nat) (x : List Link) : (g.setLinks l x).deny = g.deny := rfl
@[simp] theorem Group.setLinks_hvaDenied (g : Group) (l : Nat) (x : List Link) : (g.setLinks l x).hvaDenied = g.hvaDenied := rfl
@[simp] theorem Group.setLinks_liveSaved (g : Group) (l : Nat) (x : List Link) : (g.setLinks l x).liveSaved = g.liveSaved := rfl

/-! ### Group.tickWindows -/

@[simp] theorem Group.tickWindows_num (g : Group) (m : Mask) : (g.tickWindows m).num = g.num := rfl
@[simp] theorem Group.tickWindows_rows (g : Group) (m : Mask) : (g.tickWindows m).rows = g.rows := rfl
@[simp] theorem Group.tickWindows_regs (g : Group) (m : Mask) : (g.tickWindows m).regs = g.regs := rfl
@[simp] theorem Group.tickWindows_preds (g : Group) (m : Mask) : (g.tickWindows m).preds = g.preds := rfl
@[simp] theorem Group.tickWindows_frontier (g : Group) (m : Mask) : (g.tickWindows m).frontier = g.frontier := rfl
@[simp] theorem Group.tickWindows_links (g : Group) (m : Mask) : (g.tickWindows m).links = g.links := rfl
@[simp] theorem Group.tickWindows_fpflags (g : Group) (m : Mask) : (g.tickWindows m).fpflags = g.fpflags := rfl
@[simp] theorem Group.tickWindows_paramoob (g : Group) (m : Mask) : (g.tickWindows m).paramoob = g.paramoob := rfl
@[simp] theorem Group.tickWindows_seed (g : Group) (m : Mask) : (g.tickWindows m).seed = g.seed := rfl
@[simp] theorem Group.tickWindows_lpart (g : Group) (m : Mask) : (g.tickWindows m).lpart = g.lpart := rfl
@[simp] theorem Group.tickWindows_slot (g : Group) (m : Mask) : (g.tickWindows m).slot = g.slot := rfl
@[simp] theorem Group.tickWindows_fifo (g : Group) (m : Mask) : (g.tickWindows m).fifo = g.fifo := rfl
@[simp] theorem Group.tickWindows_park (g : Group) (m : Mask) : (g.tickWindows m).park = g.park := rfl
@[simp] theorem Group.tickWindows_parkedSince (g : Group) (m : Mask) : (g.tickWindows m).parkedSince = g.parkedSince := rfl
@[simp] theorem Group.tickWindows_due (g : Group) (m : Mask) : (g.tickWindows m).due = g.due := rfl
@[simp] theorem Group.tickWindows_owed (g : Group) (m : Mask) : (g.tickWindows m).owed = g.owed := rfl
@[simp] theorem Group.tickWindows_fences (g : Group) (m : Mask) : (g.tickWindows m).fences = g.fences := rfl
@[simp] theorem Group.tickWindows_publSeen (g : Group) (m : Mask) : (g.tickWindows m).publSeen = g.publSeen := rfl
@[simp] theorem Group.tickWindows_fbRead (g : Group) (m : Mask) : (g.tickWindows m).fbRead = g.fbRead := rfl
@[simp] theorem Group.tickWindows_deny (g : Group) (m : Mask) : (g.tickWindows m).deny = g.deny := rfl
@[simp] theorem Group.tickWindows_hvaDenied (g : Group) (m : Mask) : (g.tickWindows m).hvaDenied = g.hvaDenied := rfl
@[simp] theorem Group.tickWindows_liveSaved (g : Group) (m : Mask) : (g.tickWindows m).liveSaved = g.liveSaved := rfl

/-! ### Group.advance -/

@[simp] theorem Group.advance_num (g : Group) (c : Cur) : (g.advance c).num = g.num := rfl
@[simp] theorem Group.advance_rows (g : Group) (c : Cur) : (g.advance c).rows = g.rows := rfl
@[simp] theorem Group.advance_regs (g : Group) (c : Cur) : (g.advance c).regs = g.regs := rfl
@[simp] theorem Group.advance_preds (g : Group) (c : Cur) : (g.advance c).preds = g.preds := rfl
@[simp] theorem Group.advance_links (g : Group) (c : Cur) : (g.advance c).links = g.links := rfl
@[simp] theorem Group.advance_fpflags (g : Group) (c : Cur) : (g.advance c).fpflags = g.fpflags := rfl
@[simp] theorem Group.advance_paramoob (g : Group) (c : Cur) : (g.advance c).paramoob = g.paramoob := rfl
@[simp] theorem Group.advance_seed (g : Group) (c : Cur) : (g.advance c).seed = g.seed := rfl
@[simp] theorem Group.advance_lpart (g : Group) (c : Cur) : (g.advance c).lpart = g.lpart := rfl
@[simp] theorem Group.advance_slot (g : Group) (c : Cur) : (g.advance c).slot = g.slot := rfl
@[simp] theorem Group.advance_fifo (g : Group) (c : Cur) : (g.advance c).fifo = g.fifo := rfl
@[simp] theorem Group.advance_parkedSince (g : Group) (c : Cur) : (g.advance c).parkedSince = g.parkedSince := rfl
@[simp] theorem Group.advance_owed (g : Group) (c : Cur) : (g.advance c).owed = g.owed := rfl
@[simp] theorem Group.advance_fences (g : Group) (c : Cur) : (g.advance c).fences = g.fences := rfl
@[simp] theorem Group.advance_deny (g : Group) (c : Cur) : (g.advance c).deny = g.deny := rfl
@[simp] theorem Group.advance_hvaDenied (g : Group) (c : Cur) : (g.advance c).hvaDenied = g.hvaDenied := rfl
@[simp] theorem Group.advance_liveSaved (g : Group) (c : Cur) : (g.advance c).liveSaved = g.liveSaved := rfl

/-! ### Group.parkAs -/

@[simp] theorem Group.parkAs_num (g : Group) (n : Nat) (p : Park) : (g.parkAs n p).num = g.num := rfl
@[simp] theorem Group.parkAs_rows (g : Group) (n : Nat) (p : Park) : (g.parkAs n p).rows = g.rows := rfl
@[simp] theorem Group.parkAs_regs (g : Group) (n : Nat) (p : Park) : (g.parkAs n p).regs = g.regs := rfl
@[simp] theorem Group.parkAs_preds (g : Group) (n : Nat) (p : Park) : (g.parkAs n p).preds = g.preds := rfl
@[simp] theorem Group.parkAs_frontier (g : Group) (n : Nat) (p : Park) : (g.parkAs n p).frontier = g.frontier := rfl
@[simp] theorem Group.parkAs_links (g : Group) (n : Nat) (p : Park) : (g.parkAs n p).links = g.links := rfl
@[simp] theorem Group.parkAs_fpflags (g : Group) (n : Nat) (p : Park) : (g.parkAs n p).fpflags = g.fpflags := rfl
@[simp] theorem Group.parkAs_paramoob (g : Group) (n : Nat) (p : Park) : (g.parkAs n p).paramoob = g.paramoob := rfl
@[simp] theorem Group.parkAs_seed (g : Group) (n : Nat) (p : Park) : (g.parkAs n p).seed = g.seed := rfl
@[simp] theorem Group.parkAs_lpart (g : Group) (n : Nat) (p : Park) : (g.parkAs n p).lpart = g.lpart := rfl
@[simp] theorem Group.parkAs_slot (g : Group) (n : Nat) (p : Park) : (g.parkAs n p).slot = g.slot := rfl
@[simp] theorem Group.parkAs_pending (g : Group) (n : Nat) (p : Park) : (g.parkAs n p).pending = g.pending := rfl
@[simp] theorem Group.parkAs_fifo (g : Group) (n : Nat) (p : Park) : (g.parkAs n p).fifo = g.fifo := rfl
@[simp] theorem Group.parkAs_owed (g : Group) (n : Nat) (p : Park) : (g.parkAs n p).owed = g.owed := rfl
@[simp] theorem Group.parkAs_fences (g : Group) (n : Nat) (p : Park) : (g.parkAs n p).fences = g.fences := rfl
@[simp] theorem Group.parkAs_publSeen (g : Group) (n : Nat) (p : Park) : (g.parkAs n p).publSeen = g.publSeen := rfl
@[simp] theorem Group.parkAs_fbRead (g : Group) (n : Nat) (p : Park) : (g.parkAs n p).fbRead = g.fbRead := rfl
@[simp] theorem Group.parkAs_deny (g : Group) (n : Nat) (p : Park) : (g.parkAs n p).deny = g.deny := rfl
@[simp] theorem Group.parkAs_hvaDenied (g : Group) (n : Nat) (p : Park) : (g.parkAs n p).hvaDenied = g.hvaDenied := rfl
@[simp] theorem Group.parkAs_liveSaved (g : Group) (n : Nat) (p : Park) : (g.parkAs n p).liveSaved = g.liveSaved := rfl

end Sys2Proof.Machine
end

