-- ==== Sys2Proof/Laws/Lookup.lean ====
section
/-! SUPPORT. Looking up a team or a group after an update, and what a bundle under issue says of the state. -/

namespace Sys2Proof.Machine

/-! ### find? after a map that keeps keys -/

theorem find?_map_key {α : Type} {key : α → Nat} {f : α → α} (hf : ∀ x, key (f x) = key x) (k : Nat) (l : List α) :
    (l.map f).find? (fun x => key x == k) = (l.find? fun x => key x == k).map f := by
  rw [List.find?_map]
  congr 2
  funext x
  simp [hf]

/-- Changing the elements of one key changes what is found under it. -/
theorem find?_on_eq {α : Type} {key : α → Nat} {f : α → α} {k : Nat} (hf : ∀ x, key x = k → key (f x) = k) (l : List α) :
    (l.map fun x => if key x == k then f x else x).find? (fun x => key x == k) = (l.find? fun x => key x == k).map f := by
  rw [find?_map_key (key := key) (fun x => by by_cases h : key x = k <;> simp [h, hf])]
  cases h : l.find? fun x => key x == k with
  | none => rfl
  | some x =>
    have : key x = k := by simpa using List.find?_some h
    simp [this]

theorem find?_on_ne {α : Type} {key : α → Nat} {f : α → α} {k j : Nat} (hf : ∀ x, key x = k → key (f x) = k) (h : j ≠ k)
    (l : List α) :
    (l.map fun x => if key x == k then f x else x).find? (fun x => key x == j) = l.find? fun x => key x == j := by
  rw [find?_map_key (key := key) (fun x => by by_cases h : key x = k <;> simp [h, hf])]
  cases h' : l.find? fun x => key x == j with
  | none => rfl
  | some x =>
    have : key x = j := by simpa using List.find?_some h'
    simp [this, h]

/-! ### Teams -/

theorem State.team?_id {s : State} {tid : Nat} {t : Team} (h : s.team? tid = some t) : t.id = tid := by
  simpa using List.find?_some h

theorem State.team?_onTeam_eq {s : State} {tid : Nat} {f : Team → Team} (hf : ∀ u, (f u).id = u.id) :
    (s.onTeam tid f).team? tid = (s.team? tid).map f := find?_on_eq (key := Team.id) (fun u h => by rw [hf, h]) s.teams

theorem State.team?_onTeam_ne {s : State} {tid k : Nat} {f : Team → Team} (hf : ∀ u, (f u).id = u.id) (h : k ≠ tid) :
    (s.onTeam tid f).team? k = s.team? k := find?_on_ne (key := Team.id) (fun u h => by rw [hf, h]) h s.teams

theorem State.team?_setTeam_eq {s : State} {t u : Team} (h : s.team? t.id = some u) : (s.setTeam t).team? t.id = some t := by
  have := find?_on_eq (key := Team.id) (f := fun _ => t) (k := t.id) (fun _ _ => rfl) s.teams
  simp only [State.team?, State.setTeam] at h ⊢
  rw [this, h]; rfl

theorem State.team?_setTeam_ne {s : State} {t : Team} {tid : Nat} (h : tid ≠ t.id) :
    (s.setTeam t).team? tid = s.team? tid :=
  find?_on_ne (key := Team.id) (f := fun _ => t) (k := t.id) (fun _ _ => rfl) h s.teams

/-! ### Groups -/

theorem Team.group?_num {t : Team} {n : Nat} {g : Group} (h : t.group? n = some g) : g.num = n := by
  simpa using List.find?_some h

theorem Team.group?_setGroup_eq {t : Team} {g u : Group} (h : t.group? g.num = some u) :
    (t.setGroup g).group? g.num = some g := by
  have := find?_on_eq (key := Group.num) (f := fun _ => g) (k := g.num) (fun _ _ => rfl) t.groups
  simp only [Team.group?, Team.setGroup] at h ⊢
  rw [this, h]; rfl

theorem Team.group?_setGroup_ne {t : Team} {g : Group} {n : Nat} (h : n ≠ g.num) :
    (t.setGroup g).group? n = t.group? n :=
  find?_on_ne (key := Group.num) (f := fun _ => g) (k := g.num) (fun _ _ => rfl) h t.groups

theorem State.team?_onGroup_ne {s : State} {tid n k : Nat} {f : Group → Group} (h : k ≠ tid) :
    (s.onGroup tid n f).team? k = s.team? k := State.team?_onTeam_ne (fun _ => rfl) h

/-- A group changed in place is the one that is found. -/
theorem State.group?_onGroup_eq {s : State} {tid n : Nat} {f : Group → Group} (hf : ∀ g, (f g).num = g.num) :
    (s.onGroup tid n f).group? tid n = (s.group? tid n).map f := by
  have h : (s.onGroup tid n f).team? tid = (s.team? tid).map _ := State.team?_onTeam_eq (fun _ => rfl)
  simp only [State.group?, h]
  cases s.team? tid with
  | none => rfl
  | some t => exact find?_on_eq (key := Group.num) (fun u h => by rw [hf, h]) t.groups

/-- A group put back is the one that is found. -/
theorem State.group?_put {s : State} {t : Team} {g u : Group} (ht : s.team? t.id = some t) (hg : t.group? g.num = some u) :
    (s.put t g).group? t.id g.num = some g := by
  have h : (s.put t g).team? t.id = some (t.setGroup g) := by
    unfold State.put
    exact State.team?_setTeam_eq (t := t.setGroup g) (u := t) (by simpa using ht)
  simp only [State.group?, h]
  exact Team.group?_setGroup_eq hg

theorem State.team?_put {s : State} {t : Team} {g : Group} (ht : s.team? t.id = some t) :
    (s.put t g).team? t.id = some (t.setGroup g) := by
  unfold State.put
  exact State.team?_setTeam_eq (t := t.setGroup g) (u := t) (by simpa using ht)

theorem State.team?_put_ne {s : State} {t : Team} {g : Group} {tid : Nat} (h : tid ≠ t.id) :
    (s.put t g).team? tid = s.team? tid := State.team?_setTeam_ne (by simpa using h)

theorem State.group?_put_ne {s : State} {t : Team} {g : Group} {n : Nat} (ht : s.team? t.id = some t) (h : n ≠ g.num) :
    (s.put t g).group? t.id n = s.group? t.id n := by
  simp only [State.group?, State.team?_put ht, ht]
  exact Team.group?_setGroup_ne h

/-! ### The bundle under issue -/

/-- What a bundle under issue says: team and group are in the state and are those that `cur` names. -/
theorem State.bundle?_spec {s : State} {t : Team} {g : Group} (h : s.bundle? = some (t, g)) :
    s.cur.agent = .lane g.num ∧ s.cur.tid = t.id ∧ s.team? t.id = some t ∧ t.group? g.num = some g := by
  unfold State.bundle? at h
  split at h
  · next n hn =>
    split at h
    · next t' ht =>
      split at h
      · next g' hg =>
        simp only [Option.some.injEq, Prod.mk.injEq] at h
        obtain ⟨rfl, rfl⟩ := h
        have e1 := State.team?_id ht
        have e2 := Team.group?_num hg
        rw [e1, e2]
        exact ⟨hn, rfl, ht, hg⟩
      · simp at h
    · simp at h
  · simp at h

/-- The same of a stream at its word. -/
theorem State.word?_spec {s : State} {t : Team} {m : Stream} (h : s.word? = some (t, m)) :
    s.cur.agent = .stream ∧ s.cur.tid = t.id ∧ s.team? t.id = some t ∧ t.stream = some m := by
  unfold State.word? at h
  split at h
  · next hn =>
    split at h
    · next t' ht =>
      split at h
      · next m' hm =>
        simp only [Option.some.injEq, Prod.mk.injEq] at h
        obtain ⟨rfl, rfl⟩ := h
        have e1 := State.team?_id ht
        rw [e1]
        exact ⟨hn, rfl, ht, hm⟩
      · simp at h
    · simp at h
  · simp at h

theorem issueWith_next {gd : Guard} {f : State → Team → Group → Mask → State} {s : State} {t : Team} {g : Group}
    (h : s.bundle? = some (t, g)) : issueWith gd f s = .next (f s t g (g.active gd s.cur.lanes)) := by
  simp [issueWith, h]

theorem issueOp_next {gd : Guard} {f : Team → Group → Mask → Out} {s : State} {t : Team} {g : Group}
    (h : s.bundle? = some (t, g)) : issueOp gd f s = .next (s.commit t g [f t g (g.active gd s.cur.lanes)]) := by
  simp [issueOp, h]

/-- A commit that finds its rows writes the results and goes on. -/
theorem State.commit_ok {s : State} {t : Team} {g : Group} {os : List Out}
    (h : g.poolTraps (os.flatMap fun o => o.regs) = []) : s.commit t g os = s.put t ((os.foldl Group.apply g).advance s.cur) := by
  simp [State.commit, h, firstTrap]

/-- A commit that finds no row raises REGPOOL (R81). -/
theorem State.commit_pool {s : State} {t : Team} {g : Group} {os : List Out} {r : Nat}
    (h : g.poolFail ((os.flatMap fun o => o.regs).map fun w => (w.reg, w.shape)) = some r) :
    s.commit t g os = s.raise t g (regpoolTrap r) := by
  simp [State.commit, Group.poolTraps, h, firstTrap]

theorem issuePriv_handler {gd : Guard} {f : State → Team → Group → Mask → State} {s : State} {t : Team} {g : Group}
    (h : s.bundle? = some (t, g)) (hh : s.cur.handler = true) :
    issuePriv gd f s = .next (f s t g (g.active gd s.cur.lanes)) := by
  simp [issuePriv, issueWith, h, hh]

theorem issuePriv_denied {gd : Guard} {f : State → Team → Group → Mask → State} {s : State} {t : Team} {g : Group}
    (h : s.bundle? = some (t, g)) (hh : s.cur.handler = false) :
    issuePriv gd f s = .next (s.raise t g (permTrap 1)) := by
  simp [issuePriv, issueWith, h, hh]

end Sys2Proof.Machine
end

