-- ==== Sys2Proof/Laws/Registers.lean ====
section
/-! SUPPORT. Reading registers and predicates after writes (R78 to R82), and the values a result of each shape gives. -/

namespace Sys2Proof.Machine

theorem Group.reg_setReg (g : Group) (r q : Nat) (v : VReg) : (g.setReg r v).reg q = if q = r then v else g.reg q :=
  SMap.get_set g.regs r q v

theorem Group.reg_setReg_ne {g : Group} {r q : Nat} {v : VReg} (h : q ≠ r) : (g.setReg r v).reg q = g.reg q := by
  simp [Group.reg_setReg, h]

theorem Group.reg_writeReg (g : Group) (m : Mask) (w : RegWrite) (q : Nat) :
    (g.writeReg m w).reg q = if q = w.reg then (g.reg q).write m w else g.reg q := by
  unfold Group.writeReg
  rw [Group.reg_setReg]
  by_cases h : q = w.reg <;> simp [h]

@[simp] theorem Group.reg_setPred (g : Group) (p : Nat) (a v : Mask) (q : Nat) : (g.setPred p a v).reg q = g.reg q := by
  unfold Group.setPred; split <;> rfl

@[simp] theorem Group.pred_setReg (g : Group) (r : Nat) (v : VReg) (p : Nat) : (g.setReg r v).pred p = g.pred p := rfl
@[simp] theorem Group.pred_writeReg (g : Group) (m : Mask) (w : RegWrite) (p : Nat) : (g.writeReg m w).pred p = g.pred p := rfl

/-- A predicate after a write; `p7` stays true (R82). -/
theorem Group.pred_setPred (g : Group) (p q : Nat) (a v : Mask) :
    (g.setPred p a v).pred q = if q = p ∧ q ≠ 7 then (g.pred q &&& ~~~a) ||| (v &&& a) else g.pred q := by
  unfold Group.setPred
  by_cases h7 : p = 7
  · subst h7
    by_cases e : q = 7 <;> simp [e]
  · simp only [beq_iff_eq, h7, if_false]
    by_cases e : q = p
    · subst e
      simp [Group.pred, h7, SMap.get_set]
    · simp only [e, false_and, if_false]
      unfold Group.pred
      simp [SMap.get_set, e]

theorem Group.pred_seven (g : Group) : g.pred 7 = 0xFFFFFFFF#32 := by simp [Group.pred]

/-- Registers after several writes: those that no write names are as before. -/
theorem Group.reg_writes (ws : List RegWrite) (m : Mask) (g : Group) (q : Nat) (h : ∀ w ∈ ws, w.reg ≠ q) :
    (ws.foldl (fun g w => g.writeReg m w) g).reg q = g.reg q := by
  induction ws generalizing g with
  | nil => rfl
  | cons w r ih =>
    simp only [List.foldl_cons]
    rw [ih _ fun x hx => h x (by simp [hx]), Group.reg_writeReg, if_neg fun e => h w (by simp) e.symm]

theorem Group.pred_writes (ws : List RegWrite) (m : Mask) (g : Group) (p : Nat) :
    (ws.foldl (fun g w => g.writeReg m w) g).pred p = g.pred p := by
  induction ws generalizing g with
  | nil => rfl
  | cons w r ih => simp only [List.foldl_cons]; rw [ih]; rfl

theorem Group.pred_preds (ps : List (Nat × Mask)) (m : Mask) (g : Group) (q : Nat) (h : ∀ p ∈ ps, p.1 ≠ q) :
    (ps.foldl (fun g p => g.setPred p.1 m p.2) g).pred q = g.pred q := by
  induction ps generalizing g with
  | nil => rfl
  | cons p r ih =>
    simp only [List.foldl_cons]
    rw [ih _ fun x hx => h x (by simp [hx]), Group.pred_setPred, if_neg fun e => h p (by simp) e.1.symm]

theorem Group.reg_preds (ps : List (Nat × Mask)) (m : Mask) (g : Group) (q : Nat) :
    (ps.foldl (fun g p => g.setPred p.1 m p.2) g).reg q = g.reg q := by
  induction ps generalizing g with
  | nil => rfl
  | cons p r ih => simp only [List.foldl_cons]; rw [ih, Group.reg_setPred]

theorem Group.fields_writes (ws : List RegWrite) (m : Mask) (g : Group) :
    ws.foldl (fun g w => g.writeReg m w) g = { g with regs := (ws.foldl (fun g w => g.writeReg m w) g).regs } := by
  induction ws generalizing g with
  | nil => rfl
  | cons w r ih =>
    simp only [List.foldl_cons]
    rw [ih]
    rfl

theorem Group.fields_setPred (g : Group) (p : Nat) (m v : Mask) : g.setPred p m v = { g with preds := (g.setPred p m v).preds } := by
  unfold Group.setPred; split <;> rfl

theorem Group.fields_preds (ps : List (Nat × Mask)) (m : Mask) (g : Group) :
    ps.foldl (fun g p => g.setPred p.1 m p.2) g = { g with preds := (ps.foldl (fun g p => g.setPred p.1 m p.2) g).preds } := by
  induction ps generalizing g with
  | nil => rfl
  | cons p r ih =>
    simp only [List.foldl_cons]
    rw [ih, Group.fields_setPred]

/-- Only the flags are written after registers and predicates. -/
theorem Group.apply_def (g : Group) (o : Out) :
    ∃ h : Group, h = o.preds.foldl (fun g p => g.setPred p.1 o.active p.2) (o.regs.foldl (fun g w => g.writeReg o.active w) g)
      ∧ g.apply o = { h with fpflags := h.fpflags ||| o.flags } := ⟨_, rfl, rfl⟩

/-- What an operation's results leave alone. -/
theorem Group.reg_apply {g : Group} {o : Out} {q : Nat} (h : ∀ w ∈ o.regs, w.reg ≠ q) : (g.apply o).reg q = g.reg q := by
  obtain ⟨x, hx, e⟩ := g.apply_def o
  rw [e]
  show x.reg q = g.reg q
  rw [hx, Group.reg_preds, Group.reg_writes _ _ _ _ h]

theorem Group.pred_apply {g : Group} {o : Out} {q : Nat} (h : ∀ p ∈ o.preds, p.1 ≠ q) : (g.apply o).pred q = g.pred q := by
  obtain ⟨x, hx, e⟩ := g.apply_def o
  rw [e]
  show x.pred q = g.pred q
  rw [hx, Group.pred_preds _ _ _ _ h, Group.pred_writes]

/-- An operation changes registers, predicates and flags, and nothing else of its group. -/
theorem Group.apply_eq (g : Group) (o : Out) :
    g.apply o = { g with regs := (g.apply o).regs, preds := (g.apply o).preds, fpflags := g.fpflags ||| o.flags } := by
  obtain ⟨x, hx, e⟩ := g.apply_def o
  rw [Group.fields_preds, Group.fields_writes] at hx
  rw [e, hx]

/-- The flags after an operation (R87). -/
theorem Group.fpflags_apply (g : Group) (o : Out) : (g.apply o).fpflags = g.fpflags ||| o.flags := by
  rw [Group.apply_eq]

/-- An operation with one register result. -/
theorem Group.apply_one (g : Group) (m : Mask) (w : RegWrite) :
    g.apply { active := m, regs := [w] } = g.writeReg m w := by
  unfold Group.apply
  simp only [List.foldl_cons, List.foldl_nil]
  show { g.writeReg m w with fpflags := (g.writeReg m w).fpflags ||| 0 } = _
  have : (g.writeReg m w).fpflags ||| 0 = (g.writeReg m w).fpflags := by simp
  rw [this]

@[simp] theorem laneVals_getD (f : Nat → Word) {l : Nat} (h : l < 32) : (laneVals f).getD l 0 = f l := by
  simp [laneVals, laneList, h]

/-- The element of a general result. -/
theorem VReg.elem_write_general {old : VReg} {m : Mask} {r l : Nat} {f : Nat → Word} (h : l < 32) :
    (old.write m ⟨r, .general, laneVals f⟩).elem l = if m.has l then f l else old.elem l := by
  simp [VReg.write, VReg.elem, laneList, h, laneVals]

theorem mem_lanes {m : Mask} {l : Nat} : l ∈ m.lanes ↔ l < 32 ∧ m.has l = true := by
  simp [Mask.lanes, laneList, Mask.has]

theorem lowest_mem {m : Mask} {l : Nat} (h : m.lowest = some l) : l < 32 ∧ m.has l = true := by
  unfold Mask.lowest at h
  exact mem_lanes.1 (List.mem_of_head? h)

theorem lowest_none {m : Mask} (h : m.lowest = none) (l : Nat) (hl : l < 32) : m.has l = false := by
  unfold Mask.lowest at h
  rw [List.head?_eq_none_iff] at h
  by_contra c
  have : l ∈ m.lanes := mem_lanes.2 ⟨hl, by simpa using c⟩
  simp [h] at this

theorem lowest_of_has {m : Mask} {l : Nat} (hl : l < 32) (h : m.has l = true) : ∃ k, m.lowest = some k := by
  cases e : m.lowest with
  | some k => exact ⟨k, rfl⟩
  | none => simp [lowest_none e l hl] at h

end Sys2Proof.Machine
end

