-- ==== Sys2Proof/Laws/Ops.lean ====
section
/-! SUPPORT. One law per shared operation: what issuing, committing and taking a trap can do. -/

namespace Sys2Proof.Machine

/-- The lookups after a group has been put back, as one fact. -/
theorem OwnGroup.of_put {s : State} {t : Team} {g g' : Group} (h : s.bundle? = some (t, g)) (hn : g'.num = g.num) :
    OwnGroup s (s.put t g') t g g' := by
  obtain ⟨-, -, ht, hg⟩ := State.bundle?_spec h
  exact {
    state := rfl
    bytes := fun _ => rfl
    team := fun tid hne => State.team?_put_ne hne
    others := fun n hne => State.group?_put_ne ht (by rwa [hn])
    rest := State.team?_put ht
    group := by rw [← hn]; exact State.group?_put ht (by rw [hn]; exact hg) }

/-- A bundle that goes on. -/
theorem Group.advance_wentOn (g g0 : Group) (c : Cur) (h : g.frontier = g0.frontier) : g0.WentOn (g.advance c) c := by
  refine ⟨?_, rfl⟩
  show insertEntry (removeLanes g.frontier c.lanes) _ = _
  rw [h]

@[simp] theorem Group.reg_advance (g : Group) (c : Cur) (r : Nat) : (g.advance c).reg r = g.reg r := rfl
@[simp] theorem Group.pred_advance (g : Group) (c : Cur) (p : Nat) : (g.advance c).pred p = g.pred p := rfl
@[simp] theorem Group.elem_advance (g : Group) (c : Cur) (r l : Nat) : (g.advance c).elem r l = g.elem r l := rfl
@[simp] theorem Group.typed_advance (g : Group) (c : Cur) (ty : Ty) (r : VR) (l : Nat) :
    (g.advance c).typed ty r l = g.typed ty r l := rfl

/-- One law for a trap at issue (R259). -/
theorem State.raise_took {s s1 : State} {t : Team} {g : Group} {code : DWord} (tr : Trap) (h : CanTrap s t g code s1) :
    ∃ g', s.raise t g tr = s1.put t g' ∧ TookTrap s s1 (s1.put t g') t g g' tr code := by
  refine ⟨g.enterHandler { pc := s.cur.pc, lanes := s.cur.lanes, prio := s.cur.prio, handler := s.cur.handler, trap := tr
                           ilen := s.cur.len / 4 } tr code, ?_, ?_⟩
  · have hl : (!(g.pending.all Pending.isReady)) = false := by rw [h.landed]; rfl
    simp [State.raise, State.takeTrap, h.outside, h.free, hl, State.wrapRelief, h.depth, h.readable, h.record, h.waits]
  · exact {
      state := rfl
      slot := rfl
      frontier := rfl
      rest := rfl
      none := fun e => by
        have : g.landAll = g := by simp [Group.landAll, e]
        simp [Group.enterHandler, this] }

/-- A register operation whose results find no row raises REGPOOL (R81). -/
theorem issueOp_pool {gd : Guard} {f : Team → Group → Mask → Out} {s : State} {t : Team} {g : Group} {r : Nat}
    (h : s.bundle? = some (t, g))
    (hp : g.poolFail ((f t g (g.active gd s.cur.lanes)).regs.map fun w => (w.reg, w.shape)) = some r) :
    issueOp gd f s = .next (s.raise t g (regpoolTrap r)) := by
  rw [issueOp_next h, State.commit_pool (by simpa using hp)]

/-- A register operation whose results find their rows completes. -/
theorem issueOp_ok {gd : Guard} {f : Team → Group → Mask → Out} {s : State} {t : Team} {g : Group}
    (h : s.bundle? = some (t, g)) (hp : g.poolTraps (f t g (g.active gd s.cur.lanes)).regs = []) :
    issueOp gd f s = .next (s.put t ((g.apply (f t g (g.active gd s.cur.lanes))).advance s.cur)) := by
  rw [issueOp_next h, State.commit_ok (by simpa using hp)]
  rfl

/-- What a completed register operation leaves of its group. -/
theorem Group.apply_kept (g : Group) (o : Out) (c : Cur) (rs ps : List Nat) (fl : Bool) (hr : ∀ w ∈ o.regs, w.reg ∈ rs)
    (hp : ∀ p ∈ o.preds, p.1 ∈ ps) (hf : fl = false → o.flags = 0) : g.Kept ((g.apply o).advance c) rs ps fl where
  regs r h := by
    rw [Group.reg_advance]
    exact Group.reg_apply fun w hw e => h (e ▸ hr w hw)
  preds p h := by
    rw [Group.pred_advance]
    exact Group.pred_apply fun q hq e => h (e ▸ hp q hq)
  flags h := by
    show (g.apply o).fpflags = _
    rw [Group.fpflags_apply, hf h]; simp
  rest := by
    conv => lhs; rw [Group.apply_eq]
    rw [Group.apply_eq]
    rfl

theorem Group.num_apply_advance (g : Group) (o : Out) (c : Cur) : ((g.apply o).advance c).num = g.num := by
  rw [Group.apply_eq]; rfl

theorem Group.frontier_apply (g : Group) (o : Out) : (g.apply o).frontier = g.frontier := by
  rw [Group.apply_eq]

end Sys2Proof.Machine
end

