-- ==== Sys2Proof/Laws/Turns.lean ====
section
/-! SUPPORT. What a turn adds around the meaning that it runs, and what the package cap may lower (R75, R249, R342, R344). -/

namespace Sys2Proof.Machine

/-- The record of an issue is the core's alone (R75, R77, R344). -/
theorem State.noteIssue_spec (s : State) (t : Team) (g : Group) (is : List Instr) : ∃ c, s.noteIssue t g is = { s with cores := c } := by
  simp only [State.noteIssue]
  split
  · exact ⟨_, rfl⟩
  · exact ⟨s.cores, rfl⟩

@[simp] theorem State.noteIssue_mem (s : State) (t : Team) (g : Group) (is : List Instr) : (s.noteIssue t g is).mem = s.mem := by
  obtain ⟨c, h⟩ := s.noteIssue_spec t g is
  rw [h]

/-- Noting events marks teams and groups alone (R249). -/
theorem State.noteEvents_spec (s r : State) : ∃ ts, s.noteEvents r = { r with teams := ts } := by
  unfold State.noteEvents
  split
  · exact ⟨r.teams, rfl⟩
  · exact ⟨_, rfl⟩

@[simp] theorem State.noteEvents_mem (s r : State) : (s.noteEvents r).mem = r.mem := by
  obtain ⟨ts, h⟩ := s.noteEvents_spec r
  rw [h]

/-- A group that waits for accesses stays as it is, or parks where one of them is held (R342). -/
theorem State.stayFor_spec (s : State) (t : Team) (g : Group) (ids : List Nat) :
    s.stayFor t g ids = s ∨ s.heldAmong t g ids = true ∧ g.park = .none ∧ s.stayFor t g ids = s.block t g .access := by
  unfold State.stayFor State.parkHeld
  split
  · rename_i h
    split
    · rename_i hp
      exact .inr ⟨h, beq_iff_eq.mp hp, rfl⟩
    · exact .inl rfl
  · exact .inl rfl

/-- The cap is kept by lowering the core arrays together, and by nothing else (R344). -/
theorem State.holdCap_spec (s : State) : ∃ k, s.holdCap = s.lowerAll k := ⟨_, rfl⟩

theorem State.lowerAll_spec (s : State) (k : Nat) : ∃ ds, s.lowerAll k = { s with dies := ds } := ⟨_, rfl⟩

end Sys2Proof.Machine
end

