-- ==== Sys2Proof/Machine/SaveRecord.lean ====
section
/-! DEFINITION. The team save record that firmware reads for debugging (R93, R270, R316): the bytes of a saved team. A byte to which no
rule gives a value, or which the save does not write, is none. No step reads the record: a saved team is held whole in the state. -/

namespace Sys2Proof.Machine

/-- Bytes of a record. -/
abbrev Saved := List (Option Byte)

/-- `n` bytes little-endian. -/
def savedLe (n v : Nat) : Saved := (leBytes n v).map some

/-- Bytes that no rule gives. -/
def savedGap (n : Nat) : Saved := List.replicate n none

def savedZero (n : Nat) : Saved := List.replicate n (some 0)

/-- Extend a field with zeros, or with bytes that mean nothing, to its size. -/
def zeroTo (n : Nat) (l : Saved) : Saved := (l ++ savedZero (n - l.length)).take n
def gapTo (n : Nat) (l : Saved) : Saved := (l ++ savedGap (n - l.length)).take n

/-! ### A group's save area (R93) -/

/-- The tag code of R79. -/
def VReg.tag (v : VReg) : Nat :=
  match v with
  | .uniform _ => 0
  | .affine _ _ => 1
  | .general _ => 2

/-- The numbers of the general registers, ascending. -/
def Group.generals (g : Group) : List Nat := (List.range 640).filter fun r => (g.reg r).tag == 2

/-- The register is in the live set of the save. -/
def Group.savedLive (g : Group) (r : Nat) : Bool := g.liveSaved.all fun m => m.testBit r

/-- The compact slot of a register; that of a dead one is not written. -/
def Group.compactSlot (g : Group) (r : Nat) : Saved :=
  if !(g.savedLive r) then savedGap 8
  else match g.reg r with
    | .uniform v => savedLe 4 v.toNat ++ savedGap 4
    | .affine b s => savedLe 4 b.toNat ++ savedLe 4 s.toNat
    | .general _ => savedLe 4 ((g.generals.filter fun x => x < r).length) ++ savedGap 4

def Entry.saved (e : Entry) : Saved := savedLe 8 e.pc.toNat ++ savedLe 1 e.prio.toNat ++ savedZero 3 ++ savedLe 4 e.lanes.toNat

/-- A link: the return address in [55:0] and the saved priority in [63:56]. -/
def Link.saved (k : Link) : Saved := savedLe 7 k.ret.toNat ++ savedLe 1 k.prio.toNat

def Group.savedLinks (g : Group) (l : Nat) : Saved := gapTo 64 ((SMap.get [] g.links l).flatMap Link.saved)

/-- The save area of a group. LIVEUSED says that a liveness table gave the live set, which R93 does not spell out: DEDUCED (log 71). -/
def Group.saveArea (g : Group) : Saved :=
  let tags := (List.range 160).flatMap fun i => savedLe 1 (((List.range 4).map fun k => (g.reg (4 * i + k)).tag * 4 ^ k).sum)
  (savedLe 4 1 ++ savedLe 2 g.rows ++ savedLe 1 (if g.liveSaved.isSome then 1 else 0)
    ++ savedLe 1 g.frontier.length ++ savedZero 56)
    ++ tags ++ (List.range 640).flatMap g.compactSlot ++ savedZero 32
    ++ gapTo (128 * g.rows) ((g.generals.flatMap fun r => laneList.flatMap fun l => savedLe 4 (g.elem r l).toNat))
    ++ (((List.range 7).flatMap fun p => savedLe 4 (g.pred p).toNat) ++ savedZero 4)
    ++ gapTo 512 (g.frontier.flatMap Entry.saved)
    ++ laneList.flatMap g.savedLinks
    ++ (List.range 16).flatMap (fun i => savedLe 1 ((SMap.get [] g.links (2 * i)).length + 16 * (SMap.get [] g.links (2 * i + 1)).length))
    ++ savedLe 4 g.fpflags.toNat ++ savedLe 4 g.paramoob.toNat ++ savedLe 8 g.seed.toNat ++ savedLe 4 g.lpart.toNat ++ savedZero 28

/-! ### Trap slots and park records (R270) -/

/-- The park record of a wait at a barrier, and that of no wait. -/
def barRecord (k : Nat) (gen : BitVec 32) : Saved := savedLe 1 1 ++ savedLe 2 k ++ savedZero 5 ++ savedLe 8 gen.toNat
def noRecord : Saved := savedZero 1 ++ savedGap 2 ++ savedZero 5 ++ savedGap 8

/-- The park record: its kind, the barrier or entry, and the awaited GEN; no group of this model is saved within OWN or RSLV. -/
def State.parkRecord (s : State) (g : Group) : Saved :=
  match g.park with
  | .bar k gen => barRecord k gen
  | .await _ l =>
    let i := ((l.filterMap fun x => x.2).filterMap fun e => (s.entry? e).map fun x => x.index).head?
    savedLe 1 2 ++ (match i with
      | some i => savedLe 2 i
      | none => savedGap 2) ++ savedZero 5 ++ savedGap 8
  | _ => noRecord

def State.savedSlot (s : State) (g : Group) : Saved :=
  (match g.slot with
    | some x => savedLe 4 x.cause.toNat ++ savedLe 4 x.info.toNat ++ savedLe 8 x.pc.toNat ++ savedLe 8 x.va.toNat
        ++ savedLe 4 x.lanes.toNat ++ savedLe 1 x.prio.toNat ++ savedZero 3
    | none => savedGap 29 ++ savedZero 3)
    ++ s.parkRecord g ++ savedZero 16

/-! ### Queues, commands and matrix state (R270) -/

/-- An entry of `q2` (R443). The words of the path commands are not stated. -/
def CovCmd.saved (x : CovCmd) : Saved :=
  let words := fun (k : Nat) (p : List Int) => gapTo 32 (savedLe 4 k ++ p.flatMap fun i => savedLe 4 (BitVec.ofInt 32 i).toNat)
  match x with
  | .line p => words 0 (p.take 4)
  | .quad p => words 1 (p.take 6)
  | _ => savedGap 32

/-- The entries of `q0`: the descriptor offsets of the commands that the engine has not taken (R442). -/
def Team.savedQ0 (t : Team) : List Word := (t.cmds.filter fun c => !c.started).map fun c => c.off

/-- The queues, oldest entry first. The words of `q4` are not stated. -/
def Team.savedQueues (t : Team) : Saved :=
  ([t.savedQ0.length, t.q1.length, t.cov.q2.length, t.cov.q3.length, t.q4.length, 0, t.q6.length, t.q7.length].flatMap fun n => savedLe 2 n)
    ++ savedZero 48 ++ gapTo 64 (t.savedQ0.flatMap fun w => savedLe 4 w.toNat) ++ gapTo 64 (t.q1.flatMap fun w => savedLe 4 w.toNat)
    ++ gapTo 4096 (t.cov.q2.flatMap CovCmd.saved) ++ gapTo 1024 (t.cov.q3.flatMap fun x => savedLe 4 x.1.toNat ++ savedLe 4 x.2.toNat) ++ savedGap 512
    ++ gapTo 256 (t.q6.flatMap fun w => savedLe 4 w.toNat) ++ gapTo 256 (t.q7.flatMap fun w => savedLe 4 w.toNat)

/-- The descriptor of a command (R173). -/
def DriftCmd.descriptor (c : DriftCmd) : Nat :=
  let b := fun (x : Bool) => if x then 1 else 0
  c.gaddr.toNat + (c.gstride % 2 ^ 64).toNat * 2 ^ 64 + c.soff * 2 ^ 192 + c.rows * 2 ^ 216 + c.elems * 2 ^ 232 + c.gfmt * 2 ^ 248
    + c.sfmt * 2 ^ 256 + c.kind * 2 ^ 264 + c.abar * 2 ^ 268 + b c.arrive * 2 ^ 272 + b c.complete * 2 ^ 273 + c.pbar * 2 ^ 274
    + b c.permit * 2 ^ 278 + c.mcast * 2 ^ 280 + c.tag.toNat * 2 ^ 320

/-- A recorded command: an unfinished one still owes what its descriptor asks for. -/
def DriftCmd.saved (t : Team) (c : DriftCmd) : Saved :=
  let owes := fun (now asked : Bool) => if c.finished then now else asked
  savedLe 64 c.descriptor ++ savedLe 8 c.enqGen.toNat ++ savedLe 2 (((c.targets t).map fun j => 2 ^ j).sum)
    ++ savedLe 1 ((if owes c.owesArrival c.arrive then 1 else 0) + if owes c.owesTag c.complete then 2 else 0) ++ savedZero 5

/-- The matrix state, with the stream's park record. No MSTR of this model is saved within its rows. -/
def Team.savedMatrix (t : Team) : Saved :=
  match t.stream with
  | none => savedGap 512
  | some m =>
    ((List.range 32).flatMap fun i => savedLe 4 (SMap.get 0#32 m.m i).toNat) ++ savedLe 8 m.pc.toNat ++ savedLe 8 m.ctl.toNat
      ++ savedLe 8 m.seed.toNat ++ savedGap 64 ++ savedGap 64 ++ (match m.park with
          | .bar k gen => barRecord k gen
          | _ => noRecord) ++ savedZero 216

/-! ### Coverage state (R316) -/

/-- The ticket record of ticket number `n` modulo 128. -/
def Ticket.saved (k : Ticket) : Saved :=
  let op := fun (o : BlendOp) => match o with
    | .over => 0
    | .src => 1
    | .add => 2
    | .drop => 3
  savedLe 4 k.word.toNat ++ savedLe 4 k.paint.toNat ++ (match k.op with
    | none => savedLe 1 1 ++ savedGap 1 ++ savedZero 2 ++ savedGap 16
    | some o => savedLe 1 2 ++ savedLe 1 (op o) ++ savedZero 2 ++ gapTo 16 (k.colour.flatMap fun w => savedLe 4 w.toNat))
    ++ savedZero 4

def Cov.savedTicket (c : Cov) (i : Nat) : Saved :=
  match c.tickets.find? fun k => k.num.toNat % 128 == i with
  | some k => k.saved
  | none => savedGap 8 ++ savedLe 1 0 ++ savedGap 1 ++ savedZero 2 ++ savedGap 16 ++ savedZero 4

/-- Fill rule, clip op, sequence number and paint id of the open path: those of the last PATHB, which may stand in `q2` still. -/
def Cov.openPath (c : Cov) : Bool × Bool × Word × Word :=
  c.q2.foldl (fun r x => match x with
    | .pathb eo clip seq paint => (eo, clip, seq, paint)
    | _ => r) (c.uEo, c.uClip, c.uSeq, c.uPaint)

def Cov.saved (c : Cov) : Saved :=
  let b := fun (x : Bool) => if x then 1 else 0
  let word := fun (i : Nat) => savedLe 4 (SMap.get 0#32 c.cells i).toNat
  let cell := fun (i : Nat) => if c.hadAcc then word i else savedZero 4
  let (eo, clip, seq, paint) := c.openPath
  let low := (c.tickets.filter fun k => k.op.isNone).head?
  (zeroTo 64 (savedLe 1 (b c.bound.isSome) ++ savedLe 1 (b c.pathOpen)
      ++ [some (Config.packedByte 0 (b eo) (b clip))] ++ savedLe 1 c.depth
      ++ (match c.last with
          | some n => savedLe 4 n.toNat
          | none => savedGap 4)
      ++ savedLe 4 seq.toNat ++ savedLe 4 paint.toNat
      ++ (match c.bound with
          | some x => savedLe 4 x.coff ++ savedLe 4 x.tile.toNat ++ savedLe 8 x.desc.toNat
          | none => savedGap 16)
      ++ savedLe 4 c.popped.toNat ++ (match low with
          | some k => savedLe 4 k.num.toNat
          | none => savedGap 4)
      ++ savedLe 2 c.staging.length))
    ++ (List.range 16).flatMap (fun y => word (512 + y))
    ++ (List.range 256).flatMap (fun i => cell i ++ cell (256 + i))
    ++ gapTo 8192 ((c.layers.flatMap fun l => l.flatMap fun v => savedLe 4 v))
    ++ (List.range 128).flatMap c.savedTicket
    ++ zeroTo 2112 ((c.staging.flatMap fun x => savedLe 4 x.1.toNat ++ savedLe 4 x.2.toNat))

/-! ### The record -/

/-- OP of R358. -/
def AtomFn.code : AtomFn → Nat
  | .store => 0 | .add => 0 | .min => 1 | .max => 2 | .and => 3 | .or => 4 | .xor => 5 | .exch => 6 | .cas => 7

/-- A held entry of a store FIFO: the packing of OP and TYPE, and of ORDER and SCOPE, into a byte is not stated (log 71). -/
def StoreEntry.saved (e : StoreEntry) (dst : Nat) : Saved :=
  savedLe 4 (Mask.ofPred fun l => e.lanes.any fun a => a.lane == l).toNat
    ++ savedLe 1 (match e.kind with
        | .st => 0
        | .red => 1
        | .atom => 2)
    ++ [some (Config.packedByte 1 e.fn.code (Ty.code e.ty).toNat)] ++ savedLe 1 e.bytes ++ [some (Config.packedByte 2 e.order e.scope)]
    ++ savedLe 2 dst ++ savedZero 6
    ++ e.lanes.flatMap fun a => savedLe 8 a.va.toNat ++ savedLe 8 a.data.toNat ++ savedLe 8 a.cmp.toNat

def Group.savedFifo (g : Group) : Saved :=
  savedLe 4 g.fifo.length ++ savedZero 4
    ++ g.fifo.flatMap fun e => e.saved ((g.pending.find? fun p => p.id == e.pend).elim 0 fun p => p.regs.headD 0)

/-- The team save record (R270). -/
def State.saveRecord (s : State) (t : Team) : Saved :=
  let b := fun (x : Bool) (v : Nat) => if x then v else 0
  let group := fun (n : Nat) => t.groups.find? fun g => g.num == n
  zeroTo 64 (savedLe 4 1 ++ savedLe 1 t.ngroups ++ savedZero 1 ++ savedLe 2 t.rows
      ++ savedLe 1 (b t.stream.isSome 1 + b t.halted 2 + b (!t.begun) 4) ++ savedLe 1 t.cmds.length ++ savedLe 1 t.acc ++ savedZero 1
      ++ savedLe 4 (((List.range 32).map fun n => b ((group n).any fun g => g.slot.isSome) (2 ^ n)).sum))
    ++ (List.range 32).flatMap (fun n => match group n with
        | some g => s.savedSlot g
        | none => savedGap 64)
    ++ t.savedQueues ++ gapTo 2560 (t.cmds.flatMap (DriftCmd.saved t)) ++ t.savedMatrix ++ t.cov.saved
    ++ t.groups.flatMap (fun g => let l := g.saveArea; l ++ savedGap ((64 - l.length % 64) % 64))
    ++ (t.spadRead 0 (128 + 16384 * t.scr)).map some
    ++ (List.range (16 * t.scr)).flatMap (fun i => savedLe 1 (((List.range 8).map fun k => b (t.linePresent (128 * (1 + 8 * i + k))) (2 ^ k)).sum))
    ++ (List.range t.acc).flatMap (fun k => (List.range 64).flatMap fun r => (List.range 64).flatMap fun c => savedLe 4 (t.tileWord k r c).toNat)
    ++ t.groups.flatMap Group.savedFifo

end Sys2Proof.Machine
end

