-- ==== Sys2Proof/Tests/Slice0.lean ====
section
/-! SUPPORT. The model's own tests: words that the spec writes out, terms that the well-formedness check refuses, worked examples of
the spec on one step, and for every statement with hypotheses a state and operands that meet them together (`wit_…`). -/

open Sys2Proof Sys2Proof.Machine

namespace Sys2Proof.Tests

/-! ### A small machine -/

def allLanes : Mask := 0xFFFFFFFF

/-- Guard `p7`. -/
def g7 : Guard := ⟨7, false⟩

/-- A table of bytes from little-endian 8-byte entries. -/
def entries : List (Nat × Nat) → SMap Byte → SMap Byte
  | [], m => m
  | (a, v) :: r, m => entries r (writeBytes m a (leBytes 8 v))

/-- Page tables of context 1: root 0x1000, then 0x2000 and 0x3000, whose entry 0 is a 1 GiB leaf onto itself, readable, writable and
executable; entry 1 of it has the small pages 0x40000000 and 0x40001000 behind the tables 0x5000 and 0x6000. The handler record at
0x8000 is valid and has its code at 0x2000 (R45, R150). -/
def mem0 : SMap Byte := entries
  [(0x1000, 0x2001), (0x2000, 0x3001), (0x3000, 0xA0F), (0x3008, 0x5001), (0x5000, 0x6001), (0x6000, 0x10007), (0x6008, 0x11007),
   (0x8000, 0x2000), (0x8018, 0x2000)] []

/-- Lane numbers in `v0`, 4 × lane in `v1`, the address 0x4000 in `v2:v3`, squares in `v4`, the scratchpad address 0x100 in `v6`. -/
def g0 : Machine.Group :=
  { num := 0, rows := 32
    regs := [(0, .affine 0 1), (1, .affine 0 4), (2, .uniform 0x4000), (4, .general (laneVals fun l => BitVec.ofNat 32 (l * l))),
             (6, .uniform 0x100)]
    preds := [(1, 0x0000FFFF)]
    frontier := [{ pc := 0x100, prio := 7, lanes := allLanes }] }

def t0 : Team :=
  { id := 1, launch := 1, ctx := 1, cls := 2, lid := 5, die := 0, core := 0, slot := 0, base := 0, unit := 0, reg := 32, scr := 2
    acc := 2, index := 0, x := 0, y := 0, z := 0, cluster := 0, cx := 0, cy := 0, cw := 1, ch := 1, code := 0x100, live := 0
    mstream := 0, rows := 32, ngroups := 1, windows := [], groups := [g0], place := .running, begun := true }

def cur0 : Cur := { tid := 1, agent := .lane 0, pc := 0x100, lanes := allLanes, prio := 7, len := 8 }

def s0 : State :=
  { State.reset with
    mem := mem0, nextId := 100, booted := true
    contexts := [{ num := 1, root := 0x1000, hva := 0x8000, partition := 0 }]
    partitions := [{ num := 0, dies := [0] }]
    teams := [t0], cur := cur0 }

/-- The machine with team `t` alone. -/
def withTeam (t : Team) : State := { s0 with teams := [t] }

def teamOf (g : Machine.Group) : Team := { t0 with groups := [g] }

/-- The machine with group `g` alone, whose bundle is under issue. -/
def machine (g : Machine.Group) : State := withTeam (teamOf g)

/-- Group 0 after `i` on `machine g`. -/
def after (i : Instr) (g : Machine.Group) : Machine.Group :=
  match exec i (machine g) with
  | .next s => (s.group? 1 0).getD g
  | _ => g

/-- `g0` with registers of its own. -/
def withRegs (l : List (Nat × VReg)) : Machine.Group := { g0 with regs := l }

/-! ### Words that the spec writes out -/

theorem test_decode_iadd : decodeLane 0 0x4001FF4000041C08 = .one (.iadd ⟨g7, .s32, false, false, 1, 0, .imm10 (-3)⟩) 8 := by decide
theorem test_decode_iadd_packed : decodeLane 0 0x001C00C020101C08 = .one (.iadd ⟨g7, .s8x4, true, false, 4, 2, .reg 3⟩) 8 := by decide
theorem test_decode_fadd : decodeLane 0 0x000300C030101D00 = .one (.fadd ⟨g7, .f32, 0, 4, 3, .reg 3⟩) 8 := by decide
theorem test_decode_sel : decodeLane 0 0x0030008010141C58 = .one (.sel ⟨g7, .b32, 3, 5, 1, .reg 2⟩) 8 := by decide
theorem test_decode_lea : decodeLane 0 0x0046000020801C48 = .one (.lea ⟨g7, .n64, 4, 32, 2, .reg 0⟩) 8 := by decide
theorem test_decode_not : decodeLane 0 0x0000000050181C98 = .one (.not ⟨g7, .b32, 6, 5⟩) 8 := by decide
theorem test_decode_shl : decodeLane 0 0x4000014000201CA0 = .one (.shl ⟨g7, .b32, 8, 0, .imm10 5⟩) 8 := by decide
theorem test_decode_rot : decodeLane 0 0x4010020030141CB0 = .one (.rot ⟨g7, .b32, true, 5, 3, .imm10 8⟩) 8 := by decide
theorem test_decode_bfx : decodeLane 0 0x00000804_80010000_30101CD1 = .one (.bfx ⟨g7, .s32, 4, 3, .imm32 0x804⟩) 12 := by decide
theorem test_decode_and_imm : decodeLane 0 0x40000000_80000001_806C1C81 = .one (.and ⟨g7, .b32, 27, 24, .imm32 0x40000000⟩) 12 := by decide
theorem test_decode_ilv : decodeLane 0 0x000001C060201CE0 = .one (.ilv ⟨g7, .b32, 8, 6, 7⟩) 8 := by decide
theorem test_decode_plop : decodeLane 0 0x08800080100C1CF0 = .one (.plop ⟨g7, 3, 1, 2, 0, 0x88⟩) 8 := by decide
theorem test_decode_fexp2 : decodeLane 0 0x00030000200C5D58 = .one (.fexp2 ⟨g7, 1, .f32, 3, 2⟩) 8 := by decide
theorem test_decode_shfl : decodeLane 0 0x4030004050181D80 = .one (.shflXor ⟨g7, .b32, 6, 5, .imm10 1⟩) 8 := by decide
theorem test_decode_ballot : decodeLane 0 0x0030000010241D90 = .one (.voteBallot ⟨g7, 9, 1⟩) 8 := by decide
theorem test_decode_redx : decodeLane 0 0x00010000301C1D98 = .one (.redxAdd ⟨g7, .s32, 7, 3⟩) 8 := by decide
theorem test_decode_scan : decodeLane 0 0x0082000030201DA0 = .one (.scanAdd ⟨g7, .n32, true, 8, 3⟩) 8 := by decide
theorem test_decode_match_all : decodeLane 0 0x0010000040081DA8 = .one (.matchAll ⟨g7, .b32, 2, 4⟩) 8 := by decide
theorem test_decode_lpart : decodeLane 0 0x0030000000001DB0 = .one (.lpart g7 3) 8 := by decide
theorem test_decode_exit : decodeLane 0 0x00000000000009D8 = .one (.exit ⟨2, false⟩) 8 := by decide
theorem test_decode_prio : decodeLane 0 0x0FC0000000001DE0 = .one (.prio g7 252) 8 := by decide
theorem test_decode_trap : decodeLane 0 0x00000002A0001DF8 = .one (.trap g7 0x2A) 8 := by decide
theorem test_decode_lds : decodeLane 0 0x4000400040281E10 = .one (.lds ⟨g7, 0, .b32, 0, false, 0, 0, false, 10, 4, .b10 0x100⟩) 8 := by decide
theorem test_decode_pref : decodeLane 0 0x4000400020001E28 = .one (.pref ⟨g7, false, false, 2, .b10 0x100⟩) 8 := by decide
theorem test_decode_fence : decodeLane 0 0x1280000000001E40 = .one (.fenceSc ⟨g7, 5⟩) 8 := by decide
theorem test_decode_bar_sync : decodeLane 0 0x4320008000001E48 = .one (.barSync ⟨g7, 2, .imm10 2⟩) 8 := by decide
theorem test_decode_waita : decodeLane 0 0x46000000201C1E50 = .one (.waita ⟨g7, .b32, 1, 4, 7, 2, .imm10 0⟩) 8 := by decide
theorem test_decode_wrsr : decodeLane 0 0x0000000040881E60 = .one (.wrsr ⟨g7, 0x022, 4⟩) 8 := by decide
theorem test_decode_kill_team : decodeLane 0 0x0020000000001E70 = .one (.killTeam g7) 8 := by decide
theorem test_decode_qpeek : decodeLane 0 0x00B0000030281E90 = .one (.qpeek ⟨g7, 10, 3, some 5⟩) 8 := by decide
theorem test_decode_reca : decodeLane 0 0x00000080001006A8 = .one (.reca ⟨⟨1, false⟩, 4, .reg 2⟩) 8 := by decide
theorem test_decode_own_lock : decodeLane 0 0x0010000020101EC0 = .one (.own ⟨g7, 1, 4, 2⟩) 8 := by decide
theorem test_decode_lnch : decodeLane 0 0x400000C080101ED8 = .one (.lnch ⟨g7, 4, 8, .imm10 3⟩) 8 := by decide
theorem test_decode_yield : decodeLane 0 0x0000000000001EE0 = .one (.yield g7) 8 := by decide
theorem test_decode_pathb : decodeLane 0 0x0000054140001F90 = .one (.pathb ⟨g7, 20, 21, false, false⟩) 8 := by decide
theorem test_decode_segq : decodeLane 0 0x00000000A00007A8 = .one (.segq ⟨⟨1, false⟩, 10⟩) 8 := by decide
theorem test_decode_spanp : decodeLane 0 0x0040000000601FC0 = .one (.spanp ⟨g7, 0, 24, 4⟩) 8 := by decide
theorem test_decode_blnd : decodeLane 0 0x00000701A0001FC8 = .one (.blndOver ⟨g7, 26, 28⟩) 8 := by decide
theorem test_decode_tileb : decodeLane 0 0x00000800_80100000_20101F81 = .one (.tilebLoad ⟨g7, 2, 4, 0x800⟩) 12 := by decide
theorem test_decode_tex_aniso : decodeLane 0 0x0010028020501FD0 = .one (.texAniso ⟨g7, 0, 20, 2, 10⟩) 8 := by decide
theorem test_decode_tld : decodeLane 0 0x0000030020509FD8 = .one (.tld ⟨g7, 2, 20, 2, 12⟩) 8 := by decide

/-- `mset m3, 0x45678`, `mset.hi m3, 0x123`: the words of R423. -/
theorem test_decode_mset : decodeStream 0x00004567_800C1F00 = .one (.mset 3 0x45678) 8
    ∧ decodeStream 0x00100012_300C1F00 = .one (.msetHi 3 0x123) 8 := by decide

/-! ### What well-formedness refuses, beside the nearest term it admits -/

theorem test_wf_run : (Instr.segl ⟨g7, 637⟩).wf = false ∧ (Instr.segl ⟨g7, 636⟩).wf = true := by decide
theorem test_wf_register : (Instr.aff ⟨g7, .s32, 640, 3, .imm10 4⟩).wf = false ∧ (Instr.aff ⟨g7, .s32, 639, 3, .imm10 4⟩).wf = true := by decide
theorem test_wf_pair : (Instr.ld ⟨g7, 0, .b32, 0, false, 0, 0, 9, 3, .none⟩).wf = false
    ∧ (Instr.ld ⟨g7, 0, .b32, 0, false, 0, 0, 9, 638, .none⟩).wf = true := by decide
theorem test_wf_odd_for_64 : (Instr.not ⟨g7, .b64, 5, 2⟩).wf = false ∧ (Instr.not ⟨g7, .b64, 4, 2⟩).wf = true := by decide
theorem test_wf_predicate : (Instr.icmp ⟨g7, .s32, 0, 8, 1, .reg 2⟩).wf = false ∧ (Instr.icmp ⟨g7, .s32, 0, 7, 1, .reg 2⟩).wf = true := by decide
theorem test_wf_condition : (Instr.icmp ⟨g7, .s32, 6, 1, 1, .reg 2⟩).wf = false ∧ (Instr.icmp ⟨g7, .s32, 5, 1, 1, .reg 2⟩).wf = true := by decide
theorem test_wf_type : (Instr.imul ⟨g7, .b32, false, false, 1, 2, .reg 3⟩).wf = false ∧ (Instr.imul ⟨g7, .n32, false, false, 1, 2, .reg 3⟩).wf = true := by decide
theorem test_wf_sat_b32 : (Instr.iadd ⟨g7, .b32, true, false, 1, 2, .reg 3⟩).wf = false ∧ (Instr.iadd ⟨g7, .n32, true, false, 1, 2, .reg 3⟩).wf = true := by decide
theorem test_wf_hi : (Instr.imul ⟨g7, .s64, false, true, 2, 4, .reg 6⟩).wf = false ∧ (Instr.imul ⟨g7, .s32, false, true, 2, 4, .reg 6⟩).wf = true := by decide
theorem test_wf_imm64 : (Instr.and ⟨g7, .b32, 2, 4, .imm64 1⟩).wf = false ∧ (Instr.and ⟨g7, .b64, 2, 4, .imm64 1⟩).wf = true := by decide
theorem test_wf_float_imm10 : (Instr.fadd ⟨g7, .f32, 0, 2, 4, .imm10 1⟩).wf = false ∧ (Instr.fadd ⟨g7, .f32, 0, 2, 4, .imm32 1⟩).wf = true := by decide
theorem test_wf_rounding : (Instr.frnd ⟨g7, .f32, 4, 2, 4⟩).wf = false ∧ (Instr.frnd ⟨g7, .f32, 3, 2, 4⟩).wf = true := by decide
theorem test_wf_fmin_rounding : (Instr.fmin ⟨g7, .f32, 1, 2, 4, .reg 5⟩).wf = false ∧ (Instr.fmin ⟨g7, .f32, 0, 2, 4, .reg 5⟩).wf = true := by decide
theorem test_wf_scope : (Instr.fenceAcq ⟨g7, 6⟩).wf = false ∧ (Instr.fenceAcq ⟨g7, 5⟩).wf = true := by decide
theorem test_wf_cvt_pair : (Instr.cvt ⟨g7, false, 0, .f32, .f32, 2, 4, 0⟩).wf = false ∧ (Instr.cvt ⟨g7, false, 0, .f32, .f64, 2, 4, 0⟩).wf = true := by decide
theorem test_wf_cvt_index : (Instr.cvt ⟨g7, false, 0, .f32, .s32, 2, 4, 1⟩).wf = false ∧ (Instr.cvt ⟨g7, false, 0, .f32, .s32, 2, 4, 0⟩).wf = true := by decide
theorem test_wf_load_size : (Instr.ld ⟨g7, 0, .b32, 3, false, 0, 0, 9, 2, .none⟩).wf = false ∧ (Instr.ld ⟨g7, 0, .n32, 2, false, 0, 0, 9, 2, .none⟩).wf = true := by decide
theorem test_wf_load_order : (Instr.ld ⟨g7, 0, .b32, 0, false, 2, 0, 9, 2, .none⟩).wf = false ∧ (Instr.ld ⟨g7, 0, .b32, 0, false, 4, 0, 9, 2, .none⟩).wf = true := by decide
theorem test_wf_store_type : (Instr.st ⟨g7, .n32, 1, 0, 0, 9, 2, .none⟩).wf = false ∧ (Instr.st ⟨g7, .b32, 1, 0, 0, 9, 2, .none⟩).wf = true := by decide
theorem test_wf_abs : (Instr.pref ⟨g7, false, true, 2, .none⟩).wf = false ∧ (Instr.pref ⟨g7, false, true, 0, .none⟩).wf = true := by decide
theorem test_wf_atom_order : (Instr.atomAdd ⟨g7, 0, .n32, false, 5, 0, 4, 2, .reg 6, none⟩).wf = false
    ∧ (Instr.atomAdd ⟨g7, 0, .n32, false, 4, 0, 4, 2, .reg 6, none⟩).wf = true := by decide
theorem test_wf_red_order : (Instr.redAdd ⟨g7, .n32, false, 1, 0, 2, .reg 6, none⟩).wf = false
    ∧ (Instr.redAdd ⟨g7, .n32, false, 2, 0, 2, .reg 6, none⟩).wf = true := by decide
theorem test_wf_partition : (Instr.lpart g7 0).wf = false ∧ (Instr.lpart g7 6).wf = false ∧ (Instr.lpart g7 5).wf = true := by decide
theorem test_wf_count : (Instr.barSync ⟨g7, 2, .imm10 0⟩).wf = false ∧ (Instr.barSync ⟨g7, 2, .imm10 256⟩).wf = false
    ∧ (Instr.barSync ⟨g7, 2, .imm10 255⟩).wf = true := by decide
theorem test_wf_waita_order : (Instr.waita ⟨g7, .b32, 2, 0, 7, 2, .imm10 0⟩).wf = false ∧ (Instr.waita ⟨g7, .b32, 1, 0, 7, 2, .imm10 0⟩).wf = true := by decide
theorem test_wf_special : (Instr.rdsr ⟨g7, 1, 0x00B⟩).wf = false ∧ (Instr.rdsr ⟨g7, 1, 0x00A⟩).wf = true := by decide
theorem test_wf_special_pair : (Instr.rdsr ⟨g7, 1, 0x010⟩).wf = false ∧ (Instr.rdsr ⟨g7, 2, 0x010⟩).wf = true := by decide
theorem test_wf_queue : (Instr.qpush ⟨g7, 8, 1⟩).wf = false ∧ (Instr.qpush ⟨g7, 7, 1⟩).wf = true := by decide
theorem test_wf_queue_run : (Instr.qpush ⟨g7, 2, 633⟩).wf = false ∧ (Instr.qpush ⟨g7, 2, 632⟩).wf = true := by decide
theorem test_wf_node : (Instr.reca ⟨g7, 2, .imm32 0⟩).wf = false ∧ (Instr.reca ⟨g7, 2, .imm10 0⟩).wf = true := by decide
theorem test_wf_own_kind : (Instr.own ⟨g7, 2, 4, 2⟩).wf = false ∧ (Instr.own ⟨g7, 1, 4, 2⟩).wf = true := by decide
theorem test_wf_sequencer : (Instr.mset 32 0).wf = false ∧ (Instr.mset 31 0).wf = true := by decide
theorem test_wf_tile : (Instr.mepi 16 0 0 false).wf = false ∧ (Instr.mepi 15 0 0 false).wf = true := by decide
theorem test_wf_mepi_pair : (Instr.mepi 0 31 0 false).wf = false ∧ (Instr.mepi 0 30 0 false).wf = true := by decide
theorem test_wf_mstr : (Instr.mstr ⟨.s8x4, 0, 4, 6, 0, false, false, false, false, true⟩).wf = false
    ∧ (Instr.mstr ⟨.e4m3x4, 0, 30, 6, 0, false, false, false, false, true⟩).wf = true := by decide
theorem test_wf_mstr_barrier : (Instr.mstr ⟨.s8x4, 0, 4, 6, 1, false, false, false, false, false⟩).wf = false
    ∧ (Instr.mstr ⟨.s8x4, 0, 4, 6, 1, true, false, false, false, false⟩).wf = true := by decide

/-! ### Worked examples of the spec, each on one step -/

/-- R406: −2, 2, −129 and 128 in bytes, wrapping and saturating. -/
theorem test_iadd_s8x4 : let g := withRegs [(2, .uniform 0x7F8001FF), (3, .uniform 0x01FF01FF)]
    (after (.iadd ⟨g7, .s8x4, false, false, 4, 2, .reg 3⟩) g).elem 4 0 = 0x807F02FE
      ∧ (after (.iadd ⟨g7, .s8x4, true, false, 4, 2, .reg 3⟩) g).elem 4 31 = 0x7F8002FE := by decide
theorem test_imul : let g := withRegs [(2, .uniform 0x7FFFFFFF)]
    (after (.imul ⟨g7, .s32, false, false, 4, 2, .imm10 4⟩) g).elem 4 0 = 0xFFFFFFFC
      ∧ (after (.imul ⟨g7, .s32, false, true, 4, 2, .imm10 4⟩) g).elem 4 0 = 1
      ∧ (after (.imul ⟨g7, .s32, true, false, 4, 2, .imm10 4⟩) g).elem 4 0 = 0x7FFFFFFF := by decide
/-- R408: the immediate −1 of a natural comparison is 0xFFFF_FFFF. -/
theorem test_icmp_natural : ((after (.icmp ⟨g7, .n32, 2, 2, 2, .imm10 (-1)⟩) g0).pred 2) = allLanes := by decide
/-- R430: 0x1234_5678 rotated right by 8. -/
theorem test_rot : (after (.rot ⟨g7, .b32, true, 5, 3, .imm10 8⟩) (withRegs [(3, .uniform 0x12345678)])).elem 5 7 = 0x78123456 := by decide
/-- R376: six zeros above the first 1 of 0x0200_0000. -/
theorem test_clz : (after (.clz ⟨g7, .b32, 13, 13⟩) (withRegs [(13, .uniform 0x02000000)])).elem 13 0 = 6 := by decide
/-- R366: the field of length 8 at 4 of 0x0000_0A50, signed. -/
theorem test_bfx : (after (.bfx ⟨g7, .s32, 4, 3, .imm32 0x0804⟩) (withRegs [(3, .uniform 0xA50)])).elem 4 0 = 0xFFFFFFA5 := by decide
/-- R384: the Morton key of x = 0x2005 and y = 0x4000, and its parts again. -/
theorem test_ilv : (after (.ilv ⟨g7, .b32, 8, 6, 7⟩) (withRegs [(6, .uniform 0x2005), (7, .uniform 0x4000)])).elem 8 0 = 0x24000011 := by decide
theorem test_dlv : let g := after (.dlv ⟨g7, .b32, 10, 8⟩) (withRegs [(8, .uniform 0x24000011)])
    g.elem 10 0 = 0x2005 ∧ g.elem 11 0 = 0x4000 := by decide
/-- R420: after `lpart 8`, `v1` = 10L sent one lane on, round each tile of eight. -/
theorem test_lsend : let g := after (.lsend ⟨g7, .b32, 5, 1, .imm10 1⟩) { withRegs [(1, .affine 0 10)] with lpart := 3 }
    g.elem 5 8 = 150 ∧ g.elem 5 9 = 80 := by decide
/-- R422: `v4` = L div 3; lane 4 matches lanes 3 to 5. -/
theorem test_match : (after (.matchAny ⟨g7, .b32, 9, 4⟩)
    (withRegs [(4, .general (laneVals fun l => BitVec.ofNat 32 (l / 3)))])).elem 9 4 = 0x38 := by decide
/-- 1.0 and three 2^-24, then three 2^-24 and 1.0, over and over. -/
def summands (l : Nat) : Word := if l % 8 = 0 ∨ l % 8 = 7 then 0x3F800000 else 0x33800000

set_option maxRecDepth 4000 in
/-- R456: the order of the sum is ascending lane order in each tile of four. -/
theorem test_redx_f32 : let g := after (.redxAdd ⟨g7, .f32, 7, 3⟩) { withRegs [(3, .general (laneVals summands))] with lpart := 2 }
    g.elem 7 0 = 0x3F800000 ∧ g.elem 7 4 = 0x3F800002 := by decide

/-- `v3` = 1 in every third lane, and `p1` in lanes 4 to 7. -/
def thirds : Machine.Group := { withRegs [(3, .general (laneVals fun l => if l % 3 = 0 then 1 else 0))] with preds := [(1, 0xF0)] }

set_option maxRecDepth 4000 in
/-- R462: an exclusive sum with every lane active. -/
theorem test_scan : let g := after (.scanAdd ⟨g7, .n32, true, 8, 3⟩) thirds
    g.elem 8 4 = 2 ∧ g.elem 8 31 = 11 := by decide
set_option maxRecDepth 4000 in
/-- The same with lanes 4 to 7 guarded off. -/
theorem test_scan_guarded : let g := after (.scanAdd ⟨⟨1, true⟩, .n32, true, 8, 3⟩) thirds
    g.elem 8 4 = 0 ∧ g.elem 8 8 = 2 ∧ g.elem 8 31 = 10 := by decide
/-- R402: −0.3 rounds to −0. -/
theorem test_frnd : (after (.frnd ⟨g7, .f32, 0, 4, 3⟩) (withRegs [(3, .uniform 0xBE99999A)])).elem 4 0 = 0x80000000 := by decide
/-- R80: an affine register plus a uniform one stays affine. -/
theorem test_affine_sum : (after (.iadd ⟨g7, .s32, false, false, 5, 1, .imm10 3⟩) g0).reg 5 = .affine 3 4 := by decide
/-- R82: the guard is the predicate's value before the instruction. -/
theorem test_guard_is_destination : (after (.icmp ⟨⟨1, false⟩, .s32, 0, 1, 0, .imm10 3⟩) g0).pred 1 = 8 := by decide
/-- R96: a word at offset 20 is followed by the next block. -/
theorem test_block_tail : succPc 0x114 8 = 0x120 ∧ succPc 0x100 12 = 0x10C := by decide

/-! ### Witnesses: states and operands that meet a statement's hypotheses together -/

set_option maxRecDepth 8000

theorem issuing_of (s : State) (t : Team) (g : Machine.Group) (h : s.bundle? = some (t, g) ∧ s.cur.lanes &&& ~~~g.live = 0) :
    Issuing s t g := ⟨h.1, h.2⟩

/-- A trap of the bundle enters the handler at 0x2000. -/
theorem canTrap_of (s : State) (t : Team) (g : Machine.Group)
    (h : s.cur.handler = false ∧ g.slot = none ∧ g.pending.all Pending.isReady = true ∧ g.waitEntries = [] ∧ g.hvaDenied = false
      ∧ t.depth = 0 ∧ (s.handlerCode t.ctx).1 = .code 0x2000) : ∃ code s1, CanTrap s t g code s1 :=
  ⟨_, _, h.1, h.2.1, h.2.2.1, h.2.2.2.1, h.2.2.2.2.1, h.2.2.2.2.2.1, Prod.ext h.2.2.2.2.2.2 rfl⟩

theorem issuing0 : Issuing s0 t0 g0 := issuing_of _ _ _ (by decide)

theorem canTrap0 : ∃ code s1, CanTrap s0 t0 g0 code s1 := canTrap_of _ _ _ (by decide)

/-- The register operation `i` meets, on `s0`, what the statements about register operations ask. -/
def Ready (i : Instr) : Prop :=
  ∃ gd op s t g, registerOp i = some (gd, op) ∧ Issuing s t g ∧ g.poolTraps (op t g (g.active gd s.cur.lanes)).regs = []

def ready (i : Instr) : Bool :=
  match registerOp i with
  | some (gd, op) => decide (g0.poolTraps (op t0 g0 (g0.active gd s0.cur.lanes)).regs = [])
  | none => false

theorem ready_of (l : List Instr) (h : l.all ready = true) : ∀ i ∈ l, Ready i := by
  intro i hi
  have := List.all_eq_true.mp h i hi
  unfold ready at this
  split at this
  · next gd op e => exact ⟨gd, op, s0, t0, g0, e, issuing0, of_decide_eq_true this⟩
  · cases this

def g1 : Guard := ⟨1, false⟩

theorem wit_RegisterOperationsFrame : ∀ i ∈ [Instr.nop g7, .iadd ⟨g7, .s32, false, false, 7, 0, .reg 4⟩, .fadd ⟨g1, .f32, 3, 7, 0, .reg 4⟩,
    .cvt ⟨g1, false, 4, .f32, .e4m3x4, 8, 12, 0⟩, .lsend ⟨g7, .b32, 639, 0, .imm10 (-1)⟩, .voteBallot ⟨g7, 9, 7⟩], Ready i :=
  ready_of _ (by decide)

theorem wit_ShapesKeepValues : ∃ i gd op s t g w, registerOp i = some (gd, op) ∧ Issuing s t g
    ∧ w ∈ (op t g (g.active gd s.cur.lanes)).regs ∧ g.live.has 31 = true :=
  ⟨.iadd ⟨g1, .s32, false, false, 7, 0, .reg 1⟩, _, _, s0, t0, g0, _, rfl, issuing0, List.mem_cons_self, by decide⟩

/-- A group whose general pool has no row. -/
def gNoRow : Machine.Group := { g0 with rows := 1 }

theorem wit_RegpoolTrap : ∃ i gd op s t g code s1 r, registerOp i = some (gd, op) ∧ Issuing s t g ∧ CanTrap s t g code s1
    ∧ g.poolFail ((op t g (g.active gd s.cur.lanes)).regs.map fun w => (w.reg, w.shape)) = some r := by
  obtain ⟨code, s1, h⟩ := canTrap_of (machine gNoRow) (teamOf gNoRow) gNoRow (by decide)
  exact ⟨.iadd ⟨g1, .s64, false, false, 10, 0, .imm10 1⟩, _, _, _, _, _, code, s1, 10, rfl, issuing_of _ _ _ (by decide), h, by decide⟩

theorem wit_IntegerArithmetic : ∀ i ∈ [Instr.iadd ⟨g7, .s8x4, true, false, 7, 0, .imm10 (-512)⟩, .isub ⟨g1, .s64, false, false, 638, 2, .reg 4⟩,
    .imul ⟨g7, .n32, false, true, 7, 0, .reg 4⟩, .imin ⟨g7, .s16x2, false, false, 0, 0, .imm32 0x80000000⟩,
    .imax ⟨g7, .n64, false, false, 8, 2, .imm32 0xFFFFFFFF⟩, .imad ⟨g7, .s32, true, 7, 0, 4, none⟩, .iabs ⟨g7, .s32, true, 7, 0⟩], Ready i :=
  ready_of _ (by decide)

theorem wit_IntegerCompare : ∀ i ∈ [Instr.icmp ⟨g1, .n32, 5, 1, 0, .imm10 (-1)⟩, .icmp ⟨g7, .s64, 0, 7, 2, .reg 4⟩], Ready i :=
  ready_of _ (by decide)

theorem wit_AddressAndSelect : ∀ i ∈ [Instr.lea ⟨g7, .s64, 15, 8, 2, .imm10 (-1)⟩, .aff ⟨g7, .n32, 8, 4, .reg 0⟩, .sel ⟨g7, .b64, 7, 8, 2, .reg 4⟩,
    .mov ⟨g1, .b64, 8, .imm64 0x8000000000000000⟩], Ready i := ready_of _ (by decide)

theorem wit_BitOperations : ∀ i ∈ [Instr.and ⟨g7, .b32, 8, 0, .reg 4⟩, .or ⟨g7, .b64, 8, 2, .imm64 1⟩, .xor ⟨g1, .b32, 0, 0, .imm10 (-1)⟩,
    .not ⟨g7, .b64, 8, 2⟩, .shl ⟨g7, .b32, 8, 0, .imm10 32⟩, .shr ⟨g7, .s64, 8, 2, .imm10 64⟩, .rot ⟨g7, .b32, true, 8, 0, .imm10 32⟩,
    .clz ⟨g7, .b32, 8, 20⟩, .popc ⟨g7, .b64, 8, 2⟩, .brev ⟨g7, .b32, 8, 0⟩], Ready i := ready_of _ (by decide)

theorem wit_PredicateLogic : ∀ i ∈ [Instr.plop ⟨g7, 1, 1, 7, 0, 0x88⟩, .plop ⟨g1, 7, 1, 2, 3, 0xFF⟩], Ready i := ready_of _ (by decide)

theorem wit_BitFields : ∀ i ∈ [Instr.bfx ⟨g7, .s32, 8, 0, .imm32 0x2000⟩, .bfx ⟨g7, .n64, 8, 2, .imm32 0xFF40⟩, .bfi ⟨g7, .b32, 8, 0, 4, .imm32 0x0120⟩,
    .bfi ⟨g7, .b64, 8, 2, 4, .reg 0⟩, .ilv ⟨g7, .b64, 8, 0, 4⟩, .dlv ⟨g7, .b32, 638, 0⟩], Ready i := ready_of _ (by decide)

theorem wit_FloatArithmetic : ∀ i ∈ [Instr.fadd ⟨g7, .f32, 1, 8, 0, .imm32 0x80000000⟩, .fmul ⟨g7, .f16x2, 3, 8, 0, .reg 4⟩,
    .ffma ⟨g7, .f64, 2, 8, 2, 4, none⟩, .fmin ⟨g1, .bf16x2, 0, 8, 0, .reg 4⟩, .fmax ⟨⟨3, false⟩, .f32, 0, 8, 0, .reg 4⟩], Ready i :=
  ready_of _ (by decide)

theorem wit_FloatMinMaxCompare : ∀ i ∈ [Instr.fmin ⟨g7, .f32, 0, 8, 0, .imm32 0x7F800001⟩, .fmax ⟨g7, .f64, 0, 8, 2, .reg 4⟩,
    .fcmp ⟨g7, .f32, 7, 1, 0, .imm32 0x7FC00000⟩], Ready i := ready_of _ (by decide)

theorem wit_RoundDotConvert : ∀ i ∈ [Instr.frnd ⟨g7, .f32, 3, 8, 4⟩, .fdot ⟨g7, .f16x2, 0, 8, 0, 4⟩, .cvt ⟨g7, false, 0, .f32, .s32, 8, 4, 0⟩,
    .cvt ⟨g7, true, 0, .n32, .s32, 8, 4, 0⟩], Ready i := ready_of _ (by decide)

theorem wit_LaneMoves : ∀ i ∈ [Instr.shflIdx ⟨g7, .b32, 8, 0, .imm10 (-1)⟩, .shflUp ⟨g1, .b64, 8, 2, .imm10 31⟩, .shflDown ⟨g7, .b32, 8, 0, .imm10 32⟩,
    .shflXor ⟨g7, .b32, 8, 0, .reg 4⟩, .lsend ⟨g1, .b32, 8, 0, .imm10 (-512)⟩], Ready i := ready_of _ (by decide)

theorem wit_Votes : ∀ i ∈ [Instr.voteAny ⟨g7, 1, 1⟩, .voteAll ⟨⟨1, true⟩, 7, 7⟩, .voteUni ⟨g7, 0, 1⟩, .voteBallot ⟨g1, 8, 7⟩], Ready i :=
  ready_of _ (by decide)

theorem wit_ReduceScanMatch : ∀ i ∈ [Instr.redxAdd ⟨g7, .s32, 8, 0⟩, .redxMin ⟨g7, .f32, 8, 0⟩, .redxMax ⟨g1, .n64, 8, 2⟩, .redxAnd ⟨g7, .b32, 8, 0⟩,
    .redxOr ⟨g7, .b64, 8, 2⟩, .redxXor ⟨g7, .b32, 8, 0⟩, .scanAdd ⟨g1, .f32, true, 8, 0⟩, .scanMin ⟨g7, .s32, true, 8, 0⟩,
    .scanMax ⟨g7, .s64, false, 8, 2⟩, .scanAnd ⟨g7, .b32, true, 8, 0⟩, .scanOr ⟨g7, .b32, false, 8, 0⟩, .scanXor ⟨g7, .b64, true, 8, 2⟩,
    .matchAny ⟨g1, .b64, 8, 2⟩, .matchAll ⟨g7, .b32, 7, 4⟩], Ready i := ready_of _ (by decide)

theorem wit_TranscendentalIssues : ∃ (o : TransOp) (i : Instr) (f : Fmt → Nat → Nat × FpFlags),
    (i, f) ∈ [(Instr.frcp o, frcpVal), (.frsq o, frsqVal), (.fsqrt o, fsqrtVal), (.fexp2 o, fun _ => fexp2Val),
      (.flog2 o, fun _ => flog2Val), (.fsin o, fun _ => fsinVal false), (.fcos o, fun _ => fsinVal true), (.ftanh o, fun _ => ftanhVal)]
    ∧ Issuing s0 t0 g0 ∧ g0.poolTraps (transOut f o t0 g0 (g0.active o.g s0.cur.lanes)).regs = [] :=
  ⟨⟨g1, 15, .f64, 8, 2⟩, _, _, List.mem_cons_self, issuing0, by decide⟩

/-- A group with a result of `v8:v9` that has arrived, with a window of one instruction in every lane. -/
def gPend (uniform : Bool) (win left : Nat) : Machine.Group :=
  { g0 with pending := [{ id := 9, kind := .ready, bundle := allLanes, active := 0x0000000F, win := laneList.map fun _ => win, regs := [8, 9]
                          preds := [2], uniform := uniform, vals := [(0, 77), (33, 5)], pvals := 1, left := left }] }

theorem wit_ResultLands : ∀ u, ∃ s tid n id g p, State.group? s tid n = some g ∧ g.pending.find? (fun q => q.id == id) = some p
    ∧ p.isReady = true ∧ p.regs.Nodup ∧ p.active &&& g.live ≠ 0 ∧ p.uniform = u := by
  intro u
  cases u
  · exact ⟨machine (gPend false 1 0), 1, 0, 9, gPend false 1 0, _, by decide, rfl, rfl, by decide, by decide, rfl⟩
  · exact ⟨machine (gPend true 1 0), 1, 0, 9, gPend true 1 0, _, by decide, rfl, rfl, by decide, by decide, rfl⟩

theorem wit_LookaheadWindows :
    (∃ (s s1 : State) (t : Team) (g : Machine.Group) (e : Entry) (i : Instr) (r : Nat) (code : DWord),
      g.deny = none ∧ (∀ p ∈ g.pending, p.holds e.lanes [i] = false)
        ∧ ((g.pending.filter fun p => p.inside e.lanes).flatMap fun p => p.regsNamed [i]).min? = some r
        ∧ e.handler = false ∧ g.slot = none ∧ g.pending.all Pending.isReady = true ∧ g.waitEntries = [] ∧ g.hvaDenied = false
        ∧ t.depth = 0 ∧ s.handlerCode t.ctx = (.code code, s1))
    ∧ (∃ (g : Machine.Group) (e : Entry) (p : Pending) (l : Nat), g.deny = none ∧ p ∈ g.pending ∧ p.isReady = false ∧ l < 32
        ∧ e.lanes.has l = true ∧ p.bundle.has l = true ∧ p.win.getD l 0 = 0) := by
  constructor
  · obtain ⟨code, s1, h⟩ := canTrap_of (machine (gPend false 1 0)) (teamOf (gPend false 1 0)) (gPend false 1 0) (by decide)
    exact ⟨_, s1, _, _, { pc := 0x100, prio := 7, lanes := allLanes }, .mov ⟨g7, .b32, 10, .reg 9⟩, 9, code, rfl, by decide, by decide, rfl,
      h.free, h.landed, h.waits, h.readable, h.depth, h.record⟩
  · exact ⟨gPend false 0 1, { pc := 0x100, prio := 7, lanes := allLanes }, _, 31, rfl, List.mem_singleton.mpr rfl, by decide, by decide,
      by decide, by decide, by decide⟩

/-- A group whose frontier holds two entries. -/
def gTwo : Machine.Group := { g0 with frontier := [{ pc := 0x100, prio := 7, lanes := 0xFFFF }, { pc := 0x120, prio := 7, lanes := 0xFFFF0000 }] }

/-- `gTwo` with its head under issue. -/
def sTwo : State := { machine gTwo with cur := { cur0 with lanes := 0xFFFF } }

theorem wit_LanePartition :
    (∃ gd s t g, Issuing s t g ∧ g.active gd s.cur.lanes ≠ 0 ∧ g.frontier.length = 1)
    ∧ (∃ gd s t g code s1, Issuing s t g ∧ g.active gd s.cur.lanes ≠ 0 ∧ g.frontier.length ≠ 1 ∧ CanTrap s t g code s1)
    ∧ (∃ gd s t g, Issuing s t g ∧ g.active gd s.cur.lanes = 0) := by
  obtain ⟨code, s1, h⟩ := canTrap_of sTwo (teamOf gTwo) gTwo (by decide)
  exact ⟨⟨g7, s0, t0, g0, issuing0, by decide, rfl⟩, ⟨g7, _, _, _, code, s1, issuing_of _ _ _ (by decide), by decide, by decide, h⟩,
    ⟨⟨2, false⟩, s0, t0, g0, issuing0, by decide⟩⟩

/-- The next PC of lane `l` of a branch. -/
def nextPc (s : State) (g : Machine.Group) (o : BrOp) (l : Nat) : DWord :=
  if (g.active o.g s.cur.lanes).has l then s.cur.pc + brBytes o.off else succPc s.cur.pc s.cur.len

theorem wit_BranchesMove :
    (∃ (o : BrOp), ∃ s t g, Issuing s t g ∧ o.u = true
      ∧ (∀ l, l < 32 → (g.active o.g s.cur.lanes).has l = true → legalTarget (s.cur.pc + brBytes o.off) = true)
      ∧ ∀ l k, l < 32 → k < 32 → s.cur.lanes.has l = true → s.cur.lanes.has k = true → nextPc s g o l = nextPc s g o k)
    ∧ (∃ (o : BrxOp), ∃ s t g, Issuing s t g ∧ o.u = false ∧ (∀ l, l < 32 → (g.active o.g s.cur.lanes).has l = true →
        legalTarget (s.cur.pc + o.off.signExtend 64 * 4 + (g.elem o.a.toNat l).setWidth 64 * 8) = true)) :=
  ⟨⟨⟨g7, true, 3, .off20 4⟩, s0, t0, g0, issuing0, rfl, fun l _ _ => by decide, fun l k hl hk _ _ => by
      have h : ∀ j, j < 32 → nextPc s0 g0 ⟨g7, true, 3, .off20 4⟩ j = 0x110 := by decide
      rw [h l hl, h k hk]⟩,
    ⟨⟨g1, false, 3, 2, 0⟩, s0, t0, g0, issuing0, rfl, by decide⟩⟩

/-- Every lane holds one return address, at a block tail. -/
def gLinks (n : Nat) : Machine.Group := { g0 with links := laneList.map fun l => (l, List.replicate n ⟨0x11C, 9⟩) }

theorem wit_CallsAndReturns :
    (∃ (o : BrOp), ∃ s t g, Issuing s t g ∧ o.u = false ∧ (∀ l, l < 32 → (g.active o.g s.cur.lanes).has l = true → (g.linkStack l).length < 8)
      ∧ legalTarget (s.cur.pc + brBytes o.off) = true)
    ∧ (∃ (x : Nat → Link), ∃ gd s t g, Issuing s t g ∧ ∀ l, l < 32 → (g.active gd s.cur.lanes).has l = true →
      (g.linkStack l).head? = some (x l) ∧ legalTarget (retAddress (x l).ret) = true) :=
  ⟨⟨⟨g1, false, 3, .off20 (-4)⟩, machine (gLinks 7), teamOf (gLinks 7), gLinks 7, issuing_of _ _ _ (by decide), rfl, by decide, by decide⟩,
    ⟨fun _ => ⟨0x11C, 9⟩, g1, machine (gLinks 1), teamOf (gLinks 1), gLinks 1, issuing_of _ _ _ (by decide), by decide⟩⟩

theorem wit_BranchTraps :
    (∃ (o : BrOp), ∃ s t g l code s1, Issuing s t g ∧ l < 32 ∧ (g.active o.g s.cur.lanes).has l = true ∧ 8 ≤ (g.linkStack l).length
      ∧ CanTrap s t g code s1)
    ∧ (∃ gd s t g l code s1, Issuing s t g ∧ l < 32 ∧ (g.active gd s.cur.lanes).has l = true ∧ g.linkStack l = [] ∧ CanTrap s t g code s1)
    ∧ (∃ (o : BrOp), ∃ s t g code s1, Issuing s t g ∧ g.active o.g s.cur.lanes ≠ 0 ∧ legalTarget (s.cur.pc + brBytes o.off) = false
      ∧ CanTrap s t g code s1)
    ∧ (∃ (o : BrOp), ∃ s t g l k code s1, Issuing s t g ∧ o.u = true ∧ legalTarget (s.cur.pc + brBytes o.off) = true
      ∧ s.cur.pc + brBytes o.off ≠ succPc s.cur.pc s.cur.len ∧ s.cur.lanes.lowest = some k ∧ l < 32 ∧ s.cur.lanes.has l = true
      ∧ (g.active o.g s.cur.lanes).has l ≠ (g.active o.g s.cur.lanes).has k ∧ CanTrap s t g code s1) := by
  obtain ⟨c, s1, h⟩ := canTrap0
  obtain ⟨c8, s8, h8⟩ := canTrap_of (machine (gLinks 8)) (teamOf (gLinks 8)) (gLinks 8) (by decide)
  exact ⟨⟨⟨g7, false, 3, .off20 4⟩, _, _, _, 31, c8, s8, issuing_of _ _ _ (by decide), by decide, by decide, by decide, h8⟩,
    ⟨g7, s0, t0, g0, 0, c, s1, issuing0, by decide, by decide, by decide, h⟩,
    ⟨⟨g1, false, 3, .off20 7⟩, s0, t0, g0, c, s1, issuing0, by decide, by decide, h⟩,
    ⟨⟨g1, true, 3, .off20 4⟩, s0, t0, g0, 16, 0, c, s1, issuing0, rfl, by decide, by decide, by decide, by decide, by decide, by decide, h⟩⟩

theorem wit_ExitPrioNap : (∃ s t g, Issuing s t g ∧ g.active g7 s.cur.lanes ≠ 0 ∧ g.active ⟨2, false⟩ s.cur.lanes = 0) :=
  ⟨s0, t0, g0, issuing0, by decide, by decide⟩

/-- The upper lanes are in the handler, sent there from offset 20 of a block; the lower ones stand at 0x120. -/
def gTrapped : Machine.Group :=
  { g0 with
    frontier := [{ pc := 0x2000, prio := 255, lanes := 0xFFFF0000, handler := true }, { pc := 0x120, prio := 7, lanes := 0xFFFF }]
    slot := some { cause := causeWord 0x11 2 false false, info := 5, pc := 0x114, va := 0, prio := 7, lanes := 0xFFFF0000 } }

def curH : Cur := { tid := 1, agent := .lane 0, pc := 0x2000, lanes := 0xFFFF0000, prio := 255, handler := true, len := 8 }

/-- `gTrapped` with its handler entry under issue. -/
def sH : State := { machine gTrapped with cur := curH }

theorem issuingH : Issuing sH (teamOf gTrapped) gTrapped := issuing_of _ _ _ (by decide)

theorem wit_TrapReturns : ∀ skip, ∃ (i : Instr), ∃ s t g x, (i, skip) ∈ [(Instr.tret, false), (.tretSkip, true)] ∧ Issuing s t g
    ∧ s.cur.handler = true ∧ g.slot = some x
    ∧ legalTarget (if skip && x.cause.toNat / 256 % 16 != 0 then succPc x.pc (4 * (x.cause.toNat / 256 % 16)) else x.pc) = true := by
  intro skip
  cases skip
  · exact ⟨.tret, sH, _, gTrapped, _, by simp, issuingH, rfl, rfl, by decide⟩
  · exact ⟨.tretSkip, sH, _, gTrapped, _, by simp, issuingH, rfl, rfl, by decide⟩

theorem wit_SoftwareAndPrivilegeTraps :
    (∃ gd s t g code s1, Issuing s t g ∧ g.active gd s.cur.lanes ≠ 0 ∧ CanTrap s t g code s1)
    ∧ (∃ gd s t g, Issuing s t g ∧ g.active gd s.cur.lanes = 0)
    ∧ (∃ s t g code s1, Issuing s t g ∧ s.cur.handler = false ∧ CanTrap s t g code s1) := by
  obtain ⟨c, s1, h⟩ := canTrap0
  exact ⟨⟨g1, s0, t0, g0, c, s1, issuing0, by decide, h⟩, ⟨⟨2, false⟩, s0, t0, g0, issuing0, by decide⟩,
    ⟨s0, t0, g0, c, s1, issuing0, rfl, h⟩⟩

/-- A context without a handler. -/
def sNoHandler : State := { s0 with contexts := [{ num := 1, root := 0x1000, hva := 0, partition := 0 }] }

/-- The team is a task of relief. -/
def tTask : Team := { teamOf gTrapped with depth := 1, relieves := some 9 }

/-- The entry that a task of relief relieves. -/
def ownTask : OwnEntry :=
  { id := 9, ctx := 1, index := 0, die := 0, obj := 0x5000, kind := 0, state := .running, waiters := 0, owner := .team 8, olid := 0, oindex := 0 }

def sTask : State := { withTeam tTask with cur := curH, own := [ownTask] }

/-- The task's last lanes are in the handler. -/
def gLast : Machine.Group := { gTrapped with frontier := gTrapped.frontier.take 1 }

def tLast : Team := { teamOf gLast with depth := 1, relieves := some 9 }

def sLast : State := { withTeam tLast with cur := curH, own := [ownTask] }

/-- Another group of the task lives on. -/
def tTwo : Team := { tLast with ngroups := 2, groups := [gLast, { g0 with num := 1 }] }

def sTaskTwo : State := { withTeam tTwo with cur := curH, own := [ownTask] }

theorem wit_LanesEnd :
    (∃ gd s t g, Issuing s t g ∧ s.cur.handler = true ∧ g.active gd s.cur.lanes ≠ 0 ∧ g.waitEntries = []
      ∧ (∀ u ∈ t.groups, u.waitEntries = []) ∧ (∀ e ∈ s.own, e.owner ≠ .team t.id) ∧ t.depth = 0)
    ∧ (∃ gd s t g, Issuing s t g ∧ s.cur.handler = true ∧ t.depth ≠ 0 ∧ g.live &&& ~~~(g.active gd s.cur.lanes) ≠ 0)
    ∧ (∃ gd s t g, Issuing s t g ∧ s.cur.handler = true ∧ g.active gd s.cur.lanes ≠ 0 ∧ g.waitEntries = [] ∧ t.depth ≠ 0
      ∧ ∃ u ∈ t.groups, u.num ≠ g.num ∧ u.frontier ≠ [])
    ∧ (∃ gd s t g e, Issuing s t g ∧ s.cur.handler = true ∧ g.active gd s.cur.lanes ≠ 0 ∧ (∀ u ∈ t.groups, u.waitEntries = [])
      ∧ t.depth ≠ 0 ∧ t.relieves = some e ∧ s.entry? e = some ownTask ∧ ownTask.state.open_ = true
      ∧ g.live &&& ~~~(g.active gd s.cur.lanes) = 0 ∧ ∀ u ∈ t.groups, u.num ≠ g.num → u.frontier = [])
    ∧ (∃ gd s s1 t g, Issuing s t g ∧ s.cur.handler = false ∧ g.slot = none ∧ g.pending.all Pending.isReady = true ∧ g.hvaDenied = false
      ∧ t.depth = 0 ∧ s.handlerCode t.ctx = (.none, s1) ∧ g.active gd s.cur.lanes ≠ 0 ∧ (∀ u ∈ t.groups, u.waitEntries = [])
      ∧ (∀ e ∈ s.own, e.owner ≠ .team t.id)) :=
  ⟨⟨⟨1, true⟩, sH, _, gTrapped, issuingH, rfl, by decide, by decide, by decide, by decide, rfl⟩,
    ⟨g7, sTask, tTask, gTrapped, issuing_of _ _ _ (by decide), rfl, by decide, by decide⟩,
    ⟨g7, sTaskTwo, tTwo, gLast, issuing_of _ _ _ (by decide), rfl, by decide, by decide, by decide, { g0 with num := 1 }, by simp [tTwo], by decide, by decide⟩,
    ⟨g7, sLast, tLast, gLast, 9, issuing_of _ _ _ (by decide), rfl, by decide, by decide, by decide, rfl, by decide, rfl, by decide, by decide⟩,
    ⟨g7, sNoHandler, _, t0, g0, issuing_of _ _ _ (by decide), rfl, rfl, rfl, rfl, rfl, Prod.ext (by decide) rfl, by decide, by decide, by decide⟩⟩

theorem wit_ReadSpecial :
    (∃ (o : RdsrOp), ∃ info s t g, Issuing s t g ∧ srInfo o.sr.toNat = some info ∧ info.priv = false ∧ o.sr.toNat = 0x020 ∧ g.flagsPending = false
      ∧ g.poolTraps (rdsrOut s o t g (g.active o.g s.cur.lanes)).regs = [])
    ∧ (∃ (o : RdsrOp), ∃ info s t g x, Issuing s t g ∧ srInfo o.sr.toNat = some info ∧ info.priv = true ∧ s.cur.handler = true
      ∧ o.sr.toNat ≠ 0x020 ∧ g.slot = some x ∧ g.poolTraps (rdsrOut s o t g (g.active o.g s.cur.lanes)).regs = [])
    ∧ (∃ (o : RdsrOp), ∃ info s t g, Issuing s t g ∧ srInfo o.sr.toNat = some info ∧ info.priv = false ∧ o.sr.toNat = 0x013
      ∧ g.poolTraps (rdsrOut s o t g (g.active o.g s.cur.lanes)).regs = []
      ∧ (s.die t.die).temp < 2 ^ 13 ∧ (s.die t.die).tset < 8 ∧ (s.die t.die).band < 8) :=
  ⟨⟨⟨g1, 8, 0x020⟩, _, s0, t0, g0, issuing0, rfl, rfl, rfl, by decide, by decide⟩,
    ⟨⟨g7, 8, 0x041⟩, _, sH, _, gTrapped, _, issuingH, rfl, rfl, rfl, by decide, rfl, by decide⟩,
    ⟨⟨g7, 8, 0x013⟩, _, s0, t0, g0, issuing0, rfl, rfl, rfl, by decide, by decide, by decide, by decide⟩⟩

theorem wit_WriteSpecial :
    (∃ (o : RdsrOp), ∃ info s t g code s1, Issuing s t g ∧ srInfo o.sr.toNat = some info ∧ info.priv = true ∧ s.cur.handler = false
      ∧ g.active o.g s.cur.lanes ≠ 0 ∧ g.poolTraps (rdsrOut s o t g (g.active o.g s.cur.lanes)).regs = [] ∧ CanTrap s t g code s1)
    ∧ (∃ (o : WrsrOp), ∃ s t g l, Issuing s t g ∧ (g.active o.g s.cur.lanes).lowest = some l ∧ o.sr.toNat = 0x020 ∧ g.flagsPending = false)
    ∧ (∃ (o : WrsrOp), ∃ s t g l, Issuing s t g ∧ (g.active o.g s.cur.lanes).lowest = some l ∧ o.sr.toNat = 0x021)
    ∧ (∃ (o : WrsrOp), ∃ s t g l, Issuing s t g ∧ (g.active o.g s.cur.lanes).lowest = some l ∧ o.sr.toNat = 0x022)
    ∧ (∃ (o : WrsrOp), ∃ s t g l x, Issuing s t g ∧ (g.active o.g s.cur.lanes).lowest = some l ∧ o.sr.toNat = 0x041 ∧ s.cur.handler = true
      ∧ g.slot = some x)
    ∧ (∃ (o : WrsrOp), ∃ info s t g code s1, Issuing s t g ∧ g.active o.g s.cur.lanes ≠ 0 ∧ srInfo o.sr.toNat = some info
      ∧ info.writable = false ∧ s.cur.handler = false ∧ CanTrap s t g code s1)
    ∧ (∃ (o : WrsrOp), ∃ info s t g, Issuing s t g ∧ g.active o.g s.cur.lanes ≠ 0 ∧ srInfo o.sr.toNat = some info
      ∧ info.writable = false ∧ s.cur.handler = true ∧ g.waitEntries = [] ∧ t.depth = 0) := by
  obtain ⟨c, s1, h⟩ := canTrap0
  exact ⟨⟨⟨g7, 8, 0x043⟩, _, s0, t0, g0, c, s1, issuing0, rfl, rfl, rfl, by decide, by decide, h⟩,
    ⟨⟨⟨1, true⟩, 0x020, 4⟩, s0, t0, g0, 16, issuing0, by decide, rfl, by decide⟩,
    ⟨⟨g7, 0x021, 4⟩, s0, t0, g0, 0, issuing0, by decide, rfl⟩,
    ⟨⟨g7, 0x022, 4⟩, s0, t0, g0, 0, issuing0, by decide, rfl⟩,
    ⟨⟨g7, 0x041, 4⟩, sH, _, gTrapped, 16, _, issuingH, by decide, rfl, rfl, rfl⟩,
    ⟨⟨g1, 0x00A, 4⟩, _, s0, t0, g0, c, s1, issuing0, by decide, rfl, rfl, rfl, h⟩,
    ⟨⟨g7, 0x00A, 4⟩, _, sH, _, gTrapped, issuingH, by decide, rfl, rfl, rfl, by decide, rfl⟩⟩

/-- Code at 0x100: a NOP, a pair of MOV and IADD at 0x180, `mset m3, 0x45678` at 0x1C0. -/
def sCode : State :=
  let pr := encodePair (.mov ⟨g7, .b32, 8, .reg 0⟩) (.iadd ⟨g7, .s32, false, false, 9, 0, .reg 1⟩)
  { s0 with
    mem := entries [(0x100, 0x1C00), (0x180, pr.toNat % 2 ^ 64), (0x188, pr.toNat / 2 ^ 64), (0x1C0, 0x00004567800C1F00)] mem0
    teams := [t0, { t0 with id := 2, slot := 1, base := 1, groups := [{ g0 with frontier := [{ pc := 0x180, prio := 7, lanes := allLanes }] }]
                            stream := some { pc := 0x1C0 } }] }

/-- An opcode that the spec does not assign. -/
def sIll : State := { s0 with mem := entries [(0x100, 0x1C70)] mem0 }

/-- A group without pending results, traps or parks that its slot chooses is at its instruction. -/
theorem at_of (s : State) (t : Team) (g : Machine.Group) (e : Entry) (l : List Byte)
    (h : s.team? t.id = some t ∧ t.group? g.num = some g ∧ s.mayIssue t g.num = true ∧ s.mustResend t.id g = false
      ∧ (s.engineTrapTo t g.num).isNone = true ∧ g.park.allows (s.die t.die).cycles = .go ∧ (s.chooses t g).1 = true
      ∧ ((s.chooses t g).2.deliverOwed t g).isNone = true
      ∧ (s.chooses t g).2.headEntry t g = some e ∧ g.deny = none ∧ ((s.chooses t g).2.fetch t e.pc (fetchLen e.pc)).1 = .bytes l) :
    ∃ s0 s1, AtInstruction s s0 s1 t g e l := by
  obtain ⟨h1, h2, h3, h4, h5, h6, h7, h8, h9, h10, h11⟩ := h
  exact ⟨_, _, h1, h2, h3, h4, Option.isNone_iff_eq_none.mp h5, h6, Prod.ext h7 rfl, Option.isNone_iff_eq_none.mp h8, h9, h10, Prod.ext h11 rfl⟩

theorem fetched_of (s : State) (t : Team) (pc : DWord) (n : Nat) (l : List Byte) (h : (s.fetch t pc n).1 = .bytes l) :
    ∃ s1, s.fetch t pc n = (.bytes l, s1) := ⟨_, Prod.ext h rfl⟩

theorem wf_of {i : Instr} (h : i.errs = []) : i.WellFormed := h

/-- The state of a turn. -/
def inTurn (s : State) (c : Cur) : State := { s with agenda := [], cur := c }

theorem wit_StepRunsWhatItDecodes :
    (∀ c, c ∈ [({} : Cur), { only := some 3 }, { later := true }] → ∃ s s0 s1 rest t g e l x i len, Turn.ofGroup x = some (t.id, g.num, c)
      ∧ State.agenda s = x :: rest ∧ AtInstruction { s with agenda := rest, cur := c } s0 s1 t g e l
      ∧ decodeBytes e.pc l = .one i len ∧ g.Free e [i])
    ∧ (∃ s s0 s1 rest t g e l i j, State.agenda s = .lane t.id g.num :: rest
      ∧ AtInstruction { s with agenda := rest, cur := {} } s0 s1 t g e l ∧ decodeBytes e.pc l = .pair i j ∧ g.Free e [i, j])
    ∧ (∃ s s0 s1 rest t g e l sub n, State.agenda s = .lane t.id g.num :: rest
      ∧ AtInstruction { s with agenda := rest, cur := {} } s0 s1 t g e l ∧ decodeBytes e.pc l = .illegal sub n)
    ∧ (∃ s s1 rest t m l i len, State.agenda s = .stream t.id :: rest ∧ ({ s with agenda := rest } : State).team? t.id = some t
      ∧ t.stream = some m ∧ m.ended = false ∧ m.park = .none ∧ m.owesReplay = false
      ∧ ({ s with agenda := rest } : State).mayIssue t 1 = true
      ∧ ({ s with agenda := rest } : State).fetch t m.pc 8 = (.bytes l, s1) ∧ decodeWord l = .one i len)
    ∧ (∃ s : State, s.doomed = [])
    ∧ (∃ s rest i, State.agenda s = .event i :: rest ∧ isEvent i = true) := by
  refine ⟨fun c hl => ?_, ?_, ?_, ?_, ⟨s0, rfl⟩, ⟨{ s0 with agenda := [.event (.epochBoundary 0)] }, [], .epochBoundary 0, rfl, rfl⟩⟩
  · have hx : c = {} ∨ c = { only := some 3 } ∨ c = { later := true } := by simpa using hl
    rcases hx with rfl | rfl | rfl
    · obtain ⟨a, b, h⟩ := at_of (inTurn sCode {}) t0 g0 { pc := 0x100, prio := 7, lanes := allLanes } (leBytes 16 0x1C00) (by decide +kernel)
      exact ⟨{ sCode with agenda := [.lane 1 0] }, a, b, [], _, _, _, _, .lane 1 0, .nop g7, 8, rfl, rfl, h, by decide +kernel, by decide +kernel, by decide +kernel⟩
    · obtain ⟨a, b, h⟩ := at_of (inTurn sCode { only := some 3 }) t0 g0 { pc := 0x100, prio := 7, lanes := allLanes } (leBytes 16 0x1C00) (by decide +kernel)
      exact ⟨{ sCode with agenda := [.blocks 1 0 3] }, a, b, [], _, _, _, _, .blocks 1 0 3, .nop g7, 8, rfl, rfl, h, by decide +kernel, by decide +kernel, by decide +kernel⟩
    · obtain ⟨a, b, h⟩ := at_of (inTurn sCode { later := true }) t0 g0 { pc := 0x100, prio := 7, lanes := allLanes } (leBytes 16 0x1C00) (by decide +kernel)
      exact ⟨{ sCode with agenda := [.later 1 0] }, a, b, [], _, _, _, _, .later 1 0, .nop g7, 8, rfl, rfl, h, by decide +kernel, by decide +kernel, by decide +kernel⟩
  · obtain ⟨a, b, h⟩ := at_of (inTurn sCode {}) (sCode.teams.getD 1 t0) { g0 with frontier := [{ pc := 0x180, prio := 7, lanes := allLanes }] }
      { pc := 0x180, prio := 7, lanes := allLanes }
      (leBytes 16 (encodePair (.mov ⟨g7, .b32, 8, .reg 0⟩) (.iadd ⟨g7, .s32, false, false, 9, 0, .reg 1⟩)).toNat) (by decide +kernel)
    exact ⟨{ sCode with agenda := [.lane 2 0] }, a, b, [], _, _, _, _, _, _, rfl, h,
      (by decide +kernel : _ = Decoded.pair (.mov ⟨g7, .b32, 8, .reg 0⟩) (.iadd ⟨g7, .s32, false, false, 9, 0, .reg 1⟩)), by decide +kernel, by decide +kernel⟩
  · obtain ⟨a, b, h⟩ := at_of (inTurn sIll {}) t0 g0 { pc := 0x100, prio := 7, lanes := allLanes } (leBytes 16 0x1C70) (by decide +kernel)
    exact ⟨{ sIll with agenda := [.lane 1 0] }, a, b, [], _, _, _, _, .opcode, 2, rfl, h, by decide +kernel⟩
  · obtain ⟨s4, h4⟩ := fetched_of { sCode with agenda := [] } (sCode.teams.getD 1 t0) 0x1C0 8 (leBytes 8 0x00004567800C1F00) (by decide +kernel)
    exact ⟨{ sCode with agenda := [.stream 2] }, s4, [], sCode.teams.getD 1 t0, { pc := 0x1C0 }, leBytes 8 0x00004567800C1F00, .mset 3 0x45678, 8, rfl,
      by decide +kernel, by decide +kernel, rfl, rfl, rfl, by decide +kernel, h4, by decide +kernel⟩

theorem wit_PairActsAsBoth :
    (∃ i j gi fi gj fj s t g, pairOut i = some (gi, fi) ∧ pairOut j = some (gj, fj) ∧ PairRule.independent i j = true ∧ Issuing s t g
      ∧ g.poolTraps ((fi t g (g.active gi s.cur.lanes)).regs ++ (fj t g (g.active gj s.cur.lanes)).regs) = []
      ∧ g.poolTraps (fi t g (g.active gi s.cur.lanes)).regs = [] ∧ g.poolTraps (fj t g (g.active gj s.cur.lanes)).regs = [])
    ∧ (∃ i j gi fi gj fj s t g code s1 r, pairOut i = some (gi, fi) ∧ pairOut j = some (gj, fj) ∧ PairRule.independent i j = true
      ∧ Issuing s t g ∧ CanTrap s t g code s1
      ∧ g.poolFail (((fi t g (g.active gi s.cur.lanes)).regs ++ (fj t g (g.active gj s.cur.lanes)).regs).map fun w => (w.reg, w.shape)) = some r) := by
  obtain ⟨code, s1, h⟩ := canTrap_of (machine gNoRow) (teamOf gNoRow) gNoRow (by decide)
  exact ⟨⟨.iadd ⟨g1, .s32, false, false, 8, 0, .reg 4⟩, .fcmp ⟨g7, .f32, 0, 2, 0, .reg 4⟩, _, _, _, _, s0, t0, g0, rfl, rfl, by decide, issuing0,
      by decide, by decide, by decide⟩,
    ⟨.iadd ⟨g1, .s32, false, false, 9, 0, .reg 4⟩, .mov ⟨g1, .b32, 8, .reg 0⟩, _, _, _, _, _, _, _, code, s1, 8, rfl, rfl, by decide,
      issuing_of _ _ _ (by decide), h, by decide⟩⟩

theorem wit_StepKeepsInvariant : ∃ s s' : State, s.Inv ∧ step s = .next s' :=
  ⟨{ sCode with agenda := [.lane 1 0] }, _, ⟨by decide, rfl⟩, rfl⟩

theorem wit_EncodingRoundTrip :
    (∃ i off, Instr.WellFormed i ∧ i.kind = .lane ∧ 0 < (encode i).len ∧ off + (encode i).len ≤ 32)
    ∧ (∃ i, Instr.WellFormed i ∧ i.kind = .matrix)
    ∧ (∃ i j off, Instr.WellFormed i ∧ j.WellFormed ∧ (encode i).len = 8 ∧ (encode j).len = 8 ∧ off + 16 ≤ 32
      ∧ PairRule.legal 0 ((encode i).bits.extractLsb' 3 7).toNat ((encode j).bits.extractLsb' 3 7).toNat i j = true) :=
  ⟨⟨.mov ⟨g1, .b64, 638, .imm64 0xFFFFFFFFFFFFFFFF⟩, 16, wf_of (by decide), by decide, by decide, by decide⟩,
    ⟨.mstr ⟨.e5m2x4, 15, 30, 31, 15, true, true, true, true, true⟩, wf_of (by decide), by decide⟩,
    ⟨.mov ⟨g7, .b32, 8, .reg 0⟩, .iadd ⟨g1, .s32, false, false, 9, 0, .reg 1⟩, 16, wf_of (by decide), wf_of (by decide), by decide, by decide, by decide, by decide⟩⟩

theorem wit_DecodingIsExact :
    (∃ i off n w, decodeLane off w = .one i n) ∧ (∃ i n w, decodeStream w = .one i n) ∧ (∃ i j off w, decodeLane off w = .pair i j) :=
  ⟨⟨.tretSkip, 20, 8, 0x00100000_00001E68, by decide⟩, ⟨.nop g7, 8, 0x1C00, by decide⟩,
    ⟨_, _, 16, encodePair (.mov ⟨g7, .b32, 8, .reg 0⟩) (.iadd ⟨g1, .s32, false, false, 9, 0, .reg 1⟩),
      (by decide : _ = Decoded.pair (.mov ⟨g7, .b32, 8, .reg 0⟩) (.iadd ⟨g1, .s32, false, false, 9, 0, .reg 1⟩))⟩⟩

/-- `g0` with an address that has no page in `v2:v3`, a misaligned one, and a noncanonical one. -/
def gUnmapped : Machine.Group := { g0 with regs := [(0, .affine 0 1), (2, .uniform 0x80000000)] }
def gMisaligned : Machine.Group := { g0 with regs := [(2, .affine 0x4001 4)] }
def gNoncanon : Machine.Group := { g0 with regs := [(3, .uniform 0x01000000), (4, .general [])] }

/-- The parameter windows: bytes of a block, memory, none. -/
def tWindows : Team := { t0 with windows := [none, some (.block [1, 2, 3, 4, 5]), some (.mem 0x4000 6)] }

def sWindows : State := withTeam tWindows

/-- A cluster of two teams on two cores; lanes 0 to 15 of the first name their own scratchpad and lanes 16 to 31 the other's. -/
def gPair : Machine.Group :=
  { g0 with regs := [(4, .affine 1 3), (6, .general (laneVals fun l => BitVec.ofNat 32 (if l < 16 then 0x100 + 8 * l else 0x4400100 + 8 * l)))] }
def tPair : Team := { t0 with cw := 2, groups := [gPair] }
def tPeer : Team := { t0 with id := 2, core := 1, index := 1, cx := 1, cw := 2, groups := [{ g0 with frontier := [] }] }
def sPair : State := { withTeam tPair with teams := [tPair, tPeer] }

/-- A turn in which accesses to the own core's scratchpad are performed later. -/
def sLater : State := { s0 with cur := { s0.cur with later := true } }

theorem issuingLater : Issuing sLater t0 g0 := issuing_of _ _ _ (by decide +kernel)

theorem issuingPair : Issuing sPair tPair gPair := issuing_of _ _ _ (by decide +kernel)

theorem wit_LoadsIssue :
    (∃ (o : LdOp) (s : State) (t : Team) (g : Machine.Group), Issuing s t g ∧ g.fences = [] ∧
      let m := g.active o.g s.cur.lanes
      let z := elemBytes o.ty o.sz
      let ls := accessLanes o.bcast m
      let x := (s.xlateAll t.ctx .read (g.pieces ls o.a (moffVal o.off))).1
      g.Aligned ls o.a (moffVal o.off) z ∧ poolFor g (regsOf o.ty o.d) (g.loadShape o.bcast [o.a.toNat, o.a.toNat + 1] m) = []
        ∧ o.order = 4 ∧ s.releaseWaits t g m o.scope.toNat = false ∧ x.fatal = none ∧ x.blocked = false ∧ x.replay = [])
    ∧ (∃ (o : LdOp) (s : State) (t : Team) (g : Machine.Group), Issuing s t g ∧ g.fences = [] ∧
      let m := g.active o.g s.cur.lanes
      let z := elemBytes o.ty o.sz
      let ls := accessLanes o.bcast m
      let x := (s.xlateAll t.ctx .read (g.pieces ls o.a (moffVal o.off))).1
      g.Aligned ls o.a (moffVal o.off) z ∧ poolFor g (regsOf o.ty o.d) (g.loadShape o.bcast [o.a.toNat, o.a.toNat + 1] m) = []
        ∧ o.order = 0 ∧ x.fatal = none ∧ x.blocked = false ∧ x.replay ≠ [])
    ∧ (∀ far, ∃ (o : LdsOp) (s : State) (t : Team) (g : Machine.Group), Issuing s t g ∧ g.fences = [] ∧
      let m := g.active o.g s.cur.lanes
      let z := elemBytes o.ty o.sz
      let ls := accessLanes o.bcast m
      let addr := fun l => g.shortAddr o.abs o.a (moffVal o.off) l
      let at_ := fun l => (s.spadTarget t (addr l) z).getD (0, 0)
      poolFor g (regsOf o.ty o.d) (g.loadShape o.bcast (if o.abs then [] else [o.a.toNat]) m) = []
        ∧ s.spadTraps t false z (ls.map addr) = [] ∧ (∀ l ∈ ls, s.spadPresent (at_ l).1 (at_ l).2 = true)
        ∧ (o.order = 4 → s.releaseWaits t g m o.scope.toNat = false) ∧ (ls.any fun l => s.spadLater t g (at_ l).1) = far)
    ∧ (∃ (o : LdpOp) (s : State) (t : Team) (g : Machine.Group) (b : List Byte), Issuing s t g ∧ g.fences = []
      ∧ poolFor g (regsOf o.ty o.d) (g.loadShape o.bcast (if o.abs then [] else [o.a.toNat]) (g.active o.g s.cur.lanes)) = []
      ∧ t.windows.getD o.win.toNat none = some (.block b))
    ∧ (∃ (o : LdpOp) (s : State) (t : Team) (g : Machine.Group) (base : DWord) (n : Nat), Issuing s t g ∧ g.fences = []
      ∧ poolFor g (regsOf o.ty o.d) (g.loadShape o.bcast (if o.abs then [] else [o.a.toNat]) (g.active o.g s.cur.lanes)) = []
      ∧ t.windows.getD o.win.toNat none = some (.mem base n)
      ∧ let x := (s.xlateAll t.ctx .read ((accessLanes o.bcast (g.active o.g s.cur.lanes)).flatMap fun l =>
            windowPieces base n (elemBytes o.ty o.sz) l (g.shortAddr o.abs o.a (moffVal o.off) l).toNat)).1
        x.fatal = none ∧ x.blocked = false)
    ∧ (∃ (o : LdpOp) (s : State) (t : Team) (g : Machine.Group) (code : DWord) (s1 : State), Issuing s t g ∧ g.fences = []
      ∧ poolFor g (regsOf o.ty o.d) (g.loadShape o.bcast (if o.abs then [] else [o.a.toNat]) (g.active o.g s.cur.lanes)) = []
      ∧ t.windows.getD o.win.toNat none = none ∧ g.active o.g s.cur.lanes ≠ 0 ∧ CanTrap s t g code s1) := by
  obtain ⟨c, s1, h⟩ := canTrap_of sWindows tWindows g0 (by decide +kernel)
  have hw : Issuing sWindows tWindows g0 := issuing_of _ _ _ (by decide +kernel)
  exact ⟨⟨⟨g7, 15, .b64, 0, false, 4, 5, 8, 2, .b10 8⟩, s0, t0, g0, issuing0, rfl, by unfold Group.Aligned; decide +kernel⟩,
    ⟨⟨g1, 0, .s32, 1, false, 0, 0, 8, 2, .none⟩, machine gUnmapped, teamOf gUnmapped, gUnmapped, issuing_of _ _ _ (by decide +kernel), rfl,
      by unfold Group.Aligned; decide +kernel⟩,
    fun far => by
      cases far
      · exact ⟨⟨g7, 1, .b32, 0, true, 4, 2, false, 8, 6, .i32 0x7F7C⟩, s0, t0, g0, issuing0, rfl, by decide +kernel⟩
      · exact ⟨⟨g7, 1, .b64, 0, false, 4, 5, false, 8, 6, .none⟩, sPair, tPair, gPair, issuingPair, rfl, by decide +kernel⟩,
    ⟨⟨g7, 1, .b32, 0, false, 1, false, 8, 0, .none⟩, sWindows, tWindows, g0, _, hw, rfl, by decide +kernel, rfl⟩,
    ⟨⟨g7, 1, .n32, 2, false, 2, false, 8, 0, .none⟩, sWindows, tWindows, g0, _, _, hw, rfl, by decide +kernel, rfl, by decide +kernel⟩,
    ⟨⟨g1, 1, .b32, 0, false, 7, true, 8, 0, .none⟩, sWindows, tWindows, g0, c, s1, hw, rfl, by decide +kernel, rfl, by decide +kernel, h⟩⟩

theorem wit_StoresIssue :
    (∃ (o : StOp) (s : State) (t : Team) (g : Machine.Group), Issuing s t g ∧ g.fences = [] ∧
      let m := g.active o.g s.cur.lanes
      g.Aligned m.lanes o.a (moffVal o.off) (elemBytes o.ty o.sz) ∧ o.order = 4 ∧ o.scope.toNat = 5
        ∧ s.releaseWaits t g m o.scope.toNat = false ∧ m ≠ 0
        ∧ let x := (s.xlateAll t.ctx .write (m.lanes.map fun l =>
            { lane := l, va := g.globalAddr o.a (moffVal o.off) l, data := g.typed o.ty o.d l })).1
          x.fatal = none ∧ x.blocked = false)
    ∧ (∀ far, ∃ (o : StsOp) (s : State) (t : Team) (g : Machine.Group), Issuing s t g ∧ g.fences = [] ∧
      let m := g.active o.g s.cur.lanes
      let z := elemBytes o.ty o.sz
      let addr := fun l => g.shortAddr o.abs o.a (moffVal o.off) l
      let at_ := fun l => (s.spadTarget t (addr l) z).getD (0, 0)
      s.spadTraps t true z (m.lanes.map addr) = [] ∧ o.order = 4 ∧ 2 ≤ o.scope.toNat ∧ s.releaseWaits t g m o.scope.toNat = false
        ∧ (∀ l ∈ m.lanes, s.spadPresent (at_ l).1 (at_ l).2 = true) ∧ (m.lanes.any fun l => s.spadLater t g (at_ l).1) = far) := by
  refine
  ⟨⟨⟨g7, .b64, 0, 4, 5, 4, 2, .b10 (-8)⟩, s0, t0, g0, issuing0, rfl, by unfold Group.Aligned; decide +kernel⟩,
    fun far => ?_⟩
  cases far
  · exact ⟨⟨g1, .b32, 1, 4, 2, false, 4, 6, .b10 (-128)⟩, s0, t0, g0, issuing0, rfl, by decide +kernel⟩
  · exact ⟨⟨g7, .b32, 0, 4, 5, false, 4, 6, .none⟩, sPair, tPair, gPair, issuingPair, rfl, by decide +kernel⟩

/-- Lanes of a store: two lanes write the same four bytes. -/
def twoLanes : List LaneAddr :=
  [{ lane := 0, va := 0x4000, sa := some 0x4000, data := 0x11223344 }, { lane := 5, va := 0x4000, sa := some 0x4000, data := 0x55667788 }]

def entry0 (kind : FifoKind) (fn : AtomFn) : StoreEntry :=
  { id := 40, kind := kind, fn := fn, ty := .n32, bytes := 4, order := 0, scope := 1, bundle := allLanes, lanes := twoLanes, pend := 41 }

def access0 (kind : AccKind) (owner : Nat) (lanes : List LaneAddr) : Access :=
  { id := 50, kind := kind, tid := 1, grp := 0, owner := owner, ctx := 1, die := 0, core := 0, line := 0x80, lanes := lanes, bytes := 4
    scope := 1 }

def pend0 : Pending :=
  { id := 41, kind := .load, bundle := allLanes, active := 1, win := laneList.map fun _ => 0, regs := [8], left := 1 }

/-- A group with the entry at the head of its FIFO and a result pending, and one access on its way. -/
def gFifo (e : StoreEntry) : Machine.Group := { g0 with fifo := [e], pending := [pend0] }
def sFifo (e : StoreEntry) (a : Access) : State := { machine (gFifo e) with accesses := [a] }

/-- The mode of the 256-byte block at 0x4000 is `n` (R164, R167). -/
def sBlock (g : Machine.Group) (a : Access) (n : Byte) : State :=
  { machine g with mem := Machine.writeBytes mem0 0x40 [n], accesses := [a] }

def bldLane : LaneAddr := { lane := 3, va := 0x4010, sa := some 0x4010, bld := true, data := 0x11223344 }

/-- A group with a pending load and nothing queued. -/
def gLoad : Machine.Group := { g0 with pending := [pend0] }

/-- One lane's scratchpad access on its way to the team of number `target`. -/
def remote0 (target : Nat) (op : RemoteOp) (pend : Option Nat) : Remote :=
  { id := 60, issue := 59, tid := 1, grp := 0, target := target, op := op, ty := .n32, bytes := 4, pend := pend, bundle := allLanes
    lanes := [{ lane := 20, va := 0x4400100, data := 7 }] }

def sRemote (target : Nat) (op : RemoteOp) (pend : Option Nat) : State :=
  { sPair with teams := [{ tPair with groups := [gLoad] }, tPeer], remotes := [remote0 target op pend] }

theorem wit_AccessesPerform :
    (∃ (s : State) (t : Team) (g : Machine.Group) (e : StoreEntry) (r : List StoreEntry), s.team? t.id = some t ∧ t.group? g.num = some g
      ∧ g.fifo = e :: r ∧ e.handed = false ∧ e.faults = [] ∧ (∀ a ∈ e.lanes, a.sa.isSome = true) ∧ s.storeWaits t g e = false)
    ∧ (∃ (s : State) (a : Access) (g : Machine.Group) (e : StoreEntry), a.id ≠ 0 ∧ s.accesses.find? (fun b => b.id == a.id) = some a
      ∧ a.kind = .store ∧ s.held a.die (a.line * 128) = false ∧ s.group? a.tid a.grp = some g
      ∧ g.fifo.find? (fun e => e.id == a.owner) = some e ∧ a.bld = false)
    ∧ (∃ (s : State) (a : Access) (g : Machine.Group) (e : StoreEntry) (p : LaneAddr) (l : List Byte), a.id ≠ 0
      ∧ s.accesses.find? (fun b => b.id == a.id) = some a ∧ a.kind = .store ∧ s.held a.die (a.line * 128) = false
      ∧ s.group? a.tid a.grp = some g ∧ g.fifo.find? (fun e => e.id == a.owner) = some e ∧ a.bld = true ∧ a.lanes = [p]
      ∧ s.bldMode (p.sa.getD 0) ≠ 0 ∧ s.blockBytes (p.sa.getD 0) = .ok l ∧ l.length = 256
      ∧ let sa := p.sa.getD 0
        let md := s.mdAddr sa + blockOf sa
        sa % 256 + e.bytes ≤ 256 ∧ ¬ (sa / 256 * 256 ≤ md ∧ md < sa / 256 * 256 + 256))
    ∧ (∃ (s : State) (a : Access) (g : Machine.Group) (e : StoreEntry) (p : LaneAddr), a.id ≠ 0
      ∧ s.accesses.find? (fun b => b.id == a.id) = some a ∧ a.kind = .atom ∧ s.held a.die (a.line * 128) = false ∧ s.group? a.tid a.grp = some g
      ∧ g.fifo.find? (fun e => e.id == a.owner) = some e ∧ a.bld = false ∧ a.lanes = [p]
      ∧ (∀ b ∈ s.accesses, b.kind = .atom → b.owner = a.owner → a.id ≤ b.id)
      ∧ e.kind = .atom ∧ (g.pending.find? (fun q => q.id == e.pend)).isSome = true)
    ∧ (∃ (s : State) (a : Access) (g : Machine.Group) (q : Pending) (mem : LaneAddr → List Byte), a.id ≠ 0
      ∧ s.accesses.find? (fun b => b.id == a.id) = some a ∧ a.kind = .load ∧ s.held a.die (a.line * 128) = false
      ∧ s.group? a.tid a.grp = some g ∧ s.loadHeldBack g a = false ∧ g.pending.find? (fun q => q.id == a.owner) = some q
      ∧ (∀ p ∈ a.lanes, s.readVia p.bld (p.sa.getD 0) a.bytes = .ok (mem p)) ∧ (a.lanes.map fun p => 8 * p.lane + p.off).Nodup
      ∧ (∀ p ∈ a.lanes, ∀ r ∈ a.lanes, p.lane = r.lane → p.off ≠ r.off → p.off + a.bytes ≤ r.off ∨ r.off + a.bytes ≤ p.off)
      ∧ (∀ p ∈ a.lanes, p.off + a.bytes ≤ 8)
      ∧ (∀ p ∈ a.lanes, ∀ e x, ¬ s.Queues g a.owner e x (va57 p.va) p.sa))
    ∧ (∃ (s : State) (a : Access) (g : Machine.Group) (q : Pending) (mem : LaneAddr → List Byte) (p : LaneAddr) (e : StoreEntry)
        (f1 f2 : List StoreEntry) (m1 m2 : List LaneAddr) (x : LaneAddr) (k : Nat), a.id ≠ 0
      ∧ s.accesses.find? (fun b => b.id == a.id) = some a ∧ a.kind = .load ∧ s.held a.die (a.line * 128) = false
      ∧ s.group? a.tid a.grp = some g ∧ s.loadHeldBack g a = false ∧ g.pending.find? (fun q => q.id == a.owner) = some q
      ∧ (∀ p ∈ a.lanes, s.readVia p.bld (p.sa.getD 0) a.bytes = .ok (mem p)) ∧ p ∈ a.lanes
      ∧ g.fifo = f1 ++ e :: f2 ∧ e.lanes = m1 ++ x :: m2 ∧ e.kind = .st ∧ s.Queues g a.owner e x (va57 p.va) p.sa
      ∧ (∀ y ∈ m2, ¬ s.Queues g a.owner e y (va57 p.va) p.sa) ∧ (∀ e2 ∈ f2, ∀ y, ¬ s.Queues g a.owner e2 y (va57 p.va) p.sa)
      ∧ x.covers e.bytes (va57 p.va) p.sa = some k)
    ∧ (∃ (s : State) (a : Access) (g : Machine.Group) (q : Pending) (p : LaneAddr) (rest : List LaneAddr) (c : MemFmt), a.id ≠ 0
      ∧ s.accesses.find? (fun b => b.id == a.id) = some a ∧ a.kind = .load ∧ s.held a.die (a.line * 128) = false
      ∧ s.group? a.tid a.grp = some g ∧ s.loadHeldBack g a = false ∧ g.pending.find? (fun q => q.id == a.owner) = some q
      ∧ a.lanes = p :: rest ∧ p.full (s.ownQueue g a.owner) a.bytes = false ∧ s.readVia p.bld (p.sa.getD 0) a.bytes = .error c
      ∧ q.bundle &&& g.live ≠ 0)
    ∧ (∀ n : Byte, n ∈ [0, 1, 3, 0xFF] → ∃ (s : State) (sa : Nat), s.bldMode sa = n.toNat)
    ∧ (∀ op ∈ [RemoteOp.read, .op .cas], ∃ (s : State) (r : Remote) (g : Machine.Group) (u : Team) (a : LaneAddr), r.op = op ∧ r.id ≠ 0
      ∧ s.accesses.find? (fun b => b.id == r.id) = none ∧ s.remotes.find? (fun x => x.id == r.id) = some r ∧ s.remoteWaits r = false
      ∧ s.group? r.tid r.grp = some g ∧ s.team? r.target = some u ∧ r.lanes = [a] ∧ r.bytes ≤ 8
      ∧ s.spadPresent r.target a.spadOff = true ∧ 128 ≤ a.spadOff ∧ ∃ i q, r.pend = some i ∧ g.pending.find? (fun q => q.id == i) = some q)
    ∧ (∃ (s : State) (r : Remote) (g : Machine.Group) (a : LaneAddr), r.id ≠ 0 ∧ s.accesses.find? (fun b => b.id == r.id) = none
      ∧ s.remotes.find? (fun x => x.id == r.id) = some r ∧ s.remoteWaits r = false ∧ s.group? r.tid r.grp = some g
      ∧ s.team? r.target = none ∧ r.lanes = [a] ∧ r.bundle &&& g.live ≠ 0) := by
  refine ⟨⟨sFifo (entry0 .st .store) (access0 .load 41 []), teamOf (gFifo (entry0 .st .store)), gFifo (entry0 .st .store), _, _,
      by decide +kernel, by decide +kernel, rfl, rfl, rfl, by decide +kernel, by decide +kernel⟩,
    ⟨sFifo (entry0 .st .store) (access0 .store 40 twoLanes), access0 .store 40 twoLanes, gFifo (entry0 .st .store), entry0 .st .store,
      by decide, by decide +kernel, rfl, by decide +kernel, by decide +kernel, by decide +kernel, rfl⟩,
    ⟨sBlock (gFifo (entry0 .st .store)) (access0 .store 40 [bldLane]) 1, (access0 .store 40 [bldLane]),
      gFifo (entry0 .st .store), entry0 .st .store, bldLane, _, by decide, by decide +kernel, rfl, by decide +kernel, by decide +kernel,
      by decide +kernel, rfl, rfl, by decide +kernel, rfl, by decide +kernel, by decide +kernel, by decide +kernel⟩,
    ⟨sFifo (entry0 .atom .cas) (access0 .atom 40 (twoLanes.take 1)), access0 .atom 40 (twoLanes.take 1), gFifo (entry0 .atom .cas),
      entry0 .atom .cas, _, by decide, by decide +kernel, rfl, by decide +kernel, by decide +kernel, by decide +kernel, rfl, rfl,
      by decide +kernel, rfl, by decide +kernel⟩,
    ⟨sBlock gLoad (access0 .load 41 twoLanes) 0, access0 .load 41 twoLanes, gLoad, pend0, fun _ => [0, 0, 0, 0], by decide, by decide +kernel,
      rfl, by decide +kernel, by decide +kernel, by decide +kernel, by decide +kernel, ?_, by decide +kernel, by decide +kernel,
      by decide +kernel, ?_⟩,
    ⟨sFifo (entry0 .st .store) (access0 .load 41 [twoLanes.getD 0 bldLane]), access0 .load 41 [twoLanes.getD 0 bldLane], gFifo (entry0 .st .store), pend0,
      fun _ => [0, 0, 0, 0], twoLanes.getD 0 bldLane, entry0 .st .store, [], [], twoLanes.take 1, [], twoLanes.getD 1 bldLane, 0,
      by decide, by decide +kernel, rfl, by decide +kernel, by decide +kernel, by decide +kernel, by decide +kernel, ?_, by decide +kernel,
      rfl, rfl, rfl, ?_, ?_, ?_, by decide +kernel⟩,
    ⟨sBlock gLoad (access0 .load 41 [bldLane]) 3, (access0 .load 41 [bldLane]), gLoad, pend0, bldLane, [], 3,
      by decide, by decide +kernel, rfl, by decide +kernel, by decide +kernel, by decide +kernel, by decide +kernel, rfl, by decide +kernel,
      ?_, by decide +kernel⟩,
    fun n hn => ?_, fun op ho => ?_,
    ⟨sRemote 9 .read none, remote0 9 .read none, gLoad, _, by decide, rfl, by decide +kernel, by decide +kernel, by decide +kernel,
      by decide +kernel, rfl, by decide +kernel⟩⟩
  · intro p hp
    have : p ∈ twoLanes := hp
    simp only [twoLanes, List.mem_cons, List.not_mem_nil, or_false] at this
    rcases this with rfl | rfl <;> rfl
  · rintro p - e x ⟨h, -⟩
    exact absurd h List.not_mem_nil
  · intro p hp
    rw [List.mem_singleton.mp hp]
    rfl
  · unfold State.Queues
    decide +kernel
  · intro y hy
    exact absurd hy List.not_mem_nil
  · intro y hy
    exact absurd hy List.not_mem_nil
  · rfl
  · exact ⟨sBlock g0 (access0 .load 0 []) n, 0x4000, by
      simp only [List.mem_cons, List.not_mem_nil, or_false] at hn
      rcases hn with rfl | rfl | rfl | rfl <;> decide +kernel⟩
  · simp only [List.mem_cons, List.not_mem_nil, or_false] at ho
    rcases ho with rfl | rfl
    · exact ⟨sRemote 2 .read (some 41), remote0 2 .read (some 41), gLoad, tPeer, _, rfl, by decide, rfl, by decide +kernel, by decide +kernel,
        by decide +kernel, by decide +kernel, rfl, by decide, by decide +kernel, by decide +kernel, 41, pend0, rfl, by decide +kernel⟩
    · exact ⟨sRemote 2 (.op .cas) (some 41), remote0 2 (.op .cas) (some 41), gLoad, tPeer, _, rfl, by decide, rfl, by decide +kernel, by decide +kernel,
        by decide +kernel, by decide +kernel, rfl, by decide, by decide +kernel, by decide +kernel, 41, pend0, rfl, by decide +kernel⟩

theorem wit_AtomicsIssue :
    (∀ i ∈ [Instr.atomAdd ⟨g7, 1, .n32, false, 4, 4, 8, 2, .reg 4, none⟩, .redXor ⟨g1, .b64, false, 4, 5, 2, .imm10 (-1), some 0xFFF8⟩],
      ∃ (q : AtomReq) (s : State) (t : Team) (g : Machine.Group), atomicOf i = some q ∧ q.spad = false ∧ Issuing s t g ∧ g.fences = [] ∧
      let m := g.active q.g s.cur.lanes
      let third := fun l => match q.c with | some c => g.typed q.ty c l | none => 0
      g.Aligned m.lanes q.a (q.off.signExtend 64) (atomBytes q.ty)
        ∧ poolFor g (match q.dst with | some (d, _) => regsOf q.ty d | none => []) .general = [] ∧ q.order = 4 ∧ 2 ≤ q.scope
        ∧ s.releaseWaits t g m q.scope = false
        ∧ let x := (s.xlateAll t.ctx .write (m.lanes.map fun l =>
            { lane := l, va := g.globalAddr q.a (q.off.signExtend 64) l, data := g.src q.ty q.v l, cmp := third l })).1
          x.fatal = none ∧ x.blocked = false)
    ∧ (∀ i ∈ [Instr.atomCas ⟨g7, 0, .b32, true, 0, 0, 8, 1, 4, 0, 0x100⟩, .redMin ⟨g1, .s32, true, 2, 1, 1, .imm10 (-1), some 0x7FF4⟩],
      ∃ (q : AtomReq) (s : State) (t : Team) (g : Machine.Group), atomicOf i = some q ∧ q.spad = true ∧ Issuing s t g ∧ g.fences = [] ∧
      let m := g.active q.g s.cur.lanes
      let z := atomBytes q.ty
      let addr := fun l => g.elem q.a.toNat l + q.off.signExtend 32
      let place := fun l => (s.spadTarget t (addr l) z).getD (0, 0)
      poolFor g (match q.dst with | some (d, _) => regsOf q.ty d | none => []) .general = [] ∧ s.spadTraps t true z (m.lanes.map addr) = []
        ∧ (∀ l ∈ m.lanes, s.spadPresent (place l).1 (place l).2 = true) ∧ s.releaseWaits t g m q.scope = false
        ∧ (∀ l ∈ m.lanes, ∀ k ∈ m.lanes, l ≠ k → place l ≠ place k))
    ∧ (∀ i ∈ [Instr.atomCas ⟨g7, 0, .b32, true, 4, 5, 8, 6, 4, 0, 0⟩, .redAdd ⟨g7, .s32, true, 4, 5, 6, .reg 4, none⟩],
      ∃ (q : AtomReq), atomicOf i = some q ∧ q.spad = true ∧ Issuing sPair tPair gPair ∧ gPair.fences = [] ∧
      let m := gPair.active q.g sPair.cur.lanes
      let z := atomBytes q.ty
      let addr := fun l => gPair.elem q.a.toNat l + q.off.signExtend 32
      let place := fun l => (sPair.spadTarget tPair (addr l) z).getD (0, 0)
      poolFor gPair (match q.dst with | some (d, _) => regsOf q.ty d | none => []) .general = []
        ∧ sPair.spadTraps tPair true z (m.lanes.map addr) = [] ∧ (∀ l ∈ m.lanes, sPair.spadPresent (place l).1 (place l).2 = true)
        ∧ q.order = 4 ∧ 2 ≤ q.scope ∧ sPair.releaseWaits tPair gPair m q.scope = false
        ∧ (∀ l ∈ m.lanes, ∀ k ∈ m.lanes, l ≠ k → place l ≠ place k)
        ∧ (∃ l ∈ m.lanes, sPair.spadLater tPair gPair (place l).1 = false) ∧ ∃ l ∈ m.lanes, sPair.spadLater tPair gPair (place l).1 = true) := by
  refine ⟨fun i hi => ?_, fun i hi => ?_, fun i hi => ?_⟩ <;>
    (simp only [List.mem_cons, List.not_mem_nil, or_false] at hi
     rcases hi with rfl | rfl <;>
       first
         | exact ⟨_, rfl, rfl, issuingPair, rfl, by decide +kernel⟩
         | exact ⟨_, s0, t0, g0, rfl, rfl, issuing0, rfl, by first | decide +kernel | (unfold Group.Aligned; decide +kernel)⟩)

theorem least_of {n : Nat} (l : List (BitVec n)) (v : BitVec n) (h : (l.contains v && l.all fun w => Nat.ble v.toNat w.toNat) = true) :
    v ∈ l ∧ ∀ w ∈ l, v.toNat ≤ w.toNat := by
  rw [Bool.and_eq_true] at h
  exact ⟨List.contains_iff_mem.mp h.1, fun w hw => Nat.le_of_ble_eq_true (List.all_eq_true.mp h.2 w hw)⟩

theorem wit_MemoryTraps :
    (∃ (i : Instr) (s : State) (t : Team) (g : Machine.Group) (a : VR) (off : DWord) (z : Nat) (ls : List Nat) (v code : DWord) (s1 : State),
      globalAccess i s g = some (a, off, z, ls) ∧ Issuing s t g ∧ g.fences = [] ∧ (∀ d ∈ i.uses.rd, (g.reg d).shape = .general)
      ∧ CanTrap s t g code s1 ∧ let bad := (ls.map (g.globalAddr a off)).filter fun v => v.toNat % z != 0
        v ∈ bad ∧ ∀ w ∈ bad, v.toNat ≤ w.toNat)
    ∧ (∃ (i : Instr) (s : State) (t : Team) (g : Machine.Group) (a : VR) (off : DWord) (z : Nat) (ls : List Nat) (v code : DWord) (s1 : State),
      globalAccess i s g = some (a, off, z, ls) ∧ Issuing s t g ∧ g.fences = [] ∧ (∀ d ∈ i.uses.rd, (g.reg d).shape = .general)
      ∧ CanTrap s t g code s1 ∧ ((ls.map (g.globalAddr a off)).filter fun v => v.toNat % z != 0) = []
      ∧ (ls.map (g.globalAddr a off)).find? (fun v => !(canonical v)) = some v)
    ∧ (∃ (i : Instr) (s : State) (t : Team) (g : Machine.Group) (addr : Nat → Word) (z : Nat) (write : Bool) (ls : List Nat) (v : Word)
        (code : DWord) (s1 : State),
      spadAccess i s g = some (addr, z, write, ls) ∧ Issuing s t g ∧ g.fences = [] ∧ (∀ d ∈ i.uses.rd, (g.reg d).shape = .general)
      ∧ CanTrap s t g code s1 ∧ let bad := (ls.map addr).filter fun a => (s.spadTarget t a z).isNone
        v ∈ bad ∧ ∀ w ∈ bad, v.toNat ≤ w.toNat)
    ∧ (∃ (i : Instr) (s : State) (t : Team) (g : Machine.Group) (addr : Nat → Word) (z : Nat) (write : Bool) (ls : List Nat) (l u off : Nat)
        (code : DWord) (s1 : State),
      spadAccess i s g = some (addr, z, write, ls) ∧ Issuing s t g ∧ g.fences = [] ∧ (∀ d ∈ i.uses.rd, (g.reg d).shape = .general)
      ∧ CanTrap s t g code s1 ∧ ((ls.map addr).filter fun a => (s.spadTarget t a z).isNone) = [] ∧ write = true ∧ l ∈ ls
      ∧ s.spadTarget t (addr l) z = some (u, off) ∧ off < 128) := by
  obtain ⟨c, s1, h⟩ := canTrap0
  obtain ⟨c2, s2, h2⟩ := canTrap_of (machine gMisaligned) (teamOf gMisaligned) gMisaligned (by decide +kernel)
  obtain ⟨c3, s3, h3⟩ := canTrap_of (machine gNoncanon) (teamOf gNoncanon) gNoncanon (by decide +kernel)
  exact ⟨⟨.st ⟨g7, .b32, 0, 0, 0, 4, 2, .none⟩, machine gMisaligned, teamOf gMisaligned, gMisaligned, _, _, _, _, 0x4001, c2, s2, rfl,
      issuing_of _ _ _ (by decide +kernel), rfl, by decide +kernel, h2, least_of _ _ (by decide +kernel)⟩,
    ⟨.ld ⟨g1, 0, .b32, 0, false, 0, 0, 4, 2, .none⟩, machine gNoncanon, teamOf gNoncanon, gNoncanon, _, _, _, _, 0x0100000000000000, c3, s3, rfl,
      issuing_of _ _ _ (by decide +kernel), rfl, by decide +kernel, h3, by decide +kernel, by decide +kernel⟩,
    ⟨.redAdd ⟨g7, .s32, true, 0, 0, 6, .imm10 1, some 0x7F80⟩, s0, t0, g0, _, _, _, _, 0x8080, c, s1, rfl, issuing0, rfl, by decide +kernel, h,
      least_of _ _ (by decide +kernel)⟩,
    ⟨.sts ⟨g7, .b32, 0, 0, 0, true, 4, 0, .b10 0x7C⟩, s0, t0, g0, _, _, _, _, 0, 1, 0x7C, c, s1, rfl, issuing0, rfl, by decide +kernel, h,
      by decide +kernel, rfl, by decide +kernel, by decide +kernel, by decide +kernel⟩⟩

/-- A fence waits for the entry, or has nothing left to wait for. -/
def gFenced (entries : List Nat) : Machine.Group :=
  { gFifo (entry0 .st .store) with
    fences := [{ acq := true, lanes := allLanes, entries := entries, remotes := [], pends := [] }] }

/-- The acquire of an ordered access waits for the entry. -/
def gAcquire : Machine.Group :=
  { gFifo (entry0 .st .store) with
    fences := [{ acq := true, lanes := allLanes, entries := [40], remotes := [], pends := [], access := true }] }

theorem outstanding_of (s : State) (t : Team) (g : Machine.Group) (m : Mask) (scope : Nat) (rel : Bool)
    (h : (∃ e ∈ g.fifo, ∃ a ∈ e.lanes, m.has a.lane = true) ∧ rel = true) : s.Outstanding t g m scope rel :=
  let ⟨⟨e, he, h⟩, hr⟩ := h
  .inl ⟨hr, e, he, .inl h⟩

theorem wit_FencesAndPrefetch :
    (∃ (o : FenceOp) (s : State) (t : Team) (g : Machine.Group), Issuing s t g ∧ g.active o.g s.cur.lanes ≠ 0
      ∧ s.Outstanding t g (g.active o.g s.cur.lanes) o.scope.toNat true ∧ 2 ≤ o.scope.toNat)
    ∧ (∃ (o : FenceOp) (s : State) (t : Team) (g : Machine.Group), Issuing s t g ∧ g.active o.g s.cur.lanes ≠ 0
      ∧ (∀ rel, ¬ s.Outstanding t g (g.active o.g s.cur.lanes) o.scope.toNat rel) ∧ 2 ≤ o.scope.toNat)
    ∧ (∃ (i : Instr) (s : State) (t : Team) (g : Machine.Group), isMemoryAccess i = true ∧ Issuing s t g ∧ s.fenceBusy g = true)
    ∧ (∀ i ∈ [Instr.cpy ⟨g7, 4⟩, .tilebClear ⟨g1, 2, 8, 0x1000⟩, .tilebLoad ⟨g7, 2, 8, 0x1000⟩, .lnch ⟨g7, 4, 8, .imm10 3⟩],
      ∃ (s : State) (t : Team) (g : Machine.Group), ((∃ o, i = .cpy o) ∨ (∃ o, i = .tilebClear o ∨ i = .tilebLoad o) ∨ (∃ o, i = .lnch o))
        ∧ Issuing s t g ∧ s.fenceBusy { g with fences := g.fences.filter fun f => f.access } = true)
    ∧ (∃ (o : PrefOp) (s : State) (t : Team) (g : Machine.Group), Issuing s t g ∧ s.fenceBusy g = false ∧ g.active o.g s.cur.lanes = 0
      ∧ ∃ f ∈ g.fences, f.acq = true) :=
  ⟨⟨⟨g7, 2⟩, machine (gFifo (entry0 .st .store)), teamOf (gFifo (entry0 .st .store)), gFifo (entry0 .st .store), issuing_of _ _ _ (by decide +kernel),
      by decide +kernel, outstanding_of _ _ _ _ _ _ (by decide +kernel), by decide +kernel⟩,
    ⟨⟨g1, 5⟩, s0, t0, g0, issuing0, by decide +kernel, fun rel => by unfold State.Outstanding; revert rel; decide +kernel, by decide +kernel⟩,
    ⟨.waita ⟨g7, .b32, 1, 4, 7, 2, .imm10 0⟩, machine (gFenced [40]), teamOf (gFenced [40]), gFenced [40], rfl, issuing_of _ _ _ (by decide +kernel),
      by decide +kernel⟩,
    fun i hi => ⟨machine gAcquire, teamOf gAcquire, gAcquire, by
        simp only [List.mem_cons, List.not_mem_nil, or_false] at hi
        rcases hi with rfl | rfl | rfl | rfl <;> simp, issuing_of _ _ _ (by decide +kernel), by decide +kernel⟩,
    ⟨⟨⟨2, false⟩, true, true, 2, .none⟩, machine (gFenced [39]), teamOf (gFenced [39]), gFenced [39], issuing_of _ _ _ (by decide +kernel),
      by decide +kernel, by decide +kernel, _, List.mem_cons_self, rfl⟩⟩
/-- A team with barrier `k` at `w`. -/
def tBar (k : Nat) (w : DWord) : Team := { t0 with bars := [(k, w)] }

theorem wit_Barriers :
    (∃ (o : BarArriveOp) (s : State) (t : Team) (g : Machine.Group), Issuing s t g ∧ let m := g.active o.g s.cur.lanes
      let c := (g.src32 o.count (m.lowest.getD 0)).toNat
      m ≠ 0 ∧ 1 ≤ c ∧ c ≤ 255 ∧ barCount (t.bar o.k.toNat) = c ∧ g.poolTraps (wordWrite o.d (g.shapeOf .plain [] m) fun _ => 0) = []
        ∧ s.releaseWaits t g m 1 = false ∧ (afterArrival (t.bar o.k.toNat) c).2 = true)
    ∧ (∃ (o : BarSyncOp) (s : State) (t : Team) (g : Machine.Group), Issuing s t g ∧ let m := g.active o.g s.cur.lanes
      let c := (g.src32 o.count (m.lowest.getD 0)).toNat
      m ≠ 0 ∧ 1 ≤ c ∧ c ≤ 255 ∧ barCount (t.bar o.k.toNat) = 0 ∧ s.releaseWaits t g m 1 = false ∧ (afterArrival (t.bar o.k.toNat) c).2 = false)
    ∧ (∃ (o : BarWaitOp) (s : State) (t : Team) (g : Machine.Group) (l : Nat), Issuing s t g ∧ (g.active o.g s.cur.lanes).lowest = some l
      ∧ barGen (t.bar o.k.toNat) = g.elem o.a.toNat l)
    ∧ (∃ (o : BarSyncOp) (s : State) (t : Team) (g : Machine.Group) (code : DWord) (s1 : State), Issuing s t g ∧ CanTrap s t g code s1
      ∧ g.active o.g s.cur.lanes ≠ 0 ∧ 255 < (g.src32 o.count ((g.active o.g s.cur.lanes).lowest.getD 0)).toNat)
    ∧ (∃ (o : BarArriveOp) (s : State) (t : Team) (g : Machine.Group) (code : DWord) (s1 : State), Issuing s t g ∧ CanTrap s t g code s1
      ∧ let m := g.active o.g s.cur.lanes
        let c := (g.src32 o.count (m.lowest.getD 0)).toNat
        m ≠ 0 ∧ 1 ≤ c ∧ c ≤ 255 ∧ (∀ d ∈ (Instr.barArrive o).uses.rd, (g.reg d).shape = .general) ∧ s.releaseWaits t g m 1 = false
          ∧ barCount (t.bar o.k.toNat) ≠ 0 ∧ barCount (t.bar o.k.toNat) ≠ c)
    ∧ (∃ (o : BarWaitOp) (s : State) (t : Team) (g : Machine.Group) (l : Nat), Issuing s t g ∧ (g.active o.g s.cur.lanes).lowest = some l
      ∧ barGen (t.bar o.k.toNat) ≠ g.elem o.a.toNat l ∧ t.engineIn o.k.toNat (g.elem o.a.toNat l) = true)
    ∧ (∃ (s : State) (t : Team) (g : Machine.Group), Issuing s t g ∧ g.active ⟨2, false⟩ s.cur.lanes = 0) := by
  obtain ⟨c, s1, h⟩ := canTrap0
  obtain ⟨c2, s2, h2⟩ := canTrap_of (withTeam (tBar 3 (barWord 7 1 2 0))) (tBar 3 (barWord 7 1 2 0)) g0 (by decide +kernel)
  exact ⟨⟨⟨g7, 8, 15, .imm10 255⟩, withTeam (tBar 15 (barWord 7 254 255 3)), tBar 15 (barWord 7 254 255 3), g0,
      issuing_of _ _ _ (by decide +kernel), by decide +kernel⟩,
    ⟨⟨g1, 0, .imm10 255⟩, withTeam (tBar 0 (barWord 7 0 0 253)), tBar 0 (barWord 7 0 0 253), g0, issuing_of _ _ _ (by decide +kernel),
      by decide +kernel⟩,
    ⟨⟨⟨1, true⟩, 1, 4⟩, withTeam (tBar 1 (barWord 256 0 0 0)), tBar 1 (barWord 256 0 0 0), g0, 16, issuing_of _ _ _ (by decide +kernel),
      by decide +kernel, by decide +kernel⟩,
    ⟨⟨g7, 15, .reg 6⟩, s0, t0, g0, c, s1, issuing0, h, by decide +kernel, by decide +kernel⟩,
    ⟨⟨g7, 4, 3, .imm10 3⟩, _, _, g0, c2, s2, issuing_of _ _ _ (by decide +kernel), h2, by decide +kernel⟩,
    ⟨⟨g7, 1, 4⟩, withTeam { tBar 1 (barWord 1 0 0 0) with engPhases := [(1, 0)] }, { tBar 1 (barWord 1 0 0 0) with engPhases := [(1, 0)] }, g0, 0,
      issuing_of _ _ _ (by decide +kernel), by decide +kernel, by decide +kernel, by decide +kernel⟩,
    ⟨s0, t0, g0, issuing0, by decide +kernel⟩⟩

/-- A store of the group's own is queued for the frame by another address. -/
def gQueued : Machine.Group := { g0 with fifo := [{ entry0 .st .store with lanes := twoLanes.map fun a => { a with va := 0x9000 } }] }

/-- A queued store of the group shares bytes of the frames that a WAITA of `z` bytes has read. -/
def QueuedAt (g : Machine.Group) (o : WaitaOp) (vs : List (Nat × DWord × Nat)) (z : Nat) : Prop :=
  ∃ x ∈ vs, ∃ e ∈ g.fifo, ∃ a ∈ e.lanes, ∃ k, k < z ∧
    (a.covers e.bytes (va57 (g.globalAddr o.a 0 x.1) + k) (some (x.2.2 + k))).isSome = true

theorem not_queued {g : Machine.Group} (o : WaitaOp) (vs : List (Nat × DWord × Nat)) (z : Nat) (h : g.fifo = []) : ¬ QueuedAt g o vs z := by
  rintro ⟨-, -, e, he, -⟩
  rw [h] at he
  exact absurd he List.not_mem_nil

/-- A swapped team that is ready, beside the running one, whose units leave it no room or room. -/
def sSwap (scr : Nat) : State :=
  { s0 with teams := [{ t0 with scr := scr }, { t0 with id := 2, place := .caged false, readyAt := some 0 }] }

/-- Nothing holds a WAITA of the lanes `m` back. -/
def WaitaClear (g : Machine.Group) (o : WaitaOp) (m : Mask) : Prop :=
  (∀ p ∈ g.pending, p.left = 0) ∧ ∀ e ∈ g.fifo, ∀ a ∈ e.lanes, ∀ l ∈ m.lanes, ∀ k, k < atomBytes o.ty →
    a.covers e.bytes (va57 (g.globalAddr o.a 0 l) + k) none = none

theorem wit_WaitingAndLeaving :
    (∃ (o : WaitaOp) (s s1 : State) (t : Team) (g : Machine.Group) (vs : List (Nat × DWord × Nat)), Issuing s t g ∧ g.fences = []
      ∧ let m := g.active o.g s.cur.lanes
        let val := fun l => ((vs.find? fun x => x.1 == l).map fun x => x.2.1).getD 0
        m ≠ 0 ∧ poolFor g (regsOf o.ty o.d) .general = [] ∧ g.Aligned m.lanes o.a 0 (atomBytes o.ty) ∧ WaitaClear g o (m : Mask)
          ∧ s.waitaReads t g o.a (atomBytes o.ty) m.lanes = (.ok vs, s1) ∧ ¬ QueuedAt g o vs (atomBytes o.ty) ∧ ∀ l ∈ m.lanes, val l = g.src o.ty o.b l)
    ∧ (∃ (o : WaitaOp) (s s1 : State) (t : Team) (g : Machine.Group) (vs : List (Nat × DWord × Nat)), Issuing s t g ∧ g.fences = []
      ∧ let m := g.active o.g s.cur.lanes
        let val := fun l => ((vs.find? fun x => x.1 == l).map fun x => x.2.1).getD 0
        m ≠ 0 ∧ poolFor g (regsOf o.ty o.d) .general = [] ∧ g.Aligned m.lanes o.a 0 (atomBytes o.ty) ∧ WaitaClear g o (m : Mask)
          ∧ s.waitaReads t g o.a (atomBytes o.ty) m.lanes = (.ok vs, s1) ∧ ¬ QueuedAt g o vs (atomBytes o.ty) ∧ ¬ ∀ l ∈ m.lanes, val l = g.src o.ty o.b l)
    ∧ (∃ (o : WaitaOp) (s : State) (t : Team) (g : Machine.Group), Issuing s t g ∧ g.fences = []
      ∧ let m := g.active o.g s.cur.lanes
        m ≠ 0 ∧ poolFor g (regsOf o.ty o.d) .general = [] ∧ g.Aligned m.lanes o.a 0 (atomBytes o.ty) ∧ ¬ WaitaClear g o m)
    ∧ (∃ (o : WaitaOp) (s s1 : State) (t : Team) (g : Machine.Group) (vs : List (Nat × DWord × Nat)), Issuing s t g ∧ g.fences = []
      ∧ let m := g.active o.g s.cur.lanes
        m ≠ 0 ∧ poolFor g (regsOf o.ty o.d) .general = [] ∧ g.Aligned m.lanes o.a 0 (atomBytes o.ty) ∧ WaitaClear g o (m : Mask)
          ∧ s.waitaReads t g o.a (atomBytes o.ty) m.lanes = (.ok vs, s1) ∧ QueuedAt g o vs (atomBytes o.ty))
    ∧ (∃ (s : State) (t : Team) (g : Machine.Group), Issuing s t g ∧ s.cur.handler = true ∧ t.place = .running ∧ t.cw * t.ch = 1 ∧ t.halted = false)
    ∧ (∃ (s : State) (t : Team) (g : Machine.Group), Issuing s t g ∧ g.active g7 s.cur.lanes ≠ 0
      ∧ (s.done t g).fitsWithout t.die t.core t.eff [t.id] = none)
    ∧ (∃ (s : State) (t : Team) (g : Machine.Group) (c : Cand), Issuing s t g ∧ g.active g7 s.cur.lanes ≠ 0
      ∧ (s.done t g).fitsWithout t.die t.core t.eff [t.id] = some c ∧ t.place = .running ∧ t.cw * t.ch = 1) := by
  have read (z : Nat) (hz : z = 4 ∨ z = 8) : (s0.waitaReads t0 g0 2 z allLanes.lanes).1 = .ok (laneList.map fun l => (l, 0, 0x4000)) := by
    rcases hz with rfl | rfl <;> decide +kernel
  exact ⟨⟨⟨g7, .b32, 1, 5, 8, 2, .imm10 0⟩, s0, _, t0, g0, laneList.map fun l => (l, 0, 0x4000), issuing0, rfl,
      by decide +kernel, by decide +kernel, by unfold Group.Aligned; decide +kernel, by unfold WaitaClear; decide +kernel, Prod.ext (read 4 (.inl rfl)) rfl, not_queued _ _ _ rfl, by decide +kernel⟩,
    ⟨⟨g7, .b64, 0, 0, 8, 2, .reg 4⟩, s0, _, t0, g0, laneList.map fun l => (l, 0, 0x4000), issuing0, rfl,
      by decide +kernel, by decide +kernel, by unfold Group.Aligned; decide +kernel, by unfold WaitaClear; decide +kernel, Prod.ext (read 8 (.inr rfl)) rfl, not_queued _ _ _ rfl, by decide +kernel⟩,
    ⟨⟨g7, .b64, 0, 0, 8, 2, .reg 4⟩, machine (gFifo (entry0 .st .store)), teamOf (gFifo (entry0 .st .store)), gFifo (entry0 .st .store),
      issuing_of _ _ _ (by decide +kernel), rfl, by decide +kernel, by decide +kernel, by unfold Group.Aligned; decide +kernel, fun h =>
        absurd (h.1 pend0 (by decide +kernel)) (by decide)⟩,
    ⟨⟨g7, .b64, 0, 0, 8, 2, .reg 4⟩, machine gQueued, _, teamOf gQueued, gQueued, laneList.map fun l => (l, 0, 0x4000),
      issuing_of _ _ _ (by decide +kernel), rfl, by decide +kernel, by decide +kernel, by unfold Group.Aligned; decide +kernel,
      by unfold WaitaClear; decide +kernel, Prod.ext (by decide +kernel) rfl, (0, 0, 0x4000), by decide +kernel, _, List.mem_cons_self,
      _, List.mem_cons_self, 0, by decide, by decide +kernel⟩,
    ⟨sH, _, gTrapped, issuingH, rfl, rfl, rfl, rfl⟩,
    ⟨s0, t0, g0, issuing0, by decide +kernel, by decide +kernel⟩,
    ⟨sSwap 200, { t0 with scr := 200 }, g0, .team 2, issuing_of _ _ _ (by decide +kernel), by decide +kernel, by decide +kernel, rfl, rfl⟩⟩

/-- Queues: `q6` with 32 entries, `q7` full, `q1` with one tag; a prefetch descriptor of 0x4000 at 0x100. -/
def tQueues : Team :=
  { t0 with q6 := List.replicate 32 5, q7 := List.replicate 64 9, q1 := [77], scratch := [(0x101, 0x40), (0x11B, 1), (0x121, 2)] }

def sQueues : State := withTeam tQueues

/-- `q3` with two spans of ticket 1, and `q0` full of commands that the engine has not started. -/
def tSpans : Team := { t0 with cov := { q3 := [(1, 2), (3, 4)] } }
def cmd0 (id : Nat) (kind : Nat) : DriftCmd :=
  { id := id, kind := kind, sfmt := 0, gfmt := 0, elems := 1, rows := 1, soff := 0x400, gstride := 0, gaddr := 0x4000, mcast := 0, permit := false
    pbar := 0, arrive := false, abar := 0, complete := false, tag := 0, enqGen := 0 }
def tFull : Team := { t0 with cmds := (List.range 16).map fun i => cmd0 (60 + i) 2 }

theorem issuingQ : Issuing sQueues tQueues g0 := issuing_of _ _ _ (by decide +kernel)

theorem descs_of (s : State) (t : Team) (g : Machine.Group) (a : VR) (ls : List Nat) (h : (s.readDescs t g a s.nextId ls).isOk = true) :
    ∃ cs, s.readDescs t g a s.nextId ls = .ok cs := by
  cases e : s.readDescs t g a s.nextId ls
  · rw [e] at h; cases h
  · exact ⟨_, rfl⟩

/-- A copy descriptor at 0x100, onto its own line. -/
def tCopy : Team := { tQueues with scratch := [(0x101, 0x40), (0x119, 1), (0x11B, 1), (0x11D, 1)] }

def sCopy : State := withTeam tCopy

/-- The line of the descriptor is absent. -/
def tAbsent : Team := { tQueues with absent := [(2, 61)] }

theorem wit_QueueInstructions :
    (∃ (o : QpushOp) (s : State) (t : Team) (g : Machine.Group), Issuing s t g ∧ o.q = 6
      ∧ (t.fifoQ o.q.toNat).length + ((g.active o.g s.cur.lanes).lanes.map fun l => g.elem o.a.toNat l).length ≤ 64
      ∧ s.releaseWaits t g (g.active o.g s.cur.lanes) 1 = false)
    ∧ (∃ (o : QpushOp) (s : State) (t : Team) (g : Machine.Group), Issuing s t g ∧ o.q = 7 ∧ g.active o.g s.cur.lanes ≠ 0
      ∧ 64 < (t.fifoQ o.q.toNat).length + ((g.active o.g s.cur.lanes).lanes.map fun l => g.elem o.a.toNat l).length)
    ∧ (∃ (o : QpopOp) (s : State) (t : Team) (g : Machine.Group), Issuing s t g ∧ o.q = 1 ∧ t.q1 ≠ [] ∧ g.active o.g s.cur.lanes ≠ 0
      ∧ poolFor g [o.d.toNat] .general = [])
    ∧ (∃ (o : QpopOp) (s : State) (t : Team) (g : Machine.Group), Issuing s t g ∧ o.q = 6 ∧ t.fifoQ o.q.toNat = []
      ∧ g.active o.g s.cur.lanes ≠ 0 ∧ poolFor g [o.d.toNat] .general = [])
    ∧ (∃ (o : QpeekOp) (s : State) (t : Team) (g : Machine.Group), Issuing s t g ∧ o.q.toNat ∈ [1, 6, 7] ∧ poolFor g [o.d.toNat] .general = []
      ∧ o.pp = some 0)
    ∧ (∃ (o : QpopOp) (s : State) (t : Team) (g : Machine.Group), Issuing s t g ∧ o.q = 3 ∧ t.cov.q3 ≠ [] ∧ g.active o.g s.cur.lanes ≠ 0
      ∧ poolFor g [o.d.toNat, o.d.toNat + 1] .general = [])
    ∧ (∃ (o : QpopOp) (s : State) (t : Team) (g : Machine.Group), Issuing s t g ∧ o.q = 3 ∧ t.cov.q3 = [] ∧ g.active o.g s.cur.lanes ≠ 0
      ∧ poolFor g [o.d.toNat, o.d.toNat + 1] .general = [])
    ∧ (∃ (o : QpeekOp) (s : State) (t : Team) (g : Machine.Group), Issuing s t g ∧ o.q = 3 ∧ t.cov.q3 ≠ [] ∧ g.active o.g s.cur.lanes ≠ 0
      ∧ poolFor g [o.d.toNat, o.d.toNat + 1] .general = [] ∧ o.pp = some 0)
    ∧ (∀ gd ∈ [g7, g1], ∃ (a : VR) (s : State) (t : Team) (g : Machine.Group) (cs : List DriftCmd), Issuing s t g
      ∧ s.fenceBusy g.acquires = false ∧ let m := g.active gd s.cur.lanes
        m ≠ 0 ∧ (t.cmds.filter fun c => !c.started).length = 0 ∧ t.cmds.length + m.lanes.length ≤ 32 ∧ s.ownWrites t g = false
          ∧ s.readDescs t g a s.nextId m.lanes = .ok cs)
    ∧ (∃ (o : AOp) (s : State) (t : Team) (g : Machine.Group), Issuing s t g ∧ s.fenceBusy g.acquires = false
      ∧ let m := g.active o.g s.cur.lanes
        m ≠ 0 ∧ (t.cmds.filter fun c => !c.started).length = 16)
    ∧ (∃ (o : AOp) (s : State) (t : Team) (g : Machine.Group), Issuing s t g ∧ s.fenceBusy g.acquires = false
      ∧ let m := g.active o.g s.cur.lanes
        m ≠ 0 ∧ (t.cmds.filter fun c => !c.started).length = 0 ∧ t.cmds.length + m.lanes.length ≤ 32 ∧ s.ownWrites t g = false
          ∧ s.readDescs t g o.a s.nextId m.lanes = .error .absent)
    ∧ (∃ (o : QpushOp) (s : State) (t : Team) (g : Machine.Group) (tr : Trap) (code : DWord) (s1 : State), o.q = 0 ∧ Issuing s t g ∧ CanTrap s t g code s1
      ∧ s.fenceBusy g.acquires = false ∧ let m := g.active o.g s.cur.lanes
        m ≠ 0 ∧ (t.cmds.filter fun c => !c.started).length = 0 ∧ t.cmds.length + m.lanes.length ≤ 32 ∧ s.ownWrites t g = false
          ∧ s.readDescs t g o.a s.nextId m.lanes = .error (.trap tr))
    ∧ (∀ off ∈ [0x60, 0x120, 0x8080], ∃ (t : Team) (g : Machine.Group) (a : VR) (l : Nat), (g.elem a.toNat l).toNat = off
      ∧ (off < 128 ∨ off % 64 ≠ 0 ∨ t.spadEnd < off + 64))
    ∧ (∃ (t : Team) (g : Machine.Group) (a : VR) (l : Nat), let off := (g.elem a.toNat l).toNat
      128 ≤ off ∧ off % 64 = 0 ∧ off + 64 ≤ t.spadEnd ∧ t.linePresent off = false)
    ∧ (∃ (o : QpushOp) (s : State) (t : Team) (g : Machine.Group) (code : DWord) (s1 : State), Issuing s t g ∧ CanTrap s t g code s1
      ∧ o.q.toNat ∈ [1, 3, 4, 5])
    ∧ (∃ (o : QpopOp) (s : State) (t : Team) (g : Machine.Group) (code : DWord) (s1 : State), Issuing s t g ∧ CanTrap s t g code s1
      ∧ o.q.toNat ∈ [0, 2, 4, 5] ∧ (g.reg o.d.toNat).shape = .general) := by
  obtain ⟨c, s1, h⟩ := canTrap0
  obtain ⟨c2, s2, h2⟩ := canTrap_of sQueues tQueues g0 (by decide +kernel)
  obtain ⟨cs, hc⟩ := descs_of sQueues tQueues g0 6 ((g0.active g7 allLanes).lanes) (by decide +kernel)
  obtain ⟨ds, hd⟩ := descs_of sCopy tCopy g0 6 ((g0.active g1 allLanes).lanes) (by decide +kernel)
  exact ⟨⟨⟨g7, 6, 4⟩, sQueues, tQueues, g0, issuingQ, rfl, by decide +kernel, by decide +kernel⟩,
    ⟨⟨g1, 7, 4⟩, sQueues, tQueues, g0, issuingQ, rfl, by decide +kernel, by decide +kernel⟩,
    ⟨⟨g1, 3, 8, 1, some 7⟩, sQueues, tQueues, g0, issuingQ, rfl, by decide +kernel, by decide +kernel, by decide +kernel⟩,
    ⟨⟨g7, 0, 8, 6, none⟩, s0, t0, g0, issuing0, rfl, rfl, by decide +kernel, by decide +kernel⟩,
    ⟨⟨g7, 8, 7, some 0⟩, sQueues, tQueues, g0, issuingQ, by decide +kernel, by decide +kernel, rfl⟩,
    ⟨⟨g1, 3, 8, 3, some 7⟩, withTeam tSpans, tSpans, g0, issuing_of _ _ _ (by decide +kernel), rfl, by decide, by decide +kernel, by decide +kernel⟩,
    ⟨⟨g7, 0, 8, 3, none⟩, s0, t0, g0, issuing0, rfl, rfl, by decide +kernel, by decide +kernel⟩,
    ⟨⟨g1, 8, 3, some 0⟩, withTeam tSpans, tSpans, g0, issuing_of _ _ _ (by decide +kernel), rfl, by decide, by decide +kernel, by decide +kernel, rfl⟩,
    fun gd hg => by
      simp only [List.mem_cons, List.not_mem_nil, or_false] at hg
      rcases hg with rfl | rfl
      · exact ⟨6, sQueues, tQueues, g0, cs, issuingQ, by decide +kernel, by decide +kernel, by decide +kernel, by decide +kernel, by decide +kernel, hc⟩
      · exact ⟨6, sCopy, tCopy, g0, ds, issuing_of _ _ _ (by decide +kernel), by decide +kernel, by decide +kernel, by decide +kernel,
          by decide +kernel, by decide +kernel, hd⟩,
    ⟨⟨g1, 6⟩, withTeam tFull, tFull, g0, issuing_of _ _ _ (by decide +kernel), by decide +kernel, by decide +kernel, by decide +kernel⟩,
    ⟨⟨g1, 6⟩, withTeam tAbsent, tAbsent, g0, issuing_of _ _ _ (by decide +kernel), by decide +kernel, by decide +kernel, by decide +kernel,
      by decide +kernel, by decide +kernel, rfl⟩,
    ⟨⟨g1, 0, 4⟩, sQueues, tQueues, g0, alignTrap 1 0, c2, s2, rfl, issuingQ, h2, by decide +kernel, by decide +kernel, by decide +kernel,
      by decide +kernel, by decide +kernel, rfl⟩,
    fun off ho => by
      simp only [List.mem_cons, List.not_mem_nil, or_false] at ho
      rcases ho with rfl | rfl | rfl
      · exact ⟨t0, { g0 with regs := [(6, .uniform 0x60)] }, 6, 0, by decide +kernel, by decide +kernel⟩
      · exact ⟨t0, { g0 with regs := [(6, .uniform 0x120)] }, 6, 0, by decide +kernel, by decide +kernel⟩
      · exact ⟨t0, { g0 with regs := [(6, .uniform 0x8080)] }, 6, 0, by decide +kernel, by decide +kernel⟩,
    ⟨tAbsent, g0, 6, 0, by decide +kernel⟩,
    ⟨⟨⟨2, false⟩, 5, 4⟩, s0, t0, g0, c, s1, issuing0, h, by decide +kernel⟩,
    ⟨⟨g7, 0, 4, 0, none⟩, s0, t0, g0, c, s1, issuing0, h, by decide +kernel, by decide +kernel⟩⟩

/-- `v20:v21` = 0x40000000, `v22:v23` = 0x40001000, `v24:v25` = 4096, `v26:v27` = 0. -/
def gPubl : Machine.Group :=
  { g0 with regs := [(20, .uniform 0x40000000), (22, .uniform 0x40001000), (24, .uniform 0x1000), (28, .uniform 0x4000)] }

/-- The PUBL has looked at its team's commands before. -/
def gSeen : Machine.Group := { gPubl with publSeen := some [60] }

def tPubl (g : Machine.Group) : Team := { teamOf g with cmds := [cmd0 60 3] }

def inval0 : Inval := { id := 60, ctx := 1, ranges := [(0x40000000, 4096), (0x40001000, 4096)], barrier := 60, purpose := .publ 1 0 }

theorem page_of (w : Walk) (p : TlbEntry → Bool) (h : (match w with | .page e => p e | _ => false) = true) : ∃ e, w = .page e ∧ p e = true := by
  split at h
  · exact ⟨_, rfl, h⟩
  · cases h

theorem wit_Publishing :
    (∃ (o : PublOp) (s : State) (t : Team) (g : Machine.Group) (l : Nat), Issuing s t g ∧ (g.active o.g s.cur.lanes).lowest = some l
      ∧ s.publCheck t.ctx (g.pairElem o.a.toNat l) (g.pairElem o.b.toNat l) (g.pairElem o.c.toNat l) = .pass
      ∧ s.releaseWaits t g (g.active o.g s.cur.lanes) 4 = false
      ∧ (∀ ids, g.publSeen = some ids → ∀ c ∈ t.cmds, c.id ∉ ids) ∧ (g.publSeen = none → ∀ c ∈ t.cmds, c.kind ≠ 3)
      ∧ s.publBusy t.ctx [(va57 (g.pairElem o.a.toNat l), (g.pairElem o.c.toNat l).toNat), (va57 (g.pairElem o.b.toNat l), (g.pairElem o.c.toNat l).toNat)] = false)
    ∧ (∃ (o : PublOp) (s : State) (t : Team) (g : Machine.Group) (l : Nat) (code : DWord) (s1 : State), Issuing s t g
      ∧ (g.active o.g s.cur.lanes).lowest = some l ∧ CanTrap s t g code s1 ∧ let d := g.pairElem o.a.toNat l
        let sh := g.pairElem o.b.toNat l
        let n := g.pairElem o.c.toNat l
        canonical d = true ∧ canonical sh = true ∧ canonical (d + (n - 1)) = true ∧ canonical (sh + (n - 1)) = true ∧ n = 0)
    ∧ (∃ (o : PublOp) (s : State) (t : Team) (g : Machine.Group) (l : Nat) (x y : TlbEntry) (code : DWord) (s1 : State), Issuing s t g
      ∧ (g.active o.g s.cur.lanes).lowest = some l ∧ CanTrap s t g code s1 ∧ let d := g.pairElem o.a.toNat l
        let sh := g.pairElem o.b.toNat l
        let n := g.pairElem o.c.toNat l
        canonical d = true ∧ canonical sh = true ∧ canonical (d + (n - 1)) = true ∧ canonical (sh + (n - 1)) = true
          ∧ ¬ (n = 0 ∨ n.toNat % 4096 ≠ 0 ∨ d.toNat % 4096 ≠ 0 ∨ sh.toNat % 4096 ≠ 0
            ∨ (d.toNat < sh.toNat + n.toNat ∧ sh.toNat < d.toNat + n.toNat))
          ∧ s.walk t.ctx (va57 d) = .page x ∧ s.walk t.ctx (va57 sh) = .page y ∧ x.w = true ∧ y.w = true
          ∧ (x.size ≠ y.size ∨ x.va ≠ va57 d ∨ y.va ≠ va57 sh ∨ n.toNat < x.size))
    ∧ (∀ seen ∈ [none, some [60]], ∃ (o : PublOp) (s : State) (t : Team) (g : Machine.Group) (l : Nat), g.publSeen = seen ∧ Issuing s t g
      ∧ (g.active o.g s.cur.lanes).lowest = some l
      ∧ s.publCheck t.ctx (g.pairElem o.a.toNat l) (g.pairElem o.b.toNat l) (g.pairElem o.c.toNat l) = .pass
      ∧ s.releaseWaits t g (g.active o.g s.cur.lanes) 4 = false
      ∧ ∃ c ∈ t.cmds, c.id ∈ g.publSeen.getD ((t.cmds.filter fun c => c.kind == 3).map fun c => c.id))
    ∧ (∃ (s : State) (t : Team) (g : Machine.Group), Issuing s t g ∧ g.active ⟨2, false⟩ s.cur.lanes = 0)
    ∧ (∃ (s : State) (v : Inval) (tid grp d sh n : Nat) (rest : List (Nat × Nat)), s.invals.find? (fun x => x.id == v.id) = some v
      ∧ v.purpose = .publ tid grp ∧ v.ranges = (d, n) :: (sh, n) :: rest ∧ s.invalWaits v = false
      ∧ s.swapHeld v = false ∧ s.staleAreas = [] ∧ ∃ g, s.group? tid grp = some g ∧ g.park = .publ v.id)
    ∧ (∃ (s : State) (pd ps n ctx d sh : Nat), s.leafRun ctx d = some (pd, n) ∧ s.leafRun ctx sh = some (ps, n)
      ∧ ∀ i j, i < n → j < n → pd + 8 * i + 8 ≤ ps + 8 * j ∨ ps + 8 * j + 8 ≤ pd + 8 * i) := by
  obtain ⟨c, s1, h⟩ := canTrap_of (machine gPubl) (teamOf gPubl) gPubl (by decide +kernel)
  obtain ⟨x, hx, kx⟩ := page_of ((machine gPubl).walk 1 0x4000) (fun e => e.w && Nat.blt 4096 e.size) (by decide +kernel)
  obtain ⟨y, hy, ky⟩ := page_of ((machine gPubl).walk 1 0x40001000) (fun e => e.w) (by decide +kernel)
  rw [Bool.and_eq_true, Nat.blt_eq] at kx
  exact ⟨⟨⟨g7, 20, 22, 24⟩, machine gPubl, teamOf gPubl, gPubl, 0, issuing_of _ _ _ (by decide +kernel), by decide +kernel, by decide +kernel,
      by decide +kernel, fun _ _ _ hc => absurd hc List.not_mem_nil, fun _ _ hc => absurd hc List.not_mem_nil, by decide +kernel⟩,
    ⟨⟨g1, 20, 22, 26⟩, machine gPubl, teamOf gPubl, gPubl, 0, c, s1, issuing_of _ _ _ (by decide +kernel), by decide +kernel, h, by decide +kernel⟩,
    ⟨⟨g1, 28, 22, 24⟩, machine gPubl, teamOf gPubl, gPubl, 0, x, y, c, s1, issuing_of _ _ _ (by decide +kernel), by decide +kernel, h,
      by decide +kernel, by decide +kernel, by decide +kernel, by decide +kernel, by decide +kernel, hx, hy, kx.1, ky,
      .inr (.inr (.inr kx.2))⟩,
    fun seen hs => by
      simp only [List.mem_cons, List.not_mem_nil, or_false] at hs
      rcases hs with rfl | rfl
      · exact ⟨⟨g7, 20, 22, 24⟩, withTeam (tPubl gPubl), tPubl gPubl, gPubl, 0, rfl, issuing_of _ _ _ (by decide +kernel), by decide +kernel,
          by decide +kernel, by decide +kernel, cmd0 60 3, List.mem_cons_self, by decide +kernel⟩
      · exact ⟨⟨g7, 20, 22, 24⟩, withTeam (tPubl gSeen), tPubl gSeen, gSeen, 0, rfl, issuing_of _ _ _ (by decide +kernel), by decide +kernel,
          by decide +kernel, by decide +kernel, cmd0 60 3, List.mem_cons_self, by decide +kernel⟩,
    ⟨s0, t0, g0, issuing0, by decide +kernel⟩,
    ⟨{ machine { g0 with park := .publ 60 } with invals := [inval0] }, inval0, 1, 0, 0x40000000, 0x40001000, 4096, [], by decide +kernel, rfl, rfl,
      by decide +kernel, by decide +kernel, rfl, { g0 with park := .publ 60 }, by decide +kernel, rfl⟩,
    ⟨s0, 0x6000, 0x6008, 1, 1, 0x40000000, 0x40001000, by decide +kernel, by decide +kernel, fun i j hi hj => by omega⟩⟩

/-- A graph of two nodes with four slots from 0x4000 on, of which slot 1 is the team's and slot 3 committed. -/
def node0 : NodeInfo := { krec := 0, timer := 5, cap := 0, count := 2, recsz := 64, code := 0x100, mstream := 0, live := 0, rows := 32, scr := 1, acc := 0, ngroups := 1 }

def graph0 : Graph :=
  { desc := 0, nodes := [node0, node0], stock := 0x4000, slots := 4, alloc := [(1, some 1), (3, none)], batches := [] }

def launch0 : Launch :=
  { id := 1, partition := 0, queue := 3, index := 6, lid := 5, compval := 0, compaddr := 0, ctx := 1, cls := 2, det := false, serial := false
    deadline := 0, gx := 1, gy := 1, gz := 1, cw := 1, ch := 1, ngroups := 1, rows := 32, reg := 32, scr := 2, acc := 2, code := 0x100, live := 0
    mstream := 0, windows := [], xfCount := 0, xfAddr := 0, next := List.replicate 8 0, last := List.replicate 8 0, graph := some graph0
    started := true }

/-- The lanes 0 and 1 in `p3`, lane 0 in `p4`; the slot addresses of 1 and of 2 in `v10:v11` and `v12:v13`. -/
def gRec : Machine.Group :=
  { g0 with regs := [(1, .affine 0 1), (2, .uniform 0x4000), (6, .uniform 0x100), (10, .uniform 0x4100), (12, .uniform 0x4200)], preds := [(3, 3), (4, 1)] }

def tRec : Team := { teamOf gRec with batchSlots := [3] }

def sRec : State := { withTeam tRec with launches := [launch0] }

theorem issuingR : Issuing sRec tRec gRec := issuing_of _ _ _ (by decide +kernel)

/-- Node numbers 2 × lane in `v1`. -/
def gNodes : Machine.Group := { gRec with regs := [(1, .affine 0 2), (10, .uniform 0x4100)] }
def tNodes : Team := { tRec with groups := [gNodes] }
def sNodes : State := { sRec with teams := [tNodes] }

theorem wit_RecordInstructions :
    (∃ (o : RecaOp) (s : State) (t : Team) (g : Machine.Group) (gr : Graph), Issuing s t g ∧ s.graph? t.launch = some gr ∧ g.park = .none
      ∧ let m := g.active o.g s.cur.lanes
        (∀ l ∈ m.lanes, (g.src32 o.node l).toNat < gr.nodes.length) ∧ poolFor g [o.d.toNat, o.d.toNat + 1] .general = []
          ∧ (gr.pick m.lanes.length).length = m.lanes.length)
    ∧ (∃ (o : RecaOp) (s : State) (t : Team) (g : Machine.Group) (gr : Graph), Issuing s t g ∧ s.graph? t.launch = some gr ∧ g.park = .none
      ∧ let m := g.active o.g s.cur.lanes
        (∀ l ∈ m.lanes, (g.src32 o.node l).toNat < gr.nodes.length) ∧ poolFor g [o.d.toNat, o.d.toNat + 1] .general = []
          ∧ (gr.pick m.lanes.length).length < m.lanes.length)
    ∧ (∃ (o : RecpOp) (s : State) (t : Team) (g : Machine.Group) (gr : Graph) (slots : List Nat), Issuing s t g ∧ s.graph? t.launch = some gr
      ∧ let m := g.active o.g s.cur.lanes
        let va := fun l => g.pairElem o.a.toNat l
        (∀ l ∈ m.lanes, (g.src32 o.node l).toNat < gr.nodes.length) ∧ slots.Nodup ∧ slots.length = m.lanes.length
          ∧ (∀ l ∈ m.lanes, (gr.slotOf (va l)).all (fun i => (i, some t.id) ∈ gr.alloc) = true)
          ∧ (m.lanes.map fun l => gr.slotOf (va l)) = slots.map some ∧ t.q4.length + m.lanes.length ≤ 32
          ∧ s.releaseWaits t g m 4 = false)
    ∧ (∃ (o : AOp) (s : State) (t : Team) (g : Machine.Group) (gr : Graph), Issuing s t g ∧ s.graph? t.launch = some gr
      ∧ (g.active o.g s.cur.lanes) ≠ 0 ∧ ∀ l ∈ (g.active o.g s.cur.lanes).lanes, (gr.slotOf (g.pairElem o.a.toNat l)).any
          (fun i => (i, some t.id) ∈ gr.alloc ∨ i ∈ t.batchSlots) = true)
    ∧ (∀ bad : Bool, ∃ (o : RecpOp) (s : State) (t : Team) (g : Machine.Group) (gr : Graph) (l : Nat) (code : DWord) (s1 : State), Issuing s t g
      ∧ s.graph? t.launch = some gr ∧ l ∈ (g.active o.g s.cur.lanes).lanes ∧ CanTrap s t g code s1
      ∧ let before := (g.active o.g s.cur.lanes).lanes.filter fun k => k < l
        let slot := fun k => gr.slotOf (g.pairElem o.a.toNat k)
        before = [0] ∧ (∀ k ∈ before, (g.src32 o.node k).toNat < gr.nodes.length ∧ (slot k).any (fun i => (i, some t.id) ∈ gr.alloc) = true)
          ∧ (before.map slot).Nodup ∧ (if bad then gr.nodes.length ≤ (g.src32 o.node l).toNat
            else (g.src32 o.node l).toNat < gr.nodes.length ∧ ∀ i, slot l = some i → (i, some t.id) ∈ gr.alloc → ∃ k ∈ before, slot k = some i))
    ∧ (∀ i ∈ [Instr.recf ⟨g1, 10⟩, .recp ⟨g7, 10, .imm10 1⟩, .reca ⟨⟨7, true⟩, 4, .reg 1⟩], ∃ (s : State) (t : Team) (g : Machine.Group) (code : DWord) (s1 : State),
      Issuing s t g ∧ s.graph? t.launch = none ∧ CanTrap s t g code s1
        ∧ ((∃ o, i = .recf o) ∨ (∃ o, i = .recp o) ∨ ∃ o, i = .reca o ∧ poolFor g [o.d.toNat, o.d.toNat + 1] .general = [])) := by
  obtain ⟨c0, s01, h0⟩ := canTrap0
  obtain ⟨c2, s2, h2⟩ := canTrap_of sNodes tNodes gNodes (by decide +kernel)
  obtain ⟨c, s1, h⟩ := canTrap_of sRec tRec gRec (by decide +kernel)
  exact ⟨⟨⟨⟨3, false⟩, 20, .reg 1⟩, sRec, tRec, gRec, graph0, issuingR, by decide +kernel, rfl, by decide +kernel⟩,
    ⟨⟨g7, 20, .imm10 1⟩, sRec, tRec, gRec, graph0, issuingR, by decide +kernel, rfl, by decide +kernel⟩,
    ⟨⟨⟨4, false⟩, 10, .imm10 1⟩, sRec, tRec, gRec, graph0, [1], issuingR, by decide +kernel, by decide +kernel⟩,
    ⟨⟨⟨4, false⟩, 10⟩, sRec, tRec, gRec, graph0, issuingR, by decide +kernel, by decide +kernel, by decide +kernel⟩,
    fun bad => by
      cases bad
      · exact ⟨⟨g7, 10, .imm10 0⟩, sRec, tRec, gRec, graph0, 1, c, s1, issuingR, by decide +kernel, by decide +kernel, h, by decide +kernel,
          by decide +kernel, by decide +kernel, by decide +kernel, fun i hi _ => ⟨0, by decide +kernel, hi⟩⟩
      · exact ⟨⟨g7, 10, .reg 1⟩, sNodes, tNodes, gNodes, graph0, 1, c2, s2, issuing_of _ _ _ (by decide +kernel), by decide +kernel,
          by decide +kernel, h2, by decide +kernel, by decide +kernel, by decide +kernel, by decide +kernel⟩,
    fun i hi => ⟨s0, t0, g0, c0, s01, issuing0, rfl, h0, by
      simp only [List.mem_cons, List.not_mem_nil, or_false] at hi
      rcases hi with rfl | rfl | rfl
      · exact .inl ⟨_, rfl⟩
      · exact .inr (.inl ⟨_, rfl⟩)
      · exact .inr (.inr ⟨_, rfl, by decide +kernel⟩)⟩⟩

/-- Queue 3 of context 1 with its header at 0x9000: WRITE 7, READ 6, slots from 0xA000 on, LOG2N 4, class 2, DEVQ. An ownership area of
four entries whose entry 0 is held by team 9 for the object 0x4000. -/
def own0 (kind waiters : Nat) : OwnEntry :=
  { id := 70, ctx := 1, index := 0, die := 0, obj := 0x4000, kind := kind, state := .running, waiters := waiters, owner := .team 9, olid := 5, oindex := 0 }

def sOwn (ocap : Nat) (own : List OwnEntry) : State :=
  { sRec with
    mem := entries [(0x9000, 7), (0x9008, 6), (0x9010, 0xA000), (0x9018, 0x60400)] mem0
    contexts := [{ num := 1, root := 0x1000, hva := 0x8000, partition := 0, obase := 0xB000, ocap := ocap }]
    queues := [{ partition := 0, num := 3, ctx := 1, header := 0x9000 }]
    own := own }

theorem fst_of {α β : Type} (p : α × β) (a : α) (h : p.1 = a) : p = (a, p.2) := Prod.ext h rfl

theorem issuingO (n : Nat) (l : List OwnEntry) : Issuing (sOwn n l) tRec gRec := ⟨issuingR.bundle, issuingR.live⟩

def lane0 : List (Nat × Nat × Nat) := [(0, 0x4000, 0)]

/-- The object of lane 0 translated. -/
def obj (n : Nat) (l : List OwnEntry) : Direct (List (Nat × Nat × Nat)) × State :=
  State.objects (sOwn n l) tRec gRec 2 (gRec.active ⟨4, false⟩ allLanes).lanes

/-- The handle of the packet 6 of queue 3. -/
def gHandle : Machine.Group := { gRec with regs := SMap.set zeroReg gRec.regs 14 (.uniform 0x0C000006) }

def sHandle : State := { sOwn 4 [] with teams := [teamOf gHandle] }

/-- Another group of the team waits for the entry. -/
def tAwait : Team := { tRec with groups := [gRec, { g0 with num := 1, park := .await 8 [(0, some 70)] }] }
def sAwait : State := { sOwn 4 [own0 1 1] with teams := [tAwait] }

theorem wit_OwnershipInstructions :
    (∀ n own, (n, own) ∈ [(4, [own0 1 0]), (1, [{ own0 1 0 with obj := 0x5000 }]), (4, [])] →
      ∃ (i : Instr) (gd : Guard) (kind : BitVec 2) (d a : VR) (handle : Machine.Group → Nat → Option Word) (s s1 : State) (t : Team)
        (g : Machine.Group) (objs : List (Nat × Nat × Nat)),
        ownOf i = some (gd, kind, d, a, handle) ∧ Issuing s t g ∧ poolFor g [d.toNat] .general = []
          ∧ s.objects t g a (g.active gd s.cur.lanes).lanes = (.ok objs, s1) ∧ objs = [(0, 0x4000, 0)] ∧ g.active gd s.cur.lanes = Mask.single 0
          ∧ handle g 0 = none ∧ s1.own = own)
    ∧ (∃ (i : Instr) (gd : Guard) (kind : BitVec 2) (d a : VR) (handle : Machine.Group → Nat → Option Word) (s s1 : State) (t : Team)
        (g : Machine.Group) (objs : List (Nat × Nat × Nat)) (w : Word) (nm : Named),
        ownOf i = some (gd, kind, d, a, handle) ∧ Issuing s t g ∧ poolFor g [d.toNat] .general = []
          ∧ s.objects t g a (g.active gd s.cur.lanes).lanes = (.ok objs, s1) ∧ objs = [(0, 0x4000, 0)] ∧ g.active gd s.cur.lanes = Mask.single 0
          ∧ handle g 0 = some w ∧ s1.named t.ctx w = some nm ∧ s1.freeIndex t.ctx = some 0)
    ∧ (∃ (o : DaOp) (s s1 : State) (t : Team) (g : Machine.Group) (objs : List (Nat × Nat × Nat)), Issuing s t g ∧ poolFor g [o.d.toNat] .general = []
      ∧ s.objects t g o.a (g.active o.g s.cur.lanes).lanes = (.ok objs, s1)
      ∧ ∀ x ∈ objs.map (fun x => (x.1, (s1.newestEntry t.ctx x.2.1).map fun e => e.id)), ∀ e, x.2 = some e → ∀ y, s1.entry? e = some y →
          y.state.open_ = false)
    ∧ (∀ other, ∃ (s s1 : State) (t : Team) (g : Machine.Group) (e : OwnEntry), Issuing s t g ∧ poolFor g [8] .general = []
      ∧ s.objects t g 2 (g.active ⟨4, false⟩ s.cur.lanes).lanes = (.ok lane0, s1)
      ∧ s1.newestEntry t.ctx 0x4000 = some e ∧ s1.entry? e.id = some e ∧ e.state.open_ = true
      ∧ decide (∃ h ∈ t.groups, h.num ≠ g.num ∧ e.id ∈ h.waitEntries) = other)
    ∧ (∃ (o : DaOp) (s s1 : State) (t : Team) (g : Machine.Group) (objs : List (Nat × Nat × Nat)), Issuing s t g ∧ poolFor g [o.d.toNat] .general = []
      ∧ s.objects t g o.a (g.active o.g s.cur.lanes).lanes = (.ok objs, s1) ∧ objs = [(0, 0x4000, 0)]
      ∧ s1.newestEntry t.ctx 0x4000 = none ∧ s.releaseWaits t g (g.active o.g s.cur.lanes) 5 = false)
    ∧ (∃ (o : DaOp) (s s1 : State) (t : Team) (g : Machine.Group) (objs : List (Nat × Nat × Nat)) (e : OwnEntry), Issuing s t g
      ∧ poolFor g [o.d.toNat] .general = [] ∧ s.objects t g o.a (g.active o.g s.cur.lanes).lanes = (.ok objs, s1) ∧ objs = [(0, 0x4000, 0)]
      ∧ s1.newestEntry t.ctx 0x4000 = some e ∧ s1.entry? e.id = some e ∧ e.state.open_ = true ∧ e.kind < 2 ∧ 0 < e.waiters
      ∧ s.releaseWaits t g (g.active o.g s.cur.lanes) 5 = false) := by
  refine ⟨fun n own hno => ?_, ?_, ?_, fun other => ?_, ?_, ?_⟩
  · simp only [List.mem_cons, Prod.mk.injEq, List.not_mem_nil, or_false] at hno
    have h : (obj n own).1 = .ok lane0 ∧ (obj n own).2.own = own := by
      rcases hno with ⟨rfl, rfl⟩ | ⟨rfl, rfl⟩ | ⟨rfl, rfl⟩ <;> decide +kernel
    exact ⟨.own ⟨⟨4, false⟩, 1, 8, 2⟩, _, _, _, _, _, _, _, tRec, gRec, _, rfl, issuingO n own, by decide +kernel, fst_of (obj n own) _ h.1, rfl,
      (by decide +kernel : gRec.active ⟨4, false⟩ allLanes = Mask.single 0), rfl, h.2⟩
  · have hi : Issuing sHandle (teamOf gHandle) gHandle := issuing_of _ _ _ (by decide +kernel)
    have h : (State.objects sHandle (teamOf gHandle) gHandle 2 (gHandle.active ⟨4, false⟩ allLanes).lanes).1 = .ok lane0 := by decide +kernel
    exact ⟨.ownLaunch ⟨⟨4, false⟩, 0, 8, 2, 14⟩, _, _, _, _, _, _, _, _, _, _, 0x0C000006, ⟨3, 6, 5, .running⟩, rfl, hi, by decide +kernel,
      fst_of (State.objects sHandle (teamOf gHandle) gHandle 2 (gHandle.active ⟨4, false⟩ allLanes).lanes) _ h, rfl,
      by decide +kernel, by decide +kernel, by decide +kernel, by decide +kernel⟩
  · exact ⟨⟨⟨4, false⟩, 8, 2⟩, _, (obj 4 []).2, tRec, gRec, lane0, issuingO 4 [], by decide +kernel, fst_of (obj 4 []) _ (by decide +kernel), by
      intro x hx e he y hy
      have h : lane0.map (fun x => (x.1, ((obj 4 []).2.newestEntry tRec.ctx x.2.1).map fun e => e.id)) = [(0, none)] := by decide +kernel
      rw [h, List.mem_singleton] at hx
      rw [hx] at he
      cases he⟩
  · cases other
    · exact ⟨_, (obj 4 [own0 1 1]).2, tRec, gRec, own0 1 1, issuingO 4 _, by decide +kernel, fst_of (obj 4 [own0 1 1]) _ (by decide +kernel),
        by decide +kernel, by decide +kernel, rfl, by decide +kernel⟩
    · exact ⟨sAwait, (State.objects sAwait tAwait gRec 2 (gRec.active ⟨4, false⟩ allLanes).lanes).2, tAwait, gRec, own0 1 1,
        issuing_of _ _ _ (by decide +kernel), by decide +kernel, fst_of (State.objects sAwait tAwait gRec 2 (gRec.active ⟨4, false⟩ allLanes).lanes) _ (by decide +kernel),
        by decide +kernel, by decide +kernel, rfl, by decide +kernel⟩
  · exact ⟨⟨⟨4, false⟩, 8, 2⟩, _, (obj 4 []).2, tRec, gRec, lane0, issuingO 4 [], by decide +kernel, fst_of (obj 4 []) _ (by decide +kernel), rfl,
      by decide +kernel, by decide +kernel⟩
  · exact ⟨⟨⟨4, false⟩, 8, 2⟩, _, (obj 4 [own0 1 1]).2, tRec, gRec, lane0, own0 1 1, issuingO 4 _, by decide +kernel,
      fst_of (obj 4 [own0 1 1]) _ (by decide +kernel), rfl, by decide +kernel, by decide +kernel, rfl, by decide, by decide, by decide +kernel⟩

def header0 : QHeader := { write := 7, read := 6, base := 0xA000, log2n := 4, cls := 2, devq := true, bad := false }

def queue3 : Queue := { partition := 0, num := 3, ctx := 1, header := 0x9000 }

/-- The header read, and the packet appended. -/
def headers0 : Direct (List (Nat × QHeader)) × State := State.lnchHeaders (sOwn 4 []) tRec ((gRec.active ⟨4, false⟩ allLanes).lanes.map fun _ => 3)

/-- The ring's slots translated, with WRITE and READ at `w` and 6. -/
def sLnch (w : Nat) (base : Nat) : State :=
  { sOwn 4 [] with mem := entries [(0x9000, w), (0x9008, 6), (0x9010, base), (0x9018, 0x60400)] mem0 }

def hdr (w base : Nat) : QHeader := { header0 with write := w, base := BitVec.ofNat 64 base }

def heads (w base : Nat) : Direct (List (Nat × QHeader)) × State := State.lnchHeaders (sLnch w base) tRec ((gRec.active ⟨4, false⟩ allLanes).lanes.map fun _ => 3)

def slots0 (w base : Nat) := (heads w base).2.lnchSlots tRec (lnchPlan [] [(3, hdr w base)])

theorem issuingL (w base : Nat) : Issuing (sLnch w base) tRec gRec := ⟨issuingR.bundle, issuingR.live⟩

/-- What a LNCH of lane 0 of the 128 bytes at 0x100 onto queue 3 asks before its slots. -/
structure LnchHeads (s s1 : State) (t : Team) (g : Machine.Group) (o : LnchOp) (hs : List (Nat × QHeader)) : Prop where
  issuing : Issuing s t g
  pool : poolFor g [o.d.toNat] .general = []
  place : ∀ l ∈ (g.active o.g s.cur.lanes).lanes, packetAt t (g.elem o.a.toNat l) = true ∧ t.linePresent (g.elem o.a.toNat l).toNat = true
    ∧ (queueAllowed s t.ctx (g.src32 o.q l).toNat).isSome = true
  fence : s.fenceBusy g.acquires = false
  own : s.ownWrites t g = false
  free : s.releaseWaits t g (g.active o.g s.cur.lanes) 4 = false
  heads : s.lnchHeaders t ((g.active o.g s.cur.lanes).lanes.map fun l => (g.src32 o.q l).toNat) = (.ok hs, s1)

theorem fault_of {α : Type} (d : Direct α) (h : (match d with | .fault _ _ => true | _ => false) = true) : ∃ c va, d = .fault c va := by
  cases d
  case fault c va => exact ⟨c, va, rfl⟩
  all_goals cases h

theorem heads_of (w base : Nat) (h : (heads w base).1 = .ok [(3, hdr w base)]) (hr : (∀ l ∈ (gRec.active ⟨4, false⟩ allLanes).lanes,
        packetAt tRec (gRec.elem 6 l) = true ∧ tRec.linePresent (gRec.elem 6 l).toNat = true ∧ (queueAllowed (sLnch w base) tRec.ctx 3).isSome = true)
      ∧ (sLnch w base).fenceBusy gRec.acquires = false ∧ (sLnch w base).ownWrites tRec gRec = false
      ∧ (sLnch w base).releaseWaits tRec gRec (gRec.active ⟨4, false⟩ allLanes) 4 = false) :
    LnchHeads (sLnch w base) (heads w base).2 tRec gRec ⟨⟨4, false⟩, 8, 6, .imm10 3⟩ [(3, hdr w base)] :=
  ⟨issuingL w base, by decide +kernel, hr.1, hr.2.1, hr.2.2.1, hr.2.2.2, fst_of (heads w base) _ h⟩

theorem wit_Launching :
    (∃ o s s1 s2 s3 t g hs u v, LnchHeads s s1 t g o hs ∧ let m := g.active o.g s.cur.lanes
      let plan := lnchPlan [] hs
      s1.lnchSlots t plan = (.ok v, s2) ∧ lnchRoom plan = true
        ∧ s2.lnchAll t ((plan.zip m.lanes).map fun (x, l) => (x.1, x.2.1, x.2.2, t.spadRead (g.elem o.a.toNat l).toNat 128)) = (.ok u, s3)
        ∧ m = Mask.single 0 ∧ hs = [((g.src32 o.q 0).toNat, hdr 7 0xA000)])
    ∧ (∃ o s s1 s2 t g hs v, LnchHeads s s1 t g o hs ∧ s1.lnchSlots t (lnchPlan [] hs) = (.ok v, s2) ∧ lnchRoom (lnchPlan [] hs) = false)
    ∧ (∃ o s s1 s2 t g hs c va, LnchHeads s s1 t g o hs ∧ s1.lnchSlots t (lnchPlan [] hs) = (.fault c va, s2))
    ∧ (∃ (s : State) (t : Team) (q : Nat) (h : QHeader) (sa : Nat) (x : Queue) (ha : Nat) (bytes : List Byte), bytes.length = 128
      ∧ (State.direct s t.ctx t.die (QHeader.slotVa h h.write) .write).1 = .ok (sa, false) ∧ queueAllowed s t.ctx q = some x
      ∧ let s3 := (s.directWrite t.ctx t.die (h.slotVa h.write) bytes).2
        queueAllowed s3 t.ctx q = some x ∧ (s3.direct t.ctx t.die x.header .write).1 = .ok (ha, false))
    ∧ (∃ (o : LnchOp) (s : State) (t : Team) (g : Machine.Group) (l : Nat) (code : DWord) (s1 : State), Issuing s t g ∧ CanTrap s t g code s1
      ∧ s.fenceBusy g.acquires = false ∧ (g.reg o.d.toNat).shape = .general ∧ l ∈ (g.active o.g s.cur.lanes).lanes
      ∧ (∀ k ∈ (g.active o.g s.cur.lanes).lanes, packetAt t (g.elem o.a.toNat k) = true)
      ∧ queueAllowed s t.ctx (g.src32 o.q l).toNat = none)
    ∧ (∃ (o : LnchOp) (s : State) (t : Team) (g : Machine.Group) (l : Nat) (code : DWord) (s1 : State), Issuing s t g ∧ CanTrap s t g code s1
      ∧ s.fenceBusy g.acquires = false ∧ (g.reg o.d.toNat).shape = .general ∧ l ∈ (g.active o.g s.cur.lanes).lanes ∧ packetAt t (g.elem o.a.toNat l) = false
      ∧ (∀ k ∈ (g.active o.g s.cur.lanes).lanes, packetAt t (g.elem o.a.toNat k) = false → (g.elem o.a.toNat l).toNat ≤ (g.elem o.a.toNat k).toNat)) := by
  obtain ⟨c, s1, h⟩ := canTrap0
  obtain ⟨cf, va, hf⟩ := fault_of (slots0 7 0x80000000).1 (by decide +kernel)
  have run : ((slots0 7 0xA000).2.lnchAll tRec (((lnchPlan [] [(3, hdr 7 0xA000)]).zip (gRec.active ⟨4, false⟩ allLanes).lanes).map
      fun (x, l) => (x.1, x.2.1, x.2.2, tRec.spadRead (gRec.elem 6 l).toNat 128))).1 = .ok () := by decide +kernel
  exact ⟨⟨_, _, _, _, _, _, _, _, _, _, heads_of 7 0xA000 (by decide +kernel) (by decide +kernel), fst_of (slots0 7 0xA000) (.ok ()) (by decide +kernel), by decide +kernel, fst_of _ _ run, by decide +kernel, rfl⟩,
    ⟨_, _, _, _, _, _, _, _, heads_of 22 0xA000 (by decide +kernel) (by decide +kernel), fst_of (slots0 22 0xA000) (.ok ()) (by decide +kernel), by decide +kernel⟩,
    ⟨_, _, _, _, _, _, _, _, _, heads_of 7 0x80000000 (by decide +kernel) (by decide +kernel), fst_of (slots0 7 0x80000000) _ hf⟩,
    ⟨sOwn 4 [], tRec, 3, { header0 with write := 15 }, 0xA780, queue3, 0x9000, List.replicate 128 7, by decide +kernel, by decide +kernel,
      by decide +kernel, by decide +kernel⟩,
    ⟨⟨g7, 4, 6, .imm10 4⟩, s0, t0, g0, 31, c, s1, issuing0, h, by decide +kernel, by decide +kernel, by decide +kernel, by decide +kernel, by decide +kernel⟩,
    ⟨⟨g7, 4, 4, .imm10 3⟩, s0, t0, g0, 0, c, s1, issuing0, h, by decide +kernel, by decide +kernel, by decide +kernel, by decide +kernel, by decide +kernel⟩⟩


/-- Scratchpad of a stream: the permutation from 63 down to 0 at 0x100, control words at 0x200 and (a bad one) at 0x210; zeros elsewhere. -/
def streamScratch : SMap Byte :=
  ((List.range 63).map fun i => (0x100 + i, BitVec.ofNat 8 (63 - i))) ++ [(0x200, 0x82), (0x201, 1), (0x203, 1), (0x208, 77), (0x210, 1)]

/-- The stream's registers: `m0` the weights, `m1` their side table, `m2:m3` activations and scales, `m4` rows 62 and 63, `m5` and `m6`
control words, `m7` no operand, `m8:m9` an output place with its tag. -/
def stream0 : Stream :=
  { pc := 0x1C0, m := [(0, 0x1000), (1, 0x100), (2, 0x3000), (3, 0x3400), (4, 0x3E0002), (5, 0x200), (6, 0x210), (7, 0x8080), (8, 0x5000), (9, 5)]
    ctl := 0x1000182, seed := 77 }

def weights0 (ty : Ty) : Weights :=
  let t : Team := { t0 with scratch := streamScratch }
  ⟨ty, 0x1000, 0x100, t.spadRead 0x1000 (tileBytes ty), t.spadRead 0x100 (sideBytes ty)⟩

def tStream (m : Stream) (bar : DWord) : Team := { t0 with scratch := streamScratch, stream := some m, bars := SMap.set 0#64 [] 15 bar }

/-- Stream `m` is at a word, and the core's array holds its weights. -/
def sStream (m : Stream) (bar : DWord) : State :=
  let s : State := { withTeam (tStream m bar) with cur := { cur0 with agent := .stream, pc := 0x1C0, lanes := 0 } }
  s.onCore 0 0 fun c => { c with array := some 1 }

/-- Another team's weights are in the array. -/
def sSwapped (m : Stream) : State := (sStream m (barWord 7 254 255 3)).onCore 0 0 fun c => { c with array := some 2 }

theorem word_of (s : State) (t : Team) (m : Stream) (h : s.word? = some (t, m)) : AtWord s t m := h

def w0 : DWord := barWord 7 254 255 3

def sS : State := sStream stream0 w0

def tS : Team := tStream stream0 w0

/-- The stream with weights latched. -/
def streamW (ty : Ty) : Stream := { stream0 with weights := some (weights0 ty) }

theorem atWord0 : AtWord sS tS stream0 := word_of _ _ _ rfl

theorem spans_of {t : Team} {off al lo n : Nat} (h : (Nat.beq (off % al) 0 && Nat.ble lo off && Nat.ble (off + n) t.spadEnd) = true) :
    t.spans off al lo n := by
  simp only [Bool.and_eq_true] at h
  exact ⟨Nat.eq_of_beq_eq_true h.1.1, Nat.le_of_ble_eq_true h.1.2, Nat.le_of_ble_eq_true h.2⟩

theorem wit_StreamWords :
    (∀ i ∈ [Instr.mset 31 0xFFFFF, .msetHi 4 0xABC, .minc 2 4 (.imm10 (-1)), .mloop 10 (-3)], ∃ s t m x, AtWord s t m ∧ seqWord m i = some x)
    ∧ (∃ (i : Instr) (b : SF) (c : BitVec 10) (wait : Bool) (s : State) (t : Team) (m : Stream), (i, b, c, wait) ∈ [(Instr.mbarArriveWait b c, b, c, true)]
      ∧ AtWord s t m ∧ 1 ≤ c.toNat ∧ c.toNat ≤ 255 ∧ barCount (t.bar b.toNat) = c.toNat)
    ∧ (∃ (b : SF) (c : BitVec 10) (s : State) (t : Team) (m : Stream), AtWord s t m ∧ 1 ≤ c.toNat ∧ c.toNat ≤ 255 ∧ barCount (t.bar b.toNat) ≠ 0
      ∧ barCount (t.bar b.toNat) ≠ c.toNat ∧ b.toNat < 16 ∧ t.anyLive = true)
    ∧ (∃ (ty : Ty) (a b : SF) (s : State) (t : Team) (m : Stream), AtWord s t m ∧ let ma := m.reg a.toNat
      let mb := m.reg b.toNat
      t.spans ma.toNat 128 128 (tileBytes ty) ∧ t.spans mb.toNat 64 128 (sideBytes ty) ∧ t.weightsPresent ty ma mb = true
        ∧ ((t.spadRead mb.toNat 64).map fun x => x.toNat).Perm (List.range 64))
    ∧ (∃ (ty : Ty) (a b : SF) (s : State) (t : Team) (m : Stream), AtWord s t m ∧ let ma := m.reg a.toNat
      let mb := m.reg b.toNat
      t.spans ma.toNat 128 128 (tileBytes ty) ∧ t.spans mb.toNat 64 128 (sideBytes ty) ∧ t.weightsPresent ty ma mb = true
        ∧ ¬ ((t.spadRead mb.toNat 64).map fun x => x.toNat).Perm (List.range 64))
    ∧ (∃ (ty : Ty) (a b : SF) (s : State) (t : Team) (m : Stream), AtWord s t m
      ∧ ¬ (t.spans (m.reg a.toNat).toNat 128 128 (tileBytes ty) ∧ t.spans (m.reg b.toNat).toNat 64 128 (sideBytes ty)))
    ∧ (∃ (o : MstrOp) (s : State) (t : Team) (m : Stream) (w : Weights) (n r0 : Nat), AtWord s t m ∧ m.weights = some w ∧ RowSpec (m.reg o.b.toNat) n r0
      ∧ o.d.toNat < t.acc ∧ (w.ty = .s8x4 ↔ o.ty = .s8x4) ∧ let ma := (m.reg o.a.toNat).toNat
      let ms := (m.reg (o.a.toNat + 1)).toNat
      let z := 64 * elemSize o.ty
      t.spans ma 64 128 (z * n) ∧ o.asc = true ∧ t.spans ms 64 128 (2 * n) ∧ (s.core t.die t.core).array = some t.id ∧ t.present ma (z * n) = true
        ∧ t.present ms (2 * n) = true ∧ o.ebe = true ∧ barCount (t.bar o.k.toNat) ≠ 0)
    ∧ (∃ (o : MstrOp) (s : State) (t : Team) (m : Stream) (w : Weights) (n r0 : Nat), AtWord s t m ∧ m.weights = some w ∧ RowSpec (m.reg o.b.toNat) n r0
      ∧ o.d.toNat < t.acc ∧ (w.ty = .s8x4 ↔ o.ty = .s8x4) ∧ t.spans (m.reg o.a.toNat).toNat 64 128 (64 * elemSize o.ty * n) ∧ o.asc = false
        ∧ (s.core t.die t.core).array ≠ some t.id)
    ∧ (∃ (o : MstrOp) (s : State) (t : Team) (m : Stream), AtWord s t m ∧ (∀ n r, ¬ RowSpec (m.reg o.b.toNat) n r) ∧ t.acc > o.d.toNat ∧ m.weights = none)
    ∧ (∃ (o : MstrOp) (s : State) (t : Team) (m : Stream) (n r : Nat), AtWord s t m ∧ RowSpec (m.reg o.b.toNat) n r ∧ t.acc ≤ o.d.toNat ∧ m.weights = none)
    ∧ (∃ (o : MstrOp) (s : State) (t : Team) (m : Stream) (n r : Nat) (w : Weights), AtWord s t m ∧ RowSpec (m.reg o.b.toNat) n r ∧ o.d.toNat < t.acc
      ∧ m.weights = some w ∧ ¬ (w.ty = .s8x4 ↔ o.ty = .s8x4))
    ∧ (∀ bad, ∃ (a : SF) (s : State) (t : Team) (m : Stream), AtWord s t m ∧ let ma := (m.reg a.toNat).toNat
      t.spans ma 16 128 16 ∧ t.present ma 16 = true ∧ badControl (leNat (t.spadRead ma 8)) = bad)
    ∧ (∃ (a : SF) (s : State) (t : Team) (m : Stream), AtWord s t m ∧ ¬ t.spans (m.reg a.toNat).toNat 16 128 16)
    ∧ (∃ (d a b : SF) (s : State) (t : Team) (m : Stream) (n r0 : Nat), AtWord s t m ∧ RowSpec (m.reg b.toNat) n r0 ∧ d.toNat < t.acc
      ∧ let ma := (m.reg a.toNat).toNat
        t.spans ma 64 0 (64 * ((cfmtOf (bits m.ctl.toNat 7 2)).width / 8) * n)
          ∧ (∀ p ∈ vecParts m.ctl.toNat, bits m.ctl.toNat 10 22 + p.1 + p.2 ≤ t.spadEnd) ∧ 128 ≤ ma
          ∧ ∀ p ∈ vecParts m.ctl.toNat, t.present (bits m.ctl.toNat 10 22 + p.1) p.2 = true)
    ∧ (∃ (d a b : SF) (s : State) (t : Team) (m : Stream) (n r0 : Nat), AtWord s t m ∧ RowSpec (m.reg b.toNat) n r0 ∧ d.toNat < t.acc
      ∧ let ma := (m.reg a.toNat).toNat
        t.spans ma 64 0 (64 * ((cfmtOf (bits m.ctl.toNat 7 2)).width / 8) * n)
          ∧ (∀ p ∈ vecParts m.ctl.toNat, bits m.ctl.toNat 10 22 + p.1 + p.2 ≤ t.spadEnd) ∧ ma < 128) := by
  have rows : RowSpec (stream0.reg 4) 2 62 := by unfold RowSpec; decide +kernel
  have tile (ty : Ty) : tS.spans 0x1000 128 128 (tileBytes ty) := by cases ty <;> exact spans_of (by decide +kernel)
  have side (ty : Ty) : tS.spans 0x100 64 128 (sideBytes ty) := by cases ty <;> exact spans_of (by decide +kernel)
  have ctls (a : SF) (h : a = 5 ∨ a = 6) : tS.spans (stream0.reg a.toNat).toNat 16 128 16 := by
    rcases h with rfl | rfl <;> exact spans_of (by decide +kernel)
  refine ⟨fun i hi => ?_, ⟨.mbarArriveWait 15 255, 15, 255, true, sS, tS, stream0, List.mem_singleton.mpr rfl, atWord0, by decide +kernel⟩,
    ⟨15, 254, sS, tS, stream0, atWord0, by decide +kernel⟩,
    ⟨.e5m2x4, 0, 1, sS, tS, stream0, atWord0, tile _, side _, by decide +kernel, by decide +kernel⟩,
    ⟨.f16x2, 0, 8, sS, tS, stream0, atWord0, tile _, spans_of (by decide +kernel), by decide +kernel, by decide +kernel⟩,
    ⟨.s8x4, 0, 7, sS, tS, stream0, atWord0, fun h => absurd (Nat.ble_eq_true_of_le h.2.2.2) (by decide +kernel)⟩,
    ⟨⟨.tp8x4, 1, 2, 4, 15, true, true, false, false, true⟩, sStream (streamW .e4m3x4) w0, tStream (streamW .e4m3x4) w0, streamW .e4m3x4, weights0 .e4m3x4,
      2, 62, rfl, rfl, rows, by decide +kernel, by decide +kernel, spans_of (by decide +kernel), rfl, spans_of (by decide +kernel), by decide +kernel⟩,
    ⟨⟨.tp8x4, 1, 2, 4, 15, false, true, false, false, false⟩, sSwapped (streamW .e4m3x4), tStream (streamW .e4m3x4) w0, streamW .e4m3x4, weights0 .e4m3x4,
      2, 62, rfl, rfl, rows, by decide +kernel, by decide +kernel, spans_of (by decide +kernel), rfl, by decide +kernel⟩,
    ⟨⟨.s8x4, 1, 2, 5, 15, false, false, true, false, false⟩, sS, tS, stream0, atWord0, fun n r h => ?_, by decide +kernel, rfl⟩,
    ⟨⟨.s8x4, 2, 2, 4, 15, false, false, true, false, false⟩, sS, tS, stream0, 2, 62, atWord0, rows, by decide +kernel, rfl⟩,
    ⟨⟨.s8x4, 0, 2, 4, 15, false, false, true, false, false⟩, sStream (streamW .f16x2) w0, tStream (streamW .f16x2) w0, streamW .f16x2, 2, 62, weights0 .f16x2,
      rfl, rows, by decide +kernel, rfl, by decide +kernel⟩,
    fun bad => ?_, ⟨7, sS, tS, stream0, atWord0, fun h => absurd (Nat.ble_eq_true_of_le h.2.2) (by decide +kernel)⟩,
    ⟨1, 8, 4, sS, tS, stream0, 2, 62, atWord0, rows, by decide +kernel, spans_of (by decide +kernel), by decide +kernel, Nat.le_of_ble_eq_true (by decide +kernel),
      by decide +kernel⟩,
    ⟨0, 10, 4, sS, tS, stream0, 2, 62, atWord0, rows, by decide +kernel, spans_of (by decide +kernel), by decide +kernel, by decide +kernel⟩⟩
  · simp only [List.mem_cons, List.not_mem_nil, or_false] at hi
    rcases hi with rfl | rfl | rfl | rfl
    · exact ⟨sS, tS, stream0, _, atWord0, rfl⟩
    · exact ⟨sS, tS, stream0, _, atWord0, rfl⟩
    · exact ⟨sS, tS, stream0, _, atWord0, rfl⟩
    · exact ⟨sS, tS, stream0, _, atWord0, rfl⟩
  · have h1 : 0x200 = n + r * 2 ^ 16 := h.1
    have := h.2.2.1
    have := h.2.1
    omega
  · cases bad
    · exact ⟨5, sS, tS, stream0, atWord0, ctls 5 (.inl rfl), by decide +kernel, by decide +kernel⟩
    · exact ⟨6, sS, tS, stream0, atWord0, ctls 6 (.inr rfl), by decide +kernel, by decide +kernel⟩

/-- A bound tile whose colour buffer is at 0x1000. -/
def bound0 : Bound :=
  { coff := 0x1000, tile := 0, desc := 0x4000, fb := { base := 0x20000, fmt := 1, cmpr := false, tw := 1, th := 1, clear := leBytes 8 0x3C00, sigbase := 0x30000 }
    sigSa := 0x30000, own := none, load := false, fill := [], fillId := 50, grp := 0, lanes := allLanes, handler := false }

def cov0 : Cov := { bound := some bound0, acc := true }

def tCov (c : Cov) : Team := { t0 with cov := c }

/-- The accumulators are taken by four other teams of the core. -/
def sAccs : State := { s0 with teams := tCov { cov0 with acc := false } :: [2, 3, 4, 5].map fun i => { tCov cov0 with id := i } }

/-- Three entries of `q3`, the second an end marker; two outstanding tickets. -/
def covSpans (n : Nat) : Cov :=
  { cov0 with
    q3 := [(0x123, 7), (0x40000000, 0), (0x456, 8)], popped := 0xFFFFFFFF
    tickets := (List.range n).map fun i => { num := BitVec.ofNat 32 (i * i), word := 0x789, paint := 9, op := none } }

theorem issuingC (c : Cov) : Issuing (withTeam (tCov c)) (tCov c) g0 := ⟨rfl, issuing0.live⟩

/-- A path is open below 7 or 8 clip layers, with entries in `q2`. -/
def covOpen (depth n : Nat) : Cov := { cov0 with pathOpen := true, last := some 5, depth := depth, q2 := List.replicate n .pathe }

/-- `v4`, `v5` and `v6` are general. -/
def gSpanp : Machine.Group := withRegs [(4, g0.reg 4), (5, g0.reg 4), (6, g0.reg 4)]

theorem pathb_goes {c : Cov} {seq : Word} {o : PathbOp} (h : c.pathOpen = false) (h1 : c.last = none) (h2 : seq ≠ 0xFFFFFFFF) :
    covError c seq (.pathb o) = none := by
  have : ¬ seq = 4294967295#32 := h2
  simp [covError, h, h1, this]

theorem pathb_open {c : Cov} {seq : Word} {o : PathbOp} (h : c.pathOpen = true) :
    covError c seq (.pathb o) = some { cause := 0xE, info := seq, va := 0 } := by simp [covError, h]

theorem named_of {ns : List Word} {ks : List Ticket} (h : (ns.all fun n => ks.any fun k => decide (k.num = n ∧ k.op = none)) = true) :
    ∀ n ∈ ns, ∃ k ∈ ks, k.num = n ∧ k.op = none := by
  intro n hn
  obtain ⟨k, hk, hd⟩ := List.any_eq_true.mp (List.all_eq_true.mp h n hn)
  exact ⟨k, hk, of_decide_eq_true hd⟩

theorem segl_pushes (g : Machine.Group) (m : Mask) (o : AOp) : ∃ cmds, covPush g m (.segl o) = some (o.g, 0, cmds) := ⟨_, rfl⟩

theorem segq_pushes (g : Machine.Group) (m : Mask) (o : AOp) : ∃ cmds, covPush g m (.segq o) = some (o.g, 0, cmds) := ⟨_, rfl⟩

theorem qpush_pushes {g : Machine.Group} {m : Mask} {o : QpushOp} (h : o.q = 2 ∧ ∀ l ∈ m.lanes, (g.elem o.a.toNat l).toNat ≤ 1) :
    ∃ cmds, covPush g m (.qpush o) = some (o.g, 0, cmds) := ⟨_, if_pos h⟩

theorem wit_PathsAndSpans :
    (∀ n i, (n, i) ∈ [(127, Instr.clipp g1), (96, .segl ⟨g7, 0⟩), (112, .qpush ⟨g1, 2, 8⟩), (97, .segq ⟨g7, 0⟩), (128, .pathe g7)] →
      ∃ (gd : Guard) (seq : Word) (cmds : List CovCmd) (s : State) (t : Team) (g : Machine.Group), Issuing s t g
        ∧ covPush g (g.active gd s.cur.lanes) i = some (gd, seq, cmds) ∧ g.active gd s.cur.lanes ≠ 0 ∧ t.cov.bound.isSome = true ∧ t.cov.acc = true
        ∧ covError t.cov seq i = none ∧ t.cov.q2.length = n)
    ∧ (∃ (o : PathbOp) (gd : Guard) (seq : Word) (cmds : List CovCmd) (s : State) (t : Team) (g : Machine.Group), Issuing s t g
      ∧ covPush g (g.active gd s.cur.lanes) (.pathb o) = some (gd, seq, cmds) ∧ g.active gd s.cur.lanes ≠ 0 ∧ t.cov.bound.isSome = true ∧ t.cov.acc = true
      ∧ covError t.cov seq (.pathb o) = none)
    ∧ (∀ i ∈ [Instr.clipp g1, .pathb ⟨g1, 4, 2, true, true⟩, .clipx g1], ∃ (gd : Guard) (seq : Word) (cmds : List CovCmd) (s : State) (t : Team)
      (g : Machine.Group) (tr : Trap) (code : DWord) (s1 : State), Issuing s t g ∧ CanTrap s t g code s1
        ∧ covPush g (g.active gd s.cur.lanes) i = some (gd, seq, cmds) ∧ g.active gd s.cur.lanes ≠ 0 ∧ t.cov.bound.isSome = true ∧ t.cov.acc = true
        ∧ covError t.cov seq i = some tr)
    ∧ (∃ (gd : Guard) (seq : Word) (cmds : List CovCmd) (s : State) (t : Team) (g : Machine.Group), Issuing s t g
      ∧ covPush g (g.active gd s.cur.lanes) (.pathe gd) = some (gd, seq, cmds) ∧ g.active gd s.cur.lanes ≠ 0 ∧ t.cov.bound.isSome = true
      ∧ t.cov.acc = false ∧ s.accsUsed t.die t.core = 4)
    ∧ (∃ (i : Instr) (gd : Guard) (s : State) (t : Team) (g : Machine.Group) (code : DWord) (s1 : State), needsTile i = some gd ∧ Issuing s t g
      ∧ CanTrap s t g code s1 ∧ g.active gd s.cur.lanes ≠ 0 ∧ t.cov.bound = none ∧ ∀ d ∈ i.uses.rd, (g.reg d).shape = .general)
    ∧ (∃ (i : Instr) (gd : Guard) (s : State) (t : Team) (g : Machine.Group), needsTile i = some gd ∧ Issuing s t g ∧ g.active gd s.cur.lanes = 0)
    ∧ (∃ (o : SpanpOp) (s : State) (t : Team) (g : Machine.Group), Issuing s t g ∧ let m := g.active o.g s.cur.lanes
      m ≠ 0 ∧ t.cov.bound.isSome = true ∧ t.cov.acc = true ∧ poolFor g [o.d.toNat, o.d.toNat + 1, o.d.toNat + 2] .general = []
        ∧ t.cov.outstanding = 128 ∧ ∀ w ∈ t.cov.q3.head?, w.1.getLsbD 30 = false)
    ∧ (∃ (o : SpanpOp) (s : State) (t : Team) (g : Machine.Group), Issuing s t g ∧ let m := g.active o.g s.cur.lanes
      m ≠ 0 ∧ t.cov.bound.isSome = true ∧ t.cov.acc = true ∧ poolFor g [o.d.toNat, o.d.toNat + 1, o.d.toNat + 2] .general = []
        ∧ t.cov.q3 ≠ [] ∧ t.cov.outstanding + m.lanes.length = 128)
    ∧ (∃ (i : Instr) (op : BlendOp) (o : BlndOp) (s : State) (t : Team) (g : Machine.Group), blndOf i = some (op, o) ∧ Issuing s t g
      ∧ let m := g.active o.g s.cur.lanes
        let names := m.lanes.map fun l => g.elem o.a.toNat l
        m ≠ 0 ∧ t.cov.bound.isSome = true ∧ t.cov.acc = true ∧ names.Nodup ∧ ∀ n ∈ names, ∃ k ∈ t.cov.tickets, k.num = n ∧ k.op = none)
    ∧ (∃ (i : Instr) (op : BlendOp) (o : BlndOp) (s : State) (t : Team) (g : Machine.Group) (code : DWord) (s1 : State), blndOf i = some (op, o)
      ∧ Issuing s t g ∧ CanTrap s t g code s1 ∧ let m := g.active o.g s.cur.lanes
        m ≠ 0 ∧ t.cov.bound.isSome = true ∧ t.cov.acc = true ∧ ¬ (m.lanes.map fun l => g.elem o.a.toNat l).Nodup) := by
  have ic := issuingC
  obtain ⟨c1, s1, h1⟩ := canTrap_of (withTeam (tCov (covOpen 8 0))) (tCov (covOpen 8 0)) g0 (by decide +kernel)
  obtain ⟨c2, s2, h2⟩ := canTrap_of (withTeam (tCov (covSpans 17))) (tCov (covSpans 17)) g0 (by decide +kernel)
  obtain ⟨c3, s3, h3⟩ := canTrap_of (machine gSpanp) (teamOf gSpanp) gSpanp (by decide +kernel)
  have act1 : g0.active g1 allLanes ≠ 0 := by decide +kernel
  have act7 : g0.active g7 allLanes ≠ 0 := by decide +kernel
  have spans : poolFor g0 [8, 9, 10] .general = [] := by decide +kernel
  refine ⟨fun n i h => ?_,
    ⟨⟨g1, 4, 2, true, false⟩, g1, g0.elem 4 0, [.pathb true false (g0.elem 4 0) (g0.elem 2 0)], withTeam (tCov cov0), tCov cov0, g0, ic _, by decide +kernel,
      by decide +kernel, rfl, rfl, pathb_goes rfl rfl (by decide +kernel)⟩,
    fun i h => ?_,
    ⟨g1, 0, [.pathe], sAccs, tCov { cov0 with acc := false }, g0, ⟨rfl, issuing0.live⟩, rfl, by decide +kernel, rfl, rfl, by decide +kernel⟩,
    ⟨.spanp ⟨g7, 0, 4, 1⟩, g7, machine gSpanp, teamOf gSpanp, gSpanp, c3, s3, rfl, issuing_of _ _ _ ⟨rfl, by decide +kernel⟩, h3,
      by decide +kernel, rfl, by decide +kernel⟩,
    ⟨.tilef ⟨2, false⟩, ⟨2, false⟩, s0, t0, g0, rfl, issuing0, by decide +kernel⟩,
    ⟨⟨g1, 3, 8, 7⟩, _, tCov (covSpans 128), g0, ic _, act1, rfl, rfl, spans, by decide +kernel, fun w h => by cases h; decide⟩,
    ⟨⟨g7, 0, 8, 1⟩, _, tCov (covSpans 96), g0, ic _, by decide +kernel, rfl, rfl, spans, by decide +kernel, by decide +kernel⟩,
    ⟨.blndAdd ⟨g1, 4, 0⟩, _, _, _, tCov (covSpans 16), g0, rfl, ic _, act1, rfl, rfl, by decide +kernel, named_of (by decide +kernel)⟩,
    ⟨.blndOver ⟨g7, 2, 0⟩, _, _, _, tCov (covSpans 17), g0, c2, s2, rfl, ic _, h2, by decide +kernel, rfl, rfl, by decide +kernel⟩⟩
  · simp only [List.mem_cons, List.not_mem_nil, or_false, Prod.mk.injEq] at h
    rcases h with ⟨rfl, rfl⟩ | ⟨rfl, rfl⟩ | ⟨rfl, rfl⟩ | ⟨rfl, rfl⟩ | ⟨rfl, rfl⟩
    · exact ⟨g1, 0, [.clipp], _, tCov (covOpen 7 127), g0, ic _, rfl, act1, rfl, rfl, rfl, List.length_replicate⟩
    · obtain ⟨cmds, hq⟩ := segl_pushes g0 (g0.active g7 allLanes) ⟨g7, 0⟩
      exact ⟨g7, 0, cmds, _, tCov (covOpen 7 96), g0, ic _, hq, act7, rfl, rfl, rfl, List.length_replicate⟩
    · obtain ⟨cmds, hq⟩ := qpush_pushes (g := g0) (m := g0.active g1 allLanes) (o := ⟨g1, 2, 8⟩) (by decide +kernel)
      exact ⟨g1, 0, cmds, _, tCov (covOpen 7 112), g0, ic _, hq, act1, rfl, rfl, rfl, List.length_replicate⟩
    · obtain ⟨cmds, hq⟩ := segq_pushes g0 (g0.active g7 allLanes) ⟨g7, 0⟩
      exact ⟨g7, 0, cmds, _, tCov (covOpen 7 97), g0, ic _, hq, act7, rfl, rfl, rfl, List.length_replicate⟩
    · exact ⟨g7, 0, [.pathe], _, tCov (covOpen 7 128), g0, ic _, rfl, act7, rfl, rfl, rfl, List.length_replicate⟩
  · simp only [List.mem_cons, List.not_mem_nil, or_false] at h
    rcases h with rfl | rfl | rfl
    · exact ⟨g1, 0, [.clipp], _, tCov (covOpen 8 0), g0, ⟨0xF, 8, 0⟩, c1, s1, ic _, h1, rfl, act1, rfl, rfl, rfl⟩
    · exact ⟨g1, g0.elem 4 0, [.pathb true true (g0.elem 4 0) (g0.elem 2 0)], _, tCov (covOpen 8 0), g0, _, c1, s1, ic _, h1, by decide +kernel, act1, rfl, rfl, pathb_open rfl⟩
    · exact ⟨g1, 0, [.clipx], _, tCov (covOpen 8 0), g0, ⟨0xE, 0xFFFFFFFF, 0⟩, c1, s1, ic _, h1, rfl, act1, rfl, rfl, rfl⟩

/-- The framebuffer descriptor of `bound0` at 0x4000; context 1 has an ownership area of `n` entries. -/
def memFb : SMap Byte := entries [(0x4000, 0x20000), (0x4008, 0x1000100000001), (0x4010, 0x3C00), (0x4018, 0x30000)] mem0

def sTile (n : Nat) (teams : List Team) (owners : List (Nat × Nat)) : State :=
  { s0 with mem := memFb, teams := teams, tileOwners := owners, contexts := [{ num := 1, root := 0x1000, hva := 0x8000, partition := 0, obase := 0xB000, ocap := n }] }

theorem ok_of {ε α : Type} (r : Except ε α) (h : (match r with | .ok _ => true | _ => false) = true) : ∃ x, r = .ok x := by
  cases r
  · cases h
  · exact ⟨_, rfl⟩

theorem error_of {ε α : Type} (r : Except ε α) (h : (match r with | .error _ => true | _ => false) = true) : ∃ x, r = .error x := by
  cases r
  · exact ⟨_, rfl⟩
  · cases h

theorem crc_zeros (l : List Byte) (h : ∀ b ∈ l, b = 0) : crc64 l = 0 := by
  have step : ∀ b : Byte, b = 0 → (List.range 8).foldl (fun c _ => crcBit c) ((0#64 : DWord) ^^^ (BitVec.setWidth 64 b <<< (56 : Nat))) = 0 := by
    rintro b rfl; decide
  unfold crc64
  induction l with
  | nil => rfl
  | cons b r ih => rw [List.foldl_cons, step b (h b List.mem_cons_self)]; exact ih fun x hx => h x (List.mem_cons_of_mem _ hx)

/-- The signature entry at 0x30000 is valid, with the CRC of a clear buffer. -/
def sSig (c : Cov) : State := { sTile 4 [tCov c] [(0x30000, 1)] with mem := entries [(0x30008, 1)] memFb }

def fbRead (s : State) (t : Team) : Direct FrameBuf × State := s.readFb t 0x4000 0

def sigRead (s : State) (t : Team) : Direct (Nat × Bool) × State := (fbRead s t).2.direct t.ctx t.die (bound0.fb.sigVa 0) .read

/-- The machine after the signature entry has been read. -/
def sSig2 : State := ((fbRead (sSig cov0) (tCov cov0)).2.directRead 1 0 (bound0.fb.sigVa 0) 16).2

/-- A clear buffer leaves the tile as it is. -/
theorem finish_clear (s s1 : State) (t : Team) (l : List Byte) (h : s.directRead t.ctx t.die (bound0.fb.sigVa 0) 16 = (.ok l, s1))
    (hb : ((t.pixels bound0).all fun b => b == 0) = true) (hl : leNat (l.take 8) = 0 ∧ (leNat (l.drop 8)).testBit 0 = true) :
    s.finishTile t bound0.fb bound0 none = (.ok true, s1) := by
  have hc : crc64 (t.pixels bound0) = 0 := crc_zeros _ (by simpa using hb)
  have h' : s.directRead t.ctx t.die (bound0.fb.sigVa bound0.tile) 16 = (.ok l, s1) := h
  simp [State.finishTile, State.tileChanged, hc, h', show bound0.crc = none from rfl, Direct.map, hl.1, hl.2]

/-- Beside the team, four others that hold the core's accumulators. -/
def teams4 : List Team := t0 :: [2, 3, 4, 5].map fun i => { tCov cov0 with id := i }


/-- A TILEF that has decided to write, with the descriptor that it read at its issue. -/
def gTilef (fb : FrameBuf) : Machine.Group := { g0 with fbRead := some fb }
def covB (b : Bound) : Cov := { cov0 with bound := some b }
def tTilef (b : Bound) (fb : FrameBuf) : Team := { tCov (covB b) with groups := [gTilef fb] }
def sTilef (b : Bound) (fb : FrameBuf) (n : Nat) : State := { sTile 4 [tTilef b fb] [(0x30000, 1)] with cur := { cur0 with only := some n } }
def writing : Bound := { bound0 with crc := some 7 }

/-- A dead tile with a line that its fill has left absent. -/
def tDead : Team := { tCov (covB { bound0 with dead := true, fill := [0] }) with absent := [(32, 51)] }

/-- A dead tile with a retired span on that line, whose commit can never land. -/
def tStuck : Team :=
  { tDead with cov := { tDead.cov with tickets := [{ num := 0, word := 0, paint := 9, op := some .src, colour := [0, 0, 0, 0] }] } }

/-- A TILEB that is counted among the waiters of a tile's entry, with another. -/
def gCounted : Machine.Group := { g0 with park := .retry (.tile (some 70)) }
def tCounted : Team := teamOf gCounted
def sCounted : State := { sTile 4 (tCounted :: teams4.drop 1) [] with own := [own0 3 2] }

/-- What the statements about TILEF ask of the bundle. -/
structure Tilef (s s1 : State) (t : Team) (g : Machine.Group) (b : Bound) (fb : FrameBuf) : Prop where
  issuing : Issuing s t g
  active : g.active g1 s.cur.lanes ≠ 0
  bound : t.cov.bound = some b
  acc : t.cov.acc = true
  closed : t.cov.pathOpen = false ∨ g.fbRead ≠ none
  fence : s.fenceBusy g.acquires = false
  own : s.ownWrites t g = false
  read : FbAtIssue s s1 t g b.desc b.tile fb

theorem wit_TileOutput :
    (∀ load, ∃ (i : Instr) (o : TilebOp) (s s1 s2 : State) (t : Team) (g : Machine.Group) (l sa : Nat) (fb : FrameBuf) (bld : Bool) (k : Nat),
      (i, load, o) ∈ [(Instr.tilebClear o, false, o), (.tilebLoad o, true, o)] ∧ Issuing s t g ∧ s.fenceBusy g.acquires = false
        ∧ (g.active o.g s.cur.lanes).lowest = some l ∧ t.cov.bound = none ∧ t.spans o.coff.toNat 128 128 2048 ∧ FbAtIssue s s1 t g (g.pairElem o.a.toNat l) (g.elem o.b.toNat l) fb
        ∧ s1.direct t.ctx t.die (fb.sigVa (g.elem o.b.toNat l)) .read = (.ok (sa, bld), s2) ∧ s2.tileOwner sa = none ∧ s2.accsUsed t.die t.core < 4
        ∧ s2.freeIndex t.ctx = some k ∧ g.tileWait = none)
    ∧ (∀ owned, ∃ (o : TilebOp) (s s1 s2 : State) (t : Team) (g : Machine.Group) (l sa : Nat) (fb : FrameBuf) (bld : Bool),
      Issuing s t g ∧ s.fenceBusy g.acquires = false ∧ (g.active o.g s.cur.lanes).lowest = some l ∧ t.cov.bound = none ∧ t.spans o.coff.toNat 128 128 2048
        ∧ FbAtIssue s s1 t g (g.pairElem o.a.toNat l) (g.elem o.b.toNat l) fb
        ∧ s1.direct t.ctx t.die (fb.sigVa (g.elem o.b.toNat l)) .read = (.ok (sa, bld), s2)
        ∧ s2.tileOwner sa = (if owned then some 2 else none) ∧ (owned = false → s2.accsUsed t.die t.core = 4))
    ∧ (∃ (o : TilebOp) (s s1 s2 : State) (t : Team) (g : Machine.Group) (l sa : Nat) (fb : FrameBuf) (bld : Bool) (e : Nat) (x : OwnEntry),
      Issuing s t g ∧ s.fenceBusy g.acquires = false ∧ (g.active o.g s.cur.lanes).lowest = some l ∧ t.cov.bound = none ∧ t.spans o.coff.toNat 128 128 2048
        ∧ FbAtIssue s s1 t g (g.pairElem o.a.toNat l) (g.elem o.b.toNat l) fb
        ∧ s1.direct t.ctx t.die (fb.sigVa (g.elem o.b.toNat l)) .read = (.ok (sa, bld), s2)
        ∧ s2.tileOwner sa = none ∧ s2.accsUsed t.die t.core = 4 ∧ g.tileWait = some e ∧ s2.entry? e = some x ∧ x.waiters = 2
        ∧ ∀ h ∈ t.groups, h.num ≠ g.num → e ∉ h.waitEntries)
    ∧ (∃ (o : TilebOp) (s : State) (t : Team) (g : Machine.Group) (l : Nat) (code : DWord) (s1 : State), Issuing s t g ∧ CanTrap s t g code s1
      ∧ s.fenceBusy g.acquires = false ∧ (g.active o.g s.cur.lanes).lowest = some l ∧ t.cov.bound.isSome = true)
    ∧ (∃ (o : TilebOp) (s : State) (t : Team) (g : Machine.Group) (l : Nat) (code : DWord) (s1 : State), Issuing s t g ∧ CanTrap s t g code s1
      ∧ s.fenceBusy g.acquires = false ∧ (g.active o.g s.cur.lanes).lowest = some l ∧ t.cov.bound = none ∧ ¬ t.spans o.coff.toNat 128 128 2048)
    ∧ (∃ (gd : Guard) (s : State) (t : Team) (g : Machine.Group) (b : Bound) (code : DWord) (s1 : State), Issuing s t g ∧ CanTrap s t g code s1
      ∧ g.active gd s.cur.lanes ≠ 0 ∧ t.cov.bound = some b ∧ t.cov.acc = true ∧ t.cov.pathOpen = true ∧ g.fbRead = none)
    ∧ (∃ s s1 t g b fb, Tilef s s1 t g b fb ∧ b.ending = none ∧ s1.tileDrained t b = false)
    ∧ (∀ stuck, ∃ s s1 t g b fb, Tilef s s1 t g b fb ∧ b.ending = none ∧ s1.tileDrained t b = true ∧ b.dead = true
      ∧ s1.commitStuck t b = stuck ∧ SMap.get 0 t.absent (b.coff / 128) = b.fillId + 1)
    ∧ (∀ r ∈ [Direct.ok true, .ok false, .fault 0 0x80000000, .trap (xlateTrap 1 0x0200000000000000)], ∃ s s1 s2 t g b fb, Tilef s s1 t g b fb
      ∧ b.ending = none ∧ s1.tileDrained t b = true ∧ b.dead = false ∧ t.present b.coff 2048 = true
      ∧ s1.finishTile t fb b s.cur.only = (r, s2)
      ∧ ((∃ tr, r = .trap tr) → (s2.writeSig t fb b.tile (b.crc.getD (crc64 (t.pixels b))) false).1 = .ok ()))
    ∧ (∃ s s1 t g b fb tr, Tilef s s1 t g b fb ∧ b.ending = some tr
      ∧ (s1.writeSig t fb b.tile (b.crc.getD (crc64 (t.pixels b))) false).1 = .ok ())
    ∧ (∃ (s s1 : State) (t : Team) (fb : FrameBuf) (b : Bound) (l : List Byte), b.crc = none
      ∧ s.directRead t.ctx t.die (fb.sigVa b.tile) 16 = (.ok l, s1)
      ∧ leNat (l.take 8) = (crc64 (t.pixels b)).toNat ∧ (leNat (l.drop 8)).testBit 0 = true)
    ∧ (∀ n : Byte, n ∈ [0, 3] → ∃ (s : State) (sa : Nat) (raw : List Byte), raw.length = 256 ∧ let md := s.mdAddr sa + blockOf sa
        ¬ (sa ≤ md ∧ md < sa + 256) ∧ (n = 0 → ∃ old, s.blockBytes sa = .ok old) ∧ (n = 3 → ∃ c, s.blockBytes sa = .error c)) := by
  have act1 : g0.active g1 allLanes ≠ 0 := by decide +kernel
  have ic (n : Nat) (c : Cov) (ts : List Team) (os : List (Nat × Nat)) : Issuing (sTile n (tCov c :: ts) os) (tCov c) g0 := ⟨rfl, issuing0.live⟩
  have it (n : Nat) (ts : List Team) (os : List (Nat × Nat)) : Issuing (sTile n (t0 :: ts) os) t0 g0 := ⟨rfl, issuing0.live⟩
  have iw (b : Bound) (fb : FrameBuf) (n : Nat) : Tilef (sTilef b fb n) (sTilef b fb n) (tTilef b fb) (gTilef fb) b fb :=
    ⟨⟨rfl, issuing0.live⟩, act1, rfl, rfl, .inr nofun, rfl, rfl, .inl ⟨rfl, rfl⟩⟩
  have lane : (g0.active g1 allLanes).lowest = some 0 := by decide +kernel
  have span : t0.spans 0x1000 128 128 2048 := spans_of (by decide +kernel)
  obtain ⟨c1, s1, h1⟩ := canTrap_of (sTile 4 [tCov (covOpen 0 0)] [(0x30000, 1)]) (tCov (covOpen 0 0)) g0 (by decide +kernel)
  obtain ⟨c0, s2, h0⟩ := canTrap0
  have fin : (fbRead (sSig cov0) (tCov cov0)).2.finishTile (tCov cov0) bound0.fb bound0 none = (.ok true, sSig2) :=
    finish_clear _ sSig2 _ (leBytes 16 (2 ^ 64)) (fst_of ((fbRead (sSig cov0) (tCov cov0)).2.directRead 1 0 (bound0.fb.sigVa 0) 16) _ (by decide +kernel))
      (by decide +kernel) (by decide +kernel)
  refine ⟨fun load => ?_,
    fun owned => ?_,
    ⟨⟨g1, 2, 8, 0x1000⟩, sCounted, _, (sigRead sCounted tCounted).2, tCounted, gCounted, 0, 0x30000, bound0.fb, false, 70, own0 3 2, ⟨rfl, issuing0.live⟩, rfl, lane,
      rfl, span, .inr ⟨rfl, fst_of (fbRead sCounted tCounted) _ (by decide +kernel)⟩, fst_of (sigRead sCounted tCounted) _ (by decide +kernel), by decide +kernel,
      by decide +kernel, rfl, by decide +kernel, rfl, by decide +kernel⟩,
    ⟨⟨g1, 2, 8, 0x1000⟩, _, tCov (covOpen 0 0), g0, 0, c1, s1, ic _ _ _ _, h1, rfl, lane, rfl⟩,
    ⟨⟨g1, 2, 8, 0x7900⟩, s0, t0, g0, 0, c0, s2, issuing0, h0, rfl, lane, rfl, fun h => absurd (Nat.ble_eq_true_of_le h.2.2) (by decide +kernel)⟩,
    ⟨g1, _, tCov (covOpen 0 0), g0, bound0, c1, s1, ic _ _ _ _, h1, act1, rfl, rfl, rfl, rfl⟩,
    ⟨sTile 4 [tCov (covSpans 1)] [], (fbRead (sTile 4 [tCov (covSpans 1)] []) (tCov (covSpans 1))).2, tCov (covSpans 1), g0, bound0, bound0.fb,
      ⟨ic _ _ _ _, act1, rfl, rfl, .inl rfl, rfl, rfl, .inr ⟨rfl, fst_of (fbRead (sTile 4 [tCov (covSpans 1)] []) (tCov (covSpans 1))) _ (by decide +kernel)⟩⟩, rfl, rfl⟩,
    fun stuck => ?_,
    fun r hr => ?_,
    ⟨_, _, _, _, { writing with ending := some (xlateTrap 1 0) }, bound0.fb, _, iw _ _ 0, rfl, by decide +kernel⟩,
    ⟨sSig cov0, ((sSig cov0).directRead 1 0 (bound0.fb.sigVa 0) 16).2, t0, bound0.fb, bound0, leBytes 16 (2 ^ 64), rfl,
      fst_of ((sSig cov0).directRead 1 0 (bound0.fb.sigVa 0) 16) _ (by decide +kernel), ?_, by decide +kernel⟩,
    fun n hn => ⟨sBlock g0 (access0 .load 0 []) n, 0x4000, List.replicate 256 0, List.length_replicate, ?_⟩⟩
  · have h : ∃ i : Instr, (i, load, (⟨g1, 2, 8, 0x1000⟩ : TilebOp)) ∈ [(Instr.tilebClear ⟨g1, 2, 8, 0x1000⟩, false, (⟨g1, 2, 8, 0x1000⟩ : TilebOp)),
        (.tilebLoad ⟨g1, 2, 8, 0x1000⟩, true, ⟨g1, 2, 8, 0x1000⟩)] := by
      cases load
      · exact ⟨_, List.mem_cons_self⟩
      · exact ⟨_, List.mem_cons_of_mem _ List.mem_cons_self⟩
    obtain ⟨i, h⟩ := h
    exact ⟨i, _, sTile 4 [t0] [], _, (sigRead (sTile 4 [t0] []) t0).2, t0, g0, 0, 0x30000, bound0.fb, false, 0, h, it _ _ _, rfl, lane, rfl, span,
      .inr ⟨rfl, fst_of (fbRead (sTile 4 [t0] []) t0) _ (by decide +kernel)⟩, fst_of (sigRead (sTile 4 [t0] []) t0) _ (by decide +kernel), by decide +kernel, by decide +kernel,
      by decide +kernel, rfl⟩
  · cases owned
    · exact ⟨⟨g1, 2, 8, 0x1000⟩, sTile 4 teams4 [], _, (sigRead (sTile 4 teams4 []) t0).2, t0, g0, 0, 0x30000, bound0.fb, false, it _ _ _, rfl, lane, rfl, span,
        .inr ⟨rfl, fst_of (fbRead (sTile 4 teams4 []) t0) _ (by decide +kernel)⟩, fst_of (sigRead (sTile 4 teams4 []) t0) _ (by decide +kernel), by decide +kernel,
        by decide +kernel⟩
    · exact ⟨⟨g1, 2, 8, 0x1000⟩, sTile 4 [t0] [(0x30000, 2)], _, (sigRead (sTile 4 [t0] [(0x30000, 2)]) t0).2, t0, g0, 0, 0x30000, bound0.fb, false, it _ _ _, rfl,
        lane, rfl, span, .inr ⟨rfl, fst_of (fbRead (sTile 4 [t0] [(0x30000, 2)]) t0) _ (by decide +kernel)⟩,
        fst_of (sigRead (sTile 4 [t0] [(0x30000, 2)]) t0) _ (by decide +kernel), by decide +kernel, fun h => by cases h⟩
  · have dead (t : Team) (h : Issuing (sTile 4 [t] []) t g0 ∧ (fbRead (sTile 4 [t] []) t).1 = .ok bound0.fb) (k : Bool)
        (hb : t.cov.bound = some { bound0 with dead := true, fill := [0] } ∧ t.cov.acc = true ∧ t.cov.pathOpen = false)
        (hd : (fbRead (sTile 4 [t] []) t).2.tileDrained t { bound0 with dead := true, fill := [0] } = true
          ∧ (fbRead (sTile 4 [t] []) t).2.commitStuck t { bound0 with dead := true, fill := [0] } = k
          ∧ SMap.get 0 t.absent (bound0.coff / 128) = bound0.fillId + 1) :
        ∃ s s1 t g b fb, Tilef s s1 t g b fb ∧ b.ending = none ∧ s1.tileDrained t b = true ∧ b.dead = true
          ∧ s1.commitStuck t b = k ∧ SMap.get 0 t.absent (b.coff / 128) = b.fillId + 1 :=
      ⟨sTile 4 [t] [], _, t, g0, _, bound0.fb, ⟨h.1, act1, hb.1, hb.2.1, .inl hb.2.2, rfl, rfl, .inr ⟨rfl, fst_of (fbRead (sTile 4 [t] []) t) _ h.2⟩⟩,
        rfl, hd.1, rfl, hd.2⟩
    cases stuck
    · exact dead tDead ⟨⟨rfl, issuing0.live⟩, by decide +kernel⟩ _ ⟨rfl, rfl, rfl⟩ (by decide +kernel)
    · exact dead tStuck ⟨⟨rfl, issuing0.live⟩, by decide +kernel⟩ _ ⟨rfl, rfl, rfl⟩ (by decide +kernel)
  · simp only [List.mem_cons, List.not_mem_nil, or_false] at hr
    rcases hr with rfl | rfl | rfl | rfl
    · exact ⟨sSig cov0, (fbRead (sSig cov0) (tCov cov0)).2, sSig2, tCov cov0, g0, bound0, bound0.fb,
        ⟨⟨rfl, issuing0.live⟩, act1, rfl, rfl, .inl rfl, rfl, rfl, .inr ⟨rfl, fst_of (fbRead (sSig cov0) (tCov cov0)) _ (by decide +kernel)⟩⟩, rfl, rfl, rfl,
        by decide +kernel, fin, nofun⟩
    · exact ⟨_, _, _, _, _, writing, bound0.fb, iw _ _ 0, rfl, by decide +kernel, rfl, by decide +kernel,
        fst_of ((sTilef writing bound0.fb 0).finishTile (tTilef writing bound0.fb) bound0.fb writing (some 0)) _ (by decide +kernel), nofun⟩
    · exact ⟨_, _, _, _, _, writing, { bound0.fb with base := 0x80000000 }, iw _ _ 0, rfl, by decide +kernel, rfl, by decide +kernel,
        fst_of ((sTilef writing { bound0.fb with base := 0x80000000 } 0).finishTile (tTilef writing { bound0.fb with base := 0x80000000 })
          { bound0.fb with base := 0x80000000 } writing (some 0)) _ (by decide +kernel), nofun⟩
    · exact ⟨_, _, _, _, _, writing, { bound0.fb with base := 0x0200000000000000 }, iw _ _ 0, rfl, by decide +kernel, rfl, by decide +kernel,
        fst_of ((sTilef writing { bound0.fb with base := 0x0200000000000000 } 0).finishTile (tTilef writing { bound0.fb with base := 0x0200000000000000 })
          { bound0.fb with base := 0x0200000000000000 } writing (some 0)) _ (by decide +kernel), fun _ => by decide +kernel⟩
  · have h : leNat ((leBytes 16 (2 ^ 64)).take 8) = 0 := by decide +kernel
    have z : crc64 (t0.pixels bound0) = 0 := crc_zeros _ (by
      have hb : ((t0.pixels bound0).all fun b => b == 0) = true := by decide +kernel
      simpa using hb)
    rw [h, z]
    rfl
  · simp only [List.mem_cons, List.not_mem_nil, or_false] at hn
    rcases hn with rfl | rfl
    · exact ⟨by decide +kernel, fun _ => ok_of _ (by decide +kernel), nofun⟩
    · exact ⟨by decide +kernel, nofun, fun _ => error_of _ (by decide +kernel)⟩

/-- A 2D texture at 0x50000 of 4 × 4 texels and two levels, F16 with two channels, described at 0x4000; the filter and its taps as given. -/
def sTex (filt taps : Nat) : State :=
  { s0 with mem := entries [(0x4000, 0x50000), (0x4008, 4 + 4 * 2 ^ 16 + 2 ^ 32 + 2 * 2 ^ 48 + 2 * 2 ^ 53 + 2 ^ 56 + filt * 2 ^ 58 + taps * 2 ^ 60),
      (0x50000, 0x3C0040003C004000)] mem0 }

/-- The same with group `gRec`, whose guard `p4` holds for lane 0. -/
def sTexR (filt taps : Nat) : State := { sTex filt taps with teams := [teamOf gRec] }

/-- Lanes 16 and 17 name descriptors at 0x4020 and 0x4010. -/
def gMisTex : Machine.Group :=
  { g0 with
    regs := [(2, .general (laneVals fun l => if l = 16 then 0x4020 else if l = 17 then 0x4010 else 0x4000)), (8, g0.reg 4), (9, g0.reg 4), (10, g0.reg 4), (11, g0.reg 4)] }

def descs (filt taps : Nat) (ok : Tex → Bool) : Direct (List (Nat × Option Tex)) × State := (sTexR filt taps).texDescs (teamOf gRec) gRec 2 ok [0]

/-- A load or an ATOM of the scope given has not returned; the line that it reads is homed on the issuing die. -/
def gNarrow (kind : PendKind) (scope : Nat) : Machine.Group := { g0 with pending := [{ pend0 with kind := kind, scope := scope }] }
def sNarrow (kind : PendKind) (scope : Nat) : State :=
  { machine (gNarrow kind scope) with accesses := [{ access0 .load 41 [] with scope := scope }] }

def tex0 (filt taps : Nat) : Tex :=
  { base := 0x50000, width := 4, height := 4, depth := 1, levels := 2, vol := false, fmt := 2, ch := 1, filt := filt, taps := taps, wrapU := 0, wrapV := 0, wrapW := 0 }

/-- What a sample of a clear operand run gives. -/
def texel0 : Rgba := [0x40000000, 0x3F800000, 0, 0x3F800000]

theorem wit_Textures :
    (∀ k, k < 3 → ∃ (i : Instr) (o : TexOp) (ok : Tex → Bool) (plan : Machine.Group → Nat → Tex → Plan) (s s1 s2 : State) (t : Team) (g : Machine.Group)
        (ds : List (Nat × Option Tex)) (vs : List (Nat × Rgba)),
      ((k = 0 ∧ i = .tex o ∧ (∀ x, ok x = decide (x.filt ≠ 3)) ∧ (∀ g l x, plan g l x = x.plan fun k => .decode .f32 (g.elem (o.b.toNat + k) l).toNat))
        ∨ (k = 1 ∧ i = .texAniso o ∧ (∀ x, ok x = decide (x.filt = 3)) ∧ (∀ g l x, plan g l x = x.plan fun k => .decode .f32 (g.elem (o.b.toNat + k) l).toNat))
        ∨ (k = 2 ∧ i = .tld o ∧ (∀ x, ok x = true) ∧ ∀ g l x, let c := fun k => (g.elem (o.b.toNat + k) l).toInt
            plan g l x = { sites := [x.loadSite (c 0) (c 1) (c 2) (c 3)], combine := fun ts => ts.getD 0 [0, 0, 0, 0] }))
      ∧ Issuing s t g ∧ g.fences = [] ∧ s.ReadsTextures t g ∧ poolFor g [o.d.toNat, o.d.toNat + 1, o.d.toNat + 2, o.d.toNat + 3] .general = []
      ∧ (g.active o.g s.cur.lanes).lanes = [0] ∧ (g.pairElem o.a.toNat 0).toNat % 64 = 0 ∧ canonical (g.pairElem o.a.toNat 0) = true
      ∧ s.texDescs t g o.a ok [0] = (.ok ds, s1) ∧ (∀ d ∈ ds, d.2.isSome = true) ∧ s1.texSamples t (plan g) ds = (.ok vs, s2))
    ∧ (∃ (s s1 : State) (t : Team) (plan : Nat → Tex → Plan) (l : Nat) (x : Tex) (ts : List Rgba), s.texels t x (Plan.sites (plan l x)) = (.ok ts, s1))
    ∧ (∃ (o : TexqOp) (s s1 : State) (t : Team) (g : Machine.Group) (ds : List (Nat × Option Tex)), Issuing s t g ∧ g.fences = [] ∧ s.ReadsTextures t g
      ∧ poolFor g [o.d.toNat, o.d.toNat + 1, o.d.toNat + 2, o.d.toNat + 3] .general = []
      ∧ (g.active o.g s.cur.lanes).lanes = [0] ∧ (g.pairElem o.a.toNat 0).toNat % 64 = 0 ∧ canonical (g.pairElem o.a.toNat 0) = true
      ∧ s.texDescs t g o.a (fun _ => true) [0] = (.ok ds, s1) ∧ ∀ d ∈ ds, d.2.isSome = true)
    ∧ (∃ (o : TexqOp) (s : State) (t : Team) (g : Machine.Group) (l : Nat) (code : DWord) (s1 : State), Issuing s t g ∧ CanTrap s t g code s1
      ∧ g.fences = [] ∧ s.ReadsTextures t g ∧ (∀ k, k < 4 → (g.reg (o.d.toNat + k)).shape = .general) ∧ l ∈ (g.active o.g s.cur.lanes).lanes ∧ (g.pairElem o.a.toNat l).toNat % 64 ≠ 0
      ∧ ∀ k ∈ (g.active o.g s.cur.lanes).lanes, (g.pairElem o.a.toNat k).toNat % 64 ≠ 0 → (g.pairElem o.a.toNat l).toNat ≤ (g.pairElem o.a.toNat k).toNat)
    ∧ (∀ kind scope, (kind, scope) ∈ [(PendKind.load, 1), (.atom, 3), (.load, 2)] → ∃ (s : State) (t : Team) (g : Machine.Group), Issuing s t g ∧ g.fences = []
      ∧ g.pending.map (fun p => (p.kind, p.scope)) = [(kind, scope)] ∧ ¬ s.ReadsTextures t g) := by
  have nl (s : State) (t : Team) (g : Machine.Group) (h : g.pending = [] ∧ s.accesses = []) : s.ReadsTextures t g :=
    ⟨fun p hp => absurd (h.1 ▸ hp) List.not_mem_nil, fun b hb => absurd (h.2 ▸ hb) List.not_mem_nil⟩
  have is (f a : Nat) : Issuing (sTexR f a) (teamOf gRec) gRec := ⟨rfl, issuingR.live⟩
  have pool : poolFor gRec [16, 17, 18, 19] .general = [] := by decide +kernel
  have one : (gRec.active ⟨4, false⟩ allLanes).lanes = [0] := by decide +kernel
  have al : (gRec.pairElem 2 0).toNat % 64 = 0 ∧ canonical (gRec.pairElem 2 0) = true := by decide +kernel
  have some0 (f a : Nat) : ∀ d ∈ [((0 : Nat), some (tex0 f a))], d.2.isSome = true := fun d h => by cases List.mem_singleton.mp h; rfl
  obtain ⟨c, s1, h⟩ := canTrap_of (machine gMisTex) (teamOf gMisTex) gMisTex (by decide +kernel)
  have d0 : (descs 1 0 fun x => decide (x.filt ≠ 3)).1 = .ok [(0, some (tex0 1 0))] := by decide +kernel
  have d1 : (descs 3 1 fun x => decide (x.filt = 3)).1 = .ok [(0, some (tex0 3 1))] := by decide +kernel
  have d2 : (descs 2 0 fun _ => true).1 = .ok [(0, some (tex0 2 0))] := by decide +kernel
  refine ⟨fun k hk => ?_,
    ⟨sTexR 1 0, _, teamOf gRec, fun _ _ => { sites := [some (0, 0, 0, 0), none], combine := fun _ => [] }, 0, tex0 1 0, [texel0, [0, 0, 0, 0]],
      fst_of ((sTexR 1 0).texels (teamOf gRec) (tex0 1 0) [some (0, 0, 0, 0), none]) _ (by decide +kernel)⟩,
    ⟨⟨⟨4, false⟩, 16, 2, 20⟩, sTexR 2 0, _, teamOf gRec, gRec, _, is _ _, rfl, nl _ _ _ ⟨rfl, rfl⟩, pool, one, al.1, al.2, fst_of (descs 2 0 fun _ => true) _ d2, some0 _ _⟩,
    ⟨⟨⟨1, true⟩, 8, 2, 4⟩, machine gMisTex, teamOf gMisTex, gMisTex, 17, c, s1, issuing_of _ _ _ (by decide +kernel), h, rfl, nl _ _ _ ⟨rfl, rfl⟩, by decide +kernel,
      by decide +kernel, by decide +kernel, by decide +kernel⟩,
    fun kind scope h => ⟨sNarrow kind scope, teamOf (gNarrow kind scope), gNarrow kind scope, ⟨rfl, issuing0.live⟩, rfl, rfl, fun r => ?_⟩⟩
  rotate_left
  · have p := r.pending { pend0 with kind := kind, scope := scope } List.mem_cons_self (show (1 : Nat) ≠ 0 by decide)
    have w := r.home _ List.mem_cons_self rfl rfl rfl
    simp only [List.mem_cons, Prod.mk.injEq, List.not_mem_nil, or_false] at h
    rcases h with ⟨rfl, rfl⟩ | ⟨rfl, rfl⟩ | ⟨rfl, rfl⟩
    · exact absurd (p.2 rfl) (by decide)
    · exact p.1 rfl
    · exact absurd w (by decide +kernel)
  have hk : k = 0 ∨ k = 1 ∨ k = 2 := by omega
  rcases hk with rfl | rfl | rfl
  · exact ⟨.tex ⟨⟨4, false⟩, 15, 16, 2, 20⟩, _, _, fun g l x => x.plan fun k => .decode .f32 (g.elem (20 + k) l).toNat, sTexR 1 0, _,
      ((descs 1 0 fun x => decide (x.filt ≠ 3)).2.texSamples (teamOf gRec) (fun l x => x.plan fun k => .decode .f32 (gRec.elem (20 + k) l).toNat) [(0, some (tex0 1 0))]).2,
      teamOf gRec, gRec, _, [(0, texel0)], .inl ⟨rfl, rfl, fun _ => rfl, fun _ _ _ => rfl⟩, is _ _, rfl, nl _ _ _ ⟨rfl, rfl⟩, pool, one, al.1, al.2, fst_of (descs 1 0 _) _ d0, some0 _ _,
      fst_of ((descs 1 0 fun x => decide (x.filt ≠ 3)).2.texSamples (teamOf gRec) (fun l x => x.plan fun k => .decode .f32 (gRec.elem (20 + k) l).toNat) [(0, some (tex0 1 0))])
        _ (by decide +kernel)⟩
  · exact ⟨.texAniso ⟨⟨4, false⟩, 0, 16, 2, 20⟩, _, _, fun g l x => x.plan fun k => .decode .f32 (g.elem (20 + k) l).toNat, sTexR 3 1, _,
      ((descs 3 1 fun x => decide (x.filt = 3)).2.texSamples (teamOf gRec) (fun l x => x.plan fun k => .decode .f32 (gRec.elem (20 + k) l).toNat) [(0, some (tex0 3 1))]).2,
      teamOf gRec, gRec, _, [(0, texel0)], .inr (.inl ⟨rfl, rfl, fun _ => rfl, fun _ _ _ => rfl⟩), is _ _, rfl, nl _ _ _ ⟨rfl, rfl⟩, pool, one, al.1, al.2, fst_of (descs 3 1 _) _ d1, some0 _ _,
      fst_of ((descs 3 1 fun x => decide (x.filt = 3)).2.texSamples (teamOf gRec) (fun l x => x.plan fun k => .decode .f32 (gRec.elem (20 + k) l).toNat) [(0, some (tex0 3 1))])
        _ (by decide +kernel)⟩
  · exact ⟨.tld ⟨⟨4, false⟩, 0, 16, 2, 20⟩, _, _, fun g l x => let c := fun k => (g.elem (20 + k) l).toInt
        { sites := [x.loadSite (c 0) (c 1) (c 2) (c 3)], combine := fun ts => ts.getD 0 [0, 0, 0, 0] }, sTexR 2 0, _,
      ((descs 2 0 fun _ => true).2.texSamples (teamOf gRec) (fun l x => let c := fun k => (gRec.elem (20 + k) l).toInt
        { sites := [x.loadSite (c 0) (c 1) (c 2) (c 3)], combine := fun ts => ts.getD 0 [0, 0, 0, 0] }) [(0, some (tex0 2 0))]).2,
      teamOf gRec, gRec, _, [(0, texel0)], .inr (.inr ⟨rfl, rfl, fun _ => rfl, fun _ _ _ => rfl⟩), is _ _, rfl, nl _ _ _ ⟨rfl, rfl⟩, pool, one, al.1, al.2, fst_of (descs 2 0 _) _ d2, some0 _ _,
      fst_of ((descs 2 0 fun _ => true).2.texSamples (teamOf gRec) (fun l x => let c := fun k => (gRec.elem (20 + k) l).toInt
        { sites := [x.loadSite (c 0) (c 1) (c 2) (c 3)], combine := fun ts => ts.getD 0 [0, 0, 0, 0] }) [(0, some (tex0 2 0))]) _ (by decide +kernel)⟩

/-- The machine whose die 0 is as given. -/
def sDie (d : Die) : State := { s0 with dies := d :: s0.dies.drop 1, gtime := 60000000000 }

theorem wit_ThermalStates :
    (∀ th band reading, (th, band, reading) ∈ [(Thermal.run, 0, 5280), (.warmIdle, 3, 0xFFFF)] →
      ∃ (s : State) (die : Nat) (readings : List Nat), die < 8 ∧ s.dies.length = 8 ∧ reading ∈ readings ∧ (∀ r ∈ readings, r ≤ reading)
        ∧ s.die die = { thermal := th, band := band } ∧ (s.die die).thermal ≠ .off ∧ 5280 ≤ reading)
    ∧ (∀ th band reading next, (th, band, reading, next) ∈
        [(Thermal.run, 0, 1407, 0), (.run, 0, 1408, 1), (.retreat, 1, 1377, 1), (.retreat, 1, 1376, 0), (.retreat, 1, 1760, 2), (.park, 2, 1729, 2),
         (.park, 2, 4000, 3), (.warmIdle, 3, 3968, 2), (.warmIdle, 3, 3969, 3), (.cooldown, 2, 1728, 1), (.coldIdle, 1, 1119, 0), (.warmup, 2, 5279, 3),
         (.drain, 1, 1376, 0), (.drain, 1, 1760, 2)] →
      ∃ (s : State) (die : Nat) (readings : List Nat), die < 8 ∧ s.dies.length = 8 ∧ reading ∈ readings ∧ (∀ r ∈ readings, r ≤ reading)
        ∧ s.die die = { thermal := th, band := band } ∧ (s.die die).thermal ≠ .off ∧ reading < 5280 ∧ bandRule band reading = next)
    ∧ (∀ late, ∃ (s : State) (die c : Nat), die < s.dies.length ∧ (s.die die).thermal = .retreat ∧ (s.die die).coldSince = some c
      ∧ (late = true ↔ c + 60000000000 ≤ s.gtime))
    ∧ (∀ th temp temp0, (th, temp, temp0) ∈ [(Thermal.cooldown, 1000, 1161), (.cooldown, 1000, 1160), (.warmup, 1161, 1000)] →
      ∃ (s : State) (die t1 : Nat), die < s.dies.length ∧ (s.die die).thermal = th ∧ (s.die die).temp = temp ∧ (s.die die).window = some (t1, temp0)
        ∧ t1 + 60000000000 = s.gtime)
    ∧ (∀ th band, (th, band) ∈ [(Thermal.coldIdle, 0), (.coldIdle, 1), (.cooldown, 3), (.warmup, 3)] →
      ∃ (s : State) (die : Nat), die < s.dies.length ∧ (s.die die).training = true ∧ (s.die die).thermal = th ∧ (s.die die).band = band)
    ∧ (∀ teams : List Team, teams ∈ [[], [t0]] → ∃ (s : State) (die : Nat), die < s.dies.length ∧ (s.die die).thermal = .run ∧ s.teams = teams)
    ∧ (∀ late, ∃ (s : State) (die : Nat), die < s.dies.length ∧ (s.die die).thermal = .drain
      ∧ (late = true ↔ (s.die die).drainSince + (s.die die).drainTimeout ≤ s.gtime))
    ∧ (∃ (s : State) (die : Nat), die < s.dies.length ∧ (s.die die).thermal = .park)
    ∧ (∃ (s : State) (die : Nat), die < s.dies.length ∧ (s.die die).thermal = .warmup ∧ (s.die die).reachedTransit = false ∧ (s.die die).band = 1)
    ∧ (∀ th ∈ [Thermal.run, .drain], ∃ (s : State) (die : Nat), die < s.dies.length ∧ (s.die die).thermal = th ∧ (s.die die).patrolled)
    ∧ (∃ (s : State) (die : Nat), die < s.dies.length ∧ ¬ (s.die die).patrolled)
    ∧ (∃ (s : State) (die : Nat), die < s.dies.length ∧ s.staleAreas = [])
    ∧ (∃ (s : State) (die : Nat), die < 8 ∧ s.dies.length = 8 ∧ (s.die die).thermal ≠ .off ∧ s.worksOn die 1 = true)
    ∧ (∃ (s : State) (die : Nat), die < 8 ∧ s.dies.length = 8 ∧ (s.die die).thermal ≠ .off ∧ ∀ c ∈ s.contexts, s.worksOn die c.num = false) := by
  have count (d : Die) : (sDie d).dies.length = 8 := rfl
  have is (d : Die) : (sDie d).die 0 = d := rfl
  have lt (d : Die) : 0 < (sDie d).dies.length := by rw [count]; decide
  refine ⟨fun th band reading h => ⟨sDie { thermal := th, band := band }, 0, [100, reading, 7], by decide, rfl, by simp, ?_, is _, ?_, ?_⟩,
    fun th band reading next h => ⟨sDie { thermal := th, band := band }, 0, [100, reading, 7], by decide, rfl, by simp, ?_, is _, ?_, ?_, ?_⟩,
    fun late => ⟨sDie { thermal := .retreat, coldSince := some (if late then 0 else 1) }, 0, if late then 0 else 1, lt _, rfl, rfl, by cases late <;> decide⟩,
    fun th temp temp0 _ => ⟨sDie { thermal := th, temp := temp, window := some (0, temp0) }, 0, 0, lt _, rfl, rfl, rfl, rfl⟩,
    fun th band _ => ⟨sDie { thermal := th, band := band, training := true }, 0, lt _, rfl, rfl, rfl⟩,
    fun teams _ => ⟨{ sDie { thermal := .run } with teams := teams }, 0, lt { thermal := .run }, rfl, rfl⟩,
    fun late => ⟨sDie { thermal := .drain, drainTimeout := if late then 60000000000 else 60000000001 }, 0, lt _, rfl, by cases late <;> decide⟩,
    ⟨sDie { thermal := .park }, 0, lt _, rfl⟩, ⟨sDie { thermal := .warmup, band := 1 }, 0, lt _, rfl, rfl, rfl⟩,
    fun th h => ⟨sDie { thermal := th, band := 0, refresh := false }, 0, lt _, rfl, by
      simp only [List.mem_cons, List.not_mem_nil, or_false] at h
      exact ⟨h, rfl, rfl, rfl⟩⟩,
    ⟨sDie { thermal := .run, band := 1 }, 0, lt _, fun h => absurd h.2.1 (by rw [is]; decide)⟩, ⟨s0, 0, by decide, rfl⟩,
    ⟨s0, 0, by decide, rfl, by decide, by decide⟩, ⟨{ s0 with teams := [] }, 7, by decide, rfl, by decide, by decide⟩⟩
  all_goals simp only [List.mem_cons, Prod.mk.injEq, List.not_mem_nil, or_false] at h
  · rcases h with ⟨rfl, rfl, rfl⟩ | ⟨rfl, rfl, rfl⟩ <;> decide
  · rcases h with ⟨rfl, rfl, rfl⟩ | ⟨rfl, rfl, rfl⟩ <;> decide
  · rcases h with ⟨rfl, rfl, rfl⟩ | ⟨rfl, rfl, rfl⟩ <;> omega
  all_goals rcases h with ⟨rfl, rfl, rfl, rfl⟩ | ⟨rfl, rfl, rfl, rfl⟩ | ⟨rfl, rfl, rfl, rfl⟩ | ⟨rfl, rfl, rfl, rfl⟩ | ⟨rfl, rfl, rfl, rfl⟩ | ⟨rfl, rfl, rfl, rfl⟩
      | ⟨rfl, rfl, rfl, rfl⟩ | ⟨rfl, rfl, rfl, rfl⟩ | ⟨rfl, rfl, rfl, rfl⟩ | ⟨rfl, rfl, rfl, rfl⟩ | ⟨rfl, rfl, rfl, rfl⟩ | ⟨rfl, rfl, rfl, rfl⟩
      | ⟨rfl, rfl, rfl, rfl⟩ | ⟨rfl, rfl, rfl, rfl⟩
  all_goals first | omega | decide

/-- Island 0 of die 0 below its ceiling by a current limit; a hot frame. -/
def sClock : State := sDie { thermal := .run, band := 0, islands := [{ mhz := 1500, limit := 90, lowered := 100 }, { mhz := 800, limit := 40 }], hotness := [(3, 255), (4, 1)], epoch := 60000000000 }

theorem wit_ClocksAndLinks :
    (∃ (s : State) (die k : Nat) (i : Island), die < s.dies.length ∧ (s.die die).islands[k]? = some i ∧ i.lowered ≠ 0 ∧ rateRule s die k i < 1500 ∧ 1500 ≤ ceilingRule s die k 1500
      ∧ ceilingRule s die k 1501 < 1501)
    ∧ (∃ (s : State) (d : Nat) (i : Island) (r : List Island), (s.die d).islands = i :: r ∧ s.leaseClock d = none)
    ∧ (∃ (s : State) (d : Nat) (i : Island) (r : List Island) (c : Nat), (s.die d).islands = i :: r ∧ s.leaseClock d = some c)
    ∧ (∃ (s : State) (die core slot : Nat), core < 96 ∧ slot < (s.core die core).retention.length ∧ slot < 4)
    ∧ (∀ k, k < 6 → ∃ (s : State) (c die ticks : Nat), leaseClocks[k]? = some (1550 + 50 * k) ∧ (∀ l ∈ s.launches, l.ctx = c → l.det = true → l.done ≠ none)
      ∧ (s.context? c).isSome = true ∧ die < 8 ∧ ticks ≠ 0)
    ∧ (∃ (s : State) (c p : Nat) (x : Context), s.context? c = some x ∧ (s.partition? p).isSome = true)
    ∧ (∃ (die core : Nat), die < 8 ∧ core < 96)
    ∧ (∀ late, ∃ (s : State) (die : Nat), die < s.dies.length ∧ (late = true ↔ (s.die die).epochFrom + (s.die die).epoch ≤ s.gtime))
    ∧ (∀ b, ∃ (i : Instr) (die port : Nat) (s : State), (i, die, port, b) ∈ [(Instr.larsaPortDown die port, die, port, false), (.larsaPortUp die port, die, port, true)]
      ∧ die < s.dies.length)
    ∧ (∃ (s : State) (p : Nat), p < 576 ∧ p ≠ s.package) :=
  ⟨⟨sClock, 0, 0, { mhz := 1500, limit := 90, lowered := 100 }, by decide, rfl, by decide, by decide +kernel, by decide, by decide⟩,
    ⟨sClock, 0, _, _, rfl, by decide⟩, ⟨{ sClock with leases := [⟨1, 0, 1600, 9⟩] }, 0, _, _, 1600, rfl, by decide⟩, ⟨s0, 7, 95, 3, by decide, by decide, by decide⟩,
    fun k hk => ⟨s0, 1, 7, 1, by
      have h : k = 0 ∨ k = 1 ∨ k = 2 ∨ k = 3 ∨ k = 4 ∨ k = 5 := by omega
      rcases h with rfl | rfl | rfl | rfl | rfl | rfl <;> rfl, fun l h => (by cases h), rfl, by decide, by decide⟩,
    ⟨s0, 1, 0, _, rfl, rfl⟩, ⟨7, 95, by decide, by decide⟩,
    fun late => ⟨if late then sClock else s0, 0, by cases late <;> decide⟩,
    fun b => by
      cases b
      · exact ⟨.larsaPortDown 7 3, 7, 3, s0, List.mem_cons_self, by decide⟩
      · exact ⟨.larsaPortUp 0 0, 0, 0, s0, List.mem_cons_of_mem _ List.mem_cons_self, by decide⟩,
    ⟨s0, 575, by decide, by decide⟩⟩

/-- Two windows of the host; an access of context 1 to a line of die 0. -/
def sHost (ops : List HostOp) : State := { s0 with hostWindows := [(0x100, 8), (0x4000, 0x1000)], hostOps := ops }

/-- Die 0 in self-refresh, or not. -/
def sRefresh (held : Bool) (ops : List HostOp) : State := { sDie { thermal := .park, selfRefresh := held } with hostOps := ops }

/-- A store of two lanes is on its way to die 0. -/
def sRelease : State := sFifo (entry0 .st .store) (access0 .store 40 twoLanes)

def next? : Result → Bool
  | .next _ => true
  | _ => false

def nextOf (s : State) : Result → State
  | .next t => t
  | _ => s

theorem released (r : Result) (h : next? r = true) : r = .next (nextOf s0 r) := by
  cases r
  · rfl
  all_goals cases h

theorem relRun : next? (homeSteps sRelease [50, 0]) = true := by decide +kernel

theorem relClear : (nextOf s0 (homeSteps sRelease [50, 0])).staleAreas = [] ∧ ∀ l ∈ (nextOf s0 (homeSteps sRelease [50, 0])).launches, l.done = none := by
  decide +kernel

theorem hostWin (ops : List HostOp) : ∃ w ∈ (sHost ops).hostWindows, w.1 ≤ 0x4F77 ∧ 0x4F77 + (List.replicate 9 (7 : Byte)).length ≤ w.1 + w.2 :=
  ⟨(0x4000, 0x1000), List.mem_cons_of_mem _ List.mem_cons_self, by decide, by decide⟩

theorem hostFree (ops : List HostOp) (a : Nat) (h : (sHost []).held 0 ((sHost []).local a) = false) : (sHost ops).held 0 ((sHost ops).local a) = false := h

theorem hostHeld (held : Bool) (ops : List HostOp) : (sRefresh held ops).held 0 ((sRefresh held ops).local 0x4FF7) = held := by
  have h (b : Bool) : (sRefresh b []).held 0 ((sRefresh b []).local 0x4FF7) = b := by cases b <;> decide +kernel
  exact h held

theorem wit_FirmwareAndHost :
    (∀ r ∈ [FwReg.contextEntry 63 0x1000 0x8000 0, .contextOwnership 1 0xB000 4, .partitionDies 1 [0, 7, 8], .queueEntry 0 63 1 0x9000, .queueClear 0 3,
        .urgency 0 0xFFFFFFFF, .epoch 7 100000, .epoch 7 100000001, .drainTimeout 7 1, .islandClock 0 0 1501, .islandLimit 0 1 9, .islandVoltage 0 1 700, .partitionDies 8 [0], .partitionDies 1 [8], .islandClock 0 0 1400, .hostWindow 0 8,
        .hostWindowsClear, .metadataBase 7 0, .pte 0x6000 0x11007], ∃ s : State, ∀ d, fwDie r = some d → d < s.dies.length)
    ∧ (∃ (s : State) (c : Nat) (x : Context), s.context? c = some x ∧ s.worksOn 0 c = true)
    ∧ (∃ (s : State) (die : Nat) (a : Access) (u : State), (s.accesses.filter fun a => s.homedOn die a.line || (a.die == die && saPackage (a.line * 128) != s.package)) = [a]
      ∧ homeSteps s [a.id, 0] = .next u ∧ u.staleAreas = [] ∧ ∀ l ∈ u.launches, l.done = none)
    ∧ (∃ s : State, s.accesses = [] ∧ s.hostOps = [] ∧ s.staleAreas = [] ∧ ∀ l ∈ s.launches, l.done = none)
    ∧ (∃ s : State, s.dies.length = 8 ∧ s.booted = false) ∧ (∃ s : State, s.booted = true)
    ∧ (∀ ops ∈ [[], [HostOp.read 0x100 8 []]], ∃ (s : State) (addr : Nat) (l : List Byte), (∃ w ∈ s.hostWindows, w.1 ≤ addr ∧ addr + l.length ≤ w.1 + w.2)
      ∧ addr + l.length ≤ memEnd ∧ s.hostOps = ops ∧ addr % 128 + l.length ≤ 128 ∧ s.held 0 (s.local addr) = false)
    ∧ (∀ ops ∈ [[], [HostOp.write 0x100 []]], ∃ (s : State) (addr n : Nat), (∃ w ∈ s.hostWindows, w.1 ≤ addr ∧ addr + n ≤ w.1 + w.2) ∧ addr + n ≤ memEnd
      ∧ s.hostOps = ops ∧ addr % 128 + n ≤ 128 ∧ s.held 0 (s.local addr) = false)
    ∧ (∀ n held, n ∈ [1, 200] → ∃ (s : State) (a : Nat) (l : List Byte), s.hostOps = [.write a l] ∧ l.length = n ∧ s.held 0 (s.local a) = held)
    ∧ (∀ n held, n ∈ [1, 200] → ∃ (s : State) (a : Nat) (got : List Byte), s.hostOps = [.read a n got] ∧ s.held 0 (s.local a) = held)
    ∧ (∀ i ∈ [Instr.hostWrite 0x107 [1, 2], .hostRead 0xFF 1], ∃ (addr n : Nat) (s : State),
      (i, addr, n) ∈ (match i with | .hostWrite a l => [(i, a, l.length)] | .hostRead a n => [(i, a, n)] | _ => [])
        ∧ ∀ w ∈ s.hostWindows, addr < w.1 ∨ w.1 + w.2 < addr + n) := by
  refine ⟨fun r h => ⟨s0, fun d hd => ?_⟩, ⟨s0, 1, _, rfl, by decide⟩,
    ⟨sRelease, 0, _, _, rfl, released _ relRun, relClear.1, relClear.2⟩,
    ⟨s0, rfl, rfl, rfl, fun l h => (by cases h)⟩, ⟨State.reset, rfl, rfl⟩, ⟨s0, rfl⟩,
    fun ops h => ⟨sHost ops, 0x4F77, List.replicate 9 7, hostWin ops, by decide +kernel, rfl, by decide +kernel, hostFree ops 0x4F77 (by decide +kernel)⟩,
    fun ops h => ⟨sHost ops, 0x100, 8, ⟨(0x100, 8), List.mem_cons_self, by decide, by decide⟩, by decide +kernel, rfl, by decide +kernel, hostFree ops 0x100 (by decide +kernel)⟩,
    fun n held h => ⟨sRefresh held [.write 0x4FF7 (List.replicate n 1)], 0x4FF7, List.replicate n 1, rfl, List.length_replicate, hostHeld _ _⟩,
    fun n held h => ⟨sRefresh held [.read 0x4FF7 n []], 0x4FF7, [], rfl, hostHeld _ _⟩,
    fun i h => ?_⟩
  · simp only [List.mem_cons, List.not_mem_nil, or_false] at h
    rcases h with rfl | rfl | rfl | rfl | rfl | rfl | rfl | rfl | rfl | rfl | rfl | rfl | rfl | rfl | rfl | rfl | rfl | rfl | rfl
    all_goals simp only [fwDie, reduceCtorEq, Option.some.injEq] at hd
    all_goals (subst hd; decide)
  · simp only [List.mem_cons, List.not_mem_nil, or_false] at h
    rcases h with rfl | rfl
    · exact ⟨0x107, 2, sHost [], List.mem_singleton.mpr rfl, by decide⟩
    · exact ⟨0xFF, 1, sHost [], List.mem_singleton.mpr rfl, by decide⟩

/-- A fault entry with a slot, number 60, of die 0. -/
def fault0 (req : FaultReq) : FaultEntry :=
  { id := 60, page := (0x1FFFFFF80000000, 4096), die := 0, core := 0, ctx := 1, agent := 0, kind := 0, cause := 1, va := 0x81FFFFFF80000000, slot := true, req := req }

def gParked : Machine.Group := { g0 with park := .fault 60 }

/-- Command 7: a load of two rows of 32 elements from 0x4000 to 0x2000, which arrives on barrier 5 and pushes its TAG. -/
def cmd7 : DriftCmd :=
  { id := 7, kind := 0, sfmt := 0, gfmt := 0, elems := 32, rows := 2, soff := 0x2000, gstride := 128, gaddr := 0x4000, mcast := 0, permit := false
    pbar := 4, arrive := true, abar := 5, complete := true, tag := 99, enqGen := 6 }

/-- A team whose group 0, stream, command 7 and prologue may wait for entry 60. -/
def tFault : Team :=
  { t0 with groups := [gParked], stream := some { stream0 with park := .fault 60 }, cov := cov0, prologueFault := some 60
            cmds := [{ cmd7 with faults := [60] }, { cmd7 with id := 8 }] }

def sFault (req : FaultReq) : State :=
  { s0 with teams := [tFault], faults := [{ fault0 .gone with id := 59, slot := false }, fault0 req], queues := [{ queue3 with fault := some 60 }]
            launches := [{ launch0 with done := some (0, 0, 5), compaddr := 0x100000000 }] }

/-- A migration of the page at 0x40000000 to the frame 0x20000 is under way. -/
def mig0 : Migration := { id := 100, die := 0, ctx := 1, va := 0x40000000, size := 4096, pteAddr := 0x6000, run := [0x10007], shadow := 0x20000 }

theorem wit_FaultsAndPages :
    (∃ (s : State) (die : Nat), s.faultSlotsUsed die < 4096 ∧ s.faults ≠ [] ∧ ∀ f ∈ s.faults, f.die = die → f.slot = true)
    ∧ (∃ (s : State) (die : Nat) (l : List FaultEntry) (f : FaultEntry) (r : List FaultEntry), s.faultSlotsUsed die < 4096 ∧ s.faults = l ++ f :: r ∧ l ≠ []
      ∧ f.die = die ∧ f.slot = false ∧ ∀ x ∈ l, x.die = die → x.slot = true)
    ∧ (∀ r ∈ [FaultReq.insn 1 0, .fetch 1 0, .handler 1 0, .tex 1 0, .tileWrite 1 0], ∃ (s : State) (id : Nat) (f : FaultEntry) (g : Machine.Group) (e : Entry),
      s.faults.find? (fun x => x.id == id) = some f ∧ f.slot = true ∧ id < s.nextId ∧ f.req = r ∧ s.group? 1 0 = some g ∧ g.park = .fault f.id ∧ g.head? = some e)
    ∧ (∀ r ∈ [FaultReq.prologue 1, .streamFetch 1, .drift 1 7, .tileFill 1], ∃ (s : State) (id : Nat) (f : FaultEntry) (x : Team) (m : Stream) (b : Bound),
      s.faults.find? (fun x => x.id == id) = some f ∧ f.slot = true ∧ id < s.nextId ∧ f.req = r ∧ s.team? 1 = some x ∧ x.anyLive = true ∧ x.stream = some m
        ∧ x.cov.bound = some b)
    ∧ (∃ (s : State) (id : Nat) (f : FaultEntry) (x : Team) (m : Stream), s.faults.find? (fun x => x.id == id) = some f ∧ f.slot = true ∧ id < s.nextId
      ∧ f.req = .streamFetch 1 ∧ s.team? 1 = some x ∧ x.stream = some m ∧ m.ended = true)
    ∧ (∀ r ∈ [FaultReq.queue 0 3, .table 0 3 6, .ownArea 1 0, .completion 1, .gone], ∃ (s : State) (id : Nat) (f : FaultEntry) (q : Queue) (c : Context) (l : Launch),
      s.faults.find? (fun x => x.id == id) = some f ∧ f.slot = true ∧ id < s.nextId ∧ f.req = r ∧ s.queue? 0 3 = some q ∧ s.context? 1 = some c ∧ s.launch? 1 = some l)
    ∧ (∃ (s : State) (ctx va shadow : Nat) (e : TlbEntry) (pa n : Nat), s.walk ctx va = .page e ∧ s.leafRun ctx va = some (pa, n)
      ∧ saPackage e.sa = s.package ∧ shadow % e.size = 0 ∧ frameOk shadow e.size false = true
      ∧ (s.migrations.filter fun m => m.die == dieOfPhys (saPhys e.sa)).length < 8 ∧ ∀ m ∈ s.migrations, m.pteAddr ≠ pa)
    ∧ (∀ same, ∃ (s : State) (id : Nat) (m : Migration), s.migrations.find? (fun x => x.id == id) = some m
      ∧ (∀ a ∈ s.accesses, a.line < m.oldSa / 128 ∨ (m.oldSa + m.size) / 128 ≤ a.line) ∧ (same = true ↔ s.readRun m.pteAddr m.run.length = m.run)) := by
  refine ⟨⟨sFault .gone, 1, by decide, by decide, by decide⟩,
    ⟨{ s0 with faults := [fault0 .gone, { fault0 .gone with id := 61, slot := false }] }, 0, [fault0 .gone], { fault0 .gone with id := 61, slot := false }, [],
      by decide, rfl, by decide, rfl, rfl, by decide⟩,
    fun r _ => ⟨sFault r, 60, fault0 r, gParked, _, rfl, rfl, (by decide : 60 < 100), rfl, rfl, rfl, rfl⟩,
    fun r _ => ⟨sFault r, 60, fault0 r, tFault, _, _, rfl, rfl, (by decide : 60 < 100), rfl, rfl, rfl, rfl, rfl⟩,
    ⟨{ sFault (.streamFetch 1) with teams := [{ tFault with stream := some { stream0 with ended := true } }] }, 60, fault0 (.streamFetch 1), _, _, rfl, rfl,
      (by decide : 60 < 100), rfl, rfl, rfl, rfl⟩,
    fun r _ => ⟨sFault r, 60, fault0 r, _, _, _, rfl, rfl, (by decide : 60 < 100), rfl, rfl, rfl, rfl⟩,
    ⟨s0, 1, 0x40000000, 0x20000, ⟨1, 0x40000000, 4096, 0x10000, false, true, false⟩, 0x6000, 1, by decide +kernel, by decide +kernel, by decide +kernel,
      by decide +kernel, by decide +kernel, by decide, fun m h => by cases h⟩,
    fun same => ?_⟩
  cases same
  · exact ⟨{ s0 with migrations := [{ mig0 with run := [0x10003] }] }, 100, _, rfl, by (intro a h; cases h), by decide +kernel⟩
  · exact ⟨{ s0 with migrations := [mig0] }, 100, _, rfl, by (intro a h; cases h), by decide +kernel⟩

/-- Launch 1 without a graph, with one cluster left on die 0. -/
def launchA : Launch := { launch0 with graph := none, next := List.replicate 8 0, last := [1, 0, 0, 0, 0, 0, 0, 0], started := false }

def sLaunch (l : Launch) (ts : List Team) : State := { s0 with launches := [l], teams := ts, gtime := 60000000000 }

/-- The packet of one cluster of one team in the ring of queue 3, or zeros. -/
def packetWords : List (Nat × Nat) :=
  [(0xA300, 0x100), (0xA338, 1 + 2 ^ 32 + 2 ^ 48), (0xA340, 1 + 32 * 2 ^ 32 + 2 ^ 46 + 2 ^ 50), (0xA348, 2 + 256), (0xA350, 1), (0xA36C, 77)]

def sPacket (l : List (Nat × Nat)) : State := { sOwn 4 [] with mem := entries l (sOwn 4 []).mem, launches := [] }

def header1 (s : State) : Direct (List Byte) × State := s.feRead 1 0 0x9000 2 64

def packet1 (s : State) : Direct (List Byte) × State := (header1 s).2.feRead 1 0 0xA300 2 128

def read1 (s : State) : Direct Unit × State := (packet1 s).2.fresh.2.feWrite 1 0 0x9008 2 (leBytes 8 7)

def graphS (bs : List Batch) : State :=
  { sLaunch { launch0 with graph := some { graph0 with batches := bs } } [{ t0 with q4 := [(1, 0x4100)], groups := [{ g0 with park := .retry (.stock none) }] }] with gtime := 10 }

def batch0 (n first : Nat) (c : Option Nat) : Batch := { id := 20, die := 0, node := n, recs := [5], first := first, closedAt := c }

/-- A team in its prologue, whose transform table is at `a`. -/
def tPro (a : DWord) : Team := { t0 with place := .prologue, begun := false, xfCount := 1, xfAddr := a }

def pro (a : DWord) : Direct Unit × Team × State := (withTeam (tPro a)).prologue (tPro a)

theorem trip_of {α β γ : Type} {p : α × β × γ} {a : α} {b : β} (h : p.1 = a ∧ p.2.1 = b) : p = (a, b, p.2.2) :=
  Prod.ext h.1 (Prod.ext h.2 rfl)

/-- A saffron launch of a cluster as wide as the mesh, urgent, beside a team on core 0. -/
def sUrgent : State :=
  { sDie { thermal := .run, band := 0 } with
    launches := [{ launchA with cls := 0, cw := 12, ch := 8, reg := 250, deadline := 60000100000 }], teams := [t0] }

def wide : Job := { ctx := 1, cls := 0, cw := 12, ch := 8, positions := List.range 96, units := 250, ngroups := 1, swapped := false }

/-- A launch that has been skipped for 1,000,000 ticks. -/
def sStarved : State := { sDie { thermal := .run, band := 0, skipped := [(.launch 1, 59999000000)] } with launches := [launchA] }

theorem wit_LaunchesAndPlacing :
    (∃ (s : State) (p n : Nat) (q : Queue) (l : List Byte), s.queue? p n = some q ∧ q.disabled = false ∧ s.peek q.ctx q.header 64 = some l)
    ∧ (∀ good, ∃ (s s1 s2 s3 : State) (p n : Nat) (q : Queue) (l b : List Byte), s.queue? p n = some q ∧ s.takes p q ∧ let h := parseHeader l
      let die := s.frontDie p
      let w := leNat b
      let x := parsePacket s2.nextId q.partition q.num h.read q.ctx s2.gtime w
      s.feRead q.ctx die q.header 2 64 = (.ok l, s1) ∧ h.bad = false ∧ h.cls ≠ 3 ∧ h.read < h.write ∧ h.write - h.read ≤ 2 ^ h.log2n
        ∧ s1.feRead q.ctx die (h.slotVa h.read) 2 128 = (.ok b, s2) ∧ bits w 569 8 = 0 ∧ x.xfCount = 0 ∧ bits w 320 64 = 0
        ∧ s2.fresh.2.feWrite q.ctx die (q.header + 8) 2 (leBytes 8 (h.read + 1)) = (.ok (), s3)
        ∧ (good = true → s2.fresh.2.packetErrs q h w x = []) ∧ (good = false → 2 ∈ s2.fresh.2.packetErrs q h w x
          ∧ (∀ c ∈ s2.fresh.2.packetErrs q h w x, 2 ≤ c) ∧ x.compaddr = 0 ∧ ∀ y ∈ s3.launches, y.id ≠ s2.nextId))
    ∧ (∃ (s : State) (die core lid : Nat) (l : Launch) (j : Job) (spots : List (Nat × Nat × Spot)) (skipped : List Cand), (∀ x ∈ s.launches, x.graph = none)
      ∧ s.firstFit die (s.considered die) [] = some (.launch lid, skipped) ∧ s.job (.launch lid) = some j ∧ s.fitAt die j core = some spots
      ∧ s.launch? lid = some l ∧ spots ≠ [])
    ∧ (∃ (s : State) (die : Nat), (∀ x ∈ s.launches, x.graph = none) ∧ s.firstFit die (s.considered die) [] = none)
    ∧ (∃ (s s1 : State) (tid : Nat) (t t' : Team), s.team? tid = some t ∧ t.place = .prologue ∧ t.prologueFault = none ∧ s.prologue t = (.ok (), t', s1)
      ∧ s1.team? tid = some t ∧ t'.id = tid)
    ∧ (∃ (s s1 : State) (tid : Nat) (t t' : Team) (tr : Trap), s.team? tid = some t ∧ t.place = .prologue ∧ t.prologueFault = none
      ∧ s1.team? tid = some t ∧ t'.id = tid ∧ s.prologue t = (.trap tr, t', s1))
    ∧ (∃ (s s1 : State) (tid : Nat) (t t' : Team) (c : Nat) (va : DWord), s.team? tid = some t ∧ t.place = .prologue ∧ t.prologueFault = none
      ∧ s1.team? tid = some t ∧ t'.id = tid ∧ s.prologue t = (.fault c va, t', s1))
    ∧ (∀ k, k < 3 → ∃ (s : State) (die lid : Nat) (l : Launch), s.launch? lid = some l ∧ (k = 0 → ¬ UrgentNow s (.launch lid))
      ∧ (k = 1 → l.done ≠ none) ∧ (k = 2 → ∀ t ∈ s.teams, t.die ≠ die))
    ∧ (∃ (s : State) (die lid : Nat) (l : Launch) (v : Nat) (t : Team), s.launch? lid = some l ∧ s.evictFor die l = [v] ∧ s.team? v = some t
      ∧ t.cw * t.ch = 1 ∧ t.place = .running)
    ∧ (∃ (s : State) (die : Nat) (j : Job) (vs : List Nat) (tr : Bool) (core : Nat) (ws : List Nat), s.leastVictims die j = some vs ∧ core < 96
      ∧ s.rectVictims die j tr core = some ws)
    ∧ (∃ (s : State) (die : Nat) (l : List Listed) (y : Listed) (r : List Listed), die < s.dies.length ∧ s.candidates die = l ++ y :: r
      ∧ (∀ z ∈ l, ¬ StarvedNow s die z) ∧ StarvedNow s die y)
    ∧ (∃ (s : State) (tid : Nat) (t : Team) (node : Nat) (va : DWord) (r : List (Nat × DWord)) (gr : Graph) (n : NodeInfo), s.team? tid = some t
      ∧ t.place.resident = true ∧ t.q4 = (node, va) :: r ∧ s.graph? t.launch = some gr ∧ gr.nodes[node]? = some n)
    ∧ (∀ first, first = 5 ∨ first = 6 → ∃ (s : State) (die lid : Nat) (gr : Graph) (node : Nat) (n : NodeInfo) (b : Batch), s.graph? lid = some gr
      ∧ gr.nodes[node]? = some n ∧ gr.batches.find? (fun y => y.die == die && y.node == node && y.closedAt.isNone) = some b ∧ n.timer = 5
      ∧ b.first = first ∧ s.gtime = 10)
    ∧ (∃ (s : State) (die lid : Nat) (gr : Graph) (b : Batch), s.graph? lid = some gr ∧ s.recaParked lid = true
      ∧ (∀ x ∈ gr.batches.filter fun b => b.die == die, x.closedAt = none) ∧ oldestBatch (gr.batches.filter fun b => b.die == die) = some b)
    ∧ (∃ (s : State) (die lid : Nat) (gr : Graph), s.graph? lid = some gr ∧ s.recaParked lid = true ∧ ∃ x ∈ gr.batches.filter fun b => b.die == die, x.closedAt.isSome = true) := by
  have peeked : (sOwn 4 []).peek 1 0x9000 64 = some ((sOwn 4 []).bytes 0x9000 64) := by decide +kernel
  have first : (sLaunch launchA []).firstFit 0 ((sLaunch launchA []).considered 0) [] = some (.launch 1, []) := by decide +kernel
  have none0 : s0.firstFit 0 (s0.considered 0) [] = none := by decide +kernel
  have due (z : Cand × Nat) (h : z ∈ [((Cand.team 9 : Cand), 59999000001)]) : 60000000000 < z.2 + 1000000 := by
    cases List.mem_singleton.mp h; decide
  refine ⟨⟨sOwn 4 [], 0, 3, queue3, _, by decide +kernel, rfl, peeked⟩, fun good => ?_,
    ⟨sLaunch launchA [], 0, 8, 1, launchA, _, [(0, 8, ⟨0, 0, 0⟩)], [], fun x h => (by cases List.mem_singleton.mp h; rfl), first, rfl, by decide +kernel, rfl, by decide⟩,
    ⟨s0, 0, fun x h => (by cases h), none0⟩,
    ⟨withTeam { t0 with place := .prologue, begun := false }, _, 1, { t0 with place := .prologue, begun := false }, _, rfl, rfl, rfl, rfl, rfl, rfl⟩,
    ⟨withTeam (tPro 0x0200000000000000), (pro 0x0200000000000000).2.2, 1, tPro 0x0200000000000000, tPro 0x0200000000000000,
      xlateTrap 1 0x0200000000000000, rfl, rfl, rfl, by decide +kernel, rfl, trip_of (p := pro 0x0200000000000000) (by decide +kernel)⟩,
    ⟨withTeam (tPro 0x80000000), (pro 0x80000000).2.2, 1, tPro 0x80000000, tPro 0x80000000, 0, 0x80000000, rfl, rfl, rfl, by decide +kernel, rfl,
      trip_of (p := pro 0x80000000) (by decide +kernel)⟩,
    fun k hk => ?_,
    ⟨sUrgent, 0, 1, _, 1, t0, rfl, by decide +kernel, rfl, rfl, rfl⟩,
    ⟨sUrgent, 0, wide, [1], false, 0, [1], by decide +kernel, by decide, by decide +kernel⟩,
    ⟨sStarved, 0, [], ⟨.launch 1, 2, 0, 3⟩, [], by decide, by decide +kernel, fun z h => absurd h List.not_mem_nil,
      ⟨(.launch 1, 59999000000), List.mem_cons_self, rfl, by decide⟩, fun b _ hb => absurd hb List.not_mem_nil⟩,
    ⟨graphS [], 1, _, 1, 0x4100, [], _, node0, rfl, rfl, rfl, rfl, rfl⟩,
    fun first _ => ⟨graphS [batch0 1 first none], 0, 1, _, 1, node0, batch0 1 first none, rfl, rfl, rfl, rfl, rfl, rfl⟩,
    ⟨graphS [batch0 0 7 none, batch0 1 6 none], 0, 1, _, batch0 1 6 none, rfl, by decide +kernel, by decide +kernel, by decide +kernel⟩,
    ⟨graphS [batch0 0 7 none, batch0 1 6 (some 9)], 0, 1, _, rfl, by decide +kernel, by decide +kernel⟩⟩
  · have ok (ws : List (Nat × Nat)) (h : ws = packetWords ∨ ws = []) :
        (header1 (sPacket ws)).1 = .ok ((sPacket ws).bytes 0x9000 64) ∧ (packet1 (sPacket ws)).1 = .ok ((sPacket ws).bytes 0xA300 128)
          ∧ (read1 (sPacket ws)).1 = .ok () ∧ (sPacket ws).queue? 0 3 = some queue3 ∧ (sPacket ws).readsQueues 0 = true
          ∧ parseHeader ((sPacket ws).bytes 0x9000 64) = header0 ∧ bits (leNat ((sPacket ws).bytes 0xA300 128)) 569 8 = 0
          ∧ (parsePacket (packet1 (sPacket ws)).2.nextId 0 3 6 1 (packet1 (sPacket ws)).2.gtime (leNat ((sPacket ws).bytes 0xA300 128))).xfCount = 0
          ∧ bits (leNat ((sPacket ws).bytes 0xA300 128)) 320 64 = 0 := by
      rcases h with rfl | rfl <;> decide +kernel
    have errs : (packet1 (sPacket packetWords)).2.fresh.2.packetErrs queue3 header0 (leNat ((sPacket packetWords).bytes 0xA300 128))
        (parsePacket (packet1 (sPacket packetWords)).2.nextId 0 3 6 1 (packet1 (sPacket packetWords)).2.gtime (leNat ((sPacket packetWords).bytes 0xA300 128))) = [] := by
      decide +kernel
    have errs' : (packet1 (sPacket [])).2.fresh.2.packetErrs queue3 header0 (leNat ((sPacket []).bytes 0xA300 128))
        (parsePacket (packet1 (sPacket [])).2.nextId 0 3 6 1 (packet1 (sPacket [])).2.gtime (leNat ((sPacket []).bytes 0xA300 128))) = [2, 3, 4, 5, 6] := by
      decide +kernel
    have none' : (read1 (sPacket [])).2.launches = [] := by decide +kernel
    have comp : (parsePacket (packet1 (sPacket [])).2.nextId 0 3 6 1 (packet1 (sPacket [])).2.gtime (leNat ((sPacket []).bytes 0xA300 128))).compaddr = 0 := by decide +kernel
    cases good
    · obtain ⟨h1, h2, h3, h4, h5, h6, h7, h8, h9⟩ := ok [] (.inr rfl)
      refine ⟨sPacket [], (header1 (sPacket [])).2, (packet1 (sPacket [])).2, (read1 (sPacket [])).2, 0, 3, queue3, (sPacket []).bytes 0x9000 64,
        (sPacket []).bytes 0xA300 128, h4, ⟨rfl, rfl, by decide +kernel, h5, fun l h => (by cases h)⟩, ?_⟩
      rw [h6]
      exact ⟨fst_of (header1 (sPacket [])) _ h1, rfl, by decide, by decide, by decide, fst_of (packet1 (sPacket [])) _ h2, h7, h8, h9,
        fst_of (read1 (sPacket [])) _ h3, fun h => (by cases h), fun _ => ⟨(congrArg (fun l : List Nat => 2 ∈ l) errs').mpr (by decide), (congrArg (fun l : List Nat => ∀ c ∈ l, 2 ≤ c) errs').mpr (by decide), comp,
          fun y h => (by rw [none'] at h; cases h)⟩⟩
    · obtain ⟨h1, h2, h3, h4, h5, h6, h7, h8, h9⟩ := ok packetWords (.inl rfl)
      refine ⟨sPacket packetWords, (header1 (sPacket packetWords)).2, (packet1 (sPacket packetWords)).2, (read1 (sPacket packetWords)).2, 0, 3, queue3,
        (sPacket packetWords).bytes 0x9000 64, (sPacket packetWords).bytes 0xA300 128, h4, ⟨rfl, rfl, by decide +kernel, h5, fun l h => (by cases h)⟩, ?_⟩
      rw [h6]
      exact ⟨fst_of (header1 (sPacket packetWords)) _ h1, rfl, by decide, by decide, by decide, fst_of (packet1 (sPacket packetWords)) _ h2, h7, h8, h9,
        fst_of (read1 (sPacket packetWords)) _ h3, fun _ => errs, fun h => (by cases h)⟩
  · have hk : k = 0 ∨ k = 1 ∨ k = 2 := by omega
    rcases hk with rfl | rfl | rfl
    · exact ⟨sLaunch { launchA with cls := 0, deadline := 60000100001 } [t0], 0, 1, _, rfl, fun _ h => by
        obtain ⟨x, hx, -, hd⟩ := h
        cases hx
        revert hd
        decide +kernel, nofun, nofun⟩
    · exact ⟨sLaunch { launchA with done := some (0, 0, 5) } [t0], 0, 1, _, rfl, nofun, fun _ => nofun, nofun⟩
    · exact ⟨sLaunch { launchA with cls := 0, deadline := 60000100000 } [], 0, 1, _, rfl, nofun, nofun, fun _ t h => absurd h List.not_mem_nil⟩

/-- A team whose group has ended. -/
def tEnded : Team := teamOf { g0 with frontier := [] }

def sEnded (t : Team) : State :=
  { s0 with teams := [t, { t0 with id := 2 , launch := 2 }], launches := [{ launch0 with graph := none }], own := [{ own0 1 0 with owner := .team 1 }] }

/-- Core 0 has not issued since cycle 10, launch 1 has a cluster left, and the only team waits for a fault. -/
def sIdle (cycles : Nat) : State :=
  let s := sLaunch launchA [teamOf gParked]
  (s.onDie 0 fun d => { d with cycles := cycles }).onCore 0 0 fun c => { c with countFrom := some 10 }

/-- A waiter on entry 70, and the entry's owner, swapped out on a die. -/
def tWaiter : Team := teamOf { g0 with park := .await 4 [(0, none), (1, some 70)] }

def tOwner (die : Nat) (ready : Option Nat) (begun : Bool) : Team := { t0 with id := 2, die := die, cls := 1, eff := 1, place := .caged false, readyAt := ready, begun := begun }

def sRelief (u : Team) : State := { s0 with teams := [tWaiter, u], own := [{ own0 1 1 with owner := .team 2, state := .swapped }], gtime := 77 }

/-- The owner is one of two teams of a cluster on another die. -/
def sOtherDie : State :=
  let u := { tOwner 1 none true with cw := 2 }
  { sRelief u with teams := [tWaiter, u, { u with id := 3, cx := 1 }] }

/-- Waiter and owner on one die where the waiter cannot be relieved: by the widths of their clusters, or the waiter's depth. -/
def sNoRelief (w u depth : Nat) : State :=
  let owner := { tOwner 0 none true with cw := u, cluster := 1 }
  { sRelief owner with teams := [{ tWaiter with cw := w, depth := depth }, owner] }

/-- The machine once the waiter has left. -/
def sLeft (u : Team) : State := (((sRelief u).markRelief tWaiter 70).swapWaiter tWaiter 70).getD s0

/-- A team that drains since tick 500. -/
def tDrain (halted ready : Bool) (cmds : List DriftCmd) : Team := { t0 with halted := halted, place := .draining ready 500, cmds := cmds }

def sDrain (t : Team) (now : Nat) : State := { s0 with teams := [t], gtime := now, faults := [{ fault0 .gone with req := .drift 1 7 }] }

/-- Team 1 is swapped out and ready. -/
def tReady (begun : Bool) : Team := { tOwner 0 (some 5) begun with id := 1 }

/-- A write-back that waits for its permit. -/
def permit7 : DriftCmd := { cmd7 with kind := 1, permit := true }

def tLate (l : List DriftCmd) : Team := { tEnded with cmds := l }

/-- What a retirement asks of a team beside its commands. -/
def RetiresBut (s : State) (tid : Nat) (t : Team) : Prop :=
  t.place.resident = true ∧ t.place ≠ .prologue ∧ t.allEnded = true ∧ (∀ g ∈ t.groups, g.fifo = []) ∧ ∀ r ∈ s.remotes, r.tid ≠ tid ∧ r.target ≠ tid

/-- The command's permit will never be granted: its barrier has not moved on. -/
def cancels (t : Team) (c : DriftCmd) : Bool :=
  c.permit && !c.permitted && !c.finished && decide ((barGen (t.bar c.pbar)).toNat ≤ c.enqGen.toNat)

/-- The same beside an urgent launch, and with a waiter whose owner is in the cage. -/
def idled (s : State) : State := (s.onDie 0 fun d => { d with cycles := 65546 }).onCore 0 0 fun c => { c with countFrom := some 10 }
def sDue : State := idled { sUrgent with teams := [teamOf gParked] }
def sRelieved : State := idled { sRelief (tOwner 0 none true) with launches := [launchA] }

/-- The two teams of a parked cluster, on the cores 0 and 1. -/
def tHalf (id core : Nat) : Team := { teamOf gParked with id := id, core := core, cx := core, cw := 2 }
def sBoth : State := { sIdle 65546 with teams := [tHalf 1 0, tHalf 2 1] }

/-- A waiter in the cage; a relieved team that is ready beside its reliever. -/
def sCaged : State := { sRelief (tOwner 1 none true) with teams := [{ tWaiter with place := .caged true }, tOwner 1 none true] }
def tBeside : Team := { t0 with id := 2, place := .caged false, readyAt := some 5, reliever := some 1 }
def sBeside : State := { s0 with teams := [teamOf gParked, tBeside] }

theorem wit_TeamsComeAndGo :
    (∃ (s : State) (tid : Nat) (t : Team) (l : Launch), s.team? tid = some t ∧ RetiresBut s tid t ∧ t.cmds ≠ [] ∧ (∀ c ∈ t.cmds, cancels t c = true)
      ∧ s.launch? t.launch = some l ∧ l.graph = none ∧ l.done = none ∧ l.compaddr = 0
      ∧ (∀ d, d < 8 → s.launchLeft l d = false) ∧ ∀ u ∈ s.teams, u.launch = t.launch → u.id = tid)
    ∧ (∃ (s : State) (tid : Nat) (t : Team), s.team? tid = some t ∧ RetiresBut s tid t ∧ (∀ c ∈ t.cmds, c.finished = false) ∧ (∃ c ∈ t.cmds, cancels t c = false)
      ∧ ∃ c ∈ t.cmds, cancels t c = true)
    ∧ (∃ (s : State) (tid : Nat) (t : Team), s.team? tid = some t ∧ ∃ x ∈ s.remotes, x.tid = tid ∨ x.target = tid)
    ∧ (∃ (s : State) (tid : Nat) (t : Team), s.team? tid = some t ∧ t.place.resident = false)
    ∧ (∃ (s : State) (tid : Nat) (t : Team), s.team? tid = some t ∧ t.place = .prologue)
    ∧ (∃ (s : State) (tid : Nat) (t : Team), s.team? tid = some t ∧ t.allEnded = false)
    ∧ (∃ (s : State) (tid : Nat) (t : Team), s.team? tid = some t ∧ ∃ g ∈ t.groups, g.fifo ≠ [])
    ∧ (∃ (s : State) (die core c0 : Nat), (s.core die core).countFrom = some c0 ∧ (s.die die).cycles + 1 = c0 + 65536)
    ∧ (∀ k, k < 4 → ∃ (s : State) (die core c0 : Nat) (t : Team) (r : List Team), (s.core die core).countFrom = some c0 ∧ (s.die die).cycles = c0 + 65536
      ∧ (s.candidates die).length ≠ 0 ∧ sortBy s.swapKey (s.swappable die core) = t :: r ∧ (∀ u ∈ s.peers t, s.team? u.id = some u)
      ∧ s.evictionDue die ((s.peers t).map fun u => u.id) = decide (k = 1) ∧ (s.peers t).any (fun u => s.reliefSwaps u) = decide (k = 2)
      ∧ (s.peers t).length = if k = 3 then 2 else 1)
    ∧ (∃ (s : State) (tid : Nat) (w : Team) (spill : Bool), s.team? tid = some w ∧ w.place = .caged spill ∧ s.waitsOn w = none)
    ∧ (∃ (s : State) (tid : Nat) (w : Team) (grp e uid : Nat) (x : OwnEntry) (u : Team) (spill : Bool), s.team? tid = some w ∧ w.place = .caged spill
      ∧ s.waitsOn w = some (.entry grp e) ∧ s.entry? e = some x ∧ x.ctx = w.ctx ∧ x.owner = .team uid ∧ s.team? uid = some u ∧ u.place = .caged false
      ∧ u.halted = false ∧ s.peers u = [u])
    ∧ (∃ (s : State) (tid : Nat) (w v : Team), s.team? tid = some w ∧ w.place = .running ∧ s.evictionDue w.die [tid] = false ∧ w.cw * w.ch = 1
      ∧ s.allParked w = true ∧ s.besideWaiter w = some v)
    ∧ (∃ (s : State) (tid : Nat) (w : Team), s.team? tid = some w ∧ w.place = .running ∧ s.evictionDue w.die [tid] = true)
    ∧ (∃ (s : State) (tid : Nat) (w : Team), s.team? tid = some w ∧ w.place = .running ∧ s.evictionDue w.die [tid] = false ∧ s.besideWaiter w = none
      ∧ s.waiter w = none)
    ∧ (∃ (s : State) (tid : Nat) (w : Team) (grp e uid : Nat) (x : OwnEntry) (u : Team), s.team? tid = some w ∧ w.place = .running
      ∧ s.evictionDue w.die [tid] = false ∧ s.besideWaiter w = none ∧ s.waiter w = some (.entry grp e)
      ∧ s.entry? e = some x ∧ x.ctx = w.ctx ∧ x.owner = .team uid ∧ s.team? uid = some u ∧ u.place = .caged false ∧ u.halted = false ∧ u.ctx = w.ctx
      ∧ u.die ≠ w.die ∧ (s.peers u).length = 2)
    ∧ (∀ k, k < 3 → ∃ (s : State) (tid : Nat) (w : Team) (grp e uid : Nat) (x : OwnEntry) (u : Team), s.team? tid = some w ∧ w.place = .running
      ∧ s.evictionDue w.die [tid] = false ∧ s.besideWaiter w = none ∧ s.waiter w = some (.entry grp e)
      ∧ s.entry? e = some x ∧ x.ctx = w.ctx ∧ x.owner = .team uid ∧ s.team? uid = some u ∧ u.place = .caged false ∧ u.halted = false ∧ u.ctx = w.ctx
      ∧ u.die = w.die ∧ (w.cw * w.ch ≠ 1 ↔ k = 0) ∧ (u.cw * u.ch ≠ 1 ↔ k = 1) ∧ (4 ≤ w.depth ↔ k = 2))
    ∧ (∀ begun, ∃ (s s1 : State) (tid : Nat) (w : Team) (grp e uid : Nat) (x : OwnEntry) (u : Team) (spot : Spot), s.team? tid = some w
      ∧ w.place = .running ∧ s.evictionDue w.die [tid] = false ∧ s.besideWaiter w = none ∧ s.waiter w = some (.entry grp e) ∧ s.entry? e = some x ∧ x.ctx = w.ctx ∧ x.owner = .team uid ∧ s.team? uid = some u ∧ u.place = .caged false
      ∧ u.halted = false ∧ u.ctx = w.ctx ∧ u.begun = begun ∧ u.die = w.die ∧ w.cw * w.ch = 1 ∧ u.cw * u.ch = 1 ∧ w.depth < 4 ∧ (s.die w.die).places true = true
      ∧ s.roomFor w u.units u.ngroups = true ∧ (s.markRelief w e).swapWaiter w e = some s1 ∧ s1.fit w.die w.core u.units u.ngroups [] = some spot
      ∧ s1.team? uid = some u ∧ uid ≠ tid)
    ∧ (∃ (s : State) (tid : Nat) (t : Team) (ready : Bool) (since : Nat), s.team? tid = some t ∧ t.place = .draining ready since ∧ t.cmds ≠ []
      ∧ s.gtime + 1 = since + 2000)
    ∧ (∀ halted ready late, ∃ (s : State) (tid : Nat) (t t1 : Team) (since : Nat), s.team? tid = some t ∧ t.place = .draining ready since
      ∧ (late = false → t.cmds = [] ∧ s.gtime < since + 2000) ∧ (late = true → t.cmds ≠ [] ∧ since + 2000 = s.gtime)
      ∧ let s1 := s.settleRounds tid (s.settleFuel t)
        s1.team? tid = some t1 ∧ t1.place = t.place ∧ s1.quiet t1 = true ∧ t1.halted = halted)
    ∧ (∀ begun, ∃ (s : State) (tid : Nat) (t : Team) (core c : Nat) (j : Job) (spot : Spot) (skipped : List Cand), s.team? tid = some t ∧ t.begun = begun
      ∧ t.cw * t.ch = 1 ∧ s.firstFit t.die (s.considered t.die) [] = some (.team tid, skipped) ∧ s.job (.team tid) = some j
      ∧ s.fitAt t.die j core = some [(t.pos, c, spot)])
    ∧ (∀ halted, ∃ (s : State) (tid : Nat) (t : Team), s.team? tid = some t ∧ t.halted = halted)
    ∧ (∀ spill, ∃ (s : State) (tid : Nat) (t : Team), s.team? tid = some t ∧ t.place = .caged spill) := by
  have leaves (b : Bool) : ((sRelief (tOwner 0 none b)).markRelief tWaiter 70).swapWaiter tWaiter 70 = some (sLeft (tOwner 0 none b)) := by
    have h : (((sRelief (tOwner 0 none b)).markRelief tWaiter 70).swapWaiter tWaiter 70).isSome = true := by cases b <;> decide +kernel
    obtain ⟨x, hx⟩ := Option.isSome_iff_exists.mp h
    unfold sLeft; rw [hx]; rfl
  refine ⟨⟨sEnded (tLate [permit7]), 1, tLate [permit7], { launch0 with graph := none }, rfl, by unfold RetiresBut; decide +kernel, by decide, by decide +kernel, rfl, rfl, rfl, rfl,
      by decide, by decide⟩,
    ⟨sEnded (tLate [permit7, { cmd7 with id := 8 }]), 1, tLate [permit7, { cmd7 with id := 8 }], rfl, by unfold RetiresBut; decide +kernel, by decide +kernel,
      by decide +kernel, by decide +kernel⟩,
    ⟨sRemote 2 .read none, 1, _, rfl, _, List.mem_cons_self, .inl rfl⟩,
    ⟨sEnded { tEnded with place := .caged false }, 1, _, rfl, rfl⟩,
    ⟨sEnded { tEnded with place := .prologue }, 1, _, rfl, rfl⟩,
    ⟨s0, 1, t0, rfl, rfl⟩,
    ⟨sEnded { tEnded with groups := [{ g0 with frontier := [], fifo := [entry0 .st .add] }] }, 1, _, rfl, _, List.mem_singleton.mpr rfl, fun h => (by cases h)⟩,
    ⟨sIdle 65545, 0, 0, 10, by decide +kernel, by decide +kernel⟩,
    fun k hk => ?_,
    ⟨withTeam { t0 with place := .caged true }, 1, _, true, rfl, rfl, by decide +kernel⟩,
    ⟨sCaged, 1, { tWaiter with place := .caged true }, 0, 70, 2, _, _, true, rfl, rfl, by decide +kernel, rfl, rfl, rfl, rfl, rfl, rfl, rfl⟩,
    ⟨sBeside, 1, teamOf gParked, tBeside, rfl, rfl, by decide +kernel, rfl, by decide +kernel, by decide +kernel⟩,
    ⟨sUrgent, 1, t0, rfl, rfl, by decide +kernel⟩,
    ⟨s0, 1, t0, rfl, rfl, by decide +kernel, by decide +kernel, by decide +kernel⟩,
    ⟨sOtherDie, 1, tWaiter, 0, 70, 2, _, _, rfl, rfl, by decide +kernel, by decide +kernel, by decide +kernel, rfl, rfl, rfl, rfl, rfl, rfl, rfl, by decide, by decide +kernel⟩,
    fun k hk => ?_,
    fun begun => ⟨sRelief (tOwner 0 none begun), sLeft (tOwner 0 none begun), 1, tWaiter, 0, 70, 2, { own0 1 1 with owner := .team 2, state := .swapped },
      tOwner 0 none begun, ⟨0, 0, 0⟩, rfl, rfl, by cases begun <;> decide +kernel, by cases begun <;> decide +kernel, by cases begun <;> decide +kernel, rfl, rfl, rfl, rfl, rfl, rfl, rfl, rfl, rfl, rfl, rfl, by decide, by cases begun <;> decide +kernel,
      by cases begun <;> decide +kernel, leaves begun, by cases begun <;> decide +kernel, by cases begun <;> decide +kernel, by decide⟩,
    ⟨sDrain (tDrain false true [cmd7]) 2499, 1, _, true, 500, rfl, rfl, fun h => (by cases h), rfl⟩,
    fun halted ready late => ?_,
    fun begun => ⟨withTeam (tReady begun), 1, tReady begun, 16, 16, ⟨1, 1, 1, 1, [0], 36, 1, true⟩, ⟨0, 0, 0⟩, [], rfl, rfl, rfl, by cases begun <;> decide +kernel,
      by cases begun <;> decide +kernel, by cases begun <;> decide +kernel⟩,
    fun halted => ⟨withTeam { t0 with halted := halted }, 1, _, rfl, rfl⟩,
    fun spill => ⟨withTeam { t0 with place := .caged spill }, 1, _, rfl, rfl⟩⟩
  rotate_left
  · have hk : k = 0 ∨ k = 1 ∨ k = 2 := by omega
    rcases hk with rfl | rfl | rfl
    · exact ⟨sNoRelief 2 1 0, 1, _, 0, 70, 2, _, _, rfl, rfl, by decide +kernel, by decide +kernel, by decide +kernel, rfl, rfl, rfl, rfl, rfl, rfl, rfl, rfl, by decide⟩
    · exact ⟨sNoRelief 1 2 0, 1, _, 0, 70, 2, _, _, rfl, rfl, by decide +kernel, by decide +kernel, by decide +kernel, rfl, rfl, rfl, rfl, rfl, rfl, rfl, rfl, by decide⟩
    · exact ⟨sNoRelief 1 1 4, 1, _, 0, 70, 2, _, _, rfl, rfl, by decide +kernel, by decide +kernel, by decide +kernel, rfl, rfl, rfl, rfl, rfl, rfl, rfl, rfl, by decide⟩
  rotate_right
  · have hk : k = 0 ∨ k = 1 ∨ k = 2 ∨ k = 3 := by omega
    rcases hk with rfl | rfl | rfl | rfl
    · exact ⟨sIdle 65546, 0, 0, 10, teamOf gParked, [], by decide +kernel⟩
    · exact ⟨sDue, 0, 0, 10, teamOf gParked, [], by decide +kernel⟩
    · exact ⟨sRelieved, 0, 0, 10, tWaiter, [], by decide +kernel⟩
    · exact ⟨sBoth, 0, 0, 10, tHalf 1 0, [], by decide +kernel⟩
  cases late
  · exact ⟨sDrain (tDrain halted ready []) 501, 1, tDrain halted ready [], tDrain halted ready [], 500, rfl, rfl, fun _ => ⟨rfl, (by decide : 501 < 500 + 2000)⟩, fun h => (by cases h),
      by cases halted <;> cases ready <;> decide +kernel, rfl, by cases halted <;> cases ready <;> decide +kernel, rfl⟩
  · exact ⟨sDrain (tDrain halted ready [{ cmd7 with faults := [60] }]) 2500, 1, tDrain halted ready [{ cmd7 with faults := [60] }],
      tDrain halted ready [{ cmd7 with faults := [60] }], 500, rfl, rfl, fun h => (by cases h), fun _ => ⟨fun h => (by cases h), rfl⟩,
      by cases halted <;> cases ready <;> decide +kernel, rfl, by cases halted <;> cases ready <;> decide +kernel, rfl⟩

/-- The machine with the commands `cs` of team 1, whose barrier 4 has the generation 6 or another, and whose line 65 waits for command 7. -/
def tCmds (gen : Nat) (cs : List DriftCmd) : Team :=
  { t0 with bars := SMap.set 0#64 [] 4 (barWord gen 5 5 0), cmds := cs, q1 := (List.range 15).map fun i => BitVec.ofNat 32 i
            absent := [(65, 8)], scratch := (List.range 8).map fun i => (0x2080 + i, BitVec.ofNat 8 (i + 1)) }

def sCmds (gen : Nat) (cs : List DriftCmd) : State := withTeam (tCmds gen cs)

/-- Command 7: two halfwords from 0x4000 become words from 0x207E on, the first of which straddles lines 64 and 65. -/
def cmdLine : DriftCmd := { cmd7 with sfmt := 0x21, gfmt := 0x11, elems := 2, rows := 1, soff := 0x207E, left := [(0, 64), (0, 65)] }

/-- Path commands and staged spans before a unit that holds an accumulator and one clip layer. -/
def covUnit (q : List CovCmd) (staged : List (Word × Word)) (tickets : List Ticket) : Cov :=
  { cov0 with q2 := q, staging := staged, cells := [(0x34, 5)], uEo := true, uClip := true, layers := [List.replicate 256 65536], tickets := tickets
              q3 := List.replicate 127 (0, 0) }

/-- The span of pixels 14 and 15 of row 15, in full and in one colour. -/
def ticket0 (op : BlendOp) : Ticket := { num := 3, word := 0x10000FFE, paint := 0, op := some op, colour := [0x3F800000, 0, 0, 0x3F000000] }

/-- The lanes 4 to 7 owe a trap, and an engine has left one. -/
def gOwed : Machine.Group := { g0 with owed := [⟨illegalTrap .operand, 0xF0, false⟩] }

def sOwed : State := { machine gOwed with teams := [{ teamOf gOwed with engTraps := [structErr, alignTrap 1 5] }] }

/-- Write-back command 7 of two words at 0x2080, under a permit of barrier 4 or not. -/
def cmdBack (permit : Bool) : DriftCmd := { cmd7 with kind := 1, sfmt := 0x21, gfmt := 0x21, elems := 2, rows := 1, soff := 0x2080, permit := permit }

/-- The same command once its work is done. -/
def cmdOwes : DriftCmd := { cmd7 with finished := true, owesArrival := true, owesTag := true }

/-- A command whose work is still to do. -/
def Drives (s : State) (t : Team) (c : DriftCmd) : Prop := s.drives t c ∧ c.finished = false ∧ c.faults = []

/-- A decompression of the page at 0x40000000, which is a BLD leaf. -/
def cmdRaw : DriftCmd := { cmd7 with kind := 2, gaddr := 0x40000000, rows := 1, elems := 0, soff := 0 }
def tRaw : Team := { tCmds 6 [cmdRaw] with absent := [] }
def sRaw : State := { withTeam tRaw with mem := entries [(0x6000, 0x10047)] mem0 }

/-- A load that has filled its lines, one of which a later one owes; one whose lines are present; a permit of a team that has ended. -/
def tLater : Team := { tCmds 6 [{ cmd7 with left := [] }, { cmd7 with id := 8, left := [(0, 64)] }] with absent := [(64, 9)] }
def sLaterFill : State := withTeam tLater
def tDone : Team := { tCmds 6 [{ cmd7 with left := [] }] with absent := [] }
def tGone : Team := { tCmds 7 [cmdBack true] with groups := [{ g0 with frontier := [] }] }

/-- A stream whose weights have their side table at `off`, and owe a replay or not. -/
def replays (owes : Bool) (off : Word) : Stream := { stream0 with weights := some { weights0 .e5m2x4 with sideOff := off }, owesReplay := owes }
def sWeights (m : Stream) : State := withTeam (tStream m w0)

theorem trip2 {α β γ : Type} {p : α × β × γ} {b : β} (h : p.2.1 = b) : p = (p.1, b, p.2.2) := Prod.ext rfl (Prod.ext h rfl)

theorem wit_EnginesAndTheirTraps :
    (∀ k, k < 3 → ∃ (s : State) (t : Team) (c : DriftCmd), s.drives t c ∧ c.permit = true ∧ c.permitted = false ∧ c.finished = false
      ∧ (k ≠ 1 → c.enqGen.toNat + 1 = (barGen (t.bar c.pbar)).toNat)
      ∧ (k = 1 → (barGen (t.bar c.pbar)).toNat = c.enqGen.toNat) ∧ t.allEnded = decide (k = 2))
    ∧ (∃ (s s1 : State) (t : Team) (c : DriftCmd) (u : Team) (pos line : Nat) (l : List Byte), s.drives t c ∧ c.kind = 0 ∧ (pos, line) ∈ c.left ∧ c.faults = []
      ∧ s.clusterPeer t pos = some u ∧ s.team? u.id = some u ∧ s.earlierFill u.id c.id line = false ∧ let sz := formatSize c.sfmt
      let lo := max c.soff (line * 128)
      let hi := min (c.soff + c.runBytes) (line * 128 + 128)
      let e0 := (lo - c.soff) / sz
      128 ≤ lo ∧ lo < hi ∧ SMap.get 0 u.absent line = c.id + 1
        ∧ s.driftReads t c ((List.range ((hi - 1 - c.soff) / sz - e0 + 1)).map (e0 + ·)) = (.ok l, s1))
    ∧ (∃ (s s1 : State) (t : Team) (c : DriftCmd) (i : Nat), Drives s t c ∧ c.kind = 1 ∧ i ∉ c.did ∧ i < c.units
      ∧ s1.team? t.id = some t ∧ (c.permit = true → c.permitted = true) ∧ (∀ l ∈ runLines c.soff c.runBytes, SMap.get 0 t.absent l = 0)
      ∧ (∀ x ∈ t.cmds, x.id < c.id → x.stillWrites (va57 (c.elemVa i)) (formatSize c.gfmt) = false)
      ∧ s.engineWrite t (c.elemVa i) (leBytes (formatSize c.gfmt) (widenElem c.sfmt c.gfmt
          (leNat (t.spadRead (c.soff + i * formatSize c.sfmt) (formatSize c.sfmt))))) = (.ok (), s1))
    ∧ (∃ (s s1 s2 : State) (t : Team) (c : DriftCmd) (i sa : Nat), Drives s t c ∧ c.kind = 2 ∧ i ∉ c.did ∧ i < c.units
      ∧ s1.team? t.id = some t ∧ s.direct t.ctx t.die (c.gaddr + BitVec.ofNat 64 (256 * i)) .write = (.ok (sa, true), s1)
      ∧ (s1.servedVia t.ctx true sa).decompress sa = .ok s2 ∧ s2.team? t.id = some t)
    ∧ (∀ k : Bool, ∃ (s : State) (t : Team) (c : DriftCmd), Drives s t c ∧ c.kind = 0
      ∧ if k then c.left ≠ [] else c.left = [] ∧ s.laterOwes t c = true)
    ∧ (∀ kind ∈ [0, 1], ∃ (s s1 : State) (t : Team) (c : DriftCmd) (done : List Nat), s.drives t c ∧ c.kind = kind ∧ c.finished = false
      ∧ s.driftWork t c = (done, .ok (), s1) ∧ c.arrive = true ∧ (barEngine (t.bar c.abar)).isSome = true ∧ c.complete = true ∧ t.q1.length = 15)
    ∧ (∃ (s : State) (t : Team) (c : DriftCmd) (w : DWord) (b : Bool), s.drives t c ∧ c.finished = true ∧ c.owesArrival = true
      ∧ barEngine (t.bar c.abar) = some (w, b) ∧ c.owesTag = true ∧ t.q1.length = 15)
    ∧ (∀ kind ∈ [0, 1], ∃ (s s1 : State) (t : Team) (c : DriftCmd) (tr : Trap), s.drives t c ∧ c.kind = kind ∧ c.finished = false ∧ c.faults = []
      ∧ t.anyLive = true ∧ (c.kind ≠ 0 → (s.driftWork t c).2 = (.trap tr, s1))
      ∧ (c.kind = 0 → s.driftReads t c (List.range (c.rows * c.elems)) = (.trap tr, s1)))
    ∧ (∀ k, k < 4 → ∃ (s : State) (tid : Nat) (t : Team) (m : Stream) (w : Weights), s.team? tid = some t ∧ t.stream = some m ∧ m.weights = some w
      ∧ m.ended = false ∧ t.place = .running ∧ (k = 0 → m.owesReplay = false) ∧ (k ≠ 0 → m.owesReplay = true)
      ∧ t.weightsPresent w.ty w.tileOff w.sideOff = decide (k ≠ 1)
      ∧ (k = 2 → ((t.spadRead w.sideOff.toNat 64).map fun x => x.toNat).Perm (List.range 64))
      ∧ (k = 3 → ¬ ((t.spadRead w.sideOff.toNat 64).map fun x => x.toNat).Perm (List.range 64) ∧ t.anyLive = true))
    ∧ (∃ (s : State) (tid : Nat) (t : Team) (b : Bound), s.team? tid = some t ∧ t.place.resident = true ∧ t.cov.bound = some b ∧ t.cov.acc = true
      ∧ t.cov.q2 = [.pathe] ∧ t.cov.staging = [])
    ∧ (∀ x ∈ [CovCmd.clipp, .clipx], ∃ (s : State) (tid : Nat) (t : Team) (b : Bound), s.team? tid = some t ∧ t.place.resident = true ∧ t.cov.bound = some b
      ∧ t.cov.acc = true ∧ t.cov.q2 = [x])
    ∧ (∃ (s : State) (tid : Nat) (t : Team) (b : Bound) (r : List CovCmd), s.team? tid = some t ∧ t.place.resident = true ∧ t.cov.bound = some b
      ∧ t.cov.acc = true ∧ t.cov.q2 = .pathe :: r ∧ t.cov.staging ≠ [])
    ∧ (∃ (s : State) (tid : Nat) (t : Team) (b : Bound) (e : Word × Word) (r : List (Word × Word)), s.team? tid = some t ∧ t.place.resident = true
      ∧ t.cov.bound = some b ∧ t.cov.acc = true ∧ t.cov.staging = e :: r ∧ t.cov.q3.length = 127)
    ∧ (∀ op, ∃ (s : State) (tid : Nat) (t : Team) (b : Bound) (k : Ticket) (r : List Ticket), s.team? tid = some t ∧ t.place.resident = true
      ∧ t.cov.bound = some b ∧ t.cov.acc = true ∧ t.cov.tickets = k :: r ∧ k.op = some op ∧ 128 ≤ b.coff
      ∧ t.linePresent (b.coff + 128 * bits k.word.toNat 8 4) = true ∧ bits k.word.toNat 8 4 = 15 ∧ bits k.word.toNat 4 4 = 15)
    ∧ (∃ (s : State) (tid : Nat) (t : Team) (b : Bound) (line : Nat) (s1 : State) (bytes : List Byte), s.team? tid = some t ∧ t.place.resident = true
      ∧ t.cov.bound = some b ∧ t.cov.acc = true ∧ line ∈ b.fill ∧ b.dead = false ∧ (∀ f ∈ s.faults, f.req ≠ .tileFill tid)
      ∧ (∀ u ∈ s.teams, u.cmds = []) ∧ 128 ≤ b.coff ∧ SMap.get 0 t.absent (b.coff / 128 + line) = b.fillId + 1 ∧ s.fillRow t b line = (.ok bytes, s1))
    ∧ (∃ (s s1 : State) (t : Team) (g : Machine.Group) (e : Entry) (code : DWord) (o : Owed) (tr : Trap) (rest : List Trap), s.team? t.id = some t
      ∧ t.group? g.num = some g ∧ t.place = .running ∧ g.head? = some e ∧ CanTrap s t g code s1 ∧ t.midTile g = false ∧ g.park = .none ∧ g.owedAt e = some o
      ∧ o.handler = false ∧ t.engTraps = tr :: rest ∧ t.lowestLive = some g ∧ g.park.tookEffect = false ∧ e.handler = false)
    ∧ (∃ (s : State) (t : Team) (g : Machine.Group) (e : Entry), s.team? t.id = some t ∧ t.group? g.num = some g ∧ t.place = .running ∧ g.head? = some e
      ∧ t.midTile g = true ∧ g.park = .none ∧ t.lowestLive = some g) := by
  have reads : ((sCmds 6 [cmdLine]).driftReads (tCmds 6 [cmdLine]) cmdLine [0, 1]).1 = .ok (List.replicate 8 0) := by decide +kernel
  let far (kind : Nat) : DriftCmd := { cmdBack false with kind := kind, gaddr := 0x7F00000000000000 }
  let tFar (kind : Nat) : Team := { tCmds 6 [far kind] with absent := [] }
  let tBack : Team := { tCmds 6 [cmdBack false] with absent := [] }
  have writes : ((withTeam tBack).driftWork tBack (cmdBack false)).2.1 = .ok () := by decide +kernel
  have fatal1 : ((withTeam (tFar 1)).driftWork (tFar 1) (far 1)).2.1 = .trap { cause := 11, info := 1, va := 0x7F00000000000000 } := by decide +kernel
  have fatal0 : ((withTeam (tFar 0)).driftReads (tFar 0) (far 0) [0, 1]).1 = .trap { cause := 11, info := 1, va := 0x7F00000000000000 } := by decide +kernel
  obtain ⟨code, s1, traps⟩ := canTrap_of sOwed { teamOf gOwed with engTraps := [structErr, alignTrap 1 5] } gOwed (by decide +kernel)
  have one : ((withTeam tBack).engineWrite tBack 0x4000 (leBytes 4 (widenElem 0x21 0x21 (leNat (tBack.spadRead 0x2080 4))))).1 = .ok ()
      ∧ ((withTeam tBack).engineWrite tBack 0x4000 (leBytes 4 (widenElem 0x21 0x21 (leNat (tBack.spadRead 0x2080 4))))).2.team? 1 = some tBack := by decide +kernel
  have raw : ((sRaw.direct 1 0 0x40000000 .write).1 = .ok (0x10000, true) ∧ (sRaw.direct 1 0 0x40000000 .write).2.team? 1 = some tRaw) := by decide +kernel
  have dec : ((((sRaw.direct 1 0 0x40000000 .write).2.servedVia 1 true 0x10000).bldMode 0x10000 == 0) = true
      ∧ ((sRaw.direct 1 0 0x40000000 .write).2.servedVia 1 true 0x10000).team? 1 = some tRaw) := by decide +kernel
  refine ⟨fun k hk => ?_,
    ⟨sCmds 6 [cmdLine], _, tCmds 6 [cmdLine], cmdLine, tCmds 6 [cmdLine], 0, 65, _, ⟨rfl, rfl⟩, rfl, by decide, rfl, rfl, rfl, by decide +kernel, by decide, by decide,
      by decide, fst_of ((sCmds 6 [cmdLine]).driftReads (tCmds 6 [cmdLine]) cmdLine [0, 1]) _ reads⟩,
    ⟨withTeam tBack, _, tBack, cmdBack false, 0, ⟨⟨rfl, rfl⟩, rfl, rfl⟩, rfl, by decide, by decide +kernel, one.2, nofun, by decide +kernel, by decide +kernel, fst_of _ _ one.1⟩,
    ⟨sRaw, _, (sRaw.direct 1 0 0x40000000 .write).2.servedVia 1 true 0x10000, tRaw, cmdRaw, 0, 0x10000, ⟨⟨rfl, rfl⟩, rfl, rfl⟩, rfl, by decide, by decide +kernel, raw.2, fst_of _ _ raw.1,
      if_pos dec.1, dec.2⟩,
    fun k => ?_,
    fun kind h => ?_,
    ⟨sCmds 6 [cmdOwes], tCmds 6 [cmdOwes], cmdOwes, 1, false, ⟨rfl, rfl⟩, rfl, rfl, by decide +kernel, rfl, rfl⟩,
    fun kind h => ?_,
    fun k hk => ?_,
    ⟨withTeam (tCov (covUnit [.pathe] [] [])), 1, _, bound0, rfl, rfl, rfl, rfl, rfl, rfl⟩,
    fun x _ => ⟨withTeam (tCov (covUnit [x] [] [])), 1, _, bound0, rfl, rfl, rfl, rfl, rfl⟩,
    ⟨withTeam (tCov (covUnit [.pathe, .clipx] [(1, 1)] [])), 1, _, bound0, [.clipx], rfl, rfl, rfl, rfl, rfl, fun h => (by cases h)⟩,
    ⟨withTeam (tCov (covUnit [] [(1, 1)] [])), 1, _, bound0, (1, 1), [], rfl, rfl, rfl, rfl, rfl, by decide +kernel⟩,
    fun op => ⟨withTeam (tCov (covUnit [] [] [ticket0 op])), 1, _, bound0, ticket0 op, [], rfl, rfl, rfl, rfl, rfl, rfl, by decide, rfl, by cases op <;> decide +kernel, by cases op <;> decide +kernel⟩,
    ⟨withTeam { tCov { cov0 with bound := some { bound0 with fill := [0, 15] } } with absent := [(47, 51)] }, 1, _, _, 15, _, _, rfl, rfl, rfl, rfl,
      by decide, rfl, fun f h => (by cases h), fun u h => (by cases List.mem_singleton.mp h; rfl), by decide, rfl, rfl⟩,
    ⟨sOwed, s1, _, gOwed, _, code, _, _, _, rfl, rfl, rfl, rfl, traps, rfl, rfl, rfl, rfl, rfl, rfl, rfl, rfl⟩,
    ⟨sTilef writing bound0.fb 0, tTilef writing bound0.fb, gTilef bound0.fb, _, rfl, rfl, rfl, rfl, rfl, rfl, rfl⟩⟩
  · have hk : k = 0 ∨ k = 1 ∨ k = 2 := by omega
    rcases hk with rfl | rfl | rfl
    · exact ⟨sCmds 7 [cmdBack true], tCmds 7 [cmdBack true], cmdBack true, ⟨rfl, rfl⟩, rfl, rfl, rfl, fun _ => by decide +kernel, nofun, rfl⟩
    · exact ⟨sCmds 6 [cmdBack true], tCmds 6 [cmdBack true], cmdBack true, ⟨rfl, rfl⟩, rfl, rfl, rfl, nofun, fun _ => by decide +kernel, rfl⟩
    · exact ⟨withTeam tGone, tGone, cmdBack true, ⟨rfl, rfl⟩, rfl, rfl, rfl, fun _ => by decide +kernel, nofun, rfl⟩
  · cases k
    · exact ⟨sLaterFill, tLater, { cmd7 with left := [] }, ⟨⟨rfl, rfl⟩, rfl, rfl⟩, rfl, by decide +kernel⟩
    · exact ⟨sCmds 6 [cmdLine], tCmds 6 [cmdLine], cmdLine, ⟨⟨rfl, rfl⟩, rfl, rfl⟩, rfl, by decide +kernel⟩
  · rcases List.mem_cons.mp h with rfl | h
    · exact ⟨withTeam tDone, withTeam tDone, tDone, { cmd7 with left := [] }, [], ⟨rfl, rfl⟩, rfl, rfl, by decide +kernel, rfl, by decide +kernel, rfl, rfl⟩
    · cases List.mem_singleton.mp h
      exact ⟨withTeam tBack, _, tBack, cmdBack false, _, ⟨rfl, rfl⟩, rfl, rfl,
        trip2 writes, rfl, by decide +kernel, rfl, rfl⟩
  · rcases List.mem_cons.mp h with rfl | h
    · exact ⟨withTeam (tFar 0), _, tFar 0, far 0, _, ⟨rfl, rfl⟩, rfl, rfl, rfl, rfl, fun h => absurd rfl h,
        fun _ => fst_of ((withTeam (tFar 0)).driftReads (tFar 0) (far 0) [0, 1]) _ fatal0⟩
    · cases List.mem_singleton.mp h
      exact ⟨withTeam (tFar 1), _, tFar 1, far 1, _, ⟨rfl, rfl⟩, rfl, rfl, rfl, rfl, fun _ => fst_of ((withTeam (tFar 1)).driftWork (tFar 1) (far 1)).2 _ fatal1,
        fun h => (by cases h)⟩
  · have hk : k = 0 ∨ k = 1 ∨ k = 2 ∨ k = 3 := by omega
    rcases hk with rfl | rfl | rfl | rfl
    · exact ⟨sWeights (replays false 0x100), 1, tStream (replays false 0x100) w0, replays false 0x100, { weights0 .e5m2x4 with sideOff := 0x100 }, rfl, rfl, rfl, rfl, rfl,
        fun _ => rfl, nofun, by decide +kernel, nofun, nofun⟩
    · exact ⟨withTeam { tStream (replays true 0x100) w0 with absent := [(2, 9)] }, 1, { tStream (replays true 0x100) w0 with absent := [(2, 9)] }, replays true 0x100,
        { weights0 .e5m2x4 with sideOff := 0x100 }, rfl, rfl, rfl, rfl, rfl, nofun, fun _ => rfl, by decide +kernel, nofun, nofun⟩
    · exact ⟨sWeights (replays true 0x100), 1, tStream (replays true 0x100) w0, replays true 0x100, { weights0 .e5m2x4 with sideOff := 0x100 }, rfl, rfl, rfl, rfl, rfl,
        nofun, fun _ => rfl, by decide +kernel, fun _ => by decide +kernel, nofun⟩
    · exact ⟨sWeights (replays true 0x400), 1, tStream (replays true 0x400) w0, replays true 0x400, { weights0 .e5m2x4 with sideOff := 0x400 }, rfl, rfl, rfl, rfl, rfl,
        nofun, fun _ => rfl, by decide +kernel, nofun, fun _ => ⟨by decide +kernel, rfl⟩⟩

/-- The sizes that R93 and R316 state. -/
theorem test_save_area_sizes : g0.saveArea.length = 0x1500 + 128 * 32 + 0xA60 ∧ (Cov.saved {}).length = 16576 := by decide +kernel
end Sys2Proof.Tests
end

section
/-! Lane partition (R73, R418): what LPART does in each of its three cases, and the laws for going on and for trapping at issue that
its statement is assembled from. -/

namespace Sys2Proof.Machine

/-! ### Going on and trapping at issue -/

/-- Going on with the group changed acts on that group alone. -/
theorem OwnGroup.of_done {s : State} {t : Team} {g g' : Group} (h : s.bundle? = some (t, g)) (hn : g'.num = g.num) :
    OwnGroup s (s.done t g') t g (g'.advance s.cur) := .of_put h hn

/-- Going on changes no register, no predicate and no special register of the group. -/
theorem Group.SameValues.of_advance (g : Group) (c : Cur) : g.SameValues (g.advance c) where
  regs _ := rfl
  preds _ := rfl
  special := ⟨rfl, rfl, rfl, rfl⟩
  own := ⟨rfl, rfl, rfl⟩

/-- An instruction whose meaning is to raise the trap raises it, wherever a trap can be taken. -/
theorem Raises.of_exec {i : Instr} {s : State} {t : Team} {g : Group} {tr : Trap} (h : exec i s = .next (s.raise t g tr)) :
    Raises i s t g tr := by
  intro code s1 hc
  obtain ⟨g', hr, ht⟩ := State.raise_took tr hc
  exact ⟨s1.put t g', g', by rw [h, hr], ht⟩

/-! ### The three cases of LPART -/

/-- The trap LPART_DIVERGED, with the count of frontier entries. -/
def lpartTrap (g : Group) : Trap := { cause := 5, info := BitVec.ofNat 32 g.frontier.length, va := 0 }

section
variable {gd : Guard} {n : BitVec 3} {s : State} {t : Team} {g : Group}

/-- LPART at a bundle under issue: the case of no active lane first, then the count of frontier entries. -/
theorem exec_lpart (h : s.bundle? = some (t, g)) :
    exec (.lpart gd n) s = .next
      (if g.active gd s.cur.lanes = 0 then s.done t g
       else if g.frontier.length = 1 then s.done t { g with lpart := n }
       else s.raise t g (lpartTrap g)) := by
  show execLpart gd n s = _
  rw [execLpart, issueWith_next h]
  simp only [beq_iff_eq, bne_iff_ne, ite_not, lpartTrap]

theorem exec_lpart_of_inactive (h : s.bundle? = some (t, g)) (hm : g.active gd s.cur.lanes = 0) :
    exec (.lpart gd n) s = .next (s.done t g) := by
  rw [exec_lpart h, if_pos hm]

theorem exec_lpart_of_converged (h : s.bundle? = some (t, g)) (hm : g.active gd s.cur.lanes ≠ 0) (hf : g.frontier.length = 1) :
    exec (.lpart gd n) s = .next (s.done t { g with lpart := n }) := by
  rw [exec_lpart h, if_neg hm, if_pos hf]

theorem exec_lpart_of_diverged (h : s.bundle? = some (t, g)) (hm : g.active gd s.cur.lanes ≠ 0) (hf : g.frontier.length ≠ 1) :
    exec (.lpart gd n) s = .next (s.raise t g (lpartTrap g)) := by
  rw [exec_lpart h, if_neg hm, if_neg hf]

end

/-- Settles O19: each clause is one of the three cases of LPART, with the law of going on or of trapping at issue. -/
theorem lanePartition : Obligations.LanePartition := by
  intro gd n s t g hi
  have hb := hi.bundle
  refine ⟨fun hm hf => ?converged, fun hm hf => ?diverged, fun hm => ?inactive⟩
  case converged =>
    exact ⟨_, _, exec_lpart_of_converged hb hm hf, .of_done hb rfl, Group.advance_wentOn _ g s.cur rfl, rfl,
      fun _ => rfl, fun _ => rfl, rfl⟩
  case diverged => exact .of_exec (exec_lpart_of_diverged hb hm hf)
  case inactive =>
    exact ⟨_, _, exec_lpart_of_inactive hb hm, .of_done hb rfl, Group.advance_wentOn _ g s.cur rfl, .of_advance g s.cur⟩

end Sys2Proof.Machine
end

section
/-! Completed register operations (R66, R79, R80, R82): what a predicate and a typed destination read as after the operation that
wrote them. -/

namespace Sys2Proof.Machine

/-! ### Completion -/

/-- An operation issued by `issueOp` completes, with whatever its results leave of the group. -/
theorem Completes.of_issueOp {i : Instr} {gd : Guard} {op : Team → Group → Mask → Out} {Q : Group → Group → Mask → Prop}
    (hr : registerOp i = some (gd, op)) (he : ∀ s, exec i s = issueOp gd op s)
    (hq : ∀ t g m c, Q g ((g.apply (op t g m)).advance c) m) : Completes i Q := by
  intro gd' op' s t g hr' hi hp
  obtain ⟨rfl, rfl⟩ : gd = gd' ∧ op = op' := by simpa using hr.symm.trans hr'
  exact ⟨_, _, (he s).trans (issueOp_ok hi.bundle hp), (OwnGroup.of_put hi.bundle (Group.num_apply_advance g _ _)).group, hq t g _ _⟩

/-! ### Predicates -/

theorem Mask.has_or_single (m : Mask) (k : Nat) {l : Nat} (hl : l < 32) :
    Mask.has (m ||| Mask.single k) l = (m.has l || decide (l = k)) := by
  have bit : (Mask.single k).getLsbD l = decide (l = k) := by
    rcases lt_trichotomy l k with h | rfl | h
    · simp [Mask.single, h, h.ne]
    · simp [Mask.single, hl]
    · simp [Mask.single, hl, h.ne', Nat.sub_ne_zero_of_lt h]
  rw [Mask.has, BitVec.getLsbD_or, bit, Mask.has]

theorem Mask.has_foldl_single (p : Nat → Bool) (ls : List Nat) (m : Mask) {l : Nat} (hl : l < 32) :
    Mask.has (ls.foldl (fun m k => if p k then m ||| Mask.single k else m) m) l = (m.has l || (decide (l ∈ ls) && p l)) := by
  induction ls generalizing m with
  | nil => simp
  | cons k ks ih =>
    rw [List.foldl_cons, ih]
    by_cases e : l = k
    · subst e
      cases p l <;> simp [Mask.has_or_single, hl]
    · cases p k <;> simp [Mask.has_or_single, hl, e]

/-- The mask of a lane predicate holds the lanes where it is true. -/
theorem Mask.has_ofPred (p : Nat → Bool) {l : Nat} (hl : l < 32) : (Mask.ofPred p).has l = p l := by
  have h0 : Mask.has 0#32 l = false := by simp [Mask.has]
  rw [Mask.ofPred, Mask.has_foldl_single p laneList _ hl, h0]
  simp [laneList, hl]

/-- An operation with one predicate result leaves it as R82 says. -/
theorem Group.holdsPred_apply (g : Group) {o : Out} {p : Nat} {f : Nat → Bool} (ho : o.preds = [(p, Mask.ofPred f)]) :
    g.HoldsPred (g.apply o) o.active p f := by
  intro l hl
  obtain ⟨x, hx, e⟩ := g.apply_def o
  have hp : (g.apply o).pred p = x.pred p := by rw [e]; rfl
  rw [hp, hx, ho, List.foldl_cons, List.foldl_nil, Group.pred_setPred, Group.pred_writes]
  by_cases h7 : p = 7
  · simp [h7]
  · have bit : Mask.has ((g.pred p &&& ~~~o.active) ||| (Mask.ofPred f &&& o.active)) l
        = (((g.pred p).has l && !o.active.has l) || (f l && o.active.has l)) := by
      rw [← Mask.has_ofPred f hl]
      simp [Mask.has, hl]
    rw [if_pos ⟨rfl, h7⟩, bit]
    cases o.active.has l <;> simp [h7]

/-- An operation whose one result is a predicate writes it. -/
theorem WritesPred.of_preds {i : Instr} {gd : Guard} {op : Team → Group → Mask → Out} {p : Nat} {v f : Group → Mask → Nat → Bool}
    (hr : registerOp i = some (gd, op)) (he : ∀ s, exec i s = issueOp gd op s) (hm : ∀ t g m, (op t g m).active = m)
    (hp : ∀ t g m, (op t g m).preds = [(p, Mask.ofPred (v g m))]) (hv : ∀ g m l, v g m l = f g m l) : WritesPred i p f := by
  refine .of_issueOp hr he fun t g m c l hl => ?_
  have h := g.holdsPred_apply (hp t g m) l hl
  rwa [hm, hv] at h

/-! ### Sources of uniform shape -/

theorem VReg.elem_of_uniform {r : VReg} (h : r.shape = .uniform) (k l : Nat) : r.elem k = r.elem l := by
  cases r with
  | uniform v => rfl
  | affine _ _ => cases h
  | general _ => cases h

theorem Group.typed_of_uniform {g : Group} {ty : Ty} {r : VR} (h : ∀ q ∈ regsOf ty r, (g.reg q).shape = .uniform) (k l : Nat) :
    g.typed ty r k = g.typed ty r l := by
  unfold Group.typed regsOf at *
  by_cases h64 : ty.is64 = true
  · simp only [h64, if_true, List.mem_cons, List.not_mem_nil, or_false, forall_eq_or_imp, forall_eq] at h ⊢
    simp only [Group.pairElem, Group.elem, VReg.elem_of_uniform h.1 k l, VReg.elem_of_uniform h.2 k l]
  · simp only [h64, if_false, List.mem_cons, List.not_mem_nil, or_false, forall_eq, Bool.false_eq_true] at h ⊢
    rw [Group.elem, Group.elem, VReg.elem_of_uniform h k l]

theorem Group.src_of_uniform {g : Group} {ty : Ty} {b : Src} (h : ∀ q ∈ srcRegs ty b, (g.reg q).shape = .uniform) (k l : Nat) :
    g.src ty b k = g.src ty b l := by
  cases b with
  | reg r => exact Group.typed_of_uniform h k l
  | imm10 _ => rfl
  | imm32 _ => rfl
  | imm64 _ => rfl

/-- The plain rule of R80: uniform where the write covers all live lanes and every source is uniform, and else general. -/
theorem Group.shapeOf_plain (g : Group) (rs : List Nat) (m : Mask) :
    g.shapeOf .plain rs m = if m = g.live ∧ ∀ r ∈ rs, (g.reg r).shape = .uniform then .uniform else .general := by
  have cols (r : Nat) : (g.reg r).shape = .uniform ↔ (g.reg r).shape ≠ .general ∧ (g.reg r).shape ≠ .affine := by
    cases (g.reg r).shape <;> decide
  have anyShape (sh : Shape) : (rs.any fun r => (g.reg r).shape == sh) = true ↔ ¬ ∀ r ∈ rs, (g.reg r).shape ≠ sh := by simp
  unfold Group.shapeOf
  simp only [cols, forall_and, anyShape, bne_iff_ne]
  split_ifs <;> simp_all

theorem Group.shapeOf_plain_ne_affine (g : Group) (rs : List Nat) (m : Mask) : g.shapeOf .plain rs m ≠ .affine := by
  rw [Group.shapeOf_plain]
  split <;> decide

theorem Group.uniform_of_shapeOf_plain {g : Group} {rs : List Nat} {m : Mask} (h : g.shapeOf .plain rs m = .uniform) :
    ∀ r ∈ rs, (g.reg r).shape = .uniform := by
  rw [Group.shapeOf_plain] at h
  split at h
  · next hc => exact hc.2
  · cases h

/-! ### Typed destinations -/

/-- A written register reads back an active lane's value: always under a general shape, under a uniform one where all lanes agree. -/
theorem VReg.elem_write_active {old : VReg} {m : Mask} {q : Nat} {sh : Shape} {f : Nat → Word} {l : Nat} (hl : l < 32)
    (hm : m.has l = true) (ha : sh ≠ .affine) (hu : sh = .uniform → ∀ k, f k = f l) :
    (old.write m ⟨q, sh, laneVals f⟩).elem l = f l := by
  cases sh with
  | affine => exact absurd rfl ha
  | general => rw [VReg.elem_write_general hl, if_pos hm]
  | uniform =>
    obtain ⟨k, hk⟩ := lowest_of_has hl hm
    show (laneVals f).getD (m.lowest.getD 0) 0 = f l
    rw [hk, Option.getD_some, laneVals_getD f (lowest_mem hk).1, hu rfl]

theorem pairOf_halves (x : DWord) : pairOf (loHalf x) (hiHalf x) = x := by
  unfold pairOf loHalf hiHalf
  rw [BitVec.extractLsb'_append_extractLsb'_eq_extractLsb' (Nat.zero_add 32).symm]
  exact BitVec.extractLsb'_eq_self

/-- A destination written under a shape that is not affine reads back an active lane's value, cut to what the type holds. -/
theorem Group.typed_writes_active {g : Group} {m : Mask} {ty : Ty} {d : VR} {sh : Shape} {f : Nat → DWord} {l : Nat} (hl : l < 32)
    (hm : m.has l = true) (ha : sh ≠ .affine) (hu : sh = .uniform → ∀ k, f k = f l) :
    ((typedWrites ty d sh f).foldl (fun g w => g.writeReg m w) g).typed ty d l = lowBits ty (f l) := by
  have read (half : DWord → Word) (old : VReg) (q : Nat) : (old.write m ⟨q, sh, laneVals fun l => half (f l)⟩).elem l = half (f l) :=
    VReg.elem_write_active hl hm ha fun e k => congrArg half (hu e k)
  cases h64 : ty.is64 with
  | false => simp [typedWrites, Group.typed, lowBits, h64, Group.elem, Group.reg_writeReg, read loHalf]
  | true =>
    have hs : (sh == .affine) = false := by simpa using ha
    simp [typedWrites, Group.typed, lowBits, h64, hs, Group.pairElem, Group.elem, Group.reg_writeReg, read loHalf, read hiHalf,
      pairOf_halves]

/-- The same of an operation whose one result is that destination. -/
theorem Group.typed_apply_active {g : Group} {o : Out} {ty : Ty} {d : VR} {sh : Shape} {f : Nat → DWord} {l : Nat} (hl : l < 32)
    (hm : o.active.has l = true) (ho : o.regs = typedWrites ty d sh f) (ha : sh ≠ .affine) (hu : sh = .uniform → ∀ k, f k = f l) :
    (g.apply o).typed ty d l = lowBits ty (f l) := by
  obtain ⟨x, hx, e⟩ := g.apply_def o
  rw [← Group.typed_writes_active (g := g) (d := d) hl hm ha hu, ← ho]
  have hr (q : Nat) : (g.apply o).reg q = (o.regs.foldl (fun g w => g.writeReg o.active w) g).reg q := by
    rw [e]; exact (congrArg (·.reg q) hx).trans (Group.reg_preds ..)
  simp only [Group.typed, Group.pairElem, Group.elem, hr]

end Sys2Proof.Machine
end

section
/-! Integer comparison (R408). -/

namespace Sys2Proof.Machine

/-- Settles O5: ICMP's one result is the mask of the lanes where its comparison is true, and it gives no flags. -/
theorem integerCompare : Obligations.IntegerCompare := by
  intro o
  constructor
  · refine .of_preds rfl (fun _ => rfl) (fun _ _ _ => rfl) (fun _ _ _ => rfl) fun g m l => ?_
    generalize elemInt o.ty (g.typed o.ty o.a l) 0 = a, elemInt o.ty (g.src o.ty o.b l) 0 = b, o.cc.toNat = code
    match code with
    | 0 | 2 | 3 | 4 | _ + 5 => rfl
    | 1 => exact (decide_not (p := a = b)).symm
  · exact .of_issueOp rfl (fun _ => rfl) fun t g m c => (Group.fpflags_apply g (icmpOut o t g m)).trans (BitVec.or_zero ..)

end Sys2Proof.Machine
end

section
/-! FMIN, FMAX and FCMP (R388, R391, R392): the order of decoded values, what the smaller or greater of two elements is, and the
operations on types of one element. -/

namespace Sys2Proof.Machine

/-! ### Decoded values and their order -/

theorem mod_pow_div_mod_pow {k n w : Nat} (h : k + n ≤ w) (b : Nat) : b % 2 ^ w / 2 ^ k % 2 ^ n = b / 2 ^ k % 2 ^ n := by
  obtain ⟨r, rfl⟩ := Nat.exists_eq_add_of_le (Nat.le_of_add_right_le h)
  rw [pow_add, Nat.mod_mul_right_div_self, Nat.mod_mod_of_dvd _ (pow_dvd_pow 2 (by omega))]

/-- Decoding looks at the format's own bits. -/
theorem Num.decode_mod {f : Fmt} {w : Nat} (h : f.width ≤ w) (b : Nat) : Num.decode f (b % 2 ^ w) = Num.decode f b := by
  unfold Fmt.width at h
  have hf : b % 2 ^ w % 2 ^ f.frac = b % 2 ^ f.frac := Nat.mod_mod_of_dvd _ (pow_dvd_pow 2 (by omega))
  have he := mod_pow_div_mod_pow (k := f.frac) (n := f.exp) (w := w) (by omega) b
  have hs := mod_pow_div_mod_pow (k := f.frac + f.exp) (n := 1) (w := w) (by omega) b
  rw [pow_one] at hs
  simp only [Num.decode, hf, he, hs]

theorem Num.lt_asymm {x y : Num} (h : Num.lt x y = true) : Num.lt y x = false := by
  cases x <;> cases y
  case fin.fin s m e t n k =>
    simp only [Num.lt, decide_eq_true_eq, decide_eq_false_iff_not, min_comm k] at h ⊢
    exact h.not_gt
  all_goals simp_all [Num.lt]

theorem Num.not_nan_of_lt {x y : Num} (h : Num.lt x y = true) : x.isNan = false ∧ y.isNan = false := by
  cases x <;> cases y <;> simp_all [Num.lt, Num.isNan]

/-- An ordered comparison is false of a NaN (R392). -/
theorem Num.ordered_lt (x y : Num) : (!(x.isNan || y.isNan) && Num.lt x y) = Num.lt x y := by
  cases h : Num.lt x y with
  | false => rw [Bool.and_false]
  | true => simp [Num.not_nan_of_lt h]

theorem Num.ordered_gt (x y : Num) : (!(x.isNan || y.isNan) && Num.lt y x) = Num.lt y x := by
  rw [Bool.or_comm, Num.ordered_lt]

/-! ### The lesser and the greater of two elements (R388) -/

section
variable {mx : Bool} {f : Fmt} {a b : Nat}

theorem fminElem_of_nans (ha : (Num.decode f a).isNan = true) (hb : (Num.decode f b).isNan = true) :
    (fminElem mx f a b).1 = f.nan := by simp [fminElem, ha, hb]

theorem fminElem_of_nan_left (ha : (Num.decode f a).isNan = true) (hb : (Num.decode f b).isNan = false) :
    (fminElem mx f a b).1 = b := by simp [fminElem, ha, hb]

theorem fminElem_of_nan_right (ha : (Num.decode f a).isNan = false) (hb : (Num.decode f b).isNan = true) :
    (fminElem mx f a b).1 = a := by simp [fminElem, ha, hb]

/-- Of two numbers the first counts as the lesser where it is less, or equal with the one sign that is negative. -/
theorem fminElem_of_numbers (ha : (Num.decode f a).isNan = false) (hb : (Num.decode f b).isNan = false) :
    (fminElem mx f a b).1 = if (Num.lt (Num.decode f a) (Num.decode f b) || (!(Num.lt (Num.decode f b) (Num.decode f a))
      && (Num.decode f a).isNeg && !(Num.decode f b).isNeg)) = mx then b else a := by simp [fminElem, ha, hb]

theorem fminElem_of_lt (h : Num.lt (Num.decode f a) (Num.decode f b) = true) :
    (fminElem mx f a b).1 = if mx then b else a := by
  obtain ⟨ha, hb⟩ := Num.not_nan_of_lt h
  rw [fminElem_of_numbers ha hb, h]
  cases mx <;> rfl

theorem fminElem_of_gt (h : Num.lt (Num.decode f b) (Num.decode f a) = true) :
    (fminElem mx f a b).1 = if mx then a else b := by
  obtain ⟨hb, ha⟩ := Num.not_nan_of_lt h
  rw [fminElem_of_numbers ha hb, h, Num.lt_asymm h]
  cases mx <;> rfl

/-- Of two equal operands of different sign the lesser is the negative one. -/
theorem fminElem_isNeg_of_eq (h : Num.eq (Num.decode f a) (Num.decode f b) = true)
    (hs : (Num.decode f a).isNeg ≠ (Num.decode f b).isNeg) : (Num.decode f (fminElem mx f a b).1).isNeg = !mx := by
  simp only [Num.eq, Bool.and_eq_true, Bool.not_eq_true'] at h
  obtain ⟨⟨⟨ha, hb⟩, hab⟩, hba⟩ := h
  have hn : (Num.decode f b).isNeg = !(Num.decode f a).isNeg := Bool.eq_not_of_ne hs.symm
  have hr : (fminElem mx f a b).1 = if (Num.decode f a).isNeg = mx then b else a := by
    simp [fminElem_of_numbers ha hb, hab, hba, hn]
  rw [hr]
  split
  · next e => rw [hn, e]
  · next e => exact Bool.eq_not_of_ne e

end

/-! ### Operations on types of one element -/

theorem Ty.width_of_single {ty : Ty} (h : ty.count = 1) : ty.width = if ty.is64 then 64 else 32 := by rw [Ty.width, h]

theorem elemNat_zero (ty : Ty) (v : DWord) : elemNat ty v 0 = v.toNat % 2 ^ ty.width := by simp [elemNat, bits]

theorem packElems_single {ty : Ty} (h : ty.count = 1) (f : Nat → Nat) : packElems ty f = BitVec.ofNat 64 (f 0 % 2 ^ ty.width) := by
  simp [packElems, h]

theorem toNat_lowBits_ofNat {ty : Ty} (h : ty.count = 1) (n : Nat) :
    (lowBits ty (BitVec.ofNat 64 (n % 2 ^ ty.width))).toNat = n % 2 ^ ty.width := by
  rw [Ty.width_of_single h]
  cases h64 : ty.is64 with
  | true => simp [lowBits, h64]
  | false =>
    simp [lowBits, h64, loHalf, BitVec.extractLsb'_toNat]
    omega

theorem fltSrc_of_uniform {g : Group} {ty : Ty} {b : Src} (h : ∀ q ∈ srcRegs ty b, (g.reg q).shape = .uniform) (k l : Nat) :
    fltSrc g ty b k = fltSrc g ty b l := by
  cases b with
  | imm32 _ => rfl
  | reg _ => exact Group.src_of_uniform h k l
  | imm10 _ => rfl
  | imm64 _ => rfl

/-- The destination of a two-source float operation on a type of one element, in an active lane. -/
theorem toNat_typed_fltBin {op : Fmt → Nat → Nat → Nat × FpFlags} {o : FltOp} (h1 : o.ty.count = 1) {g : Group} {m : Mask} {l : Nat}
    (hl : l < 32) (hm : m.has l = true) :
    ((g.apply (fltBin op o g m)).typed o.ty o.d l).toNat
      = (op (fmtOf o.ty) ((g.typed o.ty o.a l).toNat % 2 ^ o.ty.width) ((fltSrc g o.ty o.b l).toNat % 2 ^ o.ty.width)).1
          % 2 ^ o.ty.width := by
  rw [Group.typed_apply_active hl hm rfl (g.shapeOf_plain_ne_affine _ m)]
  · simp only [mapElems, packElems_single h1, toNat_lowBits_ofNat h1, elemNat_zero]
  · intro hu k
    beta_reduce
    have hs := Group.uniform_of_shapeOf_plain hu
    rw [Group.typed_of_uniform (fun q hq => hs q (List.mem_append_left _ hq)) k l,
      fltSrc_of_uniform (fun q hq => hs q (List.mem_append_right _ hq)) k l]

theorem single_of_scalar_float {ty : Ty} (h : ty = .f32 ∨ ty = .f64) :
    ty.count = 1 ∧ (fmtOf ty).width = ty.width ∧ (fmtOf ty).nan < 2 ^ ty.width := by
  rcases h with rfl | rfl <;> decide

/-- FMIN and FMAX are issued as the two-source operation on elements that R388 names. -/
theorem minMax_issue {o : FltOp} {i : Instr} {mx : Bool} (h : (i, mx) ∈ [(.fmin o, false), (.fmax o, true)]) :
    registerOp i = some (o.g, fun _ => fltBin (fminElem mx) o)
      ∧ ∀ s, exec i s = issueOp o.g (fun _ => fltBin (fminElem mx) o) s := by
  simp only [List.mem_cons, Prod.mk.injEq, List.not_mem_nil, or_false] at h
  rcases h with ⟨rfl, rfl⟩ | ⟨rfl, rfl⟩ <;> exact ⟨rfl, fun _ => rfl⟩

/-- Settles O11: the destination of FMIN and FMAX is the choice of `fminElem` on the operands' own bits, and FCMP's one result is the
mask of the lanes where its condition is true. -/
theorem floatMinMaxCompare : Obligations.FloatMinMaxCompare := by
  constructor
  · intro o i mx hi hty
    obtain ⟨hr, he⟩ := minMax_issue hi
    obtain ⟨h1, hw, hn⟩ := single_of_scalar_float hty
    refine .of_issueOp hr he fun t g m c l hl hm => ?_
    simp only [Group.typed_advance, toNat_typed_fltBin h1 hl hm]
    generalize (g.typed o.ty o.a l).toNat = a, (fltSrc g o.ty o.b l).toNat = b
    have da := Num.decode_mod hw.le a
    have db := Num.decode_mod hw.le b
    rw [Num.decode_mod hw.le, ← da, ← db]
    refine ⟨fun ha hb => ?_, fun ha hb => ?_, fun ha hb => ?_, fun _ _ => ⟨fun h => ?_, fun h => ?_, fminElem_isNeg_of_eq⟩⟩
    · rw [fminElem_of_nans ha hb, Nat.mod_eq_of_lt hn]
    · rw [fminElem_of_nan_left ha hb, Nat.mod_mod]
    · rw [fminElem_of_nan_right ha hb, Nat.mod_mod]
    · rw [fminElem_of_lt h]
      cases mx <;> exact Nat.mod_mod ..
    · rw [fminElem_of_gt h]
      cases mx <;> exact Nat.mod_mod ..
  · intro o _
    refine .of_preds rfl (fun _ => rfl) (fun _ _ _ => rfl) (fun _ _ _ => rfl) fun g m l => ?_
    beta_reduce
    generalize (g.typed o.ty o.a l).toNat = a, (fltSrc g o.ty o.b l).toNat = b, o.cc.toNat = code
    match code with
    | 0 => simp [fcmpVal, Num.eq]
    | 1 => simp +contextual [fcmpVal, Num.eq]
    | 2 => exact (Num.ordered_lt _ _).symm
    | 4 => exact (Num.ordered_gt _ _).symm
    | 3 | 5 | 6 | _ + 7 => rfl

end Sys2Proof.Machine
end

section
/-! Predicate logic (R436). -/

namespace Sys2Proof.Machine

/-- The bit of PLOP's table that its source predicates select in a lane, read of the group as it stands before the write. -/
def plopVal (o : PlopOp) (g : Group) (l : Nat) : Bool :=
  o.lut.getLsbD ((if (g.pred o.a.toNat).has l then 1 else 0) + 2 * (if (g.pred o.b.toNat).has l then 1 else 0)
    + 4 * (if (g.pred o.c.toNat).has l then 1 else 0))

/-- PLOP's one result is a predicate: the mask of the lanes whose selected bit is set. -/
theorem preds_plopOut (o : PlopOp) (t : Team) (g : Group) (m : Mask) :
    (plopOut o t g m).preds = [(o.d.toNat, Mask.ofPred (plopVal o g))] := rfl

/-- Settles O8: PLOP's one result holds the selected bits, and an operation with one predicate result writes it as R82 says: the
active lanes only, and nothing where the destination is `p7`. -/
theorem predicateLogic : Obligations.PredicateLogic := fun o =>
  .of_preds (v := fun g _ => plopVal o g) rfl (fun _ => rfl) (fun _ _ _ => rfl) (preds_plopOut o) fun _ _ _ => rfl

end Sys2Proof.Machine
end

section
/-! Typed results (R79, R80): what a destination reads as in every live lane, and its shape, after an operation whose one result it
is. -/

namespace Sys2Proof.Machine

/-- A written register reads back the operation's value in the active lanes and the old element in the others: always under a general
shape, under a uniform one where the lane is active and all lanes agree with it. -/
theorem VReg.elem_write {old : VReg} {m : Mask} {q : Nat} {sh : Shape} {f : Nat → Word} {l : Nat} (hl : l < 32)
    (ha : sh ≠ .affine) (hu : sh = .uniform → m.has l = true ∧ ∀ k, k < 32 → f k = f l) :
    (old.write m ⟨q, sh, laneVals f⟩).elem l = if m.has l then f l else old.elem l := by
  cases sh with
  | affine => exact absurd rfl ha
  | general => exact VReg.elem_write_general hl
  | uniform =>
    obtain ⟨hm, agree⟩ := hu rfl
    obtain ⟨k, hk⟩ := lowest_of_has hl hm
    have hk32 := (lowest_mem hk).1
    show (laneVals f).getD (m.lowest.getD 0) 0 = _
    rw [hk, Option.getD_some, laneVals_getD f hk32, agree k hk32, if_pos hm]

@[simp] theorem VReg.shape_write (old : VReg) (m : Mask) (w : RegWrite) : (old.write m w).shape = w.shape := by
  unfold VReg.write
  cases w.shape <;> rfl

/-- The registers after an operation are those that its register results leave. -/
theorem Group.reg_apply_eq_writes (g : Group) (o : Out) (q : Nat) :
    (g.apply o).reg q = (o.regs.foldl (fun g w => g.writeReg o.active w) g).reg q := by
  obtain ⟨x, hx, e⟩ := g.apply_def o
  rw [e]
  exact (congrArg (·.reg q) hx).trans (Group.reg_preds ..)

section
variable {g : Group} {o : Out} {ty : Ty} {d : VR} {sh : Shape} {f : Nat → DWord}

/-- The register that a typed result names holds the low halves. -/
theorem Group.reg_apply_typed (ho : o.regs = typedWrites ty d sh f) (ha : sh ≠ .affine) :
    (g.apply o).reg d.toNat = (g.reg d.toNat).write o.active ⟨d.toNat, sh, laneVals fun l => loHalf (f l)⟩ := by
  rw [Group.reg_apply_eq_writes, ho]
  cases h64 : ty.is64 <;> simp [typedWrites, h64, ha, Group.reg_writeReg]

/-- The second register of a 64-bit result holds the high halves. -/
theorem Group.reg_apply_typed_succ (ho : o.regs = typedWrites ty d sh f) (ha : sh ≠ .affine) (h64 : ty.is64 = true) :
    (g.apply o).reg (d.toNat + 1) = (g.reg (d.toNat + 1)).write o.active ⟨d.toNat + 1, sh, laneVals fun l => hiHalf (f l)⟩ := by
  rw [Group.reg_apply_eq_writes, ho]
  simp [typedWrites, h64, ha, Group.reg_writeReg]

/-- A typed destination after the operation, in an active lane and in another. -/
theorem Group.typed_apply {l : Nat} (hl : l < 32) (ho : o.regs = typedWrites ty d sh f) (ha : sh ≠ .affine)
    (hu : sh = .uniform → o.active.has l = true ∧ ∀ k, k < 32 → f k = f l) :
    (g.apply o).typed ty d l = if o.active.has l then lowBits ty (f l) else g.typed ty d l := by
  have read (half : DWord → Word) (old : VReg) (q : Nat) : (old.write o.active ⟨q, sh, laneVals fun l => half (f l)⟩).elem l
      = if o.active.has l then half (f l) else old.elem l :=
    VReg.elem_write hl ha fun e => ⟨(hu e).1, fun k hk => congrArg half ((hu e).2 k hk)⟩
  cases h64 : ty.is64 with
  | false =>
    simp only [Group.typed, lowBits, h64, Group.elem, Group.reg_apply_typed ho ha, read loHalf]
    cases o.active.has l <;> rfl
  | true =>
    simp only [Group.typed, lowBits, h64, Group.pairElem, Group.elem, Group.reg_apply_typed ho ha,
      Group.reg_apply_typed_succ ho ha h64, read loHalf, read hiHalf]
    cases o.active.has l
    · rfl
    · exact pairOf_halves (f l)

end

/-- An operation whose one result is a typed destination, uniform only where it covers the live lanes with one value, writes it. -/
theorem Writes.of_regs {i : Instr} {gd : Guard} {op : Team → Group → Mask → Out} {ty : Ty} {d : VR} {sh : Group → Mask → Shape}
    {f : Group → Mask → Nat → DWord} (hr : registerOp i = some (gd, op)) (he : ∀ s, exec i s = issueOp gd op s)
    (hm : ∀ t g m, (op t g m).active = m) (ho : ∀ t g m, (op t g m).regs = typedWrites ty d (sh g m) (f g m))
    (ha : ∀ g m, sh g m ≠ .affine) (hu : ∀ g m, sh g m = .uniform → m = g.live ∧ ∀ k l, k < 32 → l < 32 → f g m k = f g m l) :
    Writes i ty d f := by
  refine .of_issueOp hr he fun t g m c l hl hlive => ?_
  rw [Group.typed_advance, Group.typed_apply hl (ho t g m) (ha g m), hm]
  intro e
  obtain ⟨rfl, agree⟩ := hu g m e
  exact ⟨by rw [hm, hlive], fun k hk => agree k l hk hl⟩

/-- The shape of an operation's one typed result is the shape of its destination. -/
theorem Completes.shape_of_regs {i : Instr} {gd : Guard} {op : Team → Group → Mask → Out} {ty : Ty} {d : VR}
    {sh : Group → Mask → Shape} {f : Group → Mask → Nat → DWord} (hr : registerOp i = some (gd, op))
    (he : ∀ s, exec i s = issueOp gd op s) (ho : ∀ t g m, (op t g m).regs = typedWrites ty d (sh g m) (f g m))
    (ha : ∀ g m, sh g m ≠ .affine) : Completes i fun g g' m => (g'.reg d.toNat).shape = sh g m :=
  .of_issueOp hr he fun t g m c => by
    rw [Group.reg_advance, Group.reg_apply_typed (ho t g m) (ha g m), VReg.shape_write]

end Sys2Proof.Machine
end

section
/-! SHFL and LSEND (R466, R420). -/

namespace Sys2Proof.Machine

/-- Each SHFL is issued as the shuffle of its mode, and reads the source lane that R466 gives for that mode. -/
theorem shfl_issue {o : BinOp} {i : Instr} {src : Nat → Nat → Nat → Nat}
    (h : (i, src) ∈ [(.shflIdx o, fun s l b => l - l % s + b % s),
                     (.shflUp o, fun s l b => if l % s ≥ b then l - b else l),
                     (.shflDown o, fun s l b => if l % s + b < s then l + b else l),
                     (.shflXor o, fun s l b => l - l % s + ((l % s) ^^^ (b % s)))]) :
    ∃ mode, registerOp i = some (o.g, shflOut mode o) ∧ (∀ s, exec i s = issueOp o.g (shflOut mode o) s) ∧ src = shflSrc mode := by
  simp only [List.mem_cons, Prod.mk.injEq, List.not_mem_nil, or_false] at h
  obtain ⟨rfl, rfl⟩ | ⟨rfl, rfl⟩ | ⟨rfl, rfl⟩ | ⟨rfl, rfl⟩ := h
  · exact ⟨.idx, rfl, fun _ => rfl, rfl⟩
  · exact ⟨.up, rfl, fun _ => rfl, rfl⟩
  · exact ⟨.down, rfl, fun _ => rfl, rfl⟩
  · exact ⟨.xor, rfl, fun _ => rfl, rfl⟩

/-! ### The sender that a lane of LSEND receives from -/

/-- The active lanes that send to lane `l`, ascending. -/
def lsendSenders (g : Group) (b : Src) (m : Mask) (l : Nat) : List Nat := m.lanes.filter fun k => lsendTarget g b k == l

theorem mem_lsendSenders {g : Group} {b : Src} {m : Mask} {l k : Nat} :
    k ∈ lsendSenders g b m l ↔ k < 32 ∧ m.has k = true ∧ lsendTarget g b k = l := by
  simp [lsendSenders, mem_lanes, and_assoc]

theorem lsendSenders_sorted (g : Group) (b : Src) (m : Mask) (l : Nat) : (lsendSenders g b m l).Pairwise (· ≤ ·) :=
  (List.pairwise_le_range.filter _).filter _

/-- The last element of an ascending list is the one that no other passes. -/
theorem getLast?_eq_some_of_max {ks : List Nat} (hs : ks.Pairwise (· ≤ ·)) {k : Nat} (hk : k ∈ ks) (hmax : ∀ j ∈ ks, j ≤ k) :
    ks.getLast? = some k := by
  have hne : ks ≠ [] := List.ne_nil_of_mem hk
  rw [List.getLast?_eq_some_getLast hne, Nat.le_antisymm (hmax _ (List.getLast_mem hne)) (hs.rel_getLast hk)]

/-- What LSEND writes to a lane: the last sender's value, and the lane's own where there is none. -/
def lsendVal (o : BinOp) (g : Group) (m : Mask) (l : Nat) : DWord :=
  match (lsendSenders g o.b m l).getLast? with
  | some k => g.typed o.ty o.a k
  | none => g.typed o.ty o.d l

theorem regs_lsendOut (o : BinOp) (t : Team) (g : Group) (m : Mask) :
    (lsendOut o t g m).regs = typedWrites o.ty o.d .general (lsendVal o g m) := rfl

section
variable {o : BinOp} {g : Group} {m : Mask} {l : Nat}

theorem lsendVal_of_highest {k : Nat} (hk : k ∈ lsendSenders g o.b m l) (hmax : ∀ j ∈ lsendSenders g o.b m l, j ≤ k) :
    lsendVal o g m l = g.typed o.ty o.a k := by
  rw [lsendVal, getLast?_eq_some_of_max (lsendSenders_sorted ..) hk hmax]

theorem lsendVal_of_none (h : ∀ k, k ∉ lsendSenders g o.b m l) : lsendVal o g m l = g.typed o.ty o.d l := by
  rw [lsendVal, List.eq_nil_iff_forall_not_mem.mpr h, List.getLast?_nil]

end

/-- Settles O13: both operations write a general result, SHFL the source lane's value whether that lane is active or not, and LSEND
that of the last of the active lanes that send to a lane. -/
theorem laneMoves : Obligations.LaneMoves := by
  constructor
  · intro o i src hi
    obtain ⟨mode, hr, he, rfl⟩ := shfl_issue hi
    exact ⟨.of_regs hr he (fun _ _ _ => rfl) (fun _ _ _ => rfl) (sh := fun _ _ => .general) (fun _ _ => nofun) (fun _ _ => nofun),
      .shape_of_regs hr he (fun _ _ _ => rfl) (sh := fun _ _ => .general) (fun _ _ => nofun)⟩
  · refine fun o => .of_issueOp rfl (fun _ => rfl) fun t g m c l hl hm => ?_
    have written : (g.apply (lsendOut o t g m)).typed o.ty o.d l = lowBits o.ty (lsendVal o g m l) := by
      rw [Group.typed_apply hl (regs_lsendOut o t g m) nofun nofun]
      exact if_pos hm
    rw [Group.typed_advance, written]
    refine ⟨fun k hk names highest => ?_, fun unnamed => ?_⟩
    · rw [lsendVal_of_highest (mem_lsendSenders.mpr ⟨hk, names⟩)]
      intro j hj
      obtain ⟨hj32, sends⟩ := mem_lsendSenders.mp hj
      exact highest j hj32 sends
    · rw [lsendVal_of_none]
      intro k hk
      obtain ⟨hk32, sends⟩ := mem_lsendSenders.mp hk
      exact unnamed k hk32 sends

end Sys2Proof.Machine
end

section
/-! VOTE (R484). -/

namespace Sys2Proof.Machine

/-! ### Lane tiles (R74) -/

/-- Two lanes are in one tile where they agree above the lane partition. -/
theorem Group.tileBase_eq_iff (g : Group) (k l : Nat) : g.tileBase k = g.tileBase l ↔ k / 2 ^ g.lpart.toNat = l / 2 ^ g.lpart.toNat := by
  have base (n : Nat) : g.tileBase n = n / g.tile * g.tile := Nat.sub_eq_of_eq_add (Nat.div_add_mod' n g.tile).symm
  rw [base, base]
  exact Nat.mul_left_inj (Nat.two_pow_pos _).ne'

/-- The active lanes of a lane's tile. -/
def Group.tileMask (g : Group) (m : Mask) (l : Nat) : Mask :=
  Mask.ofPred fun k => m.has k && k / 2 ^ g.lpart.toNat == l / 2 ^ g.lpart.toNat

theorem voteMasks_eq (g : Group) (m : Mask) (p l : Nat) : voteMasks g m p l = (g.pred p &&& g.tileMask m l, g.tileMask m l) := by
  have same (k : Nat) : (g.tileBase k == g.tileBase l) = (k / 2 ^ g.lpart.toNat == l / 2 ^ g.lpart.toNat) :=
    Bool.eq_iff_iff.mpr (by simpa using g.tileBase_eq_iff k l)
  simp only [voteMasks, Group.tileMask, same]

/-- A partition of 32 lanes is one tile. -/
theorem Group.tileMask_of_whole {g : Group} (h : g.lpart = 5) (m : Mask) {k l : Nat} (hk : k < 32) (hl : l < 32) :
    g.tileMask m k = g.tileMask m l := by
  have first {n : Nat} (hn : n < 32) : n / 2 ^ g.lpart.toNat = 0 := Nat.div_eq_of_lt (by rw [h]; exact hn)
  rw [Group.tileMask, Group.tileMask, first hk, first hl]

/-! ### Votes into a predicate -/

/-- A vote of one mode over the active lanes `a` of a tile, of which `v` hold the bit. -/
def voteBit (mode : VoteMode) (v a : Mask) : Bool :=
  match mode with
  | .any => v != 0
  | .all => v == a
  | .uni => v == 0 || v == a

theorem preds_voteOut (mode : VoteMode) (o : VoteOp) (t : Team) (g : Group) (m : Mask) :
    (voteOut mode o t g m).preds
      = [(o.p.toNat, Mask.ofPred fun l => voteBit mode (g.pred o.a.toNat &&& g.tileMask m l) (g.tileMask m l))] := by
  cases mode <;> simp only [voteOut, voteMasks_eq, voteBit]

/-- Each VOTE into a predicate is issued as the vote of its mode. -/
theorem vote_issue {o : VoteOp} {i : Instr} {f : Mask → Mask → Bool}
    (h : (i, f) ∈ [(.voteAny o, fun v _ => v != 0), (.voteAll o, fun v a => v == a), (.voteUni o, fun v a => v == 0 || v == a)]) :
    ∃ mode, registerOp i = some (o.g, voteOut mode o) ∧ (∀ s, exec i s = issueOp o.g (voteOut mode o) s) ∧ f = voteBit mode := by
  simp only [List.mem_cons, Prod.mk.injEq, List.not_mem_nil, or_false] at h
  obtain ⟨rfl, rfl⟩ | ⟨rfl, rfl⟩ | ⟨rfl, rfl⟩ := h
  · exact ⟨.any, rfl, fun _ => rfl, rfl⟩
  · exact ⟨.all, rfl, fun _ => rfl, rfl⟩
  · exact ⟨.uni, rfl, fun _ => rfl, rfl⟩

/-! ### The ballot -/

/-- R80's rule for a result of no source register: uniform where the write covers a group that is one tile. -/
theorem Group.shapeOf_wholeTile (g : Group) (m : Mask) :
    g.shapeOf .wholeTile [] m = if m = g.live ∧ g.lpart = 5 then .uniform else .general := by
  by_cases hm : m = g.live <;> simp [Group.shapeOf, hm]

theorem Group.shapeOf_wholeTile_ne_affine (g : Group) (m : Mask) : g.shapeOf .wholeTile [] m ≠ .affine := by
  rw [Group.shapeOf_wholeTile]
  split <;> decide

/-- The set of the active lanes of a lane's tile that hold the bit. -/
def ballotVal (o : BallotOp) (g : Group) (m : Mask) (l : Nat) : DWord := (g.pred o.a.toNat &&& g.tileMask m l).setWidth 64

theorem loHalf_setWidth (x : Word) : loHalf (x.setWidth 64) = x := by
  rw [loHalf, ← BitVec.setWidth_eq_extractLsb' (by decide), BitVec.setWidth_setWidth_of_le _ (by decide), BitVec.setWidth_eq]

/-- A result of one word is the typed result of its zero extension. -/
theorem wordWrite_eq_typedWrites (d : VR) (sh : Shape) (f : Nat → Word) :
    wordWrite d sh f = typedWrites .b32 d sh fun l => (f l).setWidth 64 := by
  have h32 : Ty.b32.is64 = false := rfl
  simp only [wordWrite, typedWrites, h32, loHalf_setWidth, Bool.false_eq_true, if_false]

theorem regs_ballotOut (o : BallotOp) (t : Team) (g : Group) (m : Mask) :
    (ballotOut o t g m).regs = typedWrites .b32 o.d (g.shapeOf .wholeTile [] m) (ballotVal o g m) := by
  simp only [ballotOut, wordWrite_eq_typedWrites, voteMasks_eq]
  rfl

/-- A uniform ballot covers every live lane with one value. -/
theorem ballotVal_of_uniform {o : BallotOp} {g : Group} {m : Mask} (h : g.shapeOf .wholeTile [] m = .uniform) :
    m = g.live ∧ ∀ k l, k < 32 → l < 32 → ballotVal o g m k = ballotVal o g m l := by
  rw [Group.shapeOf_wholeTile] at h
  split at h
  · next hc =>
    obtain ⟨hm, whole⟩ := hc
    exact ⟨hm, fun k l hk hl => by rw [ballotVal, ballotVal, Group.tileMask_of_whole whole m hk hl]⟩
  · cases h

/-- Settles O14: a vote's one result is the mask of the lanes whose tile votes so, and the ballot's that of the tile itself. -/
theorem votes : Obligations.Votes := by
  refine ⟨fun o i f hi => ?predicate, fun o => ?ballot, fun o => ?shape⟩
  case predicate =>
    obtain ⟨mode, hr, he, rfl⟩ := vote_issue hi
    exact .of_preds hr he (fun _ _ _ => rfl) (preds_voteOut mode o) fun _ _ _ => rfl
  case ballot =>
    exact .of_regs rfl (fun _ => rfl) (fun _ _ _ => rfl) (regs_ballotOut o) Group.shapeOf_wholeTile_ne_affine
      fun _ _ => ballotVal_of_uniform
  case shape =>
    simp only [← Group.shapeOf_wholeTile]
    exact .shape_of_regs rfl (fun _ => rfl) (regs_ballotOut o) Group.shapeOf_wholeTile_ne_affine

end Sys2Proof.Machine
end
